-- ==== Sys2Proof/Word.lean ====
section
/-! DEFINITION. The byte (R64): eight bits, bit 7 the most significant (R8). -/

namespace Sys2Proof

/-- R64: a byte is 8 bits everywhere. -/
abbrev Byte := BitVec 8

end Sys2Proof
end

