-- ==== Sys2Proof/Config.lean ====
section
/-! DEFINITION. The fixed parameters of 00_scope.md R6, and the free values of the model. The OPEN
parameters of R6 (MAX_WIDTH, DICT_CAP, io_fault) are arguments of a call and stand in State.env. -/

namespace Sys2Proof.Config

/-- R6 `N_BYTE_SYMBOLS`, R6 `N_LITERALS`: byte-valued symbols, and literal codes, are 0..255. -/
def nLiterals : Nat := 256

/-- R6 `N_SYMBOLS`: 256 byte values and EOS. -/
def nSymbols : Nat := 257

/-- R6 `EOS_VALUE`. -/
def eosValue : Nat := 256

/-- R6 `NODE_CAP`: the most nodes a Huffman tree can have. -/
def nodeCap : Nat := 513

/-- R32, R41: LIST has 257 entries. -/
def listCap : Nat := 257

/-- R35: HSTK holds at most `MAX_CODE_LEN + 1` arena indices. -/
def hstkCap : Nat := 257

/-- R6 `MAX_CODE_LEN`. -/
def maxCodeLen : Nat := 256

/-- R6 `INIT_WIDTH`. -/
def initWidth : Nat := 9

/-- R6 `IN_LEN_MAX`. -/
def inLenMax : Nat := 2 ^ 64 - 2

/-- R6 `MAX_WIDTH`: the default of the parameter, which is also the widest code the registers hold (R235). -/
def maxWidthDefault : Nat := 64

/-- R6 `DICT_CAP`: the default of the parameter at the default `MAX_WIDTH`. -/
def dictCapDefault : Nat := 2 ^ 64 - 257

/-- R6 `TAG_HUFFMAN`. -/
def tagHuffman : Byte := 0

/-- R6 `TAG_LZW`. -/
def tagLzw : Byte := 1

/-- DESIGN CHOICE (log entry 12): the free value of a 10-bit arena index register that R44 leaves
unspecified at call start. Nothing constrains it beyond its width. -/
opaque freeNode : Nat → BitVec 10

/-- DESIGN CHOICE (log entry 12): the free value of a code register that R44 leaves unspecified at
call start. Nothing constrains it beyond its width. -/
opaque freeCode : Nat → BitVec 64

end Sys2Proof.Config
end

