-- ==== Sys2Proof/Syntax.lean ====
section
/-! DEFINITION. The operations of the block: one constructor for each row of spec/opcode_table.json, in
the table's order (30_encoding.md R90, R109). Operands are those the operation's rule lists. -/

namespace Sys2Proof

/-- The operations, formats F-CMD, F-CONT, F-HNODE, F-HCODE, F-LCODE and F-UOP of R90. -/
inductive Instr where
  /-- COMPRESS, F-CMD with `OP = 0x01`; `method` is `METHOD` (R91, R226). -/
  | compress (method : Byte)
  /-- DECOMPRESS, F-CMD with `OP = 0x02`; `METHOD` is ignored but stands in the word (R91, R229). -/
  | decompress (method : Byte)
  /-- CMD.RESERVED, F-CMD with any other `OP` (R92). -/
  | cmdReserved (method op : Byte)
  /-- TAG.HUFFMAN, the container's byte `0x00` (R95). -/
  | tagHuffman
  /-- TAG.LZW, the container's byte `0x01` (R95). -/
  | tagLzw
  /-- TAG.RESERVED, any other tag byte (R104). -/
  | tagReserved (tag : Byte)
  /-- HNODE.LEAF, bit 1 and a 16-bit symbol field (R97, R98). -/
  | hnodeLeaf (sym : BitVec 16)
  /-- HNODE.INTERNAL, bit 0 (R97). -/
  | hnodeInternal
  /-- HCODE, the bits of one Huffman code, root end first (R99). -/
  | hcode (path : List Bool)
  /-- LCODE, one LZW code of `width` bits (R101). -/
  | lcode (width code : Nat)
  /-- R120 -/
  | bcOpenW
  /-- R121 -/
  | bcOpenR
  /-- R122 -/
  | bcPutBit (b : Bool)
  /-- R123 -/
  | bcPutNBytes (bytes : List Byte)
  /-- R124 -/
  | bcClose
  /-- R125 -/
  | bcGetBit
  /-- R127 -/
  | bcGetNBytes (n : Nat)
  /-- R128 -/
  | bcPutBits (v n : Nat)
  /-- R129 -/
  | bcEof
  /-- R130 -/
  | bcGetBits (n : Nat)
  /-- R140 -/
  | heFreq
  /-- R142: `t` an arena index (R32), `w` a weight. -/
  | heInsert (t w : Nat)
  /-- R143 -/
  | heLeaves
  /-- R144 -/
  | heCombine
  /-- R145 -/
  | heBuild
  /-- R152: `t` an arena index. -/
  | heSer (t : Nat)
  /-- R154 -/
  | heTable
  /-- R158 -/
  | heRewind
  /-- R159 -/
  | heEncode
  /-- R160 -/
  | heCompress
  /-- R170 -/
  | hdDeser
  /-- R173 -/
  | hdSymbol
  /-- R175 -/
  | hdDecompress
  /-- R186 -/
  | leInit
  /-- R187 -/
  | leStep (b : Byte)
  /-- R188 -/
  | leEmit (c : Nat)
  /-- R189 -/
  | leInsert (p : Nat) (b : Byte)
  /-- R190 -/
  | leGrow (n : Nat)
  /-- R192 -/
  | leFinish
  /-- R194 -/
  | leCompress
  /-- R206 -/
  | ldInit
  /-- R207 -/
  | ldReadCode
  /-- R209 -/
  | ldFirst (c : Nat)
  /-- R210 -/
  | ldExpand (c : Nat)
  /-- R211 -/
  | ldGrow (n : Nat)
  /-- R213 -/
  | ldStep
  /-- R216 -/
  | ldFlush
  /-- R217 -/
  | ldDecompress
deriving DecidableEq, Repr

end Sys2Proof
end

