-- ==== Sys2Proof/WellFormed.lean ====
section
/-! DEFINITION. Which instruction terms stand for something a format can hold: the ranges the rules and
the table's operand columns give. -/

namespace Sys2Proof

/-- An operand that fits the 64-bit code and count fields (R6 `W_COUNT`, `MAX_WIDTH`). -/
def fits64 (n : Nat) : Bool := n < 2 ^ 64

/-- The operand ranges of every row; an instruction with no range to meet is well formed. -/
def Instr.wellFormed : Instr → Bool
  | .compress _ => true
  | .decompress _ => true
  -- R92: every OP but 0x01 and 0x02
  | .cmdReserved _ op => op != 1 && op != 2
  | .tagHuffman => true
  | .tagLzw => true
  -- R104: 0x02..0xFF
  | .tagReserved tag => tag != 0 && tag != 1
  -- R105: the field holds any 16 bits; illegal values are for the reader to reject
  | .hnodeLeaf _ => true
  | .hnodeInternal => true
  -- R99: 0 to 256 bits
  | .hcode path => path.length ≤ Config.maxCodeLen
  -- R101: 9 to MAX_WIDTH bits, and the value fits them
  | .lcode width code => Config.initWidth ≤ width && width ≤ Config.maxWidthDefault && code < 2 ^ width
  | .bcOpenW => true
  | .bcOpenR => true
  | .bcPutBit _ => true
  -- R123: a list of any length
  | .bcPutNBytes _ => true
  | .bcClose => true
  | .bcGetBit => true
  -- R127; no IN holds as many as 2^64 bytes (R6 `IN_LEN_MAX`)
  | .bcGetNBytes n => fits64 n
  -- R128: 0 <= n <= MAX_WIDTH, v < 2^n
  | .bcPutBits v n => n ≤ Config.maxWidthDefault && v < 2 ^ n
  | .bcEof => true
  -- R130
  | .bcGetBits n => n ≤ Config.maxWidthDefault
  | .heFreq => true
  -- R31, R32: an arena index and a W_COUNT-bit weight
  | .heInsert t w => t < Config.nodeCap && fits64 w
  | .heLeaves => true
  | .heCombine => true
  | .heBuild => true
  | .heSer t => t < Config.nodeCap
  | .heTable => true
  | .heRewind => true
  | .heEncode => true
  | .heCompress => true
  | .hdDeser => true
  | .hdSymbol => true
  | .hdDecompress => true
  | .leInit => true
  | .leStep _ => true
  | .leEmit c => fits64 c
  | .leInsert p _ => fits64 p
  | .leGrow n => fits64 n
  | .leFinish => true
  | .leCompress => true
  | .ldInit => true
  | .ldReadCode => true
  | .ldFirst c => fits64 c
  | .ldExpand c => fits64 c
  | .ldGrow n => fits64 n
  | .ldStep => true
  | .ldFlush => true
  | .ldDecompress => true

end Sys2Proof
end

