-- ==== Sys2Proof/Decode.lean ====
section
/-! DEFINITION. The formats of 30_encoding.md R90 as they are put before the block, the decoder (total,
rejecting by name) and the encoder, each written from the format's own rule. -/

namespace Sys2Proof

/-- One item in its wire form, by format (R90). -/
inductive Encoded where
  /-- F-CMD: the word written to CMD (R91). -/
  | cmdWord (w : BitVec 16)
  /-- F-CONT: the container's byte 0 (R94, R95). -/
  | tagByte (t : Byte)
  /-- F-HNODE: the bits of one serialised node, first bit first (R97). -/
  | nodeBits (bits : List Bool)
  /-- F-HCODE: the bits of one Huffman code, root end first (R99). -/
  | codeBits (bits : List Bool)
  /-- F-LCODE: the bits of one LZW code, most significant first (R101). -/
  | lzwBits (bits : List Bool)
  /-- F-UOP: the operation's id (R109), then its operand bytes (log entry 3). -/
  | uop (bytes : List Byte)
deriving DecidableEq, Repr

/-- Why bits are no instruction. -/
inductive DecodeError where
  /-- a byte that is no operation id of R109 -/
  | unknownUop
  /-- an operation without all of its operand bytes, or without an id -/
  | truncatedUop
  /-- node bits that are neither `0` nor `1` and sixteen more (R97) -/
  | badNodeBits
  /-- an operand outside the range its rule gives it -/
  | operandRange
deriving DecidableEq, Repr

/-- The decoder's answer. -/
inductive Decoded where
  | ok (i : Instr)
  | reject (why : DecodeError)
deriving DecidableEq, Repr

/-- The formats' names (R90). -/
inductive Format where
  | cmd | cont | hnode | hcode | lcode | uop
deriving DecidableEq, Repr

/-- The number a bit string stands for, first bit most significant (R67, R101). -/
def natOfBits (bits : List Bool) : Nat := bits.foldl (fun a b => 2 * a + b.toNat) 0

/-- The `n` low bits of `v`, most significant first (R67). -/
def bitsOfNat : Nat → Nat → List Bool
  | 0, _ => []
  | n + 1, v => v.testBit n :: bitsOfNat n v

/-- The number a byte string stands for, first byte most significant (R66). -/
def natOfBytes (bytes : List Byte) : Nat := bytes.foldl (fun a b => 256 * a + b.toNat) 0

/-- The `n` low bytes of `v`, most significant first (R66). -/
def bytesOfNat : Nat → Nat → List Byte
  | 0, _ => []
  | n + 1, v => BitVec.ofNat 8 (v >>> (8 * n)) :: bytesOfNat n v

/-- An operand of `n` bytes at the front of `ops`, and the bytes after it. -/
def operand (n : Nat) (ops : List Byte) : Option (Nat × List Byte) :=
  if ops.length < n then none else some (natOfBytes (ops.take n), ops.drop n)

/-- One operand of `n` bytes, given to `mk`. -/
def withOperand (n : Nat) (ops : List Byte) (mk : Nat → Instr) : Decoded :=
  match operand n ops with
  | some (v, _) => .ok (mk v)
  | none => .reject .truncatedUop

/-- Two operands of `n` and `m` bytes, given to `mk`. -/
def withOperands (n m : Nat) (ops : List Byte) (mk : Nat → Nat → Instr) : Decoded :=
  match operand n ops with
  | some (v, rest) => withOperand m rest (mk v)
  | none => .reject .truncatedUop

/-- BC.PUTBIT's operand: one byte, 0 or 1. -/
def decodePutBit (ops : List Byte) : Decoded :=
  match operand 1 ops with
  | some (0, _) => .ok (.bcPutBit false)
  | some (1, _) => .ok (.bcPutBit true)
  | some _ => .reject .operandRange
  | none => .reject .truncatedUop

/-- F-UOP: the operation an id names (R109), with its operand bytes. -/
def decodeUop (id : Byte) (ops : List Byte) : Decoded :=
  match id.toNat with
  | 0x10 => .ok .bcOpenW
  | 0x11 => .ok .bcOpenR
  | 0x12 => decodePutBit ops
  -- R123: any list of bytes, all that stand after the id (log entry 3)
  | 0x13 => .ok (.bcPutNBytes ops)
  | 0x14 => .ok .bcClose
  | 0x15 => .ok .bcGetBit
  | 0x16 => withOperand 8 ops .bcGetNBytes
  | 0x17 => withOperands 8 1 ops .bcPutBits
  | 0x18 => .ok .bcEof
  | 0x19 => withOperand 1 ops .bcGetBits
  | 0x20 => .ok .heFreq
  | 0x21 => withOperands 2 8 ops .heInsert
  | 0x22 => .ok .heLeaves
  | 0x23 => .ok .heCombine
  | 0x24 => .ok .heBuild
  | 0x25 => withOperand 2 ops .heSer
  | 0x26 => .ok .heTable
  | 0x27 => .ok .heRewind
  | 0x28 => .ok .heEncode
  | 0x29 => .ok .heCompress
  | 0x30 => .ok .hdDeser
  | 0x31 => .ok .hdSymbol
  | 0x32 => .ok .hdDecompress
  | 0x40 => .ok .leInit
  | 0x41 => withOperand 1 ops fun b => .leStep (BitVec.ofNat 8 b)
  | 0x42 => withOperand 8 ops .leEmit
  | 0x43 => withOperands 8 1 ops fun p b => .leInsert p (BitVec.ofNat 8 b)
  | 0x44 => withOperand 8 ops .leGrow
  | 0x45 => .ok .leFinish
  | 0x46 => .ok .leCompress
  | 0x50 => .ok .ldInit
  | 0x51 => .ok .ldReadCode
  | 0x52 => withOperand 8 ops .ldFirst
  | 0x53 => withOperand 8 ops .ldExpand
  | 0x54 => withOperand 8 ops .ldGrow
  | 0x55 => .ok .ldStep
  | 0x56 => .ok .ldFlush
  | 0x57 => .ok .ldDecompress
  -- R109 names the two commands too: their operand byte is METHOD (log entry 3)
  | 0x60 => withOperand 1 ops fun m => .compress (BitVec.ofNat 8 m)
  | 0x61 => withOperand 1 ops fun m => .decompress (BitVec.ofNat 8 m)
  | _ => .reject .unknownUop

/-- F-CMD: `OP` is bits 7:0, `METHOD` bits 15:8 (R91); every other `OP` is reserved (R92). -/
def decodeCmd (w : BitVec 16) : Decoded :=
  let method := w.extractLsb' 8 8
  let op := w.extractLsb' 0 8
  if op = 1 then .ok (.compress method)
  else if op = 2 then .ok (.decompress method)
  else .ok (.cmdReserved method op)

/-- F-CONT: the tag byte (R95), every other value reserved (R104). -/
def decodeTag (t : Byte) : Decoded :=
  if t = Config.tagHuffman then .ok .tagHuffman
  else if t = Config.tagLzw then .ok .tagLzw
  else .ok (.tagReserved t)

/-- F-HNODE: `0`, or `1 s15 ... s0` (R97). -/
def decodeNode (bits : List Bool) : Decoded :=
  match bits with
  | [false] => .ok .hnodeInternal
  | true :: sym => if sym.length = 16 then .ok (.hnodeLeaf (BitVec.ofNat 16 (natOfBits sym))) else .reject .badNodeBits
  | _ => .reject .badNodeBits

/-- The format's own reading, before operand ranges are looked at. -/
def decodeRaw : Encoded → Decoded
  | .cmdWord w => decodeCmd w
  | .tagByte t => decodeTag t
  | .nodeBits bits => decodeNode bits
  | .codeBits bits => .ok (.hcode bits)
  | .lzwBits bits => .ok (.lcode bits.length (natOfBits bits))
  | .uop [] => .reject .truncatedUop
  | .uop (id :: ops) => decodeUop id ops

/-- The decoder: what an item of a format stands for. -/
def decode (e : Encoded) : Decoded :=
  match decodeRaw e with
  | .ok i => if i.wellFormed then .ok i else .reject .operandRange
  | .reject why => .reject why

/-- F-CMD's word from its two fields (R91). -/
def cmdWordOf (method op : Byte) : BitVec 16 := method ++ op

/-- The 17 bits of a leaf (R97, R98). -/
def leafBits (sym : BitVec 16) : List Bool := true :: bitsOfNat 16 sym.toNat

/-- The encoder: the item that stands for an instruction. -/
def encode : Instr → Encoded
  | .compress m => .cmdWord (cmdWordOf m 0x01)
  | .decompress m => .cmdWord (cmdWordOf m 0x02)
  | .cmdReserved m op => .cmdWord (cmdWordOf m op)
  | .tagHuffman => .tagByte Config.tagHuffman
  | .tagLzw => .tagByte Config.tagLzw
  | .tagReserved t => .tagByte t
  | .hnodeLeaf sym => .nodeBits (leafBits sym)
  | .hnodeInternal => .nodeBits [false]
  | .hcode path => .codeBits path
  | .lcode w c => .lzwBits (bitsOfNat w c)
  | .bcOpenW => .uop [0x10]
  | .bcOpenR => .uop [0x11]
  | .bcPutBit b => .uop [0x12, if b then 1 else 0]
  | .bcPutNBytes bytes => .uop (0x13 :: bytes)
  | .bcClose => .uop [0x14]
  | .bcGetBit => .uop [0x15]
  | .bcGetNBytes n => .uop (0x16 :: bytesOfNat 8 n)
  | .bcPutBits v n => .uop (0x17 :: (bytesOfNat 8 v ++ bytesOfNat 1 n))
  | .bcEof => .uop [0x18]
  | .bcGetBits n => .uop (0x19 :: bytesOfNat 1 n)
  | .heFreq => .uop [0x20]
  | .heInsert t w => .uop (0x21 :: (bytesOfNat 2 t ++ bytesOfNat 8 w))
  | .heLeaves => .uop [0x22]
  | .heCombine => .uop [0x23]
  | .heBuild => .uop [0x24]
  | .heSer t => .uop (0x25 :: bytesOfNat 2 t)
  | .heTable => .uop [0x26]
  | .heRewind => .uop [0x27]
  | .heEncode => .uop [0x28]
  | .heCompress => .uop [0x29]
  | .hdDeser => .uop [0x30]
  | .hdSymbol => .uop [0x31]
  | .hdDecompress => .uop [0x32]
  | .leInit => .uop [0x40]
  | .leStep b => .uop [0x41, b]
  | .leEmit c => .uop (0x42 :: bytesOfNat 8 c)
  | .leInsert p b => .uop (0x43 :: (bytesOfNat 8 p ++ [b]))
  | .leGrow n => .uop (0x44 :: bytesOfNat 8 n)
  | .leFinish => .uop [0x45]
  | .leCompress => .uop [0x46]
  | .ldInit => .uop [0x50]
  | .ldReadCode => .uop [0x51]
  | .ldFirst c => .uop (0x52 :: bytesOfNat 8 c)
  | .ldExpand c => .uop (0x53 :: bytesOfNat 8 c)
  | .ldGrow n => .uop (0x54 :: bytesOfNat 8 n)
  | .ldStep => .uop [0x55]
  | .ldFlush => .uop [0x56]
  | .ldDecompress => .uop [0x57]

/-- The format an instruction is encoded in (the table's `format` column). -/
def Instr.format : Instr → Format
  | .compress _ | .decompress _ | .cmdReserved _ _ => .cmd
  | .tagHuffman | .tagLzw | .tagReserved _ => .cont
  | .hnodeLeaf _ | .hnodeInternal => .hnode
  | .hcode _ => .hcode
  | .lcode _ _ => .lcode
  | .bcOpenW | .bcOpenR | .bcPutBit _ | .bcPutNBytes _ | .bcClose | .bcGetBit | .bcGetNBytes _ => .uop
  | .bcPutBits _ _ | .bcEof | .bcGetBits _ => .uop
  | .heFreq | .heInsert _ _ | .heLeaves | .heCombine | .heBuild | .heSer _ | .heTable | .heRewind => .uop
  | .heEncode | .heCompress | .hdDeser | .hdSymbol | .hdDecompress => .uop
  | .leInit | .leStep _ | .leEmit _ | .leInsert _ _ | .leGrow _ | .leFinish | .leCompress => .uop
  | .ldInit | .ldReadCode | .ldFirst _ | .ldExpand _ | .ldGrow _ | .ldStep | .ldFlush | .ldDecompress => .uop

/-- The format of an item. -/
def Encoded.format : Encoded → Format
  | .cmdWord _ => .cmd
  | .tagByte _ => .cont
  | .nodeBits _ => .hnode
  | .codeBits _ => .hcode
  | .lzwBits _ => .lcode
  | .uop _ => .uop

/-- Is this byte an operation id of R109? -/
def isUopId (id : Byte) : Bool :=
  match decodeUop id (List.replicate 16 0) with
  | .ok _ => true
  | .reject _ => false

/-- A row's word of spec/opcode_table.json as an item (log entry 4): 16 bits are a command word; 17 or
24 bits a leaf; 8 bits are an operation id where R109 has one (with operand bytes of zeros after it) and a
tag byte elsewhere; one bit is the internal node mark; longer words are an operation with its operands. -/
def tableWord (nbits w : Nat) : Encoded :=
  if nbits = 16 then .cmdWord (BitVec.ofNat 16 w)
  else if nbits = 17 || nbits = 24 then .nodeBits (bitsOfNat 17 w)
  else if nbits = 1 then .nodeBits [w.testBit 0]
  else if nbits = 8 then
    if isUopId (BitVec.ofNat 8 w) then .uop (BitVec.ofNat 8 w :: List.replicate 16 0) else .tagByte (BitVec.ofNat 8 w)
  else .uop ((List.range (nbits / 8)).map (fun k => BitVec.ofNat 8 (w >>> (8 * k))) ++ List.replicate 16 0)

/-- The instruction the decoder reads from a row's word. -/
def decodeTableWord (nbits w : Nat) : Option Instr :=
  match decode (tableWord nbits w) with
  | .ok i => some i
  | .reject _ => none

end Sys2Proof
end

