-- ==== Sys2Proof/Machine/Memory.lean ====
section
/-! DEFINITION. The private memories of 20_memory.md R63 as sparse lists of (key, entry) pairs in one
canonical form, keys strictly rising, so that equal memories are equal data. An entry that is not listed
is one nothing has written since the memory was emptied. -/

namespace Sys2Proof.Machine

/-- A keyed memory. The external byte streams are not of this type: they are dense lists (log entry 19). -/
abbrev Memory (α : Type) := List (Nat × α)

/-- Every key of the list lies above `lo`, and the keys rise strictly. -/
def Memory.risesFrom {α : Type} : Nat → Memory α → Bool
  | _, [] => true
  | lo, (k, _) :: m => lo ≤ k && Memory.risesFrom (k + 1) m

/-- The canonical form: keys strictly rising. -/
def Memory.wf {α : Type} (m : Memory α) : Bool := Memory.risesFrom 0 m

/-- R63, R76: one whole entry, the latest written; `none` where nothing has written. -/
def Memory.read {α : Type} (m : Memory α) (k : Nat) : Option α :=
  match m with
  | [] => none
  | (j, v) :: rest => if j = k then some v else Memory.read rest k

/-- R63: write one whole entry. -/
def Memory.write {α : Type} (m : Memory α) (k : Nat) (v : α) : Memory α :=
  match m with
  | [] => [(k, v)]
  | (j, u) :: rest =>
    if j < k then (j, u) :: Memory.write rest k v
    else if j = k then (k, v) :: rest
    else (k, v) :: (j, u) :: rest

end Sys2Proof.Machine
end

