-- ==== Sys2Proof/Machine/State.lean ====
section
/-! DEFINITION. The architectural state of 10_state.md, the reasons a step can stop, and the state after
hardware reset (R44, first column). Every field is plain data. -/

namespace Sys2Proof.Machine

/-- STATUS (R22): two bits, four values. -/
inductive Status where
  | idle | busy | done | failed
deriving DecidableEq, Repr

/-- PHASE (R23): four bits; the values 12 to 15 are never written (log entry 24). -/
inductive Phase where
  | idle | tag | hFreq | hBuild | hSer | hTable | hEnc | hDeser | hWalk | lEnc | lDec | close
deriving DecidableEq, Repr

/-- The four error kinds (R240). ERR holds one of them or NONE (R24). -/
inductive ErrKind where
  | unknownAlgorithm | corruptStream | codeSpaceExhausted | ioFailure
deriving DecidableEq, Repr

/-- The host interface registers (R21 to R24). -/
structure HostRegs where
  /-- CMD, 16 bits (R21). -/
  cmd : BitVec 16
  /-- STATUS (R22). -/
  status : Status
  /-- PHASE (R23). -/
  phase : Phase
  /-- ERR (R24); `none` is NONE. -/
  err : Option ErrKind
deriving DecidableEq, Repr

/-- The two external streams (R25, R26). IN_LEN and OUT_LEN are the lists' lengths. -/
structure Streams where
  /-- IN (R25). -/
  inp : List Byte
  /-- IN_POS (R25). -/
  inPos : Nat
  /-- OUT (R26). -/
  out : List Byte
deriving DecidableEq, Repr

/-- The Bit Channel (R27, R28). -/
structure Channel where
  /-- W_ACC, 8 bits (R27). -/
  wAcc : Byte
  /-- W_CNT, 3 bits (R27). -/
  wCnt : Fin 8
  /-- R_CUR, 8 bits (R28). -/
  rCur : Byte
  /-- R_CNT, 0..8 (R28). -/
  rCnt : Fin 9
deriving DecidableEq, Repr

/-- One arena entry (R31). KIND is the constructor; a child index is absent while the deserialiser has
not built that child. -/
inductive NodeEntry where
  | leaf (sym : Nat)
  | internal (zero one : Option Nat)
deriving DecidableEq, Repr

/-- One working list entry (R32): the subtree's arena index and its weight. -/
structure ListEntry where
  node : Nat
  weight : Nat
deriving DecidableEq, Repr

/-- One valid code table entry (R34); an entry CTAB does not list has `VALID = 0`. -/
structure CodeEntry where
  len : Nat
  bits : List Bool
deriving DecidableEq, Repr

/-- The Huffman data (R30 to R36). -/
structure Huffman where
  /-- FREQ (R30); an unlisted counter is 0. -/
  freq : Memory Nat
  /-- NODE (R31). -/
  node : Memory NodeEntry
  /-- N_NODES (R31, R36). -/
  nNodes : Nat
  /-- LIST, head (highest weight) first (R32). -/
  list : List ListEntry
  /-- ROOT, an arena index (R33). -/
  root : Nat
  /-- CTAB (R34). -/
  ctab : Memory CodeEntry
  /-- HSTK, the nodes the traversal is inside of, innermost first (R35). -/
  hstk : List Nat
  /-- The current path of HE.TABLE, root end first (R35). -/
  hpath : List Bool
  /-- WALK, an arena index (R36). -/
  walk : Nat
  /-- DSTK, innermost first: an open internal node and whether its zero-child is built (R36). -/
  dstk : List (Nat × Bool)
deriving DecidableEq, Repr

/-- One LZW decoder table entry (R39). -/
structure DictEntry where
  pred : Nat
  byte : Byte
deriving DecidableEq, Repr

/-- The LZW data (R37 to R39). -/
structure Lzw where
  /-- WIDTH (R37). -/
  width : Nat
  /-- MAXCODE (R37). -/
  maxCode : Nat
  /-- D_SIZE (R37). -/
  dSize : Nat
  /-- E_DICT (R38), keyed by `pairKey` of the predecessor and the byte. -/
  eDict : Memory Nat
  /-- CUR (R38). -/
  cur : Nat
  /-- HAVE_CUR (R38). -/
  haveCur : Bool
  /-- D_DICT (R39), keyed by `code - 256`. -/
  dDict : Memory DictEntry
  /-- C1 (R39). -/
  c1 : Nat
  /-- C2 (R39). -/
  c2 : Nat
  /-- C2_VALID (R39). -/
  c2Valid : Bool
  /-- XSTK, top first (R39). -/
  xstk : List Byte
  /-- The MODEL's own: C1 holds a code of this stream, the control position of R217 (log entry 6). -/
  c1Held : Bool
deriving DecidableEq, Repr

/-- The OPEN parameters of R6 and the arguments of the `io_fault` oracle (log entries 8, 9, 10). No
operation writes the first four. -/
structure Env where
  /-- MAX_WIDTH (R6). -/
  maxWidth : Nat
  /-- DICT_CAP (R6, R196). -/
  dictCap : Nat
  /-- The oracle of R244: the accesses (call, access index) that fail. -/
  ioFaults : List (Nat × Nat)
  /-- Whether IN can be repositioned (R275). -/
  seekable : Bool
  /-- The MODEL's own: the number of calls accepted so far. -/
  callNo : Nat
  /-- The MODEL's own: the number of accesses consulted in this call. -/
  accNo : Nat
deriving DecidableEq, Repr

/-- The MODEL's own (log entry 7): what the last result-yielding operation returned, R110's `-> result`. -/
inductive UopResult where
  | nothing
  | bit (r : Option Bool)
  | bytes (r : Option (List Byte))
  | number (r : Option Nat)
  | flag (r : Bool)
  | tree (r : Nat)
  | symbol (r : Nat)
  | code (r : Option Nat)
  | byte (r : Byte)
deriving DecidableEq, Repr

/-- What the host can do (R282, R273, R270, and 95_test_vectors.md P6 for single operations). -/
inductive HostMove where
  /-- supply the whole input stream (R273) -/
  | supply (bytes : List Byte)
  /-- put an encoded item before the block: a command word, a container item or an operation -/
  | issue (e : Encoded)
  /-- assert hardware reset (R270) -/
  | reset
deriving DecidableEq, Repr

/-- The machine. -/
structure State where
  regs : HostRegs
  io : Streams
  bc : Channel
  huf : Huffman
  lzw : Lzw
  env : Env
  /-- The MODEL's own (log entry 7). -/
  result : UopResult
  /-- The MODEL's own: the host's moves not yet made, next first (log entry 2). -/
  moves : List HostMove
  /-- The MODEL's own: how many free values have been drawn (log entry 12). -/
  free : Nat
deriving DecidableEq, Repr

/-- The memories a stop can name. -/
inductive Place where
  | inStream | node | list | ctab | hstk | dDict
deriving DecidableEq, Repr

/-- Why the machine stops with no next state. No COMPRESS or DECOMPRESS call reaches any of these; single
operations put before the block outside their stated precondition can. -/
inductive Fault where
  /-- An operation reads an entry of a private memory that nothing has written, a location R44 calls
  unspecified (log entry 13). Raised by the operations that read NODE, LIST, CTAB or D_DICT. Safe. -/
  | unwrittenEntry (p : Place)
  /-- An operation needs an entry beyond the size R41, R35 or R25 gives the memory (log entry 14). Raised
  by the operations that allocate in NODE, insert in LIST, take from LIST, push on HSTK, or read IN. Safe. -/
  | noSuchEntry (p : Place)
  /-- LD.FIRST or LD.EXPAND follows more links than D_DICT has entries, so the chain never reaches a
  literal and the walk of R209 never ends (log entry 15). Safe. -/
  | endlessChain
deriving DecidableEq, Repr

/-- Why the block was given nothing it has a meaning for. -/
inductive Refusal where
  /-- An instruction with no meaning in the model; raised by `exec`'s arm alone. Safe. -/
  | notModelled (mnemonic : String)
  /-- The host put bits before the block that no format of R90 gives a meaning; raised by `step`. Safe. -/
  | undecodable (why : DecodeError)
deriving DecidableEq, Repr

/-- The Huffman data after reset (R44). ROOT and WALK: DESIGN CHOICE (log entry 11). -/
def Huffman.reset : Huffman where
  freq := []
  node := []
  nNodes := 0
  list := []
  root := 0
  ctab := []
  hstk := []
  hpath := []
  walk := 0
  dstk := []

/-- The LZW data after reset (R44). CUR, C1 and C2: DESIGN CHOICE (log entry 11). -/
def Lzw.reset : Lzw where
  width := Config.initWidth
  maxCode := 1 <<< Config.initWidth
  dSize := 0
  eDict := []
  cur := 0
  haveCur := false
  dDict := []
  c1 := 0
  c2 := 0
  c2Valid := false
  xstk := []
  c1Held := false

/-- The parameters at the spec's defaults (R6). -/
def Env.default : Env where
  maxWidth := Config.maxWidthDefault
  dictCap := Config.dictCapDefault
  ioFaults := []
  seekable := true
  callNo := 0
  accNo := 0

/-- An empty Bit Channel (R27, R28). -/
def Channel.empty : Channel where
  wAcc := 0
  wCnt := 0
  rCur := 0
  rCnt := 0

/-- R44, R270: the machine right after hardware reset. IN is empty by DESIGN CHOICE (log entry 11). -/
def State.reset : State where
  regs := { cmd := 0, status := .idle, phase := .idle, err := none }
  io := { inp := [], inPos := 0, out := [] }
  bc := .empty
  huf := .reset
  lzw := .reset
  env := .default
  result := .nothing
  moves := []
  free := 0

end Sys2Proof.Machine
end

