-- ==== Sys2Proof/Machine/Flags.lean ====
section
/-! DEFINITION. The conditions of 10_state.md R29, which stand in place of a flags register: each a pure
function of the state, written by no operation as a side effect. -/

namespace Sys2Proof.Machine

/-- R25: IN_LEN. -/
def State.inLen (s : State) : Nat := s.io.inp.length

/-- R26: OUT_LEN. -/
def State.outLen (s : State) : Nat := s.io.out.length

/-- R32: LIST_LEN. -/
def State.listLen (s : State) : Nat := s.huf.list.length

/-- R132: the bits the reader can still deliver. DESIGN CHOICE (log entry 25): with IN_POS above IN_LEN, which
R25 rules out and only a supply between calls can bring about, IN has no byte left. -/
def State.remaining (s : State) : Nat := 8 * (s.inLen - s.io.inPos) + s.bc.rCnt.val

/-- R29: a partial byte is pending. -/
def State.partialPending (s : State) : Bool := s.bc.wCnt != 0

/-- R29: the read position is mid-byte. -/
def State.midByte (s : State) : Bool := s.bc.rCnt != 0

/-- R29, R129: no underlying byte is left, at a byte boundary. The rules test `IN_POS = IN_LEN`; with IN_POS
above IN_LEN EOF is true by DESIGN CHOICE (log entry 25). -/
def State.atEof (s : State) : Bool := s.bc.rCnt == 0 && s.inLen ≤ s.io.inPos

/-- R29: a read of `n` bits asks for more than there are. -/
def State.exhaustedFor (s : State) (n : Nat) : Bool := s.remaining < n

/-- R31, R29: KIND of an entry, 1 for a leaf. -/
def NodeEntry.kind : NodeEntry → Bool
  | .leaf _ => true
  | .internal _ _ => false

/-- R78, R281: OUT as the host may use it, only when it reads DONE. -/
def State.hostOut (s : State) : Option (List Byte) :=
  if s.regs.status = .done then some s.io.out else none

/-- One byte of IN as it stands (R61). -/
def State.readIn (s : State) (a : Nat) : Option Byte := s.io.inp[a]?

/-- One byte of OUT as it stands (R62). -/
def State.readOut (s : State) (a : Nat) : Option Byte := s.io.out[a]?

end Sys2Proof.Machine
end

