-- ==== Sys2Proof/Machine/Operands.lean ====
section
/-! DEFINITION. How operands and wire fields are put together and taken apart: bit order, byte order, the
symbol field, the dictionary key, and the numeric codes of the enumerations. -/

namespace Sys2Proof.Machine

/-- R65: the bits of a byte in travel order, bit 7 first. -/
def byteBits (b : Byte) : List Bool := bitsOfNat 8 b.toNat

/-- R98: the two bytes of `SYM16(s)`, high byte first (R66). -/
def symBytes (s : Nat) : List Byte := bytesOfNat 2 s

/-- R98, R170: the symbol field the reader puts together from two bytes, high byte first. -/
def symField (hi lo : Byte) : BitVec 16 := hi ++ lo

/-- R235: the field's 16 bits as a signed value, two's complement. -/
def sext16 (v : BitVec 16) : Int := v.toInt

/-- R179: is the signed value a symbol, a byte value or EOS? -/
def isSymbol (v : Int) : Bool := 0 ≤ v && v ≤ Config.eosValue

/-- R38: the key of the pair (predecessor code, appended byte). -/
def pairKey (p : Nat) (b : Byte) : Nat := p * 256 + b.toNat

/-- R22: STATUS as its two bits. -/
def Status.code : Status → BitVec 2
  | .idle => 0
  | .busy => 1
  | .done => 2
  | .failed => 3

/-- R23: PHASE as its four bits. -/
def Phase.code : Phase → BitVec 4
  | .idle => 0
  | .tag => 1
  | .hFreq => 2
  | .hBuild => 3
  | .hSer => 4
  | .hTable => 5
  | .hEnc => 6
  | .hDeser => 7
  | .hWalk => 8
  | .lEnc => 9
  | .lDec => 10
  | .close => 11

/-- R245: `code(K)`, the number ERR holds for a kind. -/
def ErrKind.code : ErrKind → BitVec 3
  | .unknownAlgorithm => 1
  | .corruptStream => 2
  | .codeSpaceExhausted => 3
  | .ioFailure => 4

/-- R24: ERR as its three bits. -/
def errCode : Option ErrKind → BitVec 3
  | none => 0
  | some k => k.code

/-- R91: the OP field of a command word. -/
def opField (w : BitVec 16) : Byte := w.extractLsb' 0 8

/-- R91: the METHOD field of a command word. -/
def methodField (w : BitVec 16) : Byte := w.extractLsb' 8 8

end Sys2Proof.Machine
end

