-- ==== Sys2Proof/Machine/Ops.lean ====
section
/-! DEFINITION. The shared operations: the three ways a piece of pseudocode can end, `raise` (the abort of
R250, this block's only exception entry; R252: there is no return from it), call start and call end, and
the accesses to the two streams and to the arena. -/

namespace Sys2Proof.Machine

/-- How a piece of pseudocode ends: with a value, at a `raise K` (R10), or where no rule goes on. -/
inductive Res (α : Type) where
  | ok (a : α) (s : State)
  | raised (k : ErrKind) (s : State)
  | stuck (f : Fault)

/-- R10: the next line of pseudocode; nothing after a `raise` runs. -/
def Res.bind {α β : Type} (r : Res α) (f : α → State → Res β) : Res β :=
  match r with
  | .ok a s => f a s
  | .raised k s => .raised k s
  | .stuck e => .stuck e

/-- R250, `raise K`: ERR and STATUS are written, PHASE returns to P_IDLE, nothing else changes. BC.CLOSE
is not executed, nothing is saved and no handler runs. -/
def State.abort (s : State) (k : ErrKind) : State :=
  { s with regs := { s.regs with err := some k, status := .failed, phase := .idle } }

/-- R232: the end of a call. -/
def State.callDone (s : State) : State :=
  { s with regs := { s.regs with status := .done, phase := .idle } }

/-- R23: PHASE is written. -/
def State.setPhase (s : State) (p : Phase) : State :=
  { s with regs := { s.regs with phase := p } }

/-- R225: CMD is written. -/
def State.setCmd (s : State) (w : BitVec 16) : State :=
  { s with regs := { s.regs with cmd := w } }

/-- The result an operation returns (R110) is left where the host finds it (log entry 7). -/
def State.setResult (s : State) (r : UopResult) : State := { s with result := r }

/-- One access was put to the oracle (R244). -/
def State.countAccess (s : State) : State :=
  { s with env := { s.env with accNo := s.env.accNo + 1 } }

/-- R10 `OutAppend`: the byte at address OUT_LEN. -/
def State.pushOut (s : State) (b : Byte) : State :=
  { s with io := { s.io with out := s.io.out ++ [b] } }

/-- R25: IN_POS is written. -/
def State.setInPos (s : State) (p : Nat) : State :=
  { s with io := { s.io with inPos := p } }

/-- R27: the writer's registers. -/
def State.setWriter (s : State) (acc : Byte) (cnt : Fin 8) : State :=
  { s with bc := { s.bc with wAcc := acc, wCnt := cnt } }

/-- R28: the reader's registers. -/
def State.setReader (s : State) (cur : Byte) (cnt : Fin 9) : State :=
  { s with bc := { s.bc with rCur := cur, rCnt := cnt } }

/-- The Huffman data are written. -/
def State.setHuf (s : State) (h : Huffman) : State := { s with huf := h }

/-- The LZW data are written. -/
def State.setLzw (s : State) (l : Lzw) : State := { s with lzw := l }

/-- R44, second column: the Huffman data at call start. ROOT and WALK are unspecified there: free values
(log entry 12). -/
def Huffman.atCallStart (free : Nat) : Huffman :=
  { Huffman.reset with
    root := (Config.freeNode free).toNat
    walk := (Config.freeNode (free + 1)).toNat }

/-- R44, second column: the LZW data at call start. CUR, C1 and C2 are unspecified there: free values of
MAX_WIDTH bits (log entry 12). -/
def Lzw.atCallStart (free maxWidth : Nat) : Lzw :=
  { Lzw.reset with
    cur := (Config.freeCode free).toNat % 2 ^ maxWidth
    c1 := (Config.freeCode (free + 1)).toNat % 2 ^ maxWidth
    c2 := (Config.freeCode (free + 2)).toNat % 2 ^ maxWidth }

/-- R225, R44: call start. CMD holds the accepted word already; IN stays as supplied. -/
def State.callStart (s : State) : State :=
  { s with
    regs := { s.regs with status := .busy, err := none, phase := .tag }
    io := { s.io with inPos := 0, out := [] }
    bc := .empty
    huf := .atCallStart s.free
    lzw := .atCallStart s.free s.env.maxWidth
    env := { s.env with callNo := s.env.callNo + 1, accNo := 0 }
    free := s.free + 3 }

/-- R244: does the oracle fail the access about to be made? -/
def State.ioFails (s : State) : Bool := s.env.ioFaults.contains (s.env.callNo, s.env.accNo)

/-- R10 `OutAppend(b)` with R244: a failing append does not happen. -/
def outAppend (b : Byte) (s : State) : Res Unit :=
  if s.ioFails then .raised .ioFailure s.countAccess else .ok () (s.countAccess.pushOut b)

/-- R61, R237: the byte at IN_POS, which advances (R244: a failing read does not happen). Every rule tests
the bound first, so the missing byte is no rule's (log entry 14). -/
def inFetch (s : State) : Res Byte :=
  match s.io.inp[s.io.inPos]? with
  | none => .stuck (.noSuchEntry .inStream)
  | some b =>
    if s.ioFails then .raised .ioFailure s.countAccess
    else .ok b (s.countAccess.setInPos (s.io.inPos + 1))

/-- R31, R63: one arena entry. -/
def readNode (i : Nat) (s : State) : Res NodeEntry :=
  if Config.nodeCap ≤ i then .stuck (.noSuchEntry .node)
  else
    match s.huf.node.read i with
    | none => .stuck (.unwrittenEntry .node)
    | some e => .ok e s

/-- R31, R63: one arena entry is written. -/
def State.writeNode (s : State) (i : Nat) (e : NodeEntry) : State :=
  s.setHuf { s.huf with node := s.huf.node.write i e }

/-- A child index of an open internal node is there only once it is built (R36). -/
def childIndex (c : Option Nat) (s : State) : Res Nat :=
  match c with
  | none => .stuck (.unwrittenEntry .node)
  | some i => .ok i s

/-- The outcome of an operation that returns nothing. -/
def Res.finish (r : Res Unit) : Host.Outcome State Fault Refusal :=
  match r with
  | .ok _ s => .next s
  | .raised k s => .next (s.abort k)
  | .stuck f => .fault f

/-- The outcome of an operation that returns a value (log entry 7). -/
def Res.finishWith {α : Type} (r : Res α) (f : α → UopResult) : Host.Outcome State Fault Refusal :=
  (r.bind fun a s => .ok () (s.setResult (f a))).finish

end Sys2Proof.Machine
end

