-- ==== Sys2Proof/Machine/BitChannel.lean ====
section
/-! DEFINITION. The Bit Channel operations (40_bit_channel.md R120 to R133). -/

namespace Sys2Proof.Machine

/-- R120. -/
def openWriter (s : State) : Res Unit := .ok () (s.setWriter 0 0)

/-- R121. -/
def openReader (s : State) : Res Unit := .ok () ((s.setReader 0 0).setInPos 0)

/-- R122: the bit joins the partial byte, which is appended when it is full. -/
def putBit (b : Bool) (s : State) : Res Unit :=
  let s1 := s.setWriter (s.bc.wAcc ||| ((if b then 1 else 0 : Byte) <<< (7 - s.bc.wCnt.val))) s.bc.wCnt
  if s.bc.wCnt = 7 then
    (outAppend s1.bc.wAcc s1).bind fun _ s2 => .ok () (s2.setWriter 0 0)
  else .ok () (s1.setWriter s1.bc.wAcc (s.bc.wCnt + 1))

/-- R159's loop: the bits of a list, in order. -/
def putList : List Bool → State → Res Unit
  | [], s => .ok () s
  | b :: bs, s => (putBit b s).bind fun _ s1 => putList bs s1

/-- R128: `n` bits of `v`, bit `n - 1` first. -/
def putBits (v : Nat) : Nat → State → Res Unit
  | 0, s => .ok () s
  | n + 1, s => (putBit (v.testBit n) s).bind fun _ s1 => putBits v n s1

/-- R123, one byte: the aligned or the shifting path. -/
def putByte (b : Byte) (s : State) : Res Unit :=
  if s.bc.wCnt = 0 then outAppend b s
  else
    (outAppend (s.bc.wAcc ||| (b >>> s.bc.wCnt.val)) s).bind fun _ s1 =>
      .ok () (s1.setWriter (b <<< (8 - s.bc.wCnt.val)) s.bc.wCnt)

/-- R123. -/
def putNBytes : List Byte → State → Res Unit
  | [], s => .ok () s
  | b :: bs, s => (putByte b s).bind fun _ s1 => putNBytes bs s1

/-- R124: the partial byte is flushed; its low bits are zero already. -/
def closeWriter (s : State) : Res Unit :=
  if s.bc.wCnt = 0 then .ok () s
  else (outAppend s.bc.wAcc s).bind fun _ s1 => .ok () (s1.setWriter 0 0)

/-- R125, the last two lines: the next bit of R_CUR. -/
def takeBit (s : State) : Res (Option Bool) :=
  let n := s.bc.rCnt - 1
  .ok (some (s.bc.rCur.getLsbD n.val)) (s.setReader s.bc.rCur n)

/-- R125, R126: the next bit, or `none` with nothing changed. The rule tests `IN_POS = IN_LEN`; with IN_POS
above IN_LEN the answer is `none` by DESIGN CHOICE (log entry 25). -/
def getBit (s : State) : Res (Option Bool) :=
  if s.bc.rCnt = 0 then
    if s.inLen ≤ s.io.inPos then .ok none s
    else (inFetch s).bind fun b s1 => takeBit (s1.setReader b 8)
  else takeBit s

/-- R127, one byte: taken whole, or put together from two source bytes. -/
def getByte (s : State) : Res Byte :=
  (inFetch s).bind fun b s1 =>
    if s.bc.rCnt = 0 then .ok b s1
    else .ok ((s.bc.rCur <<< (8 - s.bc.rCnt.val)) ||| (b >>> s.bc.rCnt.val)) (s1.setReader b s.bc.rCnt)

/-- R127's loop. -/
def getByteRun : Nat → State → Res (List Byte)
  | 0, s => .ok [] s
  | n + 1, s => (getByte s).bind fun b s1 => (getByteRun n s1).bind fun bs s2 => .ok (b :: bs) s2

/-- R127: `n` bytes, or `none` with nothing consumed. -/
def getNBytes (n : Nat) (s : State) : Res (Option (List Byte)) :=
  if s.exhaustedFor (8 * n) then .ok none s
  else (getByteRun n s).bind fun bs s1 => .ok (some bs) s1

/-- R130's loop: `v <- (v << 1) | BC.GETBIT()`. -/
def getBitRun : Nat → Nat → State → Res (Option Nat)
  | 0, v, s => .ok (some v) s
  | n + 1, v, s => (getBit s).bind fun b s1 =>
      match b with
      | none => .ok none s1
      | some b => getBitRun n (2 * v + b.toNat) s1

/-- R130: `n` bits, first most significant, or `none` with nothing consumed. -/
def getBits (n : Nat) (s : State) : Res (Option Nat) :=
  if s.exhaustedFor n then .ok none s else getBitRun n 0 s

/-- BC.OPENW (R120). -/
def execBcOpenW (s : State) : Host.Outcome State Fault Refusal := (openWriter s).finish

/-- BC.OPENR (R121). -/
def execBcOpenR (s : State) : Host.Outcome State Fault Refusal := (openReader s).finish

/-- BC.PUTBIT (R122). -/
def execBcPutBit (b : Bool) (s : State) : Host.Outcome State Fault Refusal := (putBit b s).finish

/-- BC.PUTNBYTES (R123). -/
def execBcPutNBytes (bytes : List Byte) (s : State) : Host.Outcome State Fault Refusal := (putNBytes bytes s).finish

/-- BC.CLOSE (R124). -/
def execBcClose (s : State) : Host.Outcome State Fault Refusal := (closeWriter s).finish

/-- BC.GETBIT (R125). -/
def execBcGetBit (s : State) : Host.Outcome State Fault Refusal := (getBit s).finishWith .bit

/-- BC.GETNBYTES (R127). -/
def execBcGetNBytes (n : Nat) (s : State) : Host.Outcome State Fault Refusal := (getNBytes n s).finishWith .bytes

/-- BC.PUTBITS (R128). -/
def execBcPutBits (v n : Nat) (s : State) : Host.Outcome State Fault Refusal := (putBits v n s).finish

/-- BC.EOF (R129). -/
def execBcEof (s : State) : Host.Outcome State Fault Refusal := .next (s.setResult (.flag s.atEof))

/-- BC.GETBITS (R130). -/
def execBcGetBits (n : Nat) (s : State) : Host.Outcome State Fault Refusal := (getBits n s).finishWith .number

end Sys2Proof.Machine
end

