-- ==== Sys2Proof/Machine/HuffmanDecoder.lean ====
section
/-! DEFINITION. The Huffman decoder operations (42_huffman_decoder.md R170 to R179), and the meaning of
the F-HNODE and F-HCODE items it reads (log entry 5). -/

namespace Sys2Proof.Machine

/-- R170, R171: one more node is read, against the node limit. Its arena index is the count before. -/
def countNode (s : State) : Res Nat :=
  let s1 := s.setHuf { s.huf with nNodes := s.huf.nNodes + 1 }
  if Config.nodeCap < s1.huf.nNodes then .raised .corruptStream s1 else .ok s.huf.nNodes s1

/-- R36: the zero-child of an open node is built. -/
def setZeroChild (j i : Nat) (s : State) : Res Unit :=
  (readNode j s).bind fun e s1 =>
    match e with
    | .internal _ o => .ok () (s1.writeNode j (.internal (some i) o))
    | .leaf _ => .stuck (.unwrittenEntry .node)

/-- R36: the one-child of an open node is built. -/
def setOneChild (j i : Nat) (s : State) : Res Unit :=
  (readNode j s).bind fun e s1 =>
    match e with
    | .internal z _ => .ok () (s1.writeNode j (.internal z (some i)))
    | .leaf _ => .stuck (.unwrittenEntry .node)

/-- R170: the subtree at `i` is complete and becomes a child of the innermost open node (R36, DSTK); a node
with both children is complete in turn. `true` when the whole tree is complete and stands in ROOT. -/
def completeNode : List (Nat × Bool) → Nat → State → Res Bool
  | [], i, s => .ok true (s.setHuf { s.huf with dstk := [], root := i })
  | (j, false) :: rest, i, s =>
    (setZeroChild j i s).bind fun _ s1 => .ok false (s1.setHuf { s1.huf with dstk := (j, true) :: rest })
  | (j, true) :: rest, i, s =>
    (setOneChild j i s).bind fun _ s1 => completeNode rest j (s1.setHuf { s1.huf with dstk := rest })

/-- R170, R179: a leaf with the given symbol field, at arena index `i`. -/
def takeLeaf (i : Nat) (field : BitVec 16) (s : State) : Res Bool :=
  if isSymbol (sext16 field) then
    completeNode s.huf.dstk i (s.writeNode i (.leaf (sext16 field).toNat))
  else .raised .corruptStream s

/-- R170: an internal node at arena index `i`; its children follow. -/
def takeInternal (i : Nat) (s : State) : Res Bool :=
  let s1 := s.writeNode i (.internal none none)
  .ok false (s1.setHuf { s1.huf with dstk := (i, false) :: s1.huf.dstk })

/-- R170, one node: the mark, the limit, and for a leaf its symbol, in this order (R248). -/
def deserNode (s : State) : Res Bool :=
  (getBit s).bind fun m s1 =>
    match m with
    | none => .raised .corruptStream s1
    | some mark =>
      (countNode s1).bind fun i s2 =>
        if mark then
          (getNBytes 2 s2).bind fun bs s3 =>
            match bs with
            | some [hi, lo] => takeLeaf i (symField hi lo) s3
            | _ => .raised .corruptStream s3
        else takeInternal i s2

/-- R170's recursion as a loop over nodes. The node limit ends it first: `n` starts at `NODE_CAP + 1`. -/
def deserLoop : Nat → State → Res Nat
  | 0, s => .raised .corruptStream s
  | n + 1, s => (deserNode s).bind fun whole s1 => if whole then .ok s1.huf.root s1 else deserLoop n s1

/-- R170: the tree read stands in ROOT. DSTK is empty at its start. -/
def hdDeser (s : State) : Res Nat := deserLoop (Config.nodeCap + 1) (s.setHuf { s.huf with dstk := [] })

/-- R173: WALK is written. -/
def State.setWalk (s : State) (i : Nat) : State := s.setHuf { s.huf with walk := i }

/-- R173's loop. A step that goes on consumes a bit: `n` starts above REMAINING. -/
def walkLoop : Nat → State → Res Nat
  | 0, s => .raised .corruptStream s
  | n + 1, s =>
    (readNode s.huf.walk s).bind fun e s1 =>
      match e with
      | .leaf sym => .ok sym s1
      | .internal z o =>
        (getBit s1).bind fun b s2 =>
          match b with
          | none => .raised .corruptStream s2
          | some b => (childIndex (if b then o else z) s2).bind fun i s3 => walkLoop n (s3.setWalk i)

/-- R173. -/
def hdSymbol (s : State) : Res Nat := walkLoop (s.remaining + 1) (s.setWalk s.huf.root)

/-- R175's loop. A round that goes on consumes a bit (R176): `n` starts above REMAINING. -/
def symbolLoop : Nat → State → Res Unit
  | 0, s => .raised .corruptStream s
  | n + 1, s =>
    (hdSymbol s).bind fun sym s1 =>
      if sym = Config.eosValue then .ok () s1
      else (outAppend (BitVec.ofNat 8 sym) s1).bind fun _ s2 => symbolLoop n s2

/-- R174, R175: a tree of one leaf that is not EOS is rejected. -/
def checkRoot (s : State) : Res Unit :=
  (readNode s.huf.root s).bind fun e s1 =>
    match e with
    | .leaf sym => if sym = Config.eosValue then .ok () s1 else .raised .corruptStream s1
    | .internal _ _ => .ok () s1

/-- R175. -/
def hdDecompress (s : State) : Res Unit :=
  let s0 := s.setPhase .hDeser
  (hdDeser (s0.setHuf { s0.huf with nNodes := 0 })).bind fun _ s1 =>
    (checkRoot s1).bind fun _ s2 => symbolLoop (s2.remaining + 1) (s2.setPhase .hWalk)

/-- R99, R107, R173: the walk of a code's bits from WALK. The reader finds the code's end at a leaf; bits
after it are not this code's, and a code whose bits run out before a leaf is an exhausted read. -/
def walkCode : List Bool → State → Res Nat
  | [], s =>
    (readNode s.huf.walk s).bind fun e s1 =>
      match e with
      | .leaf sym => .ok sym s1
      | .internal _ _ => .raised .corruptStream s1
  | b :: bs, s =>
    (readNode s.huf.walk s).bind fun e s1 =>
      match e with
      | .leaf sym => .ok sym s1
      | .internal z o => (childIndex (if b then o else z) s1).bind fun i s2 => walkCode bs (s2.setWalk i)

/-- R175 on one decoded symbol: EOS ends the call, a byte value is appended. -/
def takeSymbol (sym : Nat) (s : State) : Res Unit :=
  if sym = Config.eosValue then .ok () s.callDone else outAppend (BitVec.ofNat 8 sym) s

/-- HD.DESER (R170). -/
def execHdDeser (s : State) : Host.Outcome State Fault Refusal := (hdDeser s).finishWith .tree

/-- HD.SYMBOL (R173). -/
def execHdSymbol (s : State) : Host.Outcome State Fault Refusal := (hdSymbol s).finishWith .symbol

/-- HD.DECOMPRESS (R175). -/
def execHdDecompress (s : State) : Host.Outcome State Fault Refusal := (hdDecompress s).finish

/-- HNODE.LEAF (R97, R105): what HD.DESER does on reading it. -/
def execHnodeLeaf (sym : BitVec 16) (s : State) : Host.Outcome State Fault Refusal :=
  ((countNode s).bind fun i s1 => (takeLeaf i sym s1).bind fun _ s2 => .ok () s2).finish

/-- HNODE.INTERNAL (R97): what HD.DESER does on reading it. -/
def execHnodeInternal (s : State) : Host.Outcome State Fault Refusal :=
  ((countNode s).bind fun i s1 => (takeInternal i s1).bind fun _ s2 => .ok () s2).finish

/-- HCODE (R99): what HD.SYMBOL and the loop of HD.DECOMPRESS do on reading it. -/
def execHcode (path : List Bool) (s : State) : Host.Outcome State Fault Refusal :=
  ((walkCode path (s.setWalk s.huf.root)).bind fun sym s1 => takeSymbol sym s1).finish

end Sys2Proof.Machine
end

