-- ==== Sys2Proof/Machine/HuffmanEncoder.lean ====
section
/-! DEFINITION. The Huffman encoder operations (41_huffman_encoder.md R140 to R163). -/

namespace Sys2Proof.Machine

/-- R30: one counter. -/
def State.freqOf (s : State) (sym : Nat) : Nat := (s.huf.freq.read sym).getD 0

/-- R140: `FREQ[s] <- FREQ[s] + 1`. -/
def State.bumpFreq (s : State) (sym : Nat) : State :=
  s.setHuf { s.huf with freq := s.huf.freq.write sym (s.freqOf sym + 1) }

/-- R140's loop over `n` bytes of IN. -/
def countBytes : Nat → State → Res Unit
  | 0, s => .ok () s
  | n + 1, s => (inFetch s).bind fun b s1 => countBytes n (s1.bumpFreq b.toNat)

/-- R140: one pass over the input, then one unit for EOS. With IN_POS above IN_LEN there is no byte to pass
over (log entry 25). -/
def heFreq (s : State) : Res Unit :=
  (countBytes (s.inLen - s.io.inPos) s).bind fun _ s1 => .ok () (s1.bumpFreq Config.eosValue)

/-- R142's walk up from the lowest end: the list is given tail first, and the entry goes before (nearer the
tail than) the first entry whose weight is not smaller. DEDUCED (log entry 26): 92_eei_decisions.md D6 remarks
that later entries of equal weight sit nearer the head; R142, R143, R147 and V-HE-6 put them nearer the tail. -/
def insertFromTail (e : ListEntry) : List ListEntry → List ListEntry
  | [] => [e]
  | x :: xs => if x.weight < e.weight then x :: insertFromTail e xs else e :: x :: xs

/-- R142: the list with the entry inserted, head first. -/
def insertEntry (e : ListEntry) (l : List ListEntry) : List ListEntry := (insertFromTail e l.reverse).reverse

/-- R142: `HE.INSERT(t, w)`. LIST has 257 entries (log entry 14). -/
def heInsert (t w : Nat) (s : State) : Res Unit :=
  if Config.listCap ≤ s.listLen then .stuck (.noSuchEntry .list)
  else .ok () (s.setHuf { s.huf with list := insertEntry { node := t, weight := w } s.huf.list })

/-- R151: the next arena entry is allocated; the arena has 513 (log entry 14). -/
def allocNode (e : NodeEntry) (s : State) : Res Nat :=
  if Config.nodeCap ≤ s.huf.nNodes then .stuck (.noSuchEntry .node)
  else
    .ok s.huf.nNodes
      (s.setHuf { s.huf with node := s.huf.node.write s.huf.nNodes e, nNodes := s.huf.nNodes + 1 })

/-- R143, one symbol: a leaf for it, if it is present. -/
def leafFor (sym : Nat) (s : State) : Res Unit :=
  if 0 < s.freqOf sym then
    (allocNode (.leaf sym) s).bind fun i s1 => heInsert i (s.freqOf sym) s1
  else .ok () s

/-- R143's loop over symbols in the order given. -/
def leavesFor : List Nat → State → Res Unit
  | [], s => .ok () s
  | sym :: rest, s => (leafFor sym s).bind fun _ s1 => leavesFor rest s1

/-- R143, R141: the symbols 0 to 256, ascending. -/
def heLeaves (s : State) : Res Unit := leavesFor (List.range Config.nSymbols) s

/-- R144, R146: the two lowest entries become the zero-child and the one-child of a new node. -/
def heCombine (s : State) : Res Unit :=
  match s.huf.list.reverse with
  | a :: b :: rest =>
    (allocNode (.internal (some a.node) (some b.node)) (s.setHuf { s.huf with list := rest.reverse })).bind
      fun i s1 => heInsert i (a.weight + b.weight) s1
  | _ => .stuck (.noSuchEntry .list)

/-- R145's loop, `n` merges at most; each lowers LIST_LEN by one. -/
def combineAll : Nat → State → Res Unit
  | 0, s => .ok () s
  | n + 1, s => if 1 < s.listLen then (heCombine s).bind fun _ s1 => combineAll n s1 else .ok () s

/-- R145's last line: `ROOT <- LIST[0].subtree`. -/
def takeRoot (s : State) : Res Unit :=
  match s.huf.list with
  | [] => .stuck (.unwrittenEntry .list)
  | e :: _ => .ok () (s.setHuf { s.huf with root := e.node })

/-- R145. -/
def heBuild (s : State) : Res Unit :=
  (heLeaves s).bind fun _ s1 => (combineAll s1.listLen s1).bind fun _ s2 => takeRoot s2

/-- R35: the traversal enters a node. -/
def State.enterNode (s : State) (i : Nat) : State := s.setHuf { s.huf with hstk := i :: s.huf.hstk }

/-- R35: the traversal leaves a node. -/
def State.leaveNode (s : State) : State := s.setHuf { s.huf with hstk := s.huf.hstk.tail }

/-- R152: depth first; the first argument is how many entries HSTK has left. -/
def serNode : Nat → Nat → State → Res Unit
  | 0, _, _ => .stuck (.noSuchEntry .hstk)
  | d + 1, i, s =>
    (readNode i (s.enterNode i)).bind fun e s1 =>
      let body : Res Unit :=
        match e with
        | .leaf sym => (putBit true s1).bind fun _ s2 => putNBytes (symBytes sym) s2
        | .internal z o =>
          (putBit false s1).bind fun _ s2 =>
            (childIndex z s2).bind fun zi s3 =>
              (serNode d zi s3).bind fun _ s4 => (childIndex o s4).bind fun oi s5 => serNode d oi s5
      body.bind fun _ s6 => .ok () s6.leaveNode

/-- R152: `HE.SER(t)`, HSTK empty at its start. -/
def heSer (t : Nat) (s : State) : Res Unit := serNode Config.hstkCap t (s.setHuf { s.huf with hstk := [] })

/-- R154: the path is extended by a bit, or cut back to what it was. -/
def State.setPath (s : State) (p : List Bool) : State := s.setHuf { s.huf with hpath := p }

/-- R154: `CTAB[s] <- (VALID 1, LEN, BITS)`. -/
def State.setCode (s : State) (sym : Nat) (path : List Bool) : State :=
  s.setHuf { s.huf with ctab := s.huf.ctab.write sym { len := path.length, bits := path } }

/-- R154, `WALKT`: the first argument is how many entries HSTK has left. -/
def tableNode : Nat → Nat → State → Res Unit
  | 0, _, _ => .stuck (.noSuchEntry .hstk)
  | d + 1, i, s =>
    let path := s.huf.hpath
    (readNode i (s.enterNode i)).bind fun e s1 =>
      let body : Res Unit :=
        match e with
        | .leaf sym => .ok () (s1.setCode sym path)
        | .internal z o =>
          (childIndex z s1).bind fun zi s2 =>
            (tableNode d zi (s2.setPath (path ++ [false]))).bind fun _ s3 =>
              (childIndex o s3).bind fun oi s4 => tableNode d oi (s4.setPath (path ++ [true]))
      body.bind fun _ s5 => .ok () (s5.setPath path).leaveNode

/-- R154: HSTK and the path are empty at its start. -/
def heTable (s : State) : Res Unit :=
  tableNode Config.hstkCap s.huf.root (s.setHuf { s.huf with hstk := [], hpath := [] })

/-- R158, R275: back to byte 0, where IN can be repositioned. -/
def heRewind (s : State) : Res Unit :=
  if s.env.seekable then .ok () (s.setInPos 0) else .raised .ioFailure s

/-- R159: the code of one symbol. An entry with `VALID = 0` holds no bits (log entry 13). -/
def putCode (sym : Nat) (s : State) : Res Unit :=
  match s.huf.ctab.read sym with
  | none => .stuck (.unwrittenEntry .ctab)
  | some e => putList e.bits s

/-- R159's loop over `n` bytes of IN. -/
def encodeBytes : Nat → State → Res Unit
  | 0, s => .ok () s
  | n + 1, s => (inFetch s).bind fun b s1 => (putCode b.toNat s1).bind fun _ s2 => encodeBytes n s2

/-- R159: every byte's code, then the EOS code once. With IN_POS above IN_LEN there is no byte to encode (log
entry 25). -/
def heEncode (s : State) : Res Unit :=
  (encodeBytes (s.inLen - s.io.inPos) s).bind fun _ s1 => putCode Config.eosValue s1

/-- R160. -/
def heCompress (s : State) : Res Unit :=
  (heFreq (s.setPhase .hFreq)).bind fun _ s1 =>
    (heBuild (s1.setPhase .hBuild)).bind fun _ s2 =>
      (heSer s2.huf.root (s2.setPhase .hSer)).bind fun _ s3 =>
        (heTable (s3.setPhase .hTable)).bind fun _ s4 =>
          (heRewind (s4.setPhase .hEnc)).bind fun _ s5 => heEncode s5

/-- HE.FREQ (R140). -/
def execHeFreq (s : State) : Host.Outcome State Fault Refusal := (heFreq s).finish

/-- HE.INSERT (R142). -/
def execHeInsert (t w : Nat) (s : State) : Host.Outcome State Fault Refusal := (heInsert t w s).finish

/-- HE.LEAVES (R143). -/
def execHeLeaves (s : State) : Host.Outcome State Fault Refusal := (heLeaves s).finish

/-- HE.COMBINE (R144). -/
def execHeCombine (s : State) : Host.Outcome State Fault Refusal := (heCombine s).finish

/-- HE.BUILD (R145). -/
def execHeBuild (s : State) : Host.Outcome State Fault Refusal := (heBuild s).finish

/-- HE.SER (R152). -/
def execHeSer (t : Nat) (s : State) : Host.Outcome State Fault Refusal := (heSer t s).finish

/-- HE.TABLE (R154). -/
def execHeTable (s : State) : Host.Outcome State Fault Refusal := (heTable s).finish

/-- HE.REWIND (R158). -/
def execHeRewind (s : State) : Host.Outcome State Fault Refusal := (heRewind s).finish

/-- HE.ENCODE (R159). -/
def execHeEncode (s : State) : Host.Outcome State Fault Refusal := (heEncode s).finish

/-- HE.COMPRESS (R160). -/
def execHeCompress (s : State) : Host.Outcome State Fault Refusal := (heCompress s).finish

end Sys2Proof.Machine
end

