-- ==== Sys2Proof/Machine/LzwEncoder.lean ====
section
/-! DEFINITION. The LZW encoder operations (43_lzw_encoder.md R185 to R197). -/

namespace Sys2Proof.Machine

/-- R186: the first input byte, if there is one, is the current phrase. -/
def leFirstByte (s : State) : Res Unit :=
  if s.io.inPos < s.inLen then
    (inFetch s).bind fun b s1 => .ok () (s1.setLzw { s1.lzw with cur := b.toNat, haveCur := true })
  else .ok () s

/-- R186. -/
def leInit (s : State) : Res Unit :=
  leFirstByte
    (s.setLzw
      { s.lzw with
        width := Config.initWidth, maxCode := 1 <<< Config.initWidth, dSize := 0, eDict := [], haveCur := false })

/-- R188. -/
def leEmit (c : Nat) (s : State) : Res Unit := putBits c s.lzw.width s

/-- R189, R196: the next sequential code, for the pair. -/
def leInsert (p : Nat) (b : Byte) (s : State) : Res Nat :=
  if s.lzw.dSize = s.env.dictCap then .raised .codeSpaceExhausted s
  else
    let n := Config.nLiterals + s.lzw.dSize
    .ok n (s.setLzw { s.lzw with eDict := s.lzw.eDict.write (pairKey p b) n, dSize := s.lzw.dSize + 1 })

/-- R190, R211: WIDTH grows by one and MAXCODE with it. -/
def State.widen (s : State) : State :=
  s.setLzw { s.lzw with width := s.lzw.width + 1, maxCode := 1 <<< (s.lzw.width + 1) }

/-- R190, R191: growth at `MAXCODE - 1`, with the ceiling. -/
def leGrow (n : Nat) (s : State) : Res Unit :=
  if n = s.lzw.maxCode - 1 then
    if s.lzw.width = s.env.maxWidth then .raised .codeSpaceExhausted s else .ok () s.widen
  else .ok () s

/-- CUR is written (R187). -/
def State.setCur (s : State) (c : Nat) : State := s.setLzw { s.lzw with cur := c }

/-- R187: a hit extends the phrase; a miss emits, inserts, grows and restarts, in this order. -/
def leStep (b : Byte) (s : State) : Res Unit :=
  match s.lzw.eDict.read (pairKey s.lzw.cur b) with
  | some c => .ok () (s.setCur c)
  | none =>
    (leEmit s.lzw.cur s).bind fun _ s1 =>
      (leInsert s.lzw.cur b s1).bind fun n s2 => (leGrow n s2).bind fun _ s3 => .ok () (s3.setCur b.toNat)

/-- R192. -/
def leFinish (s : State) : Res Unit := if s.lzw.haveCur then leEmit s.lzw.cur s else .ok () s

/-- R194's loop over `n` bytes of IN. -/
def leSteps : Nat → State → Res Unit
  | 0, s => .ok () s
  | n + 1, s => (inFetch s).bind fun b s1 => (leStep b s1).bind fun _ s2 => leSteps n s2

/-- R194. -/
def leCompress (s : State) : Res Unit :=
  (leInit (s.setPhase .lEnc)).bind fun _ s1 =>
    (leSteps (s1.inLen - s1.io.inPos) s1).bind fun _ s2 => leFinish s2

/-- LE.INIT (R186). -/
def execLeInit (s : State) : Host.Outcome State Fault Refusal := (leInit s).finish

/-- LE.STEP (R187). -/
def execLeStep (b : Byte) (s : State) : Host.Outcome State Fault Refusal := (leStep b s).finish

/-- LE.EMIT (R188). -/
def execLeEmit (c : Nat) (s : State) : Host.Outcome State Fault Refusal := (leEmit c s).finish

/-- LE.INSERT (R189). -/
def execLeInsert (p : Nat) (b : Byte) (s : State) : Host.Outcome State Fault Refusal :=
  (leInsert p b s).finishWith fun n => .code (some n)

/-- LE.GROW (R190). -/
def execLeGrow (n : Nat) (s : State) : Host.Outcome State Fault Refusal := (leGrow n s).finish

/-- LE.FINISH (R192). -/
def execLeFinish (s : State) : Host.Outcome State Fault Refusal := (leFinish s).finish

/-- LE.COMPRESS (R194). -/
def execLeCompress (s : State) : Host.Outcome State Fault Refusal := (leCompress s).finish

end Sys2Proof.Machine
end

