-- ==== Sys2Proof/Machine/LzwDecoder.lean ====
section
/-! DEFINITION. The LZW decoder operations (44_lzw_decoder.md R205 to R219), and the meaning of the
F-LCODE item it reads (log entries 5 and 6). -/

namespace Sys2Proof.Machine

/-- R206. -/
def ldInit (s : State) : Res Unit :=
  .ok ()
    (s.setLzw
      { s.lzw with
        width := Config.initWidth, maxCode := 1 <<< Config.initWidth, dSize := 0, dDict := [], c2Valid := false,
        c1Held := false })

/-- R207: the four tests in order. -/
def ldReadCode (s : State) : Res (Option Nat) :=
  if s.remaining < 8 then .ok none s
  else if s.env.maxWidth < s.lzw.width then .raised .codeSpaceExhausted s
  else if s.remaining < s.lzw.width then .raised .corruptStream s
  else getBits s.lzw.width s

/-- R39: one table entry, by code. -/
def readDict (c : Nat) (s : State) : Res DictEntry :=
  match s.lzw.dDict.read (c - Config.nLiterals) with
  | none => .stuck (.unwrittenEntry .dDict)
  | some e => .ok e s

/-- R209's loop; a chain has at most D_SIZE links. -/
def firstLoop : Nat → Nat → State → Res Byte
  | 0, _, _ => .stuck .endlessChain
  | n + 1, c, s =>
    if c < Config.nLiterals then .ok (BitVec.ofNat 8 c) s
    else (readDict c s).bind fun e s1 => firstLoop n e.pred s1

/-- R209. -/
def ldFirst (c : Nat) (s : State) : Res Byte := firstLoop (s.lzw.dSize + 1) c s

/-- R210: XSTK is written. -/
def State.setXstk (s : State) (x : List Byte) : State := s.setLzw { s.lzw with xstk := x }

/-- R210: the chain is walked once, pushing the appended bytes on XSTK, the literal last. -/
def pushChain : Nat → Nat → State → Res Unit
  | 0, _, _ => .stuck .endlessChain
  | n + 1, c, s =>
    if c < Config.nLiterals then .ok () (s.setXstk (BitVec.ofNat 8 c :: s.lzw.xstk))
    else (readDict c s).bind fun e s1 => pushChain n e.pred (s1.setXstk (e.byte :: s1.lzw.xstk))

/-- R210: XSTK is popped to OUT. -/
def popStack : List Byte → State → Res Unit
  | [], s => .ok () s
  | b :: bs, s => (outAppend b s).bind fun _ s1 => popStack bs (s1.setXstk bs)

/-- R210. -/
def ldExpand (c : Nat) (s : State) : Res Unit :=
  (pushChain (s.lzw.dSize + 1) c (s.setXstk [])).bind fun _ s1 => popStack s1.lzw.xstk s1

/-- R211: growth at `MAXCODE - 2`, with no ceiling. -/
def ldGrow (n : Nat) (s : State) : Res Unit := .ok () (if n = s.lzw.maxCode - 2 then s.widen else s)

/-- R213: the new entry, at index D_SIZE. -/
def ldAppend (fb : Byte) (s : State) : Res Unit :=
  if s.lzw.dSize = s.env.dictCap then .raised .codeSpaceExhausted s
  else
    .ok ()
      (s.setLzw
        { s.lzw with
          dDict := s.lzw.dDict.write s.lzw.dSize { pred := s.lzw.c1, byte := fb }, dSize := s.lzw.dSize + 1 })

/-- R213 but for its last line: what is done with C1 and C2 before the next code is read. -/
def ldStepBody (s : State) : Res Unit :=
  let next := Config.nLiterals + s.lzw.dSize
  if next < s.lzw.c2 then .raised .corruptStream s
  else
    (ldFirst (if s.lzw.c2 = next then s.lzw.c1 else s.lzw.c2) s).bind fun fb s1 =>
      (ldExpand s1.lzw.c1 s1).bind fun _ s2 =>
        (ldAppend fb s2).bind fun _ s3 => ldGrow next (s3.setLzw { s3.lzw with c1 := s3.lzw.c2 })

/-- A code register holds a code of MAX_WIDTH bits, and no rule says which after a read that gave none: a
free value (log entry 16). -/
def State.unstatedCode (s : State) : Nat := (Config.freeCode s.free).toNat % 2 ^ s.env.maxWidth

/-- R217: C1 after a read that gave no code. -/
def State.loseC1 (s : State) : State :=
  { s with lzw := { s.lzw with c1 := s.unstatedCode }, free := s.free + 1 }

/-- R213, R217: C2 and C2_VALID after a read that gave no code. -/
def State.loseC2 (s : State) : State :=
  { s with lzw := { s.lzw with c2 := s.unstatedCode, c2Valid := false }, free := s.free + 1 }

/-- R213, R217: C2 and C2_VALID after a read. -/
def State.setC2 (s : State) (c : Option Nat) : State :=
  match c with
  | none => s.loseC2
  | some c => s.setLzw { s.lzw with c2 := c, c2Valid := true }

/-- R213's last line. -/
def readC2 (s : State) : Res Unit := (ldReadCode s).bind fun c s1 => .ok () (s1.setC2 c)

/-- R213. -/
def ldStep (s : State) : Res Unit := (ldStepBody s).bind fun _ s1 => readC2 s1

/-- R216. -/
def ldFlush (s : State) : Res Unit := ldExpand s.lzw.c1 s

/-- R217's loop. A step that goes on consumes at least 9 bits: `n` starts above REMAINING. -/
def ldSteps : Nat → State → Res Unit
  | 0, s => .ok () s
  | n + 1, s => if s.lzw.c2Valid then (ldStep s).bind fun _ s1 => ldSteps n s1 else .ok () s

/-- R215, R217: the first code of a stream must be a literal. -/
def takeFirstCode (c : Nat) (s : State) : Res Unit :=
  let s1 := s.setLzw { s.lzw with c1 := c, c1Held := true }
  if Config.nLiterals ≤ c then .raised .corruptStream s1 else .ok () s1

/-- R217. -/
def ldDecompress (s : State) : Res Unit :=
  (ldInit (s.setPhase .lDec)).bind fun _ s1 =>
    (ldReadCode s1).bind fun c s2 =>
      match c with
      | none => .ok () s2.loseC1
      | some c =>
        (takeFirstCode c s2).bind fun _ s3 =>
          (readC2 s3).bind fun _ s4 => (ldSteps (s4.remaining + 1) s4).bind fun _ s5 => ldFlush s5

/-- R207 with the item's `w` bits as all the reader has: the code is the item's first WIDTH bits. -/
def itemCode (w c : Nat) (s : State) : Res (Option Nat) :=
  if w < 8 then .ok none s
  else if s.env.maxWidth < s.lzw.width then .raised .codeSpaceExhausted s
  else if w < s.lzw.width then .raised .corruptStream s
  else .ok (some (c >>> (w - s.lzw.width))) s

/-- R217 on one code read: the first code of the stream stands in C1; every later one is C2 and its step
runs up to the next read (log entry 6). -/
def takeCode (c : Option Nat) (s : State) : Res Unit :=
  match c with
  | none => .ok () (if s.lzw.c1Held then s.setC2 none else s.loseC1)
  | some c => if s.lzw.c1Held then ldStepBody (s.setC2 (some c)) else takeFirstCode c s

/-- LD.INIT (R206). -/
def execLdInit (s : State) : Host.Outcome State Fault Refusal := (ldInit s).finish

/-- LD.READCODE (R207). -/
def execLdReadCode (s : State) : Host.Outcome State Fault Refusal := (ldReadCode s).finishWith .code

/-- LD.FIRST (R209). -/
def execLdFirst (c : Nat) (s : State) : Host.Outcome State Fault Refusal := (ldFirst c s).finishWith .byte

/-- LD.EXPAND (R210). -/
def execLdExpand (c : Nat) (s : State) : Host.Outcome State Fault Refusal := (ldExpand c s).finish

/-- LD.GROW (R211). -/
def execLdGrow (n : Nat) (s : State) : Host.Outcome State Fault Refusal := (ldGrow n s).finish

/-- LD.STEP (R213). -/
def execLdStep (s : State) : Host.Outcome State Fault Refusal := (ldStep s).finish

/-- LD.FLUSH (R216). -/
def execLdFlush (s : State) : Host.Outcome State Fault Refusal := (ldFlush s).finish

/-- LD.DECOMPRESS (R217). -/
def execLdDecompress (s : State) : Host.Outcome State Fault Refusal := (ldDecompress s).finish

/-- LCODE (R101, R106): what LD.READCODE and the loop of LD.DECOMPRESS do on reading it. -/
def execLcode (w c : Nat) (s : State) : Host.Outcome State Fault Refusal :=
  ((itemCode w c s).bind fun c s1 => takeCode c s1).finish

end Sys2Proof.Machine
end

