-- ==== Sys2Proof/Machine/Dispatcher.lean ====
section
/-! DEFINITION. The Container Dispatcher (45_dispatcher.md R225 to R234): the host's command write, the
two commands, and the meaning of the F-CONT tag it reads (log entry 5). -/

namespace Sys2Proof.Machine

/-- R226: METHOD of the running command. -/
def State.method (s : State) : Byte := methodField s.regs.cmd

/-- R226: the selected codec. -/
def encodeWith (method : Byte) (s : State) : Res Unit :=
  if method = Config.tagHuffman then heCompress s else leCompress s

/-- R226, from its first line to STATUS = DONE. -/
def compressCall (s : State) : Res Unit :=
  let s0 := s.setPhase .tag
  if s0.method ≠ Config.tagHuffman ∧ s0.method ≠ Config.tagLzw then .raised .unknownAlgorithm s0
  else
    (openWriter s0).bind fun _ s1 =>
      (putNBytes [s0.method] s1).bind fun _ s2 =>
        (encodeWith s0.method s2).bind fun _ s3 =>
          (closeWriter (s3.setPhase .close)).bind fun _ s4 => .ok () s4.callDone

/-- R229, R231: what the tag selects. -/
def routeTag (t : Byte) (s : State) : Res Unit :=
  if t = Config.tagHuffman then hdDecompress s
  else if t = Config.tagLzw then ldDecompress s
  else .raised .corruptStream s

/-- R229 from the tag on, to STATUS = DONE. -/
def afterTag (t : Byte) (s : State) : Res Unit := (routeTag t s).bind fun _ s1 => .ok () s1.callDone

/-- R229, R230. -/
def decompressCall (s : State) : Res Unit :=
  (openReader (s.setPhase .tag)).bind fun _ s1 =>
    (getNBytes 1 s1).bind fun t s2 =>
      match t with
      | some [t] => afterTag t s2
      | _ => .raised .corruptStream s2

/-- R225: a host write of `w` to CMD. Ignored while BUSY; a reserved OP changes only CMD (R92). -/
def hostWrite (w : BitVec 16) (s : State) : Host.Outcome State Fault Refusal :=
  if s.regs.status = .busy then .next s
  else if opField w = 0x01 then (compressCall (s.setCmd w).callStart).finish
  else if opField w = 0x02 then (decompressCall (s.setCmd w).callStart).finish
  else .next (s.setCmd w)

/-- COMPRESS (R226): the host's write of its word, and the call. -/
def execCompress (method : Byte) (s : State) : Host.Outcome State Fault Refusal := hostWrite (cmdWordOf method 0x01) s

/-- DECOMPRESS (R229): the host's write of its word, and the call. -/
def execDecompress (method : Byte) (s : State) : Host.Outcome State Fault Refusal := hostWrite (cmdWordOf method 0x02) s

/-- CMD.RESERVED (R92): the host's write of a word that selects nothing. -/
def execCmdReserved (method op : Byte) (s : State) : Host.Outcome State Fault Refusal :=
  hostWrite (cmdWordOf method op) s

/-- TAG.HUFFMAN (R95): what the dispatcher does on reading it. -/
def execTagHuffman (s : State) : Host.Outcome State Fault Refusal := (afterTag Config.tagHuffman s).finish

/-- TAG.LZW (R95): what the dispatcher does on reading it. -/
def execTagLzw (s : State) : Host.Outcome State Fault Refusal := (afterTag Config.tagLzw s).finish

/-- TAG.RESERVED (R104, R231): what the dispatcher does on reading it. -/
def execTagReserved (t : Byte) (s : State) : Host.Outcome State Fault Refusal := (afterTag t s).finish

end Sys2Proof.Machine
end

