-- ==== Sys2Proof/Machine/Dispatch.lean ====
section
/-! DEFINITION. The meaning of every instruction: one arm per constructor of Instr, in the table's order. -/

namespace Sys2Proof.Machine

def exec (i : Instr) (s : State) : Host.Outcome State Fault Refusal :=
  match i with
  | .compress method => Sys2Proof.Machine.execCompress method s
  | .decompress method => Sys2Proof.Machine.execDecompress method s
  | .cmdReserved method op => Sys2Proof.Machine.execCmdReserved method op s
  | .tagHuffman => Sys2Proof.Machine.execTagHuffman s
  | .tagLzw => Sys2Proof.Machine.execTagLzw s
  | .tagReserved tag => Sys2Proof.Machine.execTagReserved tag s
  | .hnodeLeaf sym => Sys2Proof.Machine.execHnodeLeaf sym s
  | .hnodeInternal => Sys2Proof.Machine.execHnodeInternal s
  | .hcode path => Sys2Proof.Machine.execHcode path s
  | .lcode width code => Sys2Proof.Machine.execLcode width code s
  | .bcOpenW => Sys2Proof.Machine.execBcOpenW s
  | .bcOpenR => Sys2Proof.Machine.execBcOpenR s
  | .bcPutBit b => Sys2Proof.Machine.execBcPutBit b s
  | .bcPutNBytes bytes => Sys2Proof.Machine.execBcPutNBytes bytes s
  | .bcClose => Sys2Proof.Machine.execBcClose s
  | .bcGetBit => Sys2Proof.Machine.execBcGetBit s
  | .bcGetNBytes n => Sys2Proof.Machine.execBcGetNBytes n s
  | .bcPutBits v n => Sys2Proof.Machine.execBcPutBits v n s
  | .bcEof => Sys2Proof.Machine.execBcEof s
  | .bcGetBits n => Sys2Proof.Machine.execBcGetBits n s
  | .heFreq => Sys2Proof.Machine.execHeFreq s
  | .heInsert t w => Sys2Proof.Machine.execHeInsert t w s
  | .heLeaves => Sys2Proof.Machine.execHeLeaves s
  | .heCombine => Sys2Proof.Machine.execHeCombine s
  | .heBuild => Sys2Proof.Machine.execHeBuild s
  | .heSer t => Sys2Proof.Machine.execHeSer t s
  | .heTable => Sys2Proof.Machine.execHeTable s
  | .heRewind => Sys2Proof.Machine.execHeRewind s
  | .heEncode => Sys2Proof.Machine.execHeEncode s
  | .heCompress => Sys2Proof.Machine.execHeCompress s
  | .hdDeser => Sys2Proof.Machine.execHdDeser s
  | .hdSymbol => Sys2Proof.Machine.execHdSymbol s
  | .hdDecompress => Sys2Proof.Machine.execHdDecompress s
  | .leInit => Sys2Proof.Machine.execLeInit s
  | .leStep b => Sys2Proof.Machine.execLeStep b s
  | .leEmit c => Sys2Proof.Machine.execLeEmit c s
  | .leInsert p b => Sys2Proof.Machine.execLeInsert p b s
  | .leGrow n => Sys2Proof.Machine.execLeGrow n s
  | .leFinish => Sys2Proof.Machine.execLeFinish s
  | .leCompress => Sys2Proof.Machine.execLeCompress s
  | .ldInit => Sys2Proof.Machine.execLdInit s
  | .ldReadCode => Sys2Proof.Machine.execLdReadCode s
  | .ldFirst c => Sys2Proof.Machine.execLdFirst c s
  | .ldExpand c => Sys2Proof.Machine.execLdExpand c s
  | .ldGrow n => Sys2Proof.Machine.execLdGrow n s
  | .ldStep => Sys2Proof.Machine.execLdStep s
  | .ldFlush => Sys2Proof.Machine.execLdFlush s
  | .ldDecompress => Sys2Proof.Machine.execLdDecompress s

end Sys2Proof.Machine
end

