-- ==== Sys2Proof/Machine/Step.lean ====
section
/-! DEFINITION. One step: the host's next move (log entry 2). The engine runs a call whole within the
move that starts it (R71; log entry 1), so between steps the block waits. -/

namespace Sys2Proof.Machine

/-- R273: the host supplies IN. While BUSY it has no such move and IN stays (R282, U6). DESIGN CHOICE (log
entry 25): IN_POS stays, though the new IN may be shorter than it; call start sets it to 0 (R25). -/
def State.supplied (s : State) (bytes : List Byte) : State :=
  if s.regs.status = .busy then s else { s with io := { s.io with inp := bytes } }

/-- R270: hardware reset. The parameters and the oracle are the environment's and stay, as do the host's
further moves (log entry 22). -/
def State.hardReset (s : State) : State := { State.reset with env := s.env, moves := s.moves }

/-- One item put before the block, decoded and run. -/
def runItem (e : Encoded) (s : State) : Host.Outcome State Fault Refusal :=
  match decode e with
  | .ok i => exec i s
  | .reject why => .refused (.undecodable why)

/-- One step of the machine: the next move of the host, or, where there is none, waiting (R272, R260). -/
def step (s : State) : Host.Outcome State Fault Refusal :=
  match s.moves with
  | [] => .next s
  | .supply bytes :: rest => .next ({ s with moves := rest }.supplied bytes)
  | .reset :: rest => .next { s with moves := rest }.hardReset
  | .issue e :: rest => runItem e { s with moves := rest }

/-- A row's word put where `step` takes its next item. -/
def State.withFetchWord (s : State) (nbits w : Nat) : State :=
  { s with moves := .issue (tableWord nbits w) :: s.moves }

end Sys2Proof.Machine
end

