-- ==== Sys2Proof/Safety.lean ====
section
/-! DEFINITION. The words the claims use: what bits a writer has sent and a reader has before it, what tree
an arena index stands for and what string a code stands for, what an operation leaves alone, and the
invariant of the machine. Nothing here runs. -/

namespace Sys2Proof.Machine

/-! ### The two streams as bit strings (R65, R68) -/

/-- R244: the oracle at its default, "never". -/
abbrev State.noIoFault (s : State) : Prop := s.env.ioFaults = []

/-- R27: the pending bits, in travel order. -/
def State.pendingBits (s : State) : List Bool := (byteBits s.bc.wAcc).take s.bc.wCnt.val

/-- Every bit put so far: those in OUT and those pending (R42). -/
def State.sentBits (s : State) : List Bool := s.io.out.flatMap byteBits ++ s.pendingBits

/-- R27: the bits of W_ACC that are not pending are zero. -/
abbrev State.writerClean (s : State) : Prop :=
  (byteBits s.bc.wAcc).drop s.bc.wCnt.val = List.replicate (8 - s.bc.wCnt.val) false

/-- R28: the bits the reader can still deliver, in travel order. -/
def State.unreadBits (s : State) : List Bool :=
  (byteBits s.bc.rCur).drop (8 - s.bc.rCnt.val) ++ (s.io.inp.drop s.io.inPos).flatMap byteBits

/-- R125: between operations R_CNT is in 0..7. -/
abbrev State.readerBetween (s : State) : Prop := s.bc.rCnt.val ≤ 7

/-- The operations that only write: nothing else changes, and no byte of OUT is rewritten (R26). -/
def OnlyWriter (s t : State) : Prop :=
  t = { s with
        io := { s.io with out := t.io.out }
        bc := { s.bc with wAcc := t.bc.wAcc, wCnt := t.bc.wCnt }
        env := { s.env with accNo := t.env.accNo } } ∧
  ∀ a, a < s.outLen → t.readOut a = s.readOut a

/-- From `s` to `t` exactly these bits were put, and nothing but the writer changed. -/
def Sends (s t : State) (bits : List Bool) : Prop :=
  OnlyWriter s t ∧ t.writerClean ∧ t.sentBits = s.sentBits ++ bits

/-- The operations that only read: nothing else changes but the returned value. -/
def OnlyReader (s t : State) : Prop :=
  t = { s with
        io := { s.io with inPos := t.io.inPos }
        bc := { s.bc with rCur := t.bc.rCur, rCnt := t.bc.rCnt }
        env := { s.env with accNo := t.env.accNo }
        result := t.result }

/-- From `s` to `t` the reader consumed exactly `bits`, and nothing but the reader changed. -/
def Takes (s t : State) (bits : List Bool) : Prop :=
  OnlyReader s t ∧ t.readerBetween ∧ s.unreadBits = bits ++ t.unreadBits

/-- The zero bits up to the next byte boundary after `m` bits (R94, R133). -/
def padding (m : Nat) : List Bool := List.replicate ((8 - m % 8) % 8) false

/-- Bytes appended straight to OUT (R62): OUT, the access count and what `t` says of `u` alone. -/
def Appends (s t : State) (bytes : List Byte) : Prop :=
  t.io.out = s.io.out ++ bytes ∧
  t = { s with io := { s.io with out := t.io.out }, env := { s.env with accNo := t.env.accNo } }

/-! ### Trees (R11, R31) -/

/-- R31: `Tree ::= Leaf(sym) | Node(zero, one)`. -/
inductive HuffTree where
  | leaf (sym : Nat)
  | node (zero one : HuffTree)
deriving DecidableEq, Repr

/-- R97, `SER`. -/
def HuffTree.ser : HuffTree → List Bool
  | .leaf s => true :: bitsOfNat 16 s
  | .node z o => false :: (z.ser ++ o.ser)

/-- The symbols of the leaves, zero-child first. -/
def HuffTree.leaves : HuffTree → List Nat
  | .leaf s => [s]
  | .node z o => z.leaves ++ o.leaves

/-- The number of nodes. -/
def HuffTree.size : HuffTree → Nat
  | .leaf _ => 1
  | .node z o => 1 + z.size + o.size

/-- The depth of the deepest leaf. -/
def HuffTree.depth : HuffTree → Nat
  | .leaf _ => 0
  | .node z o => 1 + max z.depth o.depth

/-- R99: the path to the first leaf of a symbol, root end first. -/
def HuffTree.pathTo : HuffTree → Nat → Option (List Bool)
  | .leaf s, x => if s = x then some [] else none
  | .node z o, x =>
    match z.pathTo x with
    | some p => some (false :: p)
    | none => (o.pathTo x).map (true :: ·)

/-- R99, `CODE(s)`, for a symbol the tree has. -/
def HuffTree.code (t : HuffTree) (x : Nat) : List Bool := (t.pathTo x).getD []

/-- R173: the leaf a bit string leads to and the bits after it; `none` where the bits run out. -/
def HuffTree.walk : HuffTree → List Bool → Option (Nat × List Bool)
  | .leaf s, bits => some (s, bits)
  | .node _ _, [] => none
  | .node z o, b :: bs => if b then o.walk bs else z.walk bs

/-- R31: arena index `i` stands for the tree. -/
def Denotes (m : Memory NodeEntry) : HuffTree → Nat → Prop
  | .leaf s, i => i < Config.nodeCap ∧ m.read i = some (.leaf s)
  | .node z o, i =>
    i < Config.nodeCap ∧
      ∃ a b, m.read i = some (.internal (some a) (some b)) ∧ Denotes m z a ∧ Denotes m o b

/-- R141: the symbols in the table, ascending. -/
def State.present (s : State) : List Nat := (List.range Config.nSymbols).filter (fun sym => 0 < s.freqOf sym)

/-- R32: descending weight. -/
abbrev Descending (l : List ListEntry) : Prop := l.Pairwise (fun a b => b.weight ≤ a.weight)

/-- R142: the index of a new entry of weight `w` in a sorted list, the number of entries not lighter. -/
def insertAt (w : Nat) (l : List ListEntry) : Nat := l.countP (fun e => decide (w ≤ e.weight))

/-- R96: the bits of a Huffman payload before its padding. -/
def huffmanBits (t : HuffTree) (bytes : List Byte) : List Bool :=
  t.ser ++ bytes.flatMap (fun b => t.code b.toNat) ++ t.code Config.eosValue

/-- R140: the occurrences of a symbol in the input, EOS with count 1. -/
def countOf (bytes : List Byte) (sym : Nat) : Nat :=
  if sym = Config.eosValue then 1 else bytes.countP (fun b => b.toNat = sym)

/-- R142 on abstract trees (R32), by its closed form. -/
def treeInsert (e : HuffTree × Nat) (l : List (HuffTree × Nat)) : List (HuffTree × Nat) :=
  let k := l.countP (fun x => e.2 ≤ x.2)
  l.take k ++ e :: l.drop k

/-- R144 and R146 on abstract trees, `n` merges at most. -/
def mergeTrees : Nat → List (HuffTree × Nat) → List (HuffTree × Nat)
  | 0, l => l
  | n + 1, l =>
    match l.reverse with
    | a :: b :: rest => mergeTrees n (treeInsert (.node a.1 b.1, a.2 + b.2) rest.reverse)
    | _ => l

/-- R143: the initial working list, on abstract trees. -/
def initialTrees (freq : Nat → Nat) : List (HuffTree × Nat) :=
  ((List.range Config.nSymbols).filter (fun sym => 0 < freq sym)).foldl
    (fun l sym => treeInsert (.leaf sym, freq sym) l) []

/-- R143 to R147 with the tree written out (the reference the arena is held against): the tree HE.BUILD makes
of a Frequency Table. -/
def huffmanTree (freq : Nat → Nat) : HuffTree :=
  match mergeTrees (initialTrees freq).length (initialTrees freq) with
  | [] => .leaf Config.eosValue
  | e :: _ => e.1

/-- R97: the F-HNODE items of a tree, in the order they travel. -/
def HuffTree.items : HuffTree → List Instr
  | .leaf s => [.hnodeLeaf (BitVec.ofNat 16 s)]
  | .node z o => .hnodeInternal :: (z.items ++ o.items)

/-- R98, R105, R171: a tree the deserialiser accepts when `n` nodes have been counted before it. -/
abbrev HuffTree.legalAfter (n : Nat) (t : HuffTree) : Prop :=
  (∀ sym ∈ t.leaves, sym ≤ Config.eosValue) ∧ n + t.size ≤ Config.nodeCap

/-- The code CTAB holds for a symbol (R34). -/
def State.codeOf (s : State) (sym : Nat) : List Bool := ((s.huf.ctab.read sym).map (·.bits)).getD []

/-! ### LZW strings (R210) -/

/-- R210, `STR(c)`: the byte string a code stands for. -/
inductive Spells (d : Memory DictEntry) : Nat → List Byte → Prop where
  | literal (b : Byte) : Spells d b.toNat [b]
  | entry (i : Nat) (e : DictEntry) (str : List Byte) :
      d.read i = some e → Spells d e.pred str → Spells d (Config.nLiterals + i) (str ++ [e.byte])

/-- R39: the table has the entries 0 .. D_SIZE - 1, each naming an earlier code. -/
abbrev DictOk (s : State) : Prop :=
  ∀ i, i < s.lzw.dSize → ∃ e, s.lzw.dDict.read i = some e ∧ e.pred < Config.nLiterals + i

/-- R7, R102: `bitlen(255 + k)`, the width of a stream's k-th code, k from 1. -/
def codeWidth (k : Nat) : Nat := (255 + k).size

/-- R100, R102: codes as the stream carries them, the first of them the stream's k-th. -/
def codeBits : Nat → List Nat → List Bool
  | _, [] => []
  | k, c :: cs => bitsOfNat (codeWidth k) c ++ codeBits (k + 1) cs

/-- R190: WIDTH after the encoder has assigned code `n`. -/
def encoderWidth (l : Lzw) (n : Nat) : Nat := if n = l.maxCode - 1 then l.width + 1 else l.width

/-- R211: WIDTH after the decoder has appended code `n`. -/
def decoderWidth (l : Lzw) (n : Nat) : Nat := if n = l.maxCode - 2 then l.width + 1 else l.width

/-- R37: WIDTH is at least 9 and MAXCODE is `1 << WIDTH`. -/
abbrev WidthOk (l : Lzw) : Prop := Config.initWidth ≤ l.width ∧ l.maxCode = 2 ^ l.width

/-- R285, R262: a parameter setting with room for a stream of `k` codes, `MAX_WIDTH >= bitlen(255 + k)` and
`DICT_CAP >= k - 1`: neither the ceiling (R191, R207) nor the capacity (R196) is met. -/
abbrev RoomFor (e : Env) (k : Nat) : Prop :=
  Config.initWidth ≤ e.maxWidth ∧ codeWidth k ≤ e.maxWidth ∧ k ≤ e.dictCap + 1

/-- R205 with the strings written out (the reference the compact table is held against): the string of a
code over a table of strings. -/
def lzwString (table : List (List Byte)) (c : Nat) : Option (List Byte) :=
  if c < Config.nLiterals then some [BitVec.ofNat 8 c] else table[c - Config.nLiterals]?

/-- R213, R214, R216 with the strings written out: what the code `c1` and the codes after it stand for. -/
def lzwRest : List (List Byte) → Nat → List Nat → Option (List Byte)
  | table, c1, [] => lzwString table c1
  | table, c1, c2 :: cs =>
    match lzwString table c1, lzwString table (if c2 = Config.nLiterals + table.length then c1 else c2) with
    | some str, some (x :: _) => (lzwRest (table ++ [str ++ [x]]) c2 cs).map (str ++ ·)
    | _, _ => none

/-- R217 with the strings written out: the text a stream of codes stands for. -/
def lzwText : List Nat → Option (List Byte)
  | [] => some []
  | c :: cs => if c < Config.nLiterals then lzwRest [] c cs else none

/-- R38: the code of a phrase over a table of strings. -/
def phraseCode (table : List (List Byte)) (phrase : List Byte) : Nat :=
  match phrase with
  | [b] => b.toNat
  | _ => Config.nLiterals + table.idxOf phrase

/-- R187 and R192 with the strings written out: the codes sent for the current phrase and the bytes after it. -/
def lzwCodesFrom : List (List Byte) → List Byte → List Byte → List Nat
  | table, cur, [] => [phraseCode table cur]
  | table, cur, b :: bs =>
    if (cur ++ [b]) ∈ table then lzwCodesFrom table (cur ++ [b]) bs
    else phraseCode table cur :: lzwCodesFrom (table ++ [cur ++ [b]]) [b] bs

/-- R194 with the strings written out (the reference the pair dictionary is held against). -/
def lzwCodes : List Byte → List Nat
  | [] => []
  | b :: bs => lzwCodesFrom [] [b] bs

/-- R213 up to its last line: from `s` to `t`, C1's string went to OUT, the entry (C1, first byte of C2's
string) was appended, C1 took C2's place and the width grew where it had to. -/
def StepEffect (s t : State) : Prop :=
  ∃ str1 strx fb,
    Spells s.lzw.dDict s.lzw.c1 str1 ∧
    Spells s.lzw.dDict (if s.lzw.c2 = Config.nLiterals + s.lzw.dSize then s.lzw.c1 else s.lzw.c2) strx ∧
    strx.head? = some fb ∧
    t.io.out = s.io.out ++ str1 ∧
    t.lzw.dDict = s.lzw.dDict.write s.lzw.dSize { pred := s.lzw.c1, byte := fb } ∧
    t.lzw.dSize = s.lzw.dSize + 1 ∧
    t.lzw.c1 = s.lzw.c2 ∧
    t.lzw.width = decoderWidth s.lzw (Config.nLiterals + s.lzw.dSize) ∧
    (WidthOk s.lzw → WidthOk t.lzw) ∧
    t.lzw.eDict = s.lzw.eDict ∧ t.lzw.cur = s.lzw.cur ∧ t.lzw.haveCur = s.lzw.haveCur ∧
    t.lzw.c1Held = s.lzw.c1Held

/-- R213's precondition, with a legal C2 (R215) and room for the entry (R196). -/
abbrev StepReady (s : State) : Prop :=
  DictOk s ∧ s.lzw.c1 < Config.nLiterals + s.lzw.dSize ∧ s.lzw.c2 ≤ Config.nLiterals + s.lzw.dSize ∧
  s.lzw.dSize ≠ s.env.dictCap

/-! ### Runs, calls and the invariant -/

/-- R44: what both of its columns give every piece of per-call state they specify. -/
abbrev PerCallFresh (s : State) : Prop :=
  s.io.inPos = 0 ∧ s.io.out = [] ∧ s.bc.wAcc = 0 ∧ s.bc.wCnt = 0 ∧ s.bc.rCur = 0 ∧ s.bc.rCnt = 0 ∧
  s.huf.freq = [] ∧ s.huf.nNodes = 0 ∧ s.huf.list = [] ∧ s.huf.ctab = [] ∧ s.huf.hstk = [] ∧
  s.huf.hpath = [] ∧ s.huf.dstk = [] ∧ s.lzw.xstk = [] ∧ s.lzw.width = 9 ∧ s.lzw.maxCode = 512 ∧
  s.lzw.dSize = 0 ∧ s.lzw.eDict = [] ∧ s.lzw.dDict = [] ∧ s.lzw.haveCur = false ∧ s.lzw.c2Valid = false

/-- A list of operations, one after the other. -/
def runAll : List Instr → State → Host.Outcome State Fault Refusal
  | [], s => .next s
  | i :: is, s =>
    match exec i s with
    | .next t => runAll is t
    | .fault f => .fault f
    | .refused r => .refused r

/-- The operations that put bits (R122, R123, R128). -/
def isWriteOp : Instr → Bool
  | .bcPutBit _ => true
  | .bcPutNBytes _ => true
  | .bcPutBits _ _ => true
  | _ => false

/-- The bits such an operation puts. -/
def bitsPut : Instr → List Bool
  | .bcPutBit b => [b]
  | .bcPutNBytes bytes => bytes.flatMap byteBits
  | .bcPutBits v n => bitsOfNat n v
  | _ => []

/-- The two host commands (R91). -/
def isCallOp : Instr → Bool
  | .compress _ => true
  | .decompress _ => true
  | _ => false

/-- The items whose reading can end a call (R173 with R175, R229): the two tags that select a codec, and a
Huffman code (log entry 5). -/
def endsCall : Instr → Bool
  | .tagHuffman => true
  | .tagLzw => true
  | .hcode _ => true
  | _ => false

/-- R289: the call ended as it should. -/
abbrev State.completed (s : State) : Prop := s.regs.status = .done ∧ s.regs.err = none ∧ s.regs.phase = .idle

/-- R250, R289: the call was aborted with this kind. -/
abbrev State.failedWith (s : State) (k : ErrKind) : Prop :=
  s.regs.status = .failed ∧ s.regs.err = some k ∧ s.regs.phase = .idle

/-- R245: the error kinds an operation can raise. For the items of R90 these are those of the operations that
read them (log entry 5). -/
def raisable : Instr → List ErrKind
  | .compress _ => [.unknownAlgorithm, .codeSpaceExhausted, .ioFailure]
  | .decompress _ => [.corruptStream, .codeSpaceExhausted, .ioFailure]
  | .cmdReserved _ _ => []
  | .tagHuffman => [.corruptStream, .ioFailure]
  | .tagLzw => [.corruptStream, .codeSpaceExhausted, .ioFailure]
  | .tagReserved _ => [.corruptStream]
  | .hnodeLeaf _ => [.corruptStream]
  | .hnodeInternal => [.corruptStream]
  | .hcode _ => [.corruptStream, .ioFailure]
  | .lcode _ _ => [.corruptStream, .codeSpaceExhausted, .ioFailure]
  | .bcOpenW | .bcOpenR | .bcEof => []
  | .bcPutBit _ | .bcPutNBytes _ | .bcClose | .bcPutBits _ _ => [.ioFailure]
  | .bcGetBit | .bcGetNBytes _ | .bcGetBits _ => [.ioFailure]
  | .heFreq | .heSer _ | .heRewind | .heEncode | .heCompress => [.ioFailure]
  | .heInsert _ _ | .heLeaves | .heCombine | .heBuild | .heTable => []
  | .hdDeser | .hdSymbol | .hdDecompress => [.corruptStream, .ioFailure]
  | .leInit | .leEmit _ | .leFinish => [.ioFailure]
  | .leStep _ | .leCompress => [.codeSpaceExhausted, .ioFailure]
  | .leInsert _ _ | .leGrow _ => [.codeSpaceExhausted]
  | .ldInit | .ldFirst _ | .ldGrow _ => []
  | .ldExpand _ | .ldFlush => [.ioFailure]
  | .ldReadCode | .ldStep | .ldDecompress => [.corruptStream, .codeSpaceExhausted, .ioFailure]

/-- R284, R43: what a call's result may depend on beside CMD: IN, the parameters, and the oracle's answers for
the call about to start, whatever its number (log entries 8, 9 and 10). -/
abbrev SameCallArguments (s t : State) : Prop :=
  s.io.inp = t.io.inp ∧ s.env.maxWidth = t.env.maxWidth ∧ s.env.dictCap = t.env.dictCap ∧
  s.env.seekable = t.env.seekable ∧
  ∀ a, (s.env.callNo + 1, a) ∈ s.env.ioFaults ↔ (t.env.callNo + 1, a) ∈ t.env.ioFaults

/-- R244: the oracle replaced by another. -/
def State.withOracle (s : State) (f : List (Nat × Nat)) : State := { s with env := { s.env with ioFaults := f } }

/-- The index of an operation's first access: a call counts its own from 0 (log entry 8). -/
def firstAccess (i : Instr) (s : State) : Nat := if isCallOp i then 0 else s.env.accNo

/-- The bytes moved on either stream before an operation's first access: at call start there are none (R44). -/
def bytesMoved (i : Instr) (s : State) : Nat := if isCallOp i then 0 else s.io.inPos + s.outLen

/-- The operations that make a second pass over IN (R158, R160, R226). -/
def rewinds : Instr → Bool
  | .heCompress => true
  | .compress _ => true
  | _ => false

/-- IN and the parameters of R43, which no operation changes. -/
def SameArguments (s t : State) : Prop :=
  t.io.inp = s.io.inp ∧ t.env.maxWidth = s.env.maxWidth ∧ t.env.dictCap = s.env.dictCap ∧
  t.env.ioFaults = s.env.ioFaults ∧ t.env.seekable = s.env.seekable

/-- Every private memory is in its canonical form, and none lists an entry equal to what an unlisted one
reads as (a FREQ counter of 0). -/
abbrev MemoriesOk (s : State) : Prop :=
  s.huf.freq.wf = true ∧ s.huf.node.wf = true ∧ s.huf.ctab.wf = true ∧ s.lzw.eDict.wf = true ∧
  s.lzw.dDict.wf = true ∧ (∀ e ∈ s.huf.freq, e.2 ≠ 0) ∧ (∀ e ∈ s.huf.ctab, e.2.len = e.2.bits.length)

/-- The invariant every step keeps: R27's clean accumulator (while no access fails), R125's R_CNT, R32's
sorted list of at most 257, R36's stack bound, R37's MAXCODE, the memories' form, and R22 with R24: ERR
holds a kind after a failure and NONE before a call has ended. -/
abbrev Inv (s : State) : Prop :=
  (s.noIoFault → s.writerClean) ∧ s.readerBetween ∧ Descending s.huf.list ∧
  s.listLen ≤ Config.listCap ∧ s.huf.dstk.length ≤ s.huf.nNodes ∧ s.huf.dstk.length ≤ Config.nodeCap ∧
  WidthOk s.lzw ∧ MemoriesOk s ∧ (s.regs.status = .failed → s.regs.err ≠ none) ∧
  (s.regs.status = .idle ∨ s.regs.status = .busy → s.regs.err = none)

end Sys2Proof.Machine
end

