-- ==== Sys2Proof/Certificates/Slice0/Obligations.lean ====
section
/-! DEFINITION. The statements for the provers. Each is about one step of `exec` (or of `step`), over every
state that meets its hypotheses. `noIoFault` is the default oracle of R244. -/

open Sys2Proof Sys2Proof.Machine

/-! ### Reset, the host and the step -/

/-- R270 and both columns of R44: hardware reset, asserted in any state, and the acceptance of a command
leave every piece of per-call state they specify at its value. -/
def Obligations.ResetAndCallStart : Prop :=
  ∀ s : State,
    (∀ rest, s.moves = .reset :: rest →
      ∃ t, step s = .next t ∧ PerCallFresh t ∧ t.regs = { cmd := 0, status := .idle, phase := .idle, err := none }) ∧
    (∀ w, PerCallFresh (s.setCmd w).callStart ∧
      (s.setCmd w).callStart.regs = { cmd := w, status := .busy, phase := .tag, err := none } ∧
      (s.setCmd w).callStart.io.inp = s.io.inp)

/-- The machine's step (log entries 1, 2 and 3): where the host's next move is an item the decoder reads as
`i`, the step is `exec` of `i` with that move made; with no move it waits; a supply outside a call changes IN
alone (IN_POS too stays, log entry 25); a row's word put in place by `withFetchWord` is the very next
instruction. -/
def Obligations.StepRunsDecoded : Prop :=
  ∀ (s : State),
    (∀ e rest i, s.moves = .issue e :: rest → decode e = .ok i → step s = exec i { s with moves := rest }) ∧
    (∀ nbits w i, decodeTableWord nbits w = some i → step (s.withFetchWord nbits w) = exec i s) ∧
    (s.moves = [] → step s = .next s) ∧
    (∀ bytes rest, s.moves = .supply bytes :: rest → s.regs.status ≠ .busy →
      step s = .next { s with moves := rest, io := { s.io with inp := bytes } })

/-- R91, R92, R95, R97, R98, R101, R104, R109: some words, written out from the formats' own rules. -/
def Obligations.DecodeWords : Prop :=
  decode (.cmdWord 0x0101) = .ok (.compress 1) ∧
  decode (.cmdWord 0x0002) = .ok (.decompress 0) ∧
  decode (.cmdWord 0x0503) = .ok (.cmdReserved 5 3) ∧
  decode (.tagByte 0x01) = .ok .tagLzw ∧
  decode (.tagByte 0x02) = .ok (.tagReserved 2) ∧
  decode (.nodeBits [false]) = .ok .hnodeInternal ∧
  decode (.nodeBits
    [true, false, false, false, false, false, false, false, true,
      false, false, false, false, false, false, false, false]) = .ok (.hnodeLeaf 256) ∧
  decode (.lzwBits [false, false, true, false, false, false, false, false, true]) = .ok (.lcode 9 65) ∧
  decode (.uop [0x14]) = .ok .bcClose ∧
  decode (.uop [0x21, 0x00, 0x05, 0, 0, 0, 0, 0, 0, 0x01, 0x02]) = .ok (.heInsert 5 258) ∧
  decode (.uop [0x31]) = .ok .hdSymbol ∧
  decode (.uop [0x43, 0, 0, 0, 0, 0, 0, 0x01, 0x00, 0x41]) = .ok (.leInsert 256 65) ∧
  decode (.uop [0x55]) = .ok .ldStep ∧
  decode (.uop [0x1A]) = .reject .unknownUop

/-- R90, R91, R97, R99, R101, R109: every well-formed instruction, with every operand its encoding admits, is
read back from its encoding. -/
def Obligations.DecodeEncode : Prop := ∀ i : Instr, i.wellFormed = true → decode (encode i) = .ok i

/-- R46 with R22, R24, R27, R32, R36, R37: the invariant holds after reset. -/
def Obligations.InvAtReset : Prop := Inv State.reset

/-- R46 with R22, R24, R27, R32, R36, R37: every step from any state that meets the invariant gives a state
that meets it. -/
def Obligations.InvKept : Prop := ∀ s t : State, Inv s → step s = .next t → Inv t

/-- R25, R26, R43, R46: no operation changes IN or a parameter; IN_POS stays in range; and an operation that
is not a host command never removes or rewrites a byte of OUT. -/
def Obligations.StreamsKept : Prop :=
  ∀ (i : Instr) (s t : State), i.wellFormed = true → exec i s = .next t →
    SameArguments s t ∧ (s.io.inPos ≤ s.inLen → t.io.inPos ≤ t.inLen) ∧
    (isCallOp i = false → ∀ a, a < s.outLen → t.readOut a = s.readOut a) ∧
    t.moves = s.moves

/-- R245: each operation raises only the kinds its row lists. An accepted command ends DONE with ERR = NONE, or
raises; every other operation that raises nothing leaves ERR and STATUS, but for an item that ends its call
(log entry 5), which sets STATUS to DONE and leaves ERR. -/
def Obligations.ErrorTable : Prop :=
  ∀ (i : Instr) (s t : State), i.wellFormed = true → exec i s = .next t →
    (isCallOp i = true → s.regs.status ≠ .busy → t.completed ∨ ∃ k ∈ raisable i, t.failedWith k) ∧
    (isCallOp i = false ∨ s.regs.status = .busy →
      (t.regs.err = s.regs.err ∧ t.regs.status = s.regs.status) ∨
      (endsCall i = true ∧ t.regs.status = .done ∧ t.regs.phase = .idle ∧ t.regs.err = s.regs.err) ∨
      ∃ k ∈ raisable i, t.failedWith k)

/-- R41, R44, R61: outside its stated precondition a single operation that would read an entry nothing has
written, or need an entry beyond a memory's size, stops by name (log entries 13, 14 and 15). -/
def Obligations.UnmetPreconditionsStop : Prop :=
  ∀ s : State,
    (s.listLen = Config.listCap → ∀ t w, exec (.heInsert t w) s = .fault (.noSuchEntry .list)) ∧
    (s.listLen < 2 → exec .heCombine s = .fault (.noSuchEntry .list)) ∧
    (s.huf.freq = [] → s.huf.list = [] → exec .heBuild s = .fault (.unwrittenEntry .list)) ∧
    (∀ t, t < Config.nodeCap → s.huf.node.read t = none → exec (.heSer t) s = .fault (.unwrittenEntry .node)) ∧
    (s.huf.root < Config.nodeCap → s.huf.node.read s.huf.root = none →
      exec .heTable s = .fault (.unwrittenEntry .node) ∧ exec .hdSymbol s = .fault (.unwrittenEntry .node)) ∧
    (s.io.inPos = s.inLen → s.huf.ctab.read Config.eosValue = none →
      exec .heEncode s = .fault (.unwrittenEntry .ctab)) ∧
    (∀ c, Config.nLiterals ≤ c → s.lzw.dDict.read (c - Config.nLiterals) = none →
      exec (.ldFirst c) s = .fault (.unwrittenEntry .dDict) ∧
      exec (.ldExpand c) s = .fault (.unwrittenEntry .dDict)) ∧
    (∀ b, s.lzw.dDict.read 0 = some { pred := Config.nLiterals, byte := b } →
      exec (.ldFirst Config.nLiterals) s = .fault .endlessChain ∧
      exec (.ldExpand Config.nLiterals) s = .fault .endlessChain)

/-! ### The Bit Channel -/

/-- R120, R121, R129: opening the writer empties it, so that a close then appends nothing; opening the reader
empties it and goes to byte 0; EOF is true only at a byte boundary with no byte left, and changes nothing but
the place its result is left in (log entry 7). -/
def Obligations.OpenAndEof : Prop :=
  ∀ s : State,
    exec .bcOpenW s = .next { s with bc := { s.bc with wAcc := 0, wCnt := 0 } } ∧
    exec .bcClose { s with bc := { s.bc with wAcc := 0, wCnt := 0 } } =
      .next { s with bc := { s.bc with wAcc := 0, wCnt := 0 } } ∧
    exec .bcOpenR s = .next { s with bc := { s.bc with rCur := 0, rCnt := 0 }, io := { s.io with inPos := 0 } } ∧
    (s.io.inPos ≤ s.inLen →
      exec .bcEof s = .next { s with result := .flag (decide (s.bc.rCnt = 0 ∧ s.io.inPos = s.inLen)) })

/-- R122: one bit joins the bits sent, in travel order; the partial byte is no longer pending exactly when it
was the eighth; where the append of the full byte fails, the call fails with IOFailure and OUT stays. -/
def Obligations.PutBit : Prop :=
  ∀ (b : Bool) (s : State), s.writerClean →
    (s.bc.wCnt ≠ 7 ∨ s.ioFails = false →
      ∃ t, exec (.bcPutBit b) s = .next t ∧ Sends s t [b] ∧ (t.partialPending = false ↔ s.bc.wCnt = 7) ∧
        t.outLen = s.outLen + (if s.bc.wCnt = 7 then 1 else 0)) ∧
    (s.bc.wCnt = 7 → s.ioFails = true →
      ∃ t, exec (.bcPutBit b) s = .next t ∧ t.failedWith .ioFailure ∧ t.io = s.io)

/-- R123: the bytes' bits join the bits sent, bit 7 first; exactly as many bytes are appended, and the number
of pending bits is the same before and after. -/
def Obligations.PutNBytes : Prop :=
  ∀ (bytes : List Byte) (s : State), s.noIoFault → s.writerClean →
    ∃ t, exec (.bcPutNBytes bytes) s = .next t ∧ Sends s t (bytes.flatMap byteBits) ∧
      t.bc.wCnt = s.bc.wCnt ∧ t.outLen = s.outLen + bytes.length

/-- R128, R67: the `n` low bits of `v` join the bits sent, bit `n - 1` first. -/
def Obligations.PutBits : Prop :=
  ∀ (v n : Nat) (s : State), s.noIoFault → s.writerClean →
    ∃ t, exec (.bcPutBits v n) s = .next t ∧ Sends s t (bitsOfNat n v) ∧
      t.bc.wCnt.val = (s.bc.wCnt.val + n) % 8 ∧ 8 * t.outLen + t.bc.wCnt.val = 8 * s.outLen + s.bc.wCnt.val + n

/-- R124: zero bits up to the byte boundary; at a boundary nothing is appended. -/
def Obligations.Close : Prop :=
  ∀ s : State, s.noIoFault → s.writerClean →
    ∃ t, exec .bcClose s = .next t ∧ Sends s t (List.replicate ((8 - s.bc.wCnt.val) % 8) false) ∧
      t.bc.wAcc = 0 ∧ t.bc.wCnt = 0 ∧ t.outLen = s.outLen + (if s.bc.wCnt = 0 then 0 else 1)

/-- R131: PUTNBYTES of one byte is PUTBITS of its eight bits; GETNBYTES of one byte is GETBITS of eight but
for R_CUR in the aligned case (and the form the result is left in, log entry 7). -/
def Obligations.BytesAreBits : Prop :=
  ∀ s : State, s.noIoFault →
    (s.writerClean → ∀ b : Byte,
      exec (.bcPutNBytes [b]) s = exec (.bcPutBits b.toNat 8) s ∧ ∃ t, exec (.bcPutNBytes [b]) s = .next t) ∧
    (s.readerBetween → 8 ≤ s.remaining →
      ∃ t u v, exec (.bcGetNBytes 1) s = .next t ∧ exec (.bcGetBits 8) s = .next u ∧
        t.result = .bytes (some [v]) ∧ u.result = .number (some v.toNat) ∧
        u = { t with result := u.result, bc := { t.bc with rCur := u.bc.rCur } } ∧
        (s.bc.rCnt ≠ 0 → u.bc.rCur = t.bc.rCur) ∧ (s.bc.rCnt = 0 → t.bc.rCur = s.bc.rCur))

/-- R125, R132: GETBIT answers none exactly when REMAINING is 0, with nothing changed; else it answers the next
unread bit and lowers REMAINING by one; where the byte it needs cannot be read the call fails with IOFailure. -/
def Obligations.GetBit : Prop :=
  ∀ s : State,
    (s.remaining = 0 → exec .bcGetBit s = .next { s with result := .bit none }) ∧
    (s.remaining ≠ 0 → s.bc.rCnt ≠ 0 ∨ s.ioFails = false →
      ∃ b t, exec .bcGetBit s = .next t ∧ t.result = .bit (some b) ∧ Takes s t [b] ∧
        t.remaining + 1 = s.remaining) ∧
    (s.remaining ≠ 0 → s.bc.rCnt = 0 → s.ioFails = true →
      ∃ t, exec .bcGetBit s = .next t ∧ t.failedWith .ioFailure ∧ t.io = s.io ∧ t.bc = s.bc)

/-- R127: `n` bytes put together from the next `8 n` bits, with R_CNT the same; or none with nothing consumed. -/
def Obligations.GetNBytes : Prop :=
  ∀ (n : Nat) (s : State), s.readerBetween →
    (s.remaining < 8 * n → exec (.bcGetNBytes n) s = .next { s with result := .bytes none }) ∧
    (8 * n ≤ s.remaining → s.noIoFault →
      ∃ bytes t, exec (.bcGetNBytes n) s = .next t ∧ t.result = .bytes (some bytes) ∧ bytes.length = n ∧
        Takes s t (bytes.flatMap byteBits) ∧ t.bc.rCnt = s.bc.rCnt ∧ t.io.inPos = s.io.inPos + n)

/-- R130: the next `n` bits as a number, first most significant; or none with nothing consumed. -/
def Obligations.GetBits : Prop :=
  ∀ (n : Nat) (s : State), s.readerBetween →
    (s.remaining < n → exec (.bcGetBits n) s = .next { s with result := .number none }) ∧
    (n ≤ s.remaining → s.noIoFault →
      ∃ v t, exec (.bcGetBits n) s = .next t ∧ t.result = .number (some v) ∧ v < 2 ^ n ∧
        Takes s t (bitsOfNat n v) ∧ t.remaining + n = s.remaining)

/-- R133: bits put by any mix of write operations between an open and a close are what a reader opened on the
bytes written delivers, then the padding zeros, then none. -/
def Obligations.WriteThenRead : Prop :=
  ∀ (ops : List Instr) (s : State), (∀ i ∈ ops, isWriteOp i = true) → s.noIoFault → s.io.out = [] →
    ∃ t, runAll (.bcOpenW :: ops ++ [.bcClose]) s = .next t ∧
      8 * t.outLen = (ops.flatMap bitsPut ++ padding (ops.flatMap bitsPut).length).length ∧
      ∀ r : State, r.noIoFault → r.io.inp = t.io.out →
        ∀ k, ∃ u, runAll (.bcOpenR :: List.replicate (k + 1) .bcGetBit) r = .next u ∧
          u.result = .bit ((ops.flatMap bitsPut ++ padding (ops.flatMap bitsPut).length)[k]?)

/-- R244: where the oracle fails the first access of PUTNBYTES, CLOSE, GETNBYTES, HE.FREQ, LE.INIT or the
LD.EXPAND of a literal, the access does not happen, and the operation raises IOFailure. -/
def Obligations.IoFault : Prop :=
  ∀ s : State, s.ioFails = true →
    (∀ b bytes, ∃ t, exec (.bcPutNBytes (b :: bytes)) s = .next t ∧ t.failedWith .ioFailure ∧ t.io = s.io) ∧
    (s.bc.wCnt ≠ 0 → ∃ t, exec .bcClose s = .next t ∧ t.failedWith .ioFailure ∧ t.io = s.io ∧ t.bc = s.bc) ∧
    (∀ n, s.readerBetween → 8 * (n + 1) ≤ s.remaining →
      ∃ t, exec (.bcGetNBytes (n + 1)) s = .next t ∧ t.failedWith .ioFailure ∧ t.io = s.io ∧ t.bc = s.bc) ∧
    (s.io.inPos < s.inLen →
      (∃ t, exec .heFreq s = .next t ∧ t.failedWith .ioFailure ∧ t.io = s.io ∧ t.huf = s.huf) ∧
      (∃ t, exec .leInit s = .next t ∧ t.failedWith .ioFailure ∧ t.io = s.io)) ∧
    (∀ c, c < Config.nLiterals → ∃ t, exec (.ldExpand c) s = .next t ∧ t.failedWith .ioFailure ∧ t.io = s.io)

/-! ### The Huffman encoder -/

/-- R140: the occurrences of every byte value, EOS with count 1, IN_POS at the end, and nothing else changed. -/
def Obligations.HeFreq : Prop :=
  ∀ s : State, s.noIoFault → s.io.inPos = 0 → s.huf.freq = [] →
    ∃ t, exec .heFreq s = .next t ∧ (∀ sym, t.freqOf sym = countOf s.io.inp sym) ∧
      ((List.range Config.nSymbols).map t.freqOf).sum = s.inLen + 1 ∧
      t = { s with
            io := { s.io with inPos := s.inLen }
            huf := { s.huf with freq := t.huf.freq }
            env := { s.env with accNo := t.env.accNo } }

/-- R142: into a sorted list with room, the new entry goes to the index that is the number of entries whose
weight is not smaller; the list stays sorted; nothing else changes. -/
def Obligations.HeInsert : Prop :=
  ∀ (i w : Nat) (s : State), Descending s.huf.list → s.listLen < Config.listCap →
    exec (.heInsert i w) s =
      .next { s with huf := { s.huf with
        list := s.huf.list.take (insertAt w s.huf.list) ++ { node := i, weight := w } ::
          s.huf.list.drop (insertAt w s.huf.list) } } ∧
    Descending (s.huf.list.take (insertAt w s.huf.list) ++ { node := i, weight := w } ::
      s.huf.list.drop (insertAt w s.huf.list))

/-- R143, R141, R151: one leaf per present symbol, allocated in ascending symbol order; the list holds them by
descending weight and, among equal weights, in ascending symbol order. -/
def Obligations.HeLeaves : Prop :=
  ∀ s : State, s.huf.list = [] → s.huf.nNodes + s.present.length ≤ Config.nodeCap →
    ∃ t, exec .heLeaves s = .next t ∧
      t.huf.list.Perm ((s.present.zipIdx s.huf.nNodes).map fun p => { node := p.2, weight := s.freqOf p.1 }) ∧
      t.huf.list.Pairwise (fun a b => b.weight < a.weight ∨ (b.weight = a.weight ∧ a.node < b.node)) ∧
      (∀ p ∈ s.present.zipIdx s.huf.nNodes, t.huf.node.read p.2 = some (.leaf p.1)) ∧
      (∀ i, i < s.huf.nNodes ∨ s.huf.nNodes + s.present.length ≤ i → t.huf.node.read i = s.huf.node.read i) ∧
      t = { s with huf := { s.huf with
            node := t.huf.node, nNodes := s.huf.nNodes + s.present.length, list := t.huf.list } }

/-- R144, R146: the last entry becomes the zero-child, the one before it the one-child, and the new node goes
back in by R142 with the sum of their weights. -/
def Obligations.HeCombine : Prop :=
  ∀ (s : State) (front : List ListEntry) (a b : ListEntry),
    s.huf.list = front ++ [b, a] → Descending s.huf.list → s.listLen ≤ Config.listCap →
    s.huf.nNodes < Config.nodeCap →
    exec .heCombine s =
      .next { s with huf := { s.huf with
        node := s.huf.node.write s.huf.nNodes (.internal (some a.node) (some b.node))
        nNodes := s.huf.nNodes + 1
        list := front.take (insertAt (a.weight + b.weight) front) ++
          { node := s.huf.nNodes, weight := a.weight + b.weight } ::
            front.drop (insertAt (a.weight + b.weight) front) } }

/-- R145, R147, R149, R150, R151: from call start's empty list and arena, ROOT stands for the tree of the
Frequency Table, which has one leaf per present symbol and `2 L - 1` nodes and depth at most `L - 1`; the one
entry left weighs the sum of all counts; nothing else changes. -/
def Obligations.HeBuild : Prop :=
  ∀ s : State, s.huf.list = [] → s.huf.nNodes = 0 → 0 < s.freqOf Config.eosValue →
    ∃ t, exec .heBuild s = .next t ∧
      Denotes t.huf.node (huffmanTree s.freqOf) t.huf.root ∧
      (huffmanTree s.freqOf).leaves.Perm s.present ∧
      (huffmanTree s.freqOf).size = 2 * s.present.length - 1 ∧
      (huffmanTree s.freqOf).depth ≤ s.present.length - 1 ∧
      t = { s with huf := { s.huf with
            node := t.huf.node
            nNodes := 2 * s.present.length - 1
            list := [{ node := t.huf.root, weight := ((List.range Config.nSymbols).map s.freqOf).sum }]
            root := 2 * s.present.length - 2 } }

/-- R152, R97, R98: the tree at an arena index is sent in pre-order, a leaf as `1` and its symbol's 16 bits;
nothing but the writer changes (HSTK is empty at the end, R35). -/
def Obligations.HeSer : Prop :=
  ∀ (T : HuffTree) (i : Nat) (s : State), s.noIoFault → s.writerClean → Denotes s.huf.node T i →
    T.depth ≤ Config.maxCodeLen →
    ∃ t, exec (.heSer i) s = .next t ∧ Sends { s with huf := { s.huf with hstk := [] } } t T.ser

/-- R154: the Code Table holds the path of every present symbol, with its length, and no other symbol. -/
def Obligations.HeTable : Prop :=
  ∀ (T : HuffTree) (s : State), Denotes s.huf.node T s.huf.root → T.depth ≤ Config.maxCodeLen →
    T.leaves.Perm s.present → s.huf.ctab = [] →
    ∃ t, exec .heTable s = .next t ∧
      (∀ sym, t.huf.ctab.read sym =
        if sym ∈ s.present then some { len := (T.code sym).length, bits := T.code sym } else none) ∧
      (∀ sym, sym ∈ s.present → T.walk (T.code sym) = some (sym, [])) ∧
      t = { s with huf := { s.huf with ctab := t.huf.ctab, hstk := [], hpath := [] } }

/-- R155, R156: the codes HE.TABLE makes are prefix-free and complete: every infinite bit sequence starts with
exactly one of them; none is longer than 256 bits. -/
def Obligations.PrefixFree : Prop :=
  ∀ (T : HuffTree) (s t : State), Denotes s.huf.node T s.huf.root → T.depth ≤ Config.maxCodeLen → T.leaves.Nodup →
    s.huf.ctab = [] → exec .heTable s = .next t →
    (∀ x y e f, t.huf.ctab.read x = some e → t.huf.ctab.read y = some f → x ≠ y → ¬ e.bits <+: f.bits) ∧
    (∀ bits : Nat → Bool, ∃! x, ∃ e, t.huf.ctab.read x = some e ∧ e.bits = (List.range e.len).map bits) ∧
    (∀ x e, t.huf.ctab.read x = some e → e.len ≤ Config.maxCodeLen)

/-- R158, R275: the second pass starts at byte 0; an input that cannot be repositioned fails with IOFailure. -/
def Obligations.HeRewind : Prop :=
  ∀ s : State,
    (s.env.seekable = true → exec .heRewind s = .next { s with io := { s.io with inPos := 0 } }) ∧
    (s.env.seekable = false →
      exec .heRewind s =
        .next { s with regs := { s.regs with status := .failed, err := some .ioFailure, phase := .idle } })

/-- R159: every byte's code in order, then the EOS code exactly once; nothing but the writer and IN_POS
changes. -/
def Obligations.HeEncode : Prop :=
  ∀ s : State, s.noIoFault → s.writerClean → s.io.inPos = 0 →
    (∀ b ∈ s.io.inp, s.huf.ctab.read b.toNat ≠ none) → s.huf.ctab.read Config.eosValue ≠ none →
    ∃ t, exec .heEncode s = .next t ∧
      Sends { s with io := { s.io with inPos := s.inLen } } t
        (s.io.inp.flatMap (fun b => s.codeOf b.toNat) ++ s.codeOf Config.eosValue)

/-- R160, R161, R162: the whole payload, a function of IN alone, and its length in bits. -/
def Obligations.HeCompress : Prop :=
  ∀ s : State, s.noIoFault → s.env.seekable = true → s.writerClean → s.io.inPos = 0 → s.huf.freq = [] →
    s.huf.list = [] → s.huf.nNodes = 0 → s.huf.ctab = [] →
    let T := huffmanTree (countOf s.io.inp)
    ∃ t, exec .heCompress s = .next t ∧ t.writerClean ∧
      t.sentBits = s.sentBits ++ huffmanBits T s.io.inp ∧
      (huffmanBits T s.io.inp).length =
        18 * T.leaves.length - 1 + (T.leaves.map fun sym => countOf s.io.inp sym * (T.code sym).length).sum ∧
      t = { s with
            regs := { s.regs with phase := .hEnc }
            io := { s.io with inPos := s.inLen, out := t.io.out }
            bc := { s.bc with wAcc := t.bc.wAcc, wCnt := t.bc.wCnt }
            huf := t.huf
            env := { s.env with accNo := t.env.accNo } }

/-! ### The Huffman decoder -/

/-- R170, R97, R107: the deserialiser reads back exactly what SER sends, stops where the tree ends, and leaves
the tree in ROOT; nothing but the reader, the arena, N_NODES, ROOT and DSTK changes. -/
def Obligations.HdDeser : Prop :=
  ∀ (T : HuffTree) (rest : List Bool) (s : State), s.noIoFault → s.readerBetween →
    s.unreadBits = T.ser ++ rest → T.legalAfter s.huf.nNodes →
    ∃ t, exec .hdDeser s = .next t ∧ t.result = .tree t.huf.root ∧ Denotes t.huf.node T t.huf.root ∧
      t.unreadBits = rest ∧ t.readerBetween ∧
      (∀ i, i < s.huf.nNodes ∨ s.huf.nNodes + T.size ≤ i → t.huf.node.read i = s.huf.node.read i) ∧
      t = { s with
            io := { s.io with inPos := t.io.inPos }
            bc := { s.bc with rCur := t.bc.rCur, rCnt := t.bc.rCnt }
            huf := { s.huf with
              node := t.huf.node, nNodes := s.huf.nNodes + T.size, root := t.huf.root, dstk := [] }
            env := { s.env with accNo := t.env.accNo }
            result := t.result }

/-- R170, R171, R179, R105: a bit string that does not start with a tree of symbols within the node limit is
rejected with CorruptStream, whatever is wrong with it, before any output. -/
def Obligations.HdDeserRejects : Prop :=
  ∀ s : State, s.noIoFault → s.readerBetween →
    (∀ (T : HuffTree) (rest : List Bool), s.unreadBits = T.ser ++ rest → ¬ T.legalAfter s.huf.nNodes) →
    ∃ t, exec .hdDeser s = .next t ∧ t.failedWith .corruptStream ∧ t.io.out = s.io.out ∧ t.lzw = s.lzw

/-- R173, R174: the walk from ROOT consumes exactly the bits of the path to the leaf it reaches (none where
ROOT is a leaf) and answers its symbol; where the bits run out first it raises CorruptStream. -/
def Obligations.HdSymbol : Prop :=
  ∀ (T : HuffTree) (s : State), s.noIoFault → s.readerBetween → Denotes s.huf.node T s.huf.root →
    (∀ sym rest, T.walk s.unreadBits = some (sym, rest) →
      ∃ t path, exec .hdSymbol s = .next t ∧ t.result = .symbol sym ∧ s.unreadBits = path ++ rest ∧
        Takes { s with huf := { s.huf with walk := t.huf.walk } } t path ∧
        t.huf.node.read t.huf.walk = some (.leaf sym)) ∧
    (T.walk s.unreadBits = none →
      ∃ t, exec .hdSymbol s = .next t ∧ t.failedWith .corruptStream ∧ t.remaining = 0 ∧ t.io.out = s.io.out)

/-- R175, R176, R177: a payload of a tree, the codes of a text and the EOS code gives the text, and what
follows is not read. For the item TAG.HUFFMAN (log entry 5) the call then ends DONE. -/
def Obligations.HdDecompress : Prop :=
  ∀ (T : HuffTree) (text : List Byte) (rest : List Bool) (s : State), s.noIoFault → s.readerBetween →
    s.unreadBits = huffmanBits T text ++ rest → T.legalAfter 0 → Config.eosValue ∈ T.leaves →
    (∀ b ∈ text, b.toNat ∈ T.leaves) →
    ∃ t, exec .hdDecompress s = .next t ∧ exec .tagHuffman s = .next t.callDone ∧
      t.io.out = s.io.out ++ text ∧ t.unreadBits = rest ∧ t.readerBetween ∧
      t = { s with
            regs := { s.regs with phase := .hWalk }
            io := { s.io with inPos := t.io.inPos, out := t.io.out }
            bc := { s.bc with rCur := t.bc.rCur, rCnt := t.bc.rCnt }
            huf := { s.huf with
              node := t.huf.node, nNodes := T.size, root := t.huf.root, walk := t.huf.walk, dstk := [] }
            env := { s.env with accNo := t.env.accNo } }

/-- R174, R176: a tree of one leaf that is not EOS is rejected before any output; a payload whose bits run out
before EOS is rejected with the bytes decoded so far left in OUT. -/
def Obligations.HdDecompressRejects : Prop :=
  ∀ s : State, s.noIoFault → s.readerBetween →
    (∀ v rest, v < Config.eosValue → s.unreadBits = (HuffTree.leaf v).ser ++ rest →
      ∃ t, exec .hdDecompress s = .next t ∧ t.failedWith .corruptStream ∧ t.io.out = s.io.out) ∧
    (∀ (z o : HuffTree) (text : List Byte) (rest : List Bool),
      s.unreadBits = (HuffTree.node z o).ser ++ text.flatMap (fun b => (HuffTree.node z o).code b.toNat) ++ rest →
      (HuffTree.node z o).legalAfter 0 → (∀ b ∈ text, b.toNat ∈ (HuffTree.node z o).leaves) →
      (HuffTree.node z o).walk rest = none →
      ∃ t, exec .hdDecompress s = .next t ∧ t.failedWith .corruptStream ∧ t.io.out = s.io.out ++ text)

/-- R97, R170, R36 on single items (log entry 5): an internal mark opens a node, a leaf completes the innermost
open one, and a tree's items one after the other build the tree the deserialiser would; the node limit and the
symbol range are checked at each item. -/
def Obligations.NodeItems : Prop :=
  (∀ s : State, s.huf.nNodes < Config.nodeCap →
    exec .hnodeInternal s =
      .next { s with huf := { s.huf with
        node := s.huf.node.write s.huf.nNodes (.internal none none)
        nNodes := s.huf.nNodes + 1
        dstk := (s.huf.nNodes, false) :: s.huf.dstk } }) ∧
  (∀ (s : State) (sym : BitVec 16), s.huf.nNodes < Config.nodeCap → sym.toNat ≤ Config.eosValue →
    s.huf.dstk = [] →
    exec (.hnodeLeaf sym) s =
      .next { s with huf := { s.huf with
        node := s.huf.node.write s.huf.nNodes (.leaf sym.toNat)
        nNodes := s.huf.nNodes + 1
        root := s.huf.nNodes } }) ∧
  (∀ (s : State) (sym : BitVec 16), s.huf.nNodes < Config.nodeCap → Config.eosValue < sym.toNat →
    ∃ t, exec (.hnodeLeaf sym) s = .next t ∧ t.failedWith .corruptStream ∧ t.io = s.io) ∧
  (∀ (s : State) (sym : BitVec 16), Config.nodeCap ≤ s.huf.nNodes →
    (∃ t, exec .hnodeInternal s = .next t ∧ t.failedWith .corruptStream ∧ t.io = s.io) ∧
    (∃ t, exec (.hnodeLeaf sym) s = .next t ∧ t.failedWith .corruptStream ∧ t.io = s.io)) ∧
  (∀ (T : HuffTree) (s : State), s.huf.dstk = [] → T.legalAfter s.huf.nNodes →
    ∃ t, runAll T.items s = .next t ∧ Denotes t.huf.node T t.huf.root ∧
      t = { s with huf := { s.huf with
            node := t.huf.node, nNodes := s.huf.nNodes + T.size, root := s.huf.nNodes } })

/-- R99, R107, R173, R175 on a single item (log entry 5): a code's bits lead from ROOT to a leaf; EOS ends the
call, a byte value is appended; bits that run out before a leaf are rejected. -/
def Obligations.CodeItem : Prop :=
  ∀ (T : HuffTree) (path : List Bool) (s : State), s.noIoFault → Denotes s.huf.node T s.huf.root →
    (∀ rest, T.walk path = some (Config.eosValue, rest) →
      ∃ t, exec (.hcode path) s = .next t ∧ t.huf.node.read t.huf.walk = some (.leaf Config.eosValue) ∧
        t = { s with
              huf := { s.huf with walk := t.huf.walk }
              regs := { s.regs with status := .done, phase := .idle } }) ∧
    (∀ (b : Byte) (rest : List Bool), T.walk path = some (b.toNat, rest) →
      ∃ t, exec (.hcode path) s = .next t ∧ t.huf.node.read t.huf.walk = some (.leaf b.toNat) ∧
        Appends { s with huf := { s.huf with walk := t.huf.walk } } t [b]) ∧
    (T.walk path = none →
      ∃ t, exec (.hcode path) s = .next t ∧ t.failedWith .corruptStream ∧ t.io = s.io)

/-! ### The LZW encoder -/

/-- R186: the width and the dictionary at their start values; the first byte, if there is one, is the current
phrase; where it cannot be read the call fails with IOFailure. -/
def Obligations.LeInit : Prop :=
  ∀ s : State,
    (s.inLen ≤ s.io.inPos →
      exec .leInit s =
        .next { s with lzw := { s.lzw with
          width := 9, maxCode := 512, dSize := 0, eDict := [], haveCur := false } }) ∧
    (∀ b, s.readIn s.io.inPos = some b → s.ioFails = false →
      ∃ t, exec .leInit s = .next t ∧
        t = { s with
              lzw := { s.lzw with
                width := 9, maxCode := 512, dSize := 0, eDict := [], haveCur := true, cur := b.toNat }
              io := { s.io with inPos := s.io.inPos + 1 }
              env := { s.env with accNo := t.env.accNo } }) ∧
    (∀ b, s.readIn s.io.inPos = some b → s.ioFails = true →
      ∃ t, exec .leInit s = .next t ∧ t.failedWith .ioFailure ∧ t.io = s.io)

/-- R187, R188, R189, R190, R191, R196, R248: a hit extends the phrase with no output; a miss emits the phrase
at the old width, inserts the pair with the next code, grows the width where it must, and restarts with the
byte; a full dictionary, then the ceiling, fail after the code was emitted. -/
def Obligations.LeStep : Prop :=
  ∀ (b : Byte) (s : State), s.lzw.haveCur = true →
    (∀ c, s.lzw.eDict.read (pairKey s.lzw.cur b) = some c →
      exec (.leStep b) s = .next { s with lzw := { s.lzw with cur := c } }) ∧
    (s.lzw.eDict.read (pairKey s.lzw.cur b) = none → s.noIoFault → s.writerClean → WidthOk s.lzw →
      let n := Config.nLiterals + s.lzw.dSize
      (s.lzw.dSize ≠ s.env.dictCap → (n = s.lzw.maxCode - 1 → s.lzw.width ≠ s.env.maxWidth) →
        ∃ t, exec (.leStep b) s = .next t ∧
          Sends
            { s with lzw := { s.lzw with
              eDict := s.lzw.eDict.write (pairKey s.lzw.cur b) n
              dSize := s.lzw.dSize + 1
              width := encoderWidth s.lzw n
              maxCode := 2 ^ encoderWidth s.lzw n
              cur := b.toNat } }
            t (bitsOfNat s.lzw.width s.lzw.cur)) ∧
      (s.lzw.dSize = s.env.dictCap →
        ∃ t, exec (.leStep b) s = .next t ∧ t.failedWith .codeSpaceExhausted ∧ t.lzw = s.lzw ∧
          t.sentBits = s.sentBits ++ bitsOfNat s.lzw.width s.lzw.cur) ∧
      (s.lzw.dSize ≠ s.env.dictCap → n = s.lzw.maxCode - 1 → s.lzw.width = s.env.maxWidth →
        ∃ t, exec (.leStep b) s = .next t ∧ t.failedWith .codeSpaceExhausted ∧
          t.lzw.dSize = s.lzw.dSize + 1 ∧ t.lzw.width = s.lzw.width ∧
          t.sentBits = s.sentBits ++ bitsOfNat s.lzw.width s.lzw.cur))

/-- R188, R192, R67: a code goes out in WIDTH bits, most significant first; the phrase that remains goes out at
the end, if there is one. -/
def Obligations.LeEmitFinish : Prop :=
  ∀ s : State, s.noIoFault → s.writerClean →
    (∀ c, ∃ t, exec (.leEmit c) s = .next t ∧ Sends s t (bitsOfNat s.lzw.width c)) ∧
    (s.lzw.haveCur = true → ∃ t, exec .leFinish s = .next t ∧ Sends s t (bitsOfNat s.lzw.width s.lzw.cur)) ∧
    (s.lzw.haveCur = false → exec .leFinish s = .next s)

/-- R189, R190, R191, R196: the next sequential code for a new pair, or CodeSpaceExhausted at the capacity; the
width grows by one exactly when the code is `MAXCODE - 1`, or CodeSpaceExhausted at the ceiling. -/
def Obligations.LeInsertGrow : Prop :=
  ∀ s : State,
    (∀ p b, s.lzw.eDict.read (pairKey p b) = none → s.lzw.dSize ≠ s.env.dictCap →
      exec (.leInsert p b) s =
        .next { s with
          lzw := { s.lzw with
            eDict := s.lzw.eDict.write (pairKey p b) (256 + s.lzw.dSize), dSize := s.lzw.dSize + 1 }
          result := .code (some (256 + s.lzw.dSize)) }) ∧
    (∀ p b, s.lzw.dSize = s.env.dictCap → exec (.leInsert p b) s = .next (s.abort .codeSpaceExhausted)) ∧
    (∀ n, n ≠ s.lzw.maxCode - 1 → exec (.leGrow n) s = .next s) ∧
    (∀ n, n = s.lzw.maxCode - 1 → s.lzw.width ≠ s.env.maxWidth →
      exec (.leGrow n) s =
        .next { s with lzw := { s.lzw with width := s.lzw.width + 1, maxCode := 1 <<< (s.lzw.width + 1) } }) ∧
    (∀ n, n = s.lzw.maxCode - 1 → s.lzw.width = s.env.maxWidth →
      exec (.leGrow n) s = .next (s.abort .codeSpaceExhausted))

/-- R194, R193, R102, R100, R197: the payload is the codes of the greedy parse, the `k`-th in
`bitlen(255 + k)` bits, where the parameters have room for that many codes; the strings of the codes make up IN;
there is one entry per code but the last. -/
def Obligations.LeCompress : Prop :=
  ∀ s : State, s.noIoFault → s.writerClean → s.io.inPos = 0 → RoomFor s.env (lzwCodes s.io.inp).length →
    let codes := lzwCodes s.io.inp
    ∃ t, exec .leCompress s = .next t ∧ t.writerClean ∧ t.sentBits = s.sentBits ++ codeBits 1 codes ∧
      lzwText codes = some s.io.inp ∧ codes.length ≤ s.inLen ∧ t.lzw.dSize = codes.length - 1 ∧
      t.lzw.width = (256 + t.lzw.dSize).size ∧
      t = { s with
            regs := { s.regs with phase := .lEnc }
            io := { s.io with inPos := s.inLen, out := t.io.out }
            bc := { s.bc with wAcc := t.bc.wAcc, wCnt := t.bc.wCnt }
            lzw := { t.lzw with
              dDict := s.lzw.dDict, c1 := s.lzw.c1, c2 := s.lzw.c2, c2Valid := s.lzw.c2Valid, xstk := s.lzw.xstk,
              c1Held := s.lzw.c1Held }
            env := { s.env with accNo := t.env.accNo } }

/-! ### The LZW decoder -/

/-- R206, R211: the decoder's start values; the width grows by one exactly when the code is `MAXCODE - 2`, with
no ceiling. -/
def Obligations.LdInitGrow : Prop :=
  ∀ s : State,
    (∃ t, exec .ldInit s = .next t ∧
      t = { s with lzw := { s.lzw with
            width := 9, maxCode := 512, dSize := 0, dDict := [], c2Valid := false, c1Held := t.lzw.c1Held } }) ∧
    (∀ n, n ≠ s.lzw.maxCode - 2 → exec (.ldGrow n) s = .next s) ∧
    (∀ n, n = s.lzw.maxCode - 2 →
      exec (.ldGrow n) s =
        .next { s with lzw := { s.lzw with width := s.lzw.width + 1, maxCode := 1 <<< (s.lzw.width + 1) } })

/-- R207, R208, R248: the four tests in order: padding only, the ceiling, a truncated code, a code. -/
def Obligations.LdReadCode : Prop :=
  ∀ s : State,
    (s.remaining < 8 → exec .ldReadCode s = .next { s with result := .code none }) ∧
    (8 ≤ s.remaining → s.env.maxWidth < s.lzw.width →
      exec .ldReadCode s = .next (s.abort .codeSpaceExhausted)) ∧
    (8 ≤ s.remaining → s.lzw.width ≤ s.env.maxWidth → s.remaining < s.lzw.width →
      exec .ldReadCode s = .next (s.abort .corruptStream)) ∧
    (8 ≤ s.remaining → s.lzw.width ≤ s.env.maxWidth → s.lzw.width ≤ s.remaining → s.noIoFault →
      s.readerBetween →
      ∃ c t, exec .ldReadCode s = .next t ∧ t.result = .code (some c) ∧ c < 2 ^ s.lzw.width ∧
        Takes s t (bitsOfNat s.lzw.width c))

/-- R209, R210, R216: a code of the table spells one string; FIRST answers its first byte, EXPAND appends it to
OUT, FLUSH appends C1's. -/
def Obligations.LdFirstExpandFlush : Prop :=
  ∀ s : State, DictOk s →
    (∀ c, c < Config.nLiterals + s.lzw.dSize →
      ∃ str b, Spells s.lzw.dDict c str ∧ str.head? = some b ∧ str.length ≤ s.lzw.dSize + 1 ∧
        exec (.ldFirst c) s = .next { s with result := .byte b } ∧
        (s.noIoFault → ∃ t, exec (.ldExpand c) s = .next t ∧
          Appends { s with lzw := { s.lzw with xstk := [] } } t str)) ∧
    (s.noIoFault → s.lzw.c1 < Config.nLiterals + s.lzw.dSize →
      ∃ str t, Spells s.lzw.dDict s.lzw.c1 str ∧ exec .ldFlush s = .next t ∧
        Appends { s with lzw := { s.lzw with xstk := [] } } t str)

/-- R213, R214, R211, R207: C1's string goes to OUT, the entry (C1, first byte of C2's string, or of C1's in the
miss case) is appended, C1 takes C2's place, the width grows at `MAXCODE - 2`, and then the next code is read
at the new width, or the codes have ended, or the read raises. -/
def Obligations.LdStep : Prop :=
  ∀ s : State, StepReady s → s.lzw.c2Valid = true → s.noIoFault → s.readerBetween →
    let w := decoderWidth s.lzw (Config.nLiterals + s.lzw.dSize)
    (s.remaining < 8 →
      ∃ t, exec .ldStep s = .next t ∧ StepEffect s t ∧ t.lzw.c2Valid = false ∧
        t = { s with
              io := { s.io with out := t.io.out }
              lzw := t.lzw
              env := { s.env with accNo := t.env.accNo }
              free := t.free }) ∧
    (8 ≤ s.remaining → s.env.maxWidth < w →
      ∃ t, exec .ldStep s = .next t ∧ StepEffect s t ∧ t.failedWith .codeSpaceExhausted) ∧
    (8 ≤ s.remaining → w ≤ s.env.maxWidth → s.remaining < w →
      ∃ t, exec .ldStep s = .next t ∧ StepEffect s t ∧ t.failedWith .corruptStream) ∧
    (8 ≤ s.remaining → w ≤ s.env.maxWidth → w ≤ s.remaining →
      ∃ t c, exec .ldStep s = .next t ∧ StepEffect s t ∧ t.lzw.c2 = c ∧ t.lzw.c2Valid = true ∧ c < 2 ^ w ∧
        s.unreadBits = bitsOfNat w c ++ t.unreadBits ∧ t.readerBetween ∧
        t = { s with
              io := { s.io with inPos := t.io.inPos, out := t.io.out }
              bc := { s.bc with rCur := t.bc.rCur, rCnt := t.bc.rCnt }
              lzw := t.lzw
              env := { s.env with accNo := t.env.accNo } })

/-- R215, R196, R248: a second code above the next code is rejected and adds nothing; a full table is met after
the string went to OUT; a first code that is no literal is rejected with nothing in OUT. -/
def Obligations.LdRejects : Prop :=
  ∀ s : State,
    (Config.nLiterals + s.lzw.dSize < s.lzw.c2 → exec .ldStep s = .next (s.abort .corruptStream)) ∧
    (DictOk s → s.lzw.c1 < Config.nLiterals + s.lzw.dSize → s.lzw.c2 ≤ Config.nLiterals + s.lzw.dSize →
      s.lzw.dSize = s.env.dictCap → s.noIoFault →
      ∃ str t, Spells s.lzw.dDict s.lzw.c1 str ∧ exec .ldStep s = .next t ∧ t.failedWith .codeSpaceExhausted ∧
        t.io.out = s.io.out ++ str ∧ t.lzw.dDict = s.lzw.dDict ∧ t.lzw.dSize = s.lzw.dSize) ∧
    (∀ c rest, s.noIoFault → s.readerBetween → 9 ≤ s.env.maxWidth → Config.nLiterals ≤ c → c < 2 ^ 9 →
      s.unreadBits = bitsOfNat 9 c ++ rest →
      ∃ t, exec .ldDecompress s = .next t ∧ t.failedWith .corruptStream ∧ t.io.out = s.io.out)

/-- R217, R205, R212, R218: a stream of codes, the `k`-th in `bitlen(255 + k)` bits, with less than a byte of
padding after them, gives the text the codes stand for, with the strings written out. For the item TAG.LZW (log
entry 5) the call then ends DONE. -/
def Obligations.LdDecompress : Prop :=
  ∀ (codes : List Nat) (text : List Byte) (pad : List Bool) (s : State), s.noIoFault → s.readerBetween →
    s.unreadBits = codeBits 1 codes ++ pad → pad.length < 8 → lzwText codes = some text →
    codeWidth codes.length ≤ s.env.maxWidth → codes.length ≤ s.env.dictCap + 1 →
    ∃ t, exec .ldDecompress s = .next t ∧ exec .tagLzw s = .next t.callDone ∧
      t.io.out = s.io.out ++ text ∧ t.unreadBits = pad ∧ t.lzw.dSize = codes.length - 1 ∧
      t = { s with
            regs := { s.regs with phase := .lDec }
            io := { s.io with inPos := t.io.inPos, out := t.io.out }
            bc := { s.bc with rCur := t.bc.rCur, rCnt := t.bc.rCnt }
            lzw := { t.lzw with eDict := s.lzw.eDict, cur := s.lzw.cur, haveCur := s.lzw.haveCur }
            env := { s.env with accNo := t.env.accNo }
            free := t.free }

/-- R101, R106, R207, R213, R215, R196, R217 on a single item of 9 bits or more (log entries 5 and 6). An item
of WIDTH bits: the first code of a stream must be a literal and stands in C1; every later one is C2 and does its
step up to the next read; a code above the next one, and a full table after C1's string went out, fail. A longer
item is its first WIDTH bits, a shorter one is a truncated code, and a WIDTH above the ceiling fails. -/
def Obligations.LcodeItem : Prop :=
  ∀ (w c : Nat) (s : State), 9 ≤ w → c < 2 ^ w → 9 ≤ s.lzw.width →
    (s.lzw.width ≤ s.env.maxWidth → w = s.lzw.width →
      (s.lzw.c1Held = false → c < Config.nLiterals →
        exec (.lcode w c) s = .next { s with lzw := { s.lzw with c1 := c, c1Held := true } }) ∧
      (s.lzw.c1Held = false → Config.nLiterals ≤ c →
        ∃ t, exec (.lcode w c) s = .next t ∧ t.failedWith .corruptStream ∧ t.io = s.io) ∧
      (s.lzw.c1Held = true → s.noIoFault → StepReady { s with lzw := { s.lzw with c2 := c } } →
        ∃ t, exec (.lcode w c) s = .next t ∧
          StepEffect { s with lzw := { s.lzw with c2 := c } } t ∧
          t = { s with
                io := { s.io with out := t.io.out }
                lzw := t.lzw
                env := { s.env with accNo := t.env.accNo } }) ∧
      (s.lzw.c1Held = true → Config.nLiterals + s.lzw.dSize < c →
        ∃ t, exec (.lcode w c) s = .next t ∧ t.failedWith .corruptStream ∧ t.io = s.io) ∧
      (s.lzw.c1Held = true → s.noIoFault → DictOk s → s.lzw.c1 < Config.nLiterals + s.lzw.dSize →
        c ≤ Config.nLiterals + s.lzw.dSize → s.lzw.dSize = s.env.dictCap →
        ∃ str t, Spells s.lzw.dDict s.lzw.c1 str ∧ exec (.lcode w c) s = .next t ∧
          t.failedWith .codeSpaceExhausted ∧ t.io.out = s.io.out ++ str ∧ t.lzw.dDict = s.lzw.dDict ∧
          t.lzw.dSize = s.lzw.dSize)) ∧
    (s.lzw.width ≤ s.env.maxWidth → s.lzw.width < w →
      exec (.lcode w c) s = exec (.lcode s.lzw.width (c >>> (w - s.lzw.width))) s) ∧
    (s.lzw.width ≤ s.env.maxWidth → w < s.lzw.width →
      exec (.lcode w c) s = .next (s.abort .corruptStream)) ∧
    (s.env.maxWidth < s.lzw.width → exec (.lcode w c) s = .next (s.abort .codeSpaceExhausted))

/-! ### The dispatcher -/

/-- R92, R225, R282: a reserved word changes CMD alone; while BUSY a write changes nothing, CMD included. -/
def Obligations.CmdReservedAndBusy : Prop :=
  ∀ (s : State) (m op : Byte),
    (s.regs.status ≠ .busy → op ≠ 1 → op ≠ 2 →
      exec (.cmdReserved m op) s = .next { s with regs := { s.regs with cmd := m ++ op } }) ∧
    (s.regs.status = .busy →
      exec (.cmdReserved m op) s = .next s ∧ exec (.compress m) s = .next s ∧ exec (.decompress m) s = .next s)

/-- R228, R241: a method that is neither 0 nor 1 fails with UnknownAlgorithm before any byte is written, with
nothing done since call start. -/
def Obligations.UnknownMethod : Prop :=
  ∀ (s : State) (m : Byte), s.regs.status ≠ .busy → m ≠ 0 → m ≠ 1 →
    ∃ t, exec (.compress m) s = .next t ∧ t.failedWith .unknownAlgorithm ∧ t.io.out = [] ∧ t.io.inPos = 0 ∧
      t = { (s.setCmd (m ++ (1 : Byte))).callStart with regs := t.regs } ∧ t.regs.cmd = m ++ (1 : Byte)

/-- R230, R231, R104, R103: a container of no bytes, and a tag that is neither 0 nor 1, fail with CorruptStream
and write no output, with no codec touched; the item TAG.RESERVED (log entry 5) is rejected the same way. -/
def Obligations.MissingOrUnknownTag : Prop :=
  (∀ (s : State) (m : Byte), s.regs.status ≠ .busy →
    (s.io.inp = [] →
      ∃ t, exec (.decompress m) s = .next t ∧ t.failedWith .corruptStream ∧ t.io.out = [] ∧ t.io.inPos = 0) ∧
    (∀ tag rest, s.io.inp = tag :: rest → s.noIoFault → tag ≠ 0 → tag ≠ 1 →
      ∃ t, exec (.decompress m) s = .next t ∧ t.failedWith .corruptStream ∧ t.io.out = [] ∧ t.io.inPos = 1 ∧
        t.bc.rCnt = 0 ∧ t.huf = (s.setCmd (m ++ (2 : Byte))).callStart.huf ∧
        t.lzw = (s.setCmd (m ++ (2 : Byte))).callStart.lzw)) ∧
  (∀ (s : State) (tag : Byte), tag ≠ 0 → tag ≠ 1 →
    exec (.tagReserved tag) s =
      .next { s with regs := { s.regs with status := .failed, err := some .corruptStream, phase := .idle } })

/-- R226, R227, R96, R94, R162: COMPRESS with METHOD 0 ends DONE, and OUT is the tag byte, the serialised tree,
the codes of the input, the EOS code and the padding, a function of IN alone. -/
def Obligations.CompressHuffman : Prop :=
  ∀ s : State, s.regs.status ≠ .busy → s.noIoFault → s.env.seekable = true →
    let bits := huffmanBits (huffmanTree (countOf s.io.inp)) s.io.inp
    ∃ t, exec (.compress 0) s = .next t ∧ t.completed ∧ t.regs.cmd = 0x0001 ∧ t.readOut 0 = some 0 ∧
      t.io.out.flatMap byteBits = byteBits 0 ++ bits ++ padding bits.length ∧ t.bc.wCnt = 0

/-- R226, R227, R100, R102, R94: COMPRESS with METHOD 1 ends DONE where the parameters have room for the codes of
the input (R262, R285), and OUT is the tag byte, the codes and the padding. -/
def Obligations.CompressLzw : Prop :=
  ∀ s : State, s.regs.status ≠ .busy → s.noIoFault → RoomFor s.env (lzwCodes s.io.inp).length →
    let bits := codeBits 1 (lzwCodes s.io.inp)
    ∃ t, exec (.compress 1) s = .next t ∧ t.completed ∧ t.regs.cmd = 0x0101 ∧ t.readOut 0 = some 1 ∧
      t.io.out.flatMap byteBits = byteBits 1 ++ bits ++ padding bits.length ∧ t.bc.wCnt = 0

/-- R229, R230, R94, R103: DECOMPRESS of a container whose payload holds a text ends DONE with the text in OUT,
whatever METHOD says and whatever the padding bits are. -/
def Obligations.DecompressContainer : Prop :=
  ∀ (s : State) (m : Byte) (payload text : List Byte), s.regs.status ≠ .busy → s.noIoFault →
    (∀ T rest, s.io.inp = 0 :: payload → payload.flatMap byteBits = huffmanBits T text ++ rest → T.legalAfter 0 →
      Config.eosValue ∈ T.leaves → (∀ b ∈ text, b.toNat ∈ T.leaves) →
      ∃ t, exec (.decompress m) s = .next t ∧ t.completed ∧ t.io.out = text ∧ t.regs.cmd = m ++ (2 : Byte)) ∧
    (∀ codes pad, s.io.inp = 1 :: payload → payload.flatMap byteBits = codeBits 1 codes ++ pad → pad.length < 8 →
      lzwText codes = some text → codeWidth codes.length ≤ s.env.maxWidth →
      codes.length ≤ s.env.dictCap + 1 →
      ∃ t, exec (.decompress m) s = .next t ∧ t.completed ∧ t.io.out = text ∧ t.regs.cmd = m ++ (2 : Byte))

/-- R233, R178, R218: what COMPRESS puts in OUT, given to DECOMPRESS as IN, comes back as the input, for both
methods; the first byte is the method. For METHOD 1 both blocks have room for the codes of the input (R285). -/
def Obligations.RoundTrip : Prop :=
  ∀ (m : Byte) (s : State), s.regs.status ≠ .busy → s.noIoFault →
    (m = 0 ∧ s.env.seekable = true) ∨ (m = 1 ∧ RoomFor s.env (lzwCodes s.io.inp).length) →
    ∃ t, exec (.compress m) s = .next t ∧ t.completed ∧ t.readOut 0 = some m ∧
      ∀ (u : State) (m' : Byte), u.regs.status ≠ .busy → u.noIoFault → u.io.inp = t.io.out →
        (m = 1 → RoomFor u.env (lzwCodes s.io.inp).length) →
        ∃ v, exec (.decompress m') u = .next v ∧ v.completed ∧ v.io.out = s.io.inp

/-- R289, R261, R262: whatever IN holds, whatever the parameters and the oracle are, and whatever ran before,
an accepted command ends, in one of two ways. -/
def Obligations.EveryCallEnds : Prop :=
  ∀ (i : Instr) (s : State), isCallOp i = true → s.regs.status ≠ .busy →
    ∃ t, exec i s = .next t ∧ (t.completed ∨ ∃ k, t.failedWith k)

/-- R284, R271: an accepted call's result is a function of CMD, IN, the parameters and the oracle: from two
states that agree on those, whatever ran before, whatever else they hold and whatever the free values are, it
gives the same STATUS, ERR, PHASE, CMD, OUT and IN_POS. -/
def Obligations.CallIsFunction : Prop :=
  ∀ (i : Instr) (s s' : State), isCallOp i = true → s.regs.status ≠ .busy → s'.regs.status ≠ .busy →
    SameCallArguments s s' →
    ∃ t t', exec i s = .next t ∧ exec i s' = .next t' ∧ t.regs = t'.regs ∧ t.io = t'.io

/-! ### Failing accesses, over all operations -/

/-- R244, R249, R250: the first access the oracle fails cuts any operation, calls included, off the run it has
with no fault. With none of its accesses failed the operation is that run; where access `a` is the first that
fails, it raises IOFailure at that access, with every byte appended before it in OUT and nothing after it, and
each access before it has moved one byte. -/
def Obligations.FaultCutsRun : Prop :=
  ∀ (i : Instr) (s u : State), (isCallOp i = true → s.regs.status ≠ .busy) →
    exec i (s.withOracle []) = .next u →
    ((∀ a, firstAccess i s ≤ a → a < u.env.accNo → (u.env.callNo, a) ∉ s.env.ioFaults) →
      exec i s = .next (u.withOracle s.env.ioFaults)) ∧
    (∀ a, firstAccess i s ≤ a → a < u.env.accNo → (u.env.callNo, a) ∈ s.env.ioFaults →
      (∀ b, firstAccess i s ≤ b → b < a → (u.env.callNo, b) ∉ s.env.ioFaults) →
      ∃ t, exec i s = .next t ∧ t.failedWith .ioFailure ∧ t.env.callNo = u.env.callNo ∧ t.env.accNo = a + 1 ∧
        t.io.out <+: u.io.out ∧ (isCallOp i = false → s.io.out <+: t.io.out) ∧
        (rewinds i = false → t.io.inPos + t.outLen = bytesMoved i s + (a - firstAccess i s)))
end

