-- ==== Sys2Proof/Laws/State.lean ====
section
/-! SUPPORT. What each named update of State leaves in each field, one lemma per field per update, so that
no later proof unfolds a record update. -/

namespace Sys2Proof.Machine.State

variable (s : State)

@[simp] theorem abort_regs_cmd (k : ErrKind) : (s.abort k).regs.cmd = s.regs.cmd := rfl
@[simp] theorem abort_regs_status (k : ErrKind) : (s.abort k).regs.status = .failed := rfl
@[simp] theorem abort_regs_phase (k : ErrKind) : (s.abort k).regs.phase = .idle := rfl
@[simp] theorem abort_regs_err (k : ErrKind) : (s.abort k).regs.err = some k := rfl
@[simp] theorem abort_io (k : ErrKind) : (s.abort k).io = s.io := rfl
@[simp] theorem abort_bc (k : ErrKind) : (s.abort k).bc = s.bc := rfl
@[simp] theorem abort_huf (k : ErrKind) : (s.abort k).huf = s.huf := rfl
@[simp] theorem abort_lzw (k : ErrKind) : (s.abort k).lzw = s.lzw := rfl
@[simp] theorem abort_env (k : ErrKind) : (s.abort k).env = s.env := rfl
@[simp] theorem abort_result (k : ErrKind) : (s.abort k).result = s.result := rfl
@[simp] theorem abort_moves (k : ErrKind) : (s.abort k).moves = s.moves := rfl
@[simp] theorem abort_free (k : ErrKind) : (s.abort k).free = s.free := rfl
@[simp] theorem abort_inLen (k : ErrKind) : (s.abort k).inLen = s.inLen := rfl
@[simp] theorem abort_ioFails (k : ErrKind) : (s.abort k).ioFails = s.ioFails := rfl
@[simp] theorem abort_remaining (k : ErrKind) : (s.abort k).remaining = s.remaining := rfl
@[simp] theorem abort_sentBits (k : ErrKind) : (s.abort k).sentBits = s.sentBits := rfl
@[simp] theorem abort_unreadBits (k : ErrKind) : (s.abort k).unreadBits = s.unreadBits := rfl

@[simp] theorem callDone_regs_cmd : (s.callDone).regs.cmd = s.regs.cmd := rfl
@[simp] theorem callDone_regs_status : (s.callDone).regs.status = .done := rfl
@[simp] theorem callDone_regs_phase : (s.callDone).regs.phase = .idle := rfl
@[simp] theorem callDone_regs_err : (s.callDone).regs.err = s.regs.err := rfl
@[simp] theorem callDone_io : (s.callDone).io = s.io := rfl
@[simp] theorem callDone_bc : (s.callDone).bc = s.bc := rfl
@[simp] theorem callDone_huf : (s.callDone).huf = s.huf := rfl
@[simp] theorem callDone_lzw : (s.callDone).lzw = s.lzw := rfl
@[simp] theorem callDone_env : (s.callDone).env = s.env := rfl
@[simp] theorem callDone_result : (s.callDone).result = s.result := rfl
@[simp] theorem callDone_moves : (s.callDone).moves = s.moves := rfl
@[simp] theorem callDone_free : (s.callDone).free = s.free := rfl
@[simp] theorem callDone_inLen : (s.callDone).inLen = s.inLen := rfl
@[simp] theorem callDone_ioFails : (s.callDone).ioFails = s.ioFails := rfl
@[simp] theorem callDone_remaining : (s.callDone).remaining = s.remaining := rfl
@[simp] theorem callDone_sentBits : (s.callDone).sentBits = s.sentBits := rfl
@[simp] theorem callDone_unreadBits : (s.callDone).unreadBits = s.unreadBits := rfl

@[simp] theorem setPhase_regs_cmd (p : Phase) : (s.setPhase p).regs.cmd = s.regs.cmd := rfl
@[simp] theorem setPhase_regs_status (p : Phase) : (s.setPhase p).regs.status = s.regs.status := rfl
@[simp] theorem setPhase_regs_phase (p : Phase) : (s.setPhase p).regs.phase = p := rfl
@[simp] theorem setPhase_regs_err (p : Phase) : (s.setPhase p).regs.err = s.regs.err := rfl
@[simp] theorem setPhase_io (p : Phase) : (s.setPhase p).io = s.io := rfl
@[simp] theorem setPhase_bc (p : Phase) : (s.setPhase p).bc = s.bc := rfl
@[simp] theorem setPhase_huf (p : Phase) : (s.setPhase p).huf = s.huf := rfl
@[simp] theorem setPhase_lzw (p : Phase) : (s.setPhase p).lzw = s.lzw := rfl
@[simp] theorem setPhase_env (p : Phase) : (s.setPhase p).env = s.env := rfl
@[simp] theorem setPhase_result (p : Phase) : (s.setPhase p).result = s.result := rfl
@[simp] theorem setPhase_moves (p : Phase) : (s.setPhase p).moves = s.moves := rfl
@[simp] theorem setPhase_free (p : Phase) : (s.setPhase p).free = s.free := rfl
@[simp] theorem setPhase_inLen (p : Phase) : (s.setPhase p).inLen = s.inLen := rfl
@[simp] theorem setPhase_ioFails (p : Phase) : (s.setPhase p).ioFails = s.ioFails := rfl
@[simp] theorem setPhase_remaining (p : Phase) : (s.setPhase p).remaining = s.remaining := rfl
@[simp] theorem setPhase_sentBits (p : Phase) : (s.setPhase p).sentBits = s.sentBits := rfl
@[simp] theorem setPhase_unreadBits (p : Phase) : (s.setPhase p).unreadBits = s.unreadBits := rfl

@[simp] theorem setCmd_regs_cmd (w : BitVec 16) : (s.setCmd w).regs.cmd = w := rfl
@[simp] theorem setCmd_regs_status (w : BitVec 16) : (s.setCmd w).regs.status = s.regs.status := rfl
@[simp] theorem setCmd_regs_phase (w : BitVec 16) : (s.setCmd w).regs.phase = s.regs.phase := rfl
@[simp] theorem setCmd_regs_err (w : BitVec 16) : (s.setCmd w).regs.err = s.regs.err := rfl
@[simp] theorem setCmd_io (w : BitVec 16) : (s.setCmd w).io = s.io := rfl
@[simp] theorem setCmd_bc (w : BitVec 16) : (s.setCmd w).bc = s.bc := rfl
@[simp] theorem setCmd_huf (w : BitVec 16) : (s.setCmd w).huf = s.huf := rfl
@[simp] theorem setCmd_lzw (w : BitVec 16) : (s.setCmd w).lzw = s.lzw := rfl
@[simp] theorem setCmd_env (w : BitVec 16) : (s.setCmd w).env = s.env := rfl
@[simp] theorem setCmd_result (w : BitVec 16) : (s.setCmd w).result = s.result := rfl
@[simp] theorem setCmd_moves (w : BitVec 16) : (s.setCmd w).moves = s.moves := rfl
@[simp] theorem setCmd_free (w : BitVec 16) : (s.setCmd w).free = s.free := rfl
@[simp] theorem setCmd_inLen (w : BitVec 16) : (s.setCmd w).inLen = s.inLen := rfl
@[simp] theorem setCmd_ioFails (w : BitVec 16) : (s.setCmd w).ioFails = s.ioFails := rfl
@[simp] theorem setCmd_remaining (w : BitVec 16) : (s.setCmd w).remaining = s.remaining := rfl
@[simp] theorem setCmd_sentBits (w : BitVec 16) : (s.setCmd w).sentBits = s.sentBits := rfl
@[simp] theorem setCmd_unreadBits (w : BitVec 16) : (s.setCmd w).unreadBits = s.unreadBits := rfl

@[simp] theorem setResult_regs (r : UopResult) : (s.setResult r).regs = s.regs := rfl
@[simp] theorem setResult_io (r : UopResult) : (s.setResult r).io = s.io := rfl
@[simp] theorem setResult_bc (r : UopResult) : (s.setResult r).bc = s.bc := rfl
@[simp] theorem setResult_huf (r : UopResult) : (s.setResult r).huf = s.huf := rfl
@[simp] theorem setResult_lzw (r : UopResult) : (s.setResult r).lzw = s.lzw := rfl
@[simp] theorem setResult_env (r : UopResult) : (s.setResult r).env = s.env := rfl
@[simp] theorem setResult_result (r : UopResult) : (s.setResult r).result = r := rfl
@[simp] theorem setResult_moves (r : UopResult) : (s.setResult r).moves = s.moves := rfl
@[simp] theorem setResult_free (r : UopResult) : (s.setResult r).free = s.free := rfl
@[simp] theorem setResult_inLen (r : UopResult) : (s.setResult r).inLen = s.inLen := rfl
@[simp] theorem setResult_ioFails (r : UopResult) : (s.setResult r).ioFails = s.ioFails := rfl
@[simp] theorem setResult_remaining (r : UopResult) : (s.setResult r).remaining = s.remaining := rfl
@[simp] theorem setResult_sentBits (r : UopResult) : (s.setResult r).sentBits = s.sentBits := rfl
@[simp] theorem setResult_unreadBits (r : UopResult) : (s.setResult r).unreadBits = s.unreadBits := rfl

@[simp] theorem countAccess_regs : (s.countAccess).regs = s.regs := rfl
@[simp] theorem countAccess_io : (s.countAccess).io = s.io := rfl
@[simp] theorem countAccess_bc : (s.countAccess).bc = s.bc := rfl
@[simp] theorem countAccess_huf : (s.countAccess).huf = s.huf := rfl
@[simp] theorem countAccess_lzw : (s.countAccess).lzw = s.lzw := rfl
@[simp] theorem countAccess_env_maxWidth : (s.countAccess).env.maxWidth = s.env.maxWidth := rfl
@[simp] theorem countAccess_env_dictCap : (s.countAccess).env.dictCap = s.env.dictCap := rfl
@[simp] theorem countAccess_env_ioFaults : (s.countAccess).env.ioFaults = s.env.ioFaults := rfl
@[simp] theorem countAccess_env_seekable : (s.countAccess).env.seekable = s.env.seekable := rfl
@[simp] theorem countAccess_env_callNo : (s.countAccess).env.callNo = s.env.callNo := rfl
@[simp] theorem countAccess_env_accNo : (s.countAccess).env.accNo = s.env.accNo + 1 := rfl
@[simp] theorem countAccess_result : (s.countAccess).result = s.result := rfl
@[simp] theorem countAccess_moves : (s.countAccess).moves = s.moves := rfl
@[simp] theorem countAccess_free : (s.countAccess).free = s.free := rfl
@[simp] theorem countAccess_inLen : (s.countAccess).inLen = s.inLen := rfl
@[simp] theorem countAccess_remaining : (s.countAccess).remaining = s.remaining := rfl
@[simp] theorem countAccess_sentBits : (s.countAccess).sentBits = s.sentBits := rfl
@[simp] theorem countAccess_unreadBits : (s.countAccess).unreadBits = s.unreadBits := rfl

@[simp] theorem pushOut_regs (b : Byte) : (s.pushOut b).regs = s.regs := rfl
@[simp] theorem pushOut_io_inp (b : Byte) : (s.pushOut b).io.inp = s.io.inp := rfl
@[simp] theorem pushOut_io_inPos (b : Byte) : (s.pushOut b).io.inPos = s.io.inPos := rfl
@[simp] theorem pushOut_io_out (b : Byte) : (s.pushOut b).io.out = s.io.out ++ [b] := rfl
@[simp] theorem pushOut_bc (b : Byte) : (s.pushOut b).bc = s.bc := rfl
@[simp] theorem pushOut_huf (b : Byte) : (s.pushOut b).huf = s.huf := rfl
@[simp] theorem pushOut_lzw (b : Byte) : (s.pushOut b).lzw = s.lzw := rfl
@[simp] theorem pushOut_env (b : Byte) : (s.pushOut b).env = s.env := rfl
@[simp] theorem pushOut_result (b : Byte) : (s.pushOut b).result = s.result := rfl
@[simp] theorem pushOut_moves (b : Byte) : (s.pushOut b).moves = s.moves := rfl
@[simp] theorem pushOut_free (b : Byte) : (s.pushOut b).free = s.free := rfl
@[simp] theorem pushOut_inLen (b : Byte) : (s.pushOut b).inLen = s.inLen := rfl
@[simp] theorem pushOut_ioFails (b : Byte) : (s.pushOut b).ioFails = s.ioFails := rfl

@[simp] theorem setInPos_regs (p : Nat) : (s.setInPos p).regs = s.regs := rfl
@[simp] theorem setInPos_io_inp (p : Nat) : (s.setInPos p).io.inp = s.io.inp := rfl
@[simp] theorem setInPos_io_inPos (p : Nat) : (s.setInPos p).io.inPos = p := rfl
@[simp] theorem setInPos_io_out (p : Nat) : (s.setInPos p).io.out = s.io.out := rfl
@[simp] theorem setInPos_bc (p : Nat) : (s.setInPos p).bc = s.bc := rfl
@[simp] theorem setInPos_huf (p : Nat) : (s.setInPos p).huf = s.huf := rfl
@[simp] theorem setInPos_lzw (p : Nat) : (s.setInPos p).lzw = s.lzw := rfl
@[simp] theorem setInPos_env (p : Nat) : (s.setInPos p).env = s.env := rfl
@[simp] theorem setInPos_result (p : Nat) : (s.setInPos p).result = s.result := rfl
@[simp] theorem setInPos_moves (p : Nat) : (s.setInPos p).moves = s.moves := rfl
@[simp] theorem setInPos_free (p : Nat) : (s.setInPos p).free = s.free := rfl
@[simp] theorem setInPos_inLen (p : Nat) : (s.setInPos p).inLen = s.inLen := rfl
@[simp] theorem setInPos_ioFails (p : Nat) : (s.setInPos p).ioFails = s.ioFails := rfl

@[simp] theorem setWriter_regs (acc : Byte) (cnt : Fin 8) : (s.setWriter acc cnt).regs = s.regs := rfl
@[simp] theorem setWriter_io (acc : Byte) (cnt : Fin 8) : (s.setWriter acc cnt).io = s.io := rfl
@[simp] theorem setWriter_bc_wAcc (acc : Byte) (cnt : Fin 8) : (s.setWriter acc cnt).bc.wAcc = acc := rfl
@[simp] theorem setWriter_bc_wCnt (acc : Byte) (cnt : Fin 8) : (s.setWriter acc cnt).bc.wCnt = cnt := rfl
@[simp] theorem setWriter_bc_rCur (acc : Byte) (cnt : Fin 8) : (s.setWriter acc cnt).bc.rCur = s.bc.rCur := rfl
@[simp] theorem setWriter_bc_rCnt (acc : Byte) (cnt : Fin 8) : (s.setWriter acc cnt).bc.rCnt = s.bc.rCnt := rfl
@[simp] theorem setWriter_huf (acc : Byte) (cnt : Fin 8) : (s.setWriter acc cnt).huf = s.huf := rfl
@[simp] theorem setWriter_lzw (acc : Byte) (cnt : Fin 8) : (s.setWriter acc cnt).lzw = s.lzw := rfl
@[simp] theorem setWriter_env (acc : Byte) (cnt : Fin 8) : (s.setWriter acc cnt).env = s.env := rfl
@[simp] theorem setWriter_result (acc : Byte) (cnt : Fin 8) : (s.setWriter acc cnt).result = s.result := rfl
@[simp] theorem setWriter_moves (acc : Byte) (cnt : Fin 8) : (s.setWriter acc cnt).moves = s.moves := rfl
@[simp] theorem setWriter_free (acc : Byte) (cnt : Fin 8) : (s.setWriter acc cnt).free = s.free := rfl
@[simp] theorem setWriter_inLen (acc : Byte) (cnt : Fin 8) : (s.setWriter acc cnt).inLen = s.inLen := rfl
@[simp] theorem setWriter_ioFails (acc : Byte) (cnt : Fin 8) : (s.setWriter acc cnt).ioFails = s.ioFails := rfl

@[simp] theorem setReader_regs (cur : Byte) (cnt : Fin 9) : (s.setReader cur cnt).regs = s.regs := rfl
@[simp] theorem setReader_io (cur : Byte) (cnt : Fin 9) : (s.setReader cur cnt).io = s.io := rfl
@[simp] theorem setReader_bc_wAcc (cur : Byte) (cnt : Fin 9) : (s.setReader cur cnt).bc.wAcc = s.bc.wAcc := rfl
@[simp] theorem setReader_bc_wCnt (cur : Byte) (cnt : Fin 9) : (s.setReader cur cnt).bc.wCnt = s.bc.wCnt := rfl
@[simp] theorem setReader_bc_rCur (cur : Byte) (cnt : Fin 9) : (s.setReader cur cnt).bc.rCur = cur := rfl
@[simp] theorem setReader_bc_rCnt (cur : Byte) (cnt : Fin 9) : (s.setReader cur cnt).bc.rCnt = cnt := rfl
@[simp] theorem setReader_huf (cur : Byte) (cnt : Fin 9) : (s.setReader cur cnt).huf = s.huf := rfl
@[simp] theorem setReader_lzw (cur : Byte) (cnt : Fin 9) : (s.setReader cur cnt).lzw = s.lzw := rfl
@[simp] theorem setReader_env (cur : Byte) (cnt : Fin 9) : (s.setReader cur cnt).env = s.env := rfl
@[simp] theorem setReader_result (cur : Byte) (cnt : Fin 9) : (s.setReader cur cnt).result = s.result := rfl
@[simp] theorem setReader_moves (cur : Byte) (cnt : Fin 9) : (s.setReader cur cnt).moves = s.moves := rfl
@[simp] theorem setReader_free (cur : Byte) (cnt : Fin 9) : (s.setReader cur cnt).free = s.free := rfl
@[simp] theorem setReader_inLen (cur : Byte) (cnt : Fin 9) : (s.setReader cur cnt).inLen = s.inLen := rfl
@[simp] theorem setReader_ioFails (cur : Byte) (cnt : Fin 9) : (s.setReader cur cnt).ioFails = s.ioFails := rfl

@[simp] theorem setHuf_regs (h : Huffman) : (s.setHuf h).regs = s.regs := rfl
@[simp] theorem setHuf_io (h : Huffman) : (s.setHuf h).io = s.io := rfl
@[simp] theorem setHuf_bc (h : Huffman) : (s.setHuf h).bc = s.bc := rfl
@[simp] theorem setHuf_huf (h : Huffman) : (s.setHuf h).huf = h := rfl
@[simp] theorem setHuf_lzw (h : Huffman) : (s.setHuf h).lzw = s.lzw := rfl
@[simp] theorem setHuf_env (h : Huffman) : (s.setHuf h).env = s.env := rfl
@[simp] theorem setHuf_result (h : Huffman) : (s.setHuf h).result = s.result := rfl
@[simp] theorem setHuf_moves (h : Huffman) : (s.setHuf h).moves = s.moves := rfl
@[simp] theorem setHuf_free (h : Huffman) : (s.setHuf h).free = s.free := rfl
@[simp] theorem setHuf_inLen (h : Huffman) : (s.setHuf h).inLen = s.inLen := rfl
@[simp] theorem setHuf_ioFails (h : Huffman) : (s.setHuf h).ioFails = s.ioFails := rfl
@[simp] theorem setHuf_remaining (h : Huffman) : (s.setHuf h).remaining = s.remaining := rfl
@[simp] theorem setHuf_sentBits (h : Huffman) : (s.setHuf h).sentBits = s.sentBits := rfl
@[simp] theorem setHuf_unreadBits (h : Huffman) : (s.setHuf h).unreadBits = s.unreadBits := rfl

@[simp] theorem setLzw_regs (l : Lzw) : (s.setLzw l).regs = s.regs := rfl
@[simp] theorem setLzw_io (l : Lzw) : (s.setLzw l).io = s.io := rfl
@[simp] theorem setLzw_bc (l : Lzw) : (s.setLzw l).bc = s.bc := rfl
@[simp] theorem setLzw_huf (l : Lzw) : (s.setLzw l).huf = s.huf := rfl
@[simp] theorem setLzw_lzw (l : Lzw) : (s.setLzw l).lzw = l := rfl
@[simp] theorem setLzw_env (l : Lzw) : (s.setLzw l).env = s.env := rfl
@[simp] theorem setLzw_result (l : Lzw) : (s.setLzw l).result = s.result := rfl
@[simp] theorem setLzw_moves (l : Lzw) : (s.setLzw l).moves = s.moves := rfl
@[simp] theorem setLzw_free (l : Lzw) : (s.setLzw l).free = s.free := rfl
@[simp] theorem setLzw_inLen (l : Lzw) : (s.setLzw l).inLen = s.inLen := rfl
@[simp] theorem setLzw_ioFails (l : Lzw) : (s.setLzw l).ioFails = s.ioFails := rfl
@[simp] theorem setLzw_remaining (l : Lzw) : (s.setLzw l).remaining = s.remaining := rfl
@[simp] theorem setLzw_sentBits (l : Lzw) : (s.setLzw l).sentBits = s.sentBits := rfl
@[simp] theorem setLzw_unreadBits (l : Lzw) : (s.setLzw l).unreadBits = s.unreadBits := rfl

@[simp] theorem writeNode_regs (i : Nat) (e : NodeEntry) : (s.writeNode i e).regs = s.regs := rfl
@[simp] theorem writeNode_io (i : Nat) (e : NodeEntry) : (s.writeNode i e).io = s.io := rfl
@[simp] theorem writeNode_bc (i : Nat) (e : NodeEntry) : (s.writeNode i e).bc = s.bc := rfl
@[simp] theorem writeNode_huf_freq (i : Nat) (e : NodeEntry) : (s.writeNode i e).huf.freq = s.huf.freq := rfl
@[simp] theorem writeNode_huf_node (i : Nat) (e : NodeEntry) : (s.writeNode i e).huf.node = s.huf.node.write i e := rfl
@[simp] theorem writeNode_huf_nNodes (i : Nat) (e : NodeEntry) : (s.writeNode i e).huf.nNodes = s.huf.nNodes := rfl
@[simp] theorem writeNode_huf_list (i : Nat) (e : NodeEntry) : (s.writeNode i e).huf.list = s.huf.list := rfl
@[simp] theorem writeNode_huf_root (i : Nat) (e : NodeEntry) : (s.writeNode i e).huf.root = s.huf.root := rfl
@[simp] theorem writeNode_huf_ctab (i : Nat) (e : NodeEntry) : (s.writeNode i e).huf.ctab = s.huf.ctab := rfl
@[simp] theorem writeNode_huf_hstk (i : Nat) (e : NodeEntry) : (s.writeNode i e).huf.hstk = s.huf.hstk := rfl
@[simp] theorem writeNode_huf_hpath (i : Nat) (e : NodeEntry) : (s.writeNode i e).huf.hpath = s.huf.hpath := rfl
@[simp] theorem writeNode_huf_walk (i : Nat) (e : NodeEntry) : (s.writeNode i e).huf.walk = s.huf.walk := rfl
@[simp] theorem writeNode_huf_dstk (i : Nat) (e : NodeEntry) : (s.writeNode i e).huf.dstk = s.huf.dstk := rfl
@[simp] theorem writeNode_lzw (i : Nat) (e : NodeEntry) : (s.writeNode i e).lzw = s.lzw := rfl
@[simp] theorem writeNode_env (i : Nat) (e : NodeEntry) : (s.writeNode i e).env = s.env := rfl
@[simp] theorem writeNode_result (i : Nat) (e : NodeEntry) : (s.writeNode i e).result = s.result := rfl
@[simp] theorem writeNode_moves (i : Nat) (e : NodeEntry) : (s.writeNode i e).moves = s.moves := rfl
@[simp] theorem writeNode_free (i : Nat) (e : NodeEntry) : (s.writeNode i e).free = s.free := rfl
@[simp] theorem writeNode_inLen (i : Nat) (e : NodeEntry) : (s.writeNode i e).inLen = s.inLen := rfl
@[simp] theorem writeNode_ioFails (i : Nat) (e : NodeEntry) : (s.writeNode i e).ioFails = s.ioFails := rfl
@[simp] theorem writeNode_remaining (i : Nat) (e : NodeEntry) : (s.writeNode i e).remaining = s.remaining := rfl
@[simp] theorem writeNode_sentBits (i : Nat) (e : NodeEntry) : (s.writeNode i e).sentBits = s.sentBits := rfl
@[simp] theorem writeNode_unreadBits (i : Nat) (e : NodeEntry) : (s.writeNode i e).unreadBits = s.unreadBits := rfl

@[simp] theorem bumpFreq_regs (sym : Nat) : (s.bumpFreq sym).regs = s.regs := rfl
@[simp] theorem bumpFreq_io (sym : Nat) : (s.bumpFreq sym).io = s.io := rfl
@[simp] theorem bumpFreq_bc (sym : Nat) : (s.bumpFreq sym).bc = s.bc := rfl
@[simp] theorem bumpFreq_huf_freq (sym : Nat) : (s.bumpFreq sym).huf.freq = s.huf.freq.write sym (s.freqOf sym + 1) := rfl
@[simp] theorem bumpFreq_huf_node (sym : Nat) : (s.bumpFreq sym).huf.node = s.huf.node := rfl
@[simp] theorem bumpFreq_huf_nNodes (sym : Nat) : (s.bumpFreq sym).huf.nNodes = s.huf.nNodes := rfl
@[simp] theorem bumpFreq_huf_list (sym : Nat) : (s.bumpFreq sym).huf.list = s.huf.list := rfl
@[simp] theorem bumpFreq_huf_root (sym : Nat) : (s.bumpFreq sym).huf.root = s.huf.root := rfl
@[simp] theorem bumpFreq_huf_ctab (sym : Nat) : (s.bumpFreq sym).huf.ctab = s.huf.ctab := rfl
@[simp] theorem bumpFreq_huf_hstk (sym : Nat) : (s.bumpFreq sym).huf.hstk = s.huf.hstk := rfl
@[simp] theorem bumpFreq_huf_hpath (sym : Nat) : (s.bumpFreq sym).huf.hpath = s.huf.hpath := rfl
@[simp] theorem bumpFreq_huf_walk (sym : Nat) : (s.bumpFreq sym).huf.walk = s.huf.walk := rfl
@[simp] theorem bumpFreq_huf_dstk (sym : Nat) : (s.bumpFreq sym).huf.dstk = s.huf.dstk := rfl
@[simp] theorem bumpFreq_lzw (sym : Nat) : (s.bumpFreq sym).lzw = s.lzw := rfl
@[simp] theorem bumpFreq_env (sym : Nat) : (s.bumpFreq sym).env = s.env := rfl
@[simp] theorem bumpFreq_result (sym : Nat) : (s.bumpFreq sym).result = s.result := rfl
@[simp] theorem bumpFreq_moves (sym : Nat) : (s.bumpFreq sym).moves = s.moves := rfl
@[simp] theorem bumpFreq_free (sym : Nat) : (s.bumpFreq sym).free = s.free := rfl
@[simp] theorem bumpFreq_inLen (sym : Nat) : (s.bumpFreq sym).inLen = s.inLen := rfl
@[simp] theorem bumpFreq_ioFails (sym : Nat) : (s.bumpFreq sym).ioFails = s.ioFails := rfl
@[simp] theorem bumpFreq_remaining (sym : Nat) : (s.bumpFreq sym).remaining = s.remaining := rfl
@[simp] theorem bumpFreq_sentBits (sym : Nat) : (s.bumpFreq sym).sentBits = s.sentBits := rfl
@[simp] theorem bumpFreq_unreadBits (sym : Nat) : (s.bumpFreq sym).unreadBits = s.unreadBits := rfl

@[simp] theorem enterNode_regs (i : Nat) : (s.enterNode i).regs = s.regs := rfl
@[simp] theorem enterNode_io (i : Nat) : (s.enterNode i).io = s.io := rfl
@[simp] theorem enterNode_bc (i : Nat) : (s.enterNode i).bc = s.bc := rfl
@[simp] theorem enterNode_huf_freq (i : Nat) : (s.enterNode i).huf.freq = s.huf.freq := rfl
@[simp] theorem enterNode_huf_node (i : Nat) : (s.enterNode i).huf.node = s.huf.node := rfl
@[simp] theorem enterNode_huf_nNodes (i : Nat) : (s.enterNode i).huf.nNodes = s.huf.nNodes := rfl
@[simp] theorem enterNode_huf_list (i : Nat) : (s.enterNode i).huf.list = s.huf.list := rfl
@[simp] theorem enterNode_huf_root (i : Nat) : (s.enterNode i).huf.root = s.huf.root := rfl
@[simp] theorem enterNode_huf_ctab (i : Nat) : (s.enterNode i).huf.ctab = s.huf.ctab := rfl
@[simp] theorem enterNode_huf_hstk (i : Nat) : (s.enterNode i).huf.hstk = i :: s.huf.hstk := rfl
@[simp] theorem enterNode_huf_hpath (i : Nat) : (s.enterNode i).huf.hpath = s.huf.hpath := rfl
@[simp] theorem enterNode_huf_walk (i : Nat) : (s.enterNode i).huf.walk = s.huf.walk := rfl
@[simp] theorem enterNode_huf_dstk (i : Nat) : (s.enterNode i).huf.dstk = s.huf.dstk := rfl
@[simp] theorem enterNode_lzw (i : Nat) : (s.enterNode i).lzw = s.lzw := rfl
@[simp] theorem enterNode_env (i : Nat) : (s.enterNode i).env = s.env := rfl
@[simp] theorem enterNode_result (i : Nat) : (s.enterNode i).result = s.result := rfl
@[simp] theorem enterNode_moves (i : Nat) : (s.enterNode i).moves = s.moves := rfl
@[simp] theorem enterNode_free (i : Nat) : (s.enterNode i).free = s.free := rfl
@[simp] theorem enterNode_inLen (i : Nat) : (s.enterNode i).inLen = s.inLen := rfl
@[simp] theorem enterNode_ioFails (i : Nat) : (s.enterNode i).ioFails = s.ioFails := rfl
@[simp] theorem enterNode_remaining (i : Nat) : (s.enterNode i).remaining = s.remaining := rfl
@[simp] theorem enterNode_sentBits (i : Nat) : (s.enterNode i).sentBits = s.sentBits := rfl
@[simp] theorem enterNode_unreadBits (i : Nat) : (s.enterNode i).unreadBits = s.unreadBits := rfl

@[simp] theorem leaveNode_regs : (s.leaveNode).regs = s.regs := rfl
@[simp] theorem leaveNode_io : (s.leaveNode).io = s.io := rfl
@[simp] theorem leaveNode_bc : (s.leaveNode).bc = s.bc := rfl
@[simp] theorem leaveNode_huf_freq : (s.leaveNode).huf.freq = s.huf.freq := rfl
@[simp] theorem leaveNode_huf_node : (s.leaveNode).huf.node = s.huf.node := rfl
@[simp] theorem leaveNode_huf_nNodes : (s.leaveNode).huf.nNodes = s.huf.nNodes := rfl
@[simp] theorem leaveNode_huf_list : (s.leaveNode).huf.list = s.huf.list := rfl
@[simp] theorem leaveNode_huf_root : (s.leaveNode).huf.root = s.huf.root := rfl
@[simp] theorem leaveNode_huf_ctab : (s.leaveNode).huf.ctab = s.huf.ctab := rfl
@[simp] theorem leaveNode_huf_hstk : (s.leaveNode).huf.hstk = s.huf.hstk.tail := rfl
@[simp] theorem leaveNode_huf_hpath : (s.leaveNode).huf.hpath = s.huf.hpath := rfl
@[simp] theorem leaveNode_huf_walk : (s.leaveNode).huf.walk = s.huf.walk := rfl
@[simp] theorem leaveNode_huf_dstk : (s.leaveNode).huf.dstk = s.huf.dstk := rfl
@[simp] theorem leaveNode_lzw : (s.leaveNode).lzw = s.lzw := rfl
@[simp] theorem leaveNode_env : (s.leaveNode).env = s.env := rfl
@[simp] theorem leaveNode_result : (s.leaveNode).result = s.result := rfl
@[simp] theorem leaveNode_moves : (s.leaveNode).moves = s.moves := rfl
@[simp] theorem leaveNode_free : (s.leaveNode).free = s.free := rfl
@[simp] theorem leaveNode_inLen : (s.leaveNode).inLen = s.inLen := rfl
@[simp] theorem leaveNode_ioFails : (s.leaveNode).ioFails = s.ioFails := rfl
@[simp] theorem leaveNode_remaining : (s.leaveNode).remaining = s.remaining := rfl
@[simp] theorem leaveNode_sentBits : (s.leaveNode).sentBits = s.sentBits := rfl
@[simp] theorem leaveNode_unreadBits : (s.leaveNode).unreadBits = s.unreadBits := rfl

@[simp] theorem setPath_regs (p : List Bool) : (s.setPath p).regs = s.regs := rfl
@[simp] theorem setPath_io (p : List Bool) : (s.setPath p).io = s.io := rfl
@[simp] theorem setPath_bc (p : List Bool) : (s.setPath p).bc = s.bc := rfl
@[simp] theorem setPath_huf_freq (p : List Bool) : (s.setPath p).huf.freq = s.huf.freq := rfl
@[simp] theorem setPath_huf_node (p : List Bool) : (s.setPath p).huf.node = s.huf.node := rfl
@[simp] theorem setPath_huf_nNodes (p : List Bool) : (s.setPath p).huf.nNodes = s.huf.nNodes := rfl
@[simp] theorem setPath_huf_list (p : List Bool) : (s.setPath p).huf.list = s.huf.list := rfl
@[simp] theorem setPath_huf_root (p : List Bool) : (s.setPath p).huf.root = s.huf.root := rfl
@[simp] theorem setPath_huf_ctab (p : List Bool) : (s.setPath p).huf.ctab = s.huf.ctab := rfl
@[simp] theorem setPath_huf_hstk (p : List Bool) : (s.setPath p).huf.hstk = s.huf.hstk := rfl
@[simp] theorem setPath_huf_hpath (p : List Bool) : (s.setPath p).huf.hpath = p := rfl
@[simp] theorem setPath_huf_walk (p : List Bool) : (s.setPath p).huf.walk = s.huf.walk := rfl
@[simp] theorem setPath_huf_dstk (p : List Bool) : (s.setPath p).huf.dstk = s.huf.dstk := rfl
@[simp] theorem setPath_lzw (p : List Bool) : (s.setPath p).lzw = s.lzw := rfl
@[simp] theorem setPath_env (p : List Bool) : (s.setPath p).env = s.env := rfl
@[simp] theorem setPath_result (p : List Bool) : (s.setPath p).result = s.result := rfl
@[simp] theorem setPath_moves (p : List Bool) : (s.setPath p).moves = s.moves := rfl
@[simp] theorem setPath_free (p : List Bool) : (s.setPath p).free = s.free := rfl
@[simp] theorem setPath_inLen (p : List Bool) : (s.setPath p).inLen = s.inLen := rfl
@[simp] theorem setPath_ioFails (p : List Bool) : (s.setPath p).ioFails = s.ioFails := rfl
@[simp] theorem setPath_remaining (p : List Bool) : (s.setPath p).remaining = s.remaining := rfl
@[simp] theorem setPath_sentBits (p : List Bool) : (s.setPath p).sentBits = s.sentBits := rfl
@[simp] theorem setPath_unreadBits (p : List Bool) : (s.setPath p).unreadBits = s.unreadBits := rfl

@[simp] theorem setCode_regs (sym : Nat) (p : List Bool) : (s.setCode sym p).regs = s.regs := rfl
@[simp] theorem setCode_io (sym : Nat) (p : List Bool) : (s.setCode sym p).io = s.io := rfl
@[simp] theorem setCode_bc (sym : Nat) (p : List Bool) : (s.setCode sym p).bc = s.bc := rfl
@[simp] theorem setCode_huf_freq (sym : Nat) (p : List Bool) : (s.setCode sym p).huf.freq = s.huf.freq := rfl
@[simp] theorem setCode_huf_node (sym : Nat) (p : List Bool) : (s.setCode sym p).huf.node = s.huf.node := rfl
@[simp] theorem setCode_huf_nNodes (sym : Nat) (p : List Bool) : (s.setCode sym p).huf.nNodes = s.huf.nNodes := rfl
@[simp] theorem setCode_huf_list (sym : Nat) (p : List Bool) : (s.setCode sym p).huf.list = s.huf.list := rfl
@[simp] theorem setCode_huf_root (sym : Nat) (p : List Bool) : (s.setCode sym p).huf.root = s.huf.root := rfl
@[simp] theorem setCode_huf_ctab (sym : Nat) (p : List Bool) : (s.setCode sym p).huf.ctab = s.huf.ctab.write sym { len := p.length, bits := p } := rfl
@[simp] theorem setCode_huf_hstk (sym : Nat) (p : List Bool) : (s.setCode sym p).huf.hstk = s.huf.hstk := rfl
@[simp] theorem setCode_huf_hpath (sym : Nat) (p : List Bool) : (s.setCode sym p).huf.hpath = s.huf.hpath := rfl
@[simp] theorem setCode_huf_walk (sym : Nat) (p : List Bool) : (s.setCode sym p).huf.walk = s.huf.walk := rfl
@[simp] theorem setCode_huf_dstk (sym : Nat) (p : List Bool) : (s.setCode sym p).huf.dstk = s.huf.dstk := rfl
@[simp] theorem setCode_lzw (sym : Nat) (p : List Bool) : (s.setCode sym p).lzw = s.lzw := rfl
@[simp] theorem setCode_env (sym : Nat) (p : List Bool) : (s.setCode sym p).env = s.env := rfl
@[simp] theorem setCode_result (sym : Nat) (p : List Bool) : (s.setCode sym p).result = s.result := rfl
@[simp] theorem setCode_moves (sym : Nat) (p : List Bool) : (s.setCode sym p).moves = s.moves := rfl
@[simp] theorem setCode_free (sym : Nat) (p : List Bool) : (s.setCode sym p).free = s.free := rfl
@[simp] theorem setCode_inLen (sym : Nat) (p : List Bool) : (s.setCode sym p).inLen = s.inLen := rfl
@[simp] theorem setCode_ioFails (sym : Nat) (p : List Bool) : (s.setCode sym p).ioFails = s.ioFails := rfl
@[simp] theorem setCode_remaining (sym : Nat) (p : List Bool) : (s.setCode sym p).remaining = s.remaining := rfl
@[simp] theorem setCode_sentBits (sym : Nat) (p : List Bool) : (s.setCode sym p).sentBits = s.sentBits := rfl
@[simp] theorem setCode_unreadBits (sym : Nat) (p : List Bool) : (s.setCode sym p).unreadBits = s.unreadBits := rfl

@[simp] theorem setWalk_regs (i : Nat) : (s.setWalk i).regs = s.regs := rfl
@[simp] theorem setWalk_io (i : Nat) : (s.setWalk i).io = s.io := rfl
@[simp] theorem setWalk_bc (i : Nat) : (s.setWalk i).bc = s.bc := rfl
@[simp] theorem setWalk_huf_freq (i : Nat) : (s.setWalk i).huf.freq = s.huf.freq := rfl
@[simp] theorem setWalk_huf_node (i : Nat) : (s.setWalk i).huf.node = s.huf.node := rfl
@[simp] theorem setWalk_huf_nNodes (i : Nat) : (s.setWalk i).huf.nNodes = s.huf.nNodes := rfl
@[simp] theorem setWalk_huf_list (i : Nat) : (s.setWalk i).huf.list = s.huf.list := rfl
@[simp] theorem setWalk_huf_root (i : Nat) : (s.setWalk i).huf.root = s.huf.root := rfl
@[simp] theorem setWalk_huf_ctab (i : Nat) : (s.setWalk i).huf.ctab = s.huf.ctab := rfl
@[simp] theorem setWalk_huf_hstk (i : Nat) : (s.setWalk i).huf.hstk = s.huf.hstk := rfl
@[simp] theorem setWalk_huf_hpath (i : Nat) : (s.setWalk i).huf.hpath = s.huf.hpath := rfl
@[simp] theorem setWalk_huf_walk (i : Nat) : (s.setWalk i).huf.walk = i := rfl
@[simp] theorem setWalk_huf_dstk (i : Nat) : (s.setWalk i).huf.dstk = s.huf.dstk := rfl
@[simp] theorem setWalk_lzw (i : Nat) : (s.setWalk i).lzw = s.lzw := rfl
@[simp] theorem setWalk_env (i : Nat) : (s.setWalk i).env = s.env := rfl
@[simp] theorem setWalk_result (i : Nat) : (s.setWalk i).result = s.result := rfl
@[simp] theorem setWalk_moves (i : Nat) : (s.setWalk i).moves = s.moves := rfl
@[simp] theorem setWalk_free (i : Nat) : (s.setWalk i).free = s.free := rfl
@[simp] theorem setWalk_inLen (i : Nat) : (s.setWalk i).inLen = s.inLen := rfl
@[simp] theorem setWalk_ioFails (i : Nat) : (s.setWalk i).ioFails = s.ioFails := rfl
@[simp] theorem setWalk_remaining (i : Nat) : (s.setWalk i).remaining = s.remaining := rfl
@[simp] theorem setWalk_sentBits (i : Nat) : (s.setWalk i).sentBits = s.sentBits := rfl
@[simp] theorem setWalk_unreadBits (i : Nat) : (s.setWalk i).unreadBits = s.unreadBits := rfl

@[simp] theorem widen_regs : (s.widen).regs = s.regs := rfl
@[simp] theorem widen_io : (s.widen).io = s.io := rfl
@[simp] theorem widen_bc : (s.widen).bc = s.bc := rfl
@[simp] theorem widen_huf : (s.widen).huf = s.huf := rfl
@[simp] theorem widen_lzw_width : (s.widen).lzw.width = s.lzw.width + 1 := rfl
@[simp] theorem widen_lzw_maxCode : (s.widen).lzw.maxCode = 1 <<< (s.lzw.width + 1) := rfl
@[simp] theorem widen_lzw_dSize : (s.widen).lzw.dSize = s.lzw.dSize := rfl
@[simp] theorem widen_lzw_eDict : (s.widen).lzw.eDict = s.lzw.eDict := rfl
@[simp] theorem widen_lzw_cur : (s.widen).lzw.cur = s.lzw.cur := rfl
@[simp] theorem widen_lzw_haveCur : (s.widen).lzw.haveCur = s.lzw.haveCur := rfl
@[simp] theorem widen_lzw_dDict : (s.widen).lzw.dDict = s.lzw.dDict := rfl
@[simp] theorem widen_lzw_c1 : (s.widen).lzw.c1 = s.lzw.c1 := rfl
@[simp] theorem widen_lzw_c2 : (s.widen).lzw.c2 = s.lzw.c2 := rfl
@[simp] theorem widen_lzw_c2Valid : (s.widen).lzw.c2Valid = s.lzw.c2Valid := rfl
@[simp] theorem widen_lzw_xstk : (s.widen).lzw.xstk = s.lzw.xstk := rfl
@[simp] theorem widen_lzw_c1Held : (s.widen).lzw.c1Held = s.lzw.c1Held := rfl
@[simp] theorem widen_env : (s.widen).env = s.env := rfl
@[simp] theorem widen_result : (s.widen).result = s.result := rfl
@[simp] theorem widen_moves : (s.widen).moves = s.moves := rfl
@[simp] theorem widen_free : (s.widen).free = s.free := rfl
@[simp] theorem widen_inLen : (s.widen).inLen = s.inLen := rfl
@[simp] theorem widen_ioFails : (s.widen).ioFails = s.ioFails := rfl
@[simp] theorem widen_remaining : (s.widen).remaining = s.remaining := rfl
@[simp] theorem widen_sentBits : (s.widen).sentBits = s.sentBits := rfl
@[simp] theorem widen_unreadBits : (s.widen).unreadBits = s.unreadBits := rfl

@[simp] theorem setCur_regs (c : Nat) : (s.setCur c).regs = s.regs := rfl
@[simp] theorem setCur_io (c : Nat) : (s.setCur c).io = s.io := rfl
@[simp] theorem setCur_bc (c : Nat) : (s.setCur c).bc = s.bc := rfl
@[simp] theorem setCur_huf (c : Nat) : (s.setCur c).huf = s.huf := rfl
@[simp] theorem setCur_lzw_width (c : Nat) : (s.setCur c).lzw.width = s.lzw.width := rfl
@[simp] theorem setCur_lzw_maxCode (c : Nat) : (s.setCur c).lzw.maxCode = s.lzw.maxCode := rfl
@[simp] theorem setCur_lzw_dSize (c : Nat) : (s.setCur c).lzw.dSize = s.lzw.dSize := rfl
@[simp] theorem setCur_lzw_eDict (c : Nat) : (s.setCur c).lzw.eDict = s.lzw.eDict := rfl
@[simp] theorem setCur_lzw_cur (c : Nat) : (s.setCur c).lzw.cur = c := rfl
@[simp] theorem setCur_lzw_haveCur (c : Nat) : (s.setCur c).lzw.haveCur = s.lzw.haveCur := rfl
@[simp] theorem setCur_lzw_dDict (c : Nat) : (s.setCur c).lzw.dDict = s.lzw.dDict := rfl
@[simp] theorem setCur_lzw_c1 (c : Nat) : (s.setCur c).lzw.c1 = s.lzw.c1 := rfl
@[simp] theorem setCur_lzw_c2 (c : Nat) : (s.setCur c).lzw.c2 = s.lzw.c2 := rfl
@[simp] theorem setCur_lzw_c2Valid (c : Nat) : (s.setCur c).lzw.c2Valid = s.lzw.c2Valid := rfl
@[simp] theorem setCur_lzw_xstk (c : Nat) : (s.setCur c).lzw.xstk = s.lzw.xstk := rfl
@[simp] theorem setCur_lzw_c1Held (c : Nat) : (s.setCur c).lzw.c1Held = s.lzw.c1Held := rfl
@[simp] theorem setCur_env (c : Nat) : (s.setCur c).env = s.env := rfl
@[simp] theorem setCur_result (c : Nat) : (s.setCur c).result = s.result := rfl
@[simp] theorem setCur_moves (c : Nat) : (s.setCur c).moves = s.moves := rfl
@[simp] theorem setCur_free (c : Nat) : (s.setCur c).free = s.free := rfl
@[simp] theorem setCur_inLen (c : Nat) : (s.setCur c).inLen = s.inLen := rfl
@[simp] theorem setCur_ioFails (c : Nat) : (s.setCur c).ioFails = s.ioFails := rfl
@[simp] theorem setCur_remaining (c : Nat) : (s.setCur c).remaining = s.remaining := rfl
@[simp] theorem setCur_sentBits (c : Nat) : (s.setCur c).sentBits = s.sentBits := rfl
@[simp] theorem setCur_unreadBits (c : Nat) : (s.setCur c).unreadBits = s.unreadBits := rfl

@[simp] theorem setXstk_regs (x : List Byte) : (s.setXstk x).regs = s.regs := rfl
@[simp] theorem setXstk_io (x : List Byte) : (s.setXstk x).io = s.io := rfl
@[simp] theorem setXstk_bc (x : List Byte) : (s.setXstk x).bc = s.bc := rfl
@[simp] theorem setXstk_huf (x : List Byte) : (s.setXstk x).huf = s.huf := rfl
@[simp] theorem setXstk_lzw_width (x : List Byte) : (s.setXstk x).lzw.width = s.lzw.width := rfl
@[simp] theorem setXstk_lzw_maxCode (x : List Byte) : (s.setXstk x).lzw.maxCode = s.lzw.maxCode := rfl
@[simp] theorem setXstk_lzw_dSize (x : List Byte) : (s.setXstk x).lzw.dSize = s.lzw.dSize := rfl
@[simp] theorem setXstk_lzw_eDict (x : List Byte) : (s.setXstk x).lzw.eDict = s.lzw.eDict := rfl
@[simp] theorem setXstk_lzw_cur (x : List Byte) : (s.setXstk x).lzw.cur = s.lzw.cur := rfl
@[simp] theorem setXstk_lzw_haveCur (x : List Byte) : (s.setXstk x).lzw.haveCur = s.lzw.haveCur := rfl
@[simp] theorem setXstk_lzw_dDict (x : List Byte) : (s.setXstk x).lzw.dDict = s.lzw.dDict := rfl
@[simp] theorem setXstk_lzw_c1 (x : List Byte) : (s.setXstk x).lzw.c1 = s.lzw.c1 := rfl
@[simp] theorem setXstk_lzw_c2 (x : List Byte) : (s.setXstk x).lzw.c2 = s.lzw.c2 := rfl
@[simp] theorem setXstk_lzw_c2Valid (x : List Byte) : (s.setXstk x).lzw.c2Valid = s.lzw.c2Valid := rfl
@[simp] theorem setXstk_lzw_xstk (x : List Byte) : (s.setXstk x).lzw.xstk = x := rfl
@[simp] theorem setXstk_lzw_c1Held (x : List Byte) : (s.setXstk x).lzw.c1Held = s.lzw.c1Held := rfl
@[simp] theorem setXstk_env (x : List Byte) : (s.setXstk x).env = s.env := rfl
@[simp] theorem setXstk_result (x : List Byte) : (s.setXstk x).result = s.result := rfl
@[simp] theorem setXstk_moves (x : List Byte) : (s.setXstk x).moves = s.moves := rfl
@[simp] theorem setXstk_free (x : List Byte) : (s.setXstk x).free = s.free := rfl
@[simp] theorem setXstk_inLen (x : List Byte) : (s.setXstk x).inLen = s.inLen := rfl
@[simp] theorem setXstk_ioFails (x : List Byte) : (s.setXstk x).ioFails = s.ioFails := rfl
@[simp] theorem setXstk_remaining (x : List Byte) : (s.setXstk x).remaining = s.remaining := rfl
@[simp] theorem setXstk_sentBits (x : List Byte) : (s.setXstk x).sentBits = s.sentBits := rfl
@[simp] theorem setXstk_unreadBits (x : List Byte) : (s.setXstk x).unreadBits = s.unreadBits := rfl

@[simp] theorem callStart_regs_cmd : s.callStart.regs.cmd = s.regs.cmd := rfl
@[simp] theorem callStart_regs_status : s.callStart.regs.status = .busy := rfl
@[simp] theorem callStart_regs_phase : s.callStart.regs.phase = .tag := rfl
@[simp] theorem callStart_regs_err : s.callStart.regs.err = none := rfl
@[simp] theorem callStart_io_inp : s.callStart.io.inp = s.io.inp := rfl
@[simp] theorem callStart_io_inPos : s.callStart.io.inPos = 0 := rfl
@[simp] theorem callStart_io_out : s.callStart.io.out = [] := rfl
@[simp] theorem callStart_bc_wAcc : s.callStart.bc.wAcc = 0 := rfl
@[simp] theorem callStart_bc_wCnt : s.callStart.bc.wCnt = 0 := rfl
@[simp] theorem callStart_bc_rCur : s.callStart.bc.rCur = 0 := rfl
@[simp] theorem callStart_bc_rCnt : s.callStart.bc.rCnt = 0 := rfl
@[simp] theorem callStart_huf_freq : s.callStart.huf.freq = [] := rfl
@[simp] theorem callStart_huf_node : s.callStart.huf.node = [] := rfl
@[simp] theorem callStart_huf_nNodes : s.callStart.huf.nNodes = 0 := rfl
@[simp] theorem callStart_huf_list : s.callStart.huf.list = [] := rfl
@[simp] theorem callStart_huf_root : s.callStart.huf.root = (Config.freeNode s.free).toNat := rfl
@[simp] theorem callStart_huf_ctab : s.callStart.huf.ctab = [] := rfl
@[simp] theorem callStart_huf_hstk : s.callStart.huf.hstk = [] := rfl
@[simp] theorem callStart_huf_hpath : s.callStart.huf.hpath = [] := rfl
@[simp] theorem callStart_huf_walk : s.callStart.huf.walk = (Config.freeNode (s.free + 1)).toNat := rfl
@[simp] theorem callStart_huf_dstk : s.callStart.huf.dstk = [] := rfl
@[simp] theorem callStart_lzw_width : s.callStart.lzw.width = 9 := rfl
@[simp] theorem callStart_lzw_maxCode : s.callStart.lzw.maxCode = 512 := rfl
@[simp] theorem callStart_lzw_dSize : s.callStart.lzw.dSize = 0 := rfl
@[simp] theorem callStart_lzw_eDict : s.callStart.lzw.eDict = [] := rfl
@[simp] theorem callStart_lzw_cur : s.callStart.lzw.cur = (Config.freeCode s.free).toNat % 2 ^ s.env.maxWidth := rfl
@[simp] theorem callStart_lzw_haveCur : s.callStart.lzw.haveCur = false := rfl
@[simp] theorem callStart_lzw_dDict : s.callStart.lzw.dDict = [] := rfl
@[simp] theorem callStart_lzw_c1 : s.callStart.lzw.c1 = (Config.freeCode (s.free + 1)).toNat % 2 ^ s.env.maxWidth := rfl
@[simp] theorem callStart_lzw_c2 : s.callStart.lzw.c2 = (Config.freeCode (s.free + 2)).toNat % 2 ^ s.env.maxWidth := rfl
@[simp] theorem callStart_lzw_c2Valid : s.callStart.lzw.c2Valid = false := rfl
@[simp] theorem callStart_lzw_xstk : s.callStart.lzw.xstk = [] := rfl
@[simp] theorem callStart_lzw_c1Held : s.callStart.lzw.c1Held = false := rfl
@[simp] theorem callStart_env_maxWidth : s.callStart.env.maxWidth = s.env.maxWidth := rfl
@[simp] theorem callStart_env_dictCap : s.callStart.env.dictCap = s.env.dictCap := rfl
@[simp] theorem callStart_env_ioFaults : s.callStart.env.ioFaults = s.env.ioFaults := rfl
@[simp] theorem callStart_env_seekable : s.callStart.env.seekable = s.env.seekable := rfl
@[simp] theorem callStart_env_callNo : s.callStart.env.callNo = s.env.callNo + 1 := rfl
@[simp] theorem callStart_env_accNo : s.callStart.env.accNo = 0 := rfl
@[simp] theorem callStart_result : s.callStart.result = s.result := rfl
@[simp] theorem callStart_moves : s.callStart.moves = s.moves := rfl
@[simp] theorem callStart_free : s.callStart.free = s.free + 3 := rfl

@[simp] theorem withOracle_ioFaults (f : List (Nat × Nat)) : (s.withOracle f).env.ioFaults = f := rfl
@[simp] theorem withOracle_env_maxWidth (f : List (Nat × Nat)) : (s.withOracle f).env.maxWidth = s.env.maxWidth := rfl
@[simp] theorem withOracle_env_dictCap (f : List (Nat × Nat)) : (s.withOracle f).env.dictCap = s.env.dictCap := rfl
@[simp] theorem withOracle_env_seekable (f : List (Nat × Nat)) : (s.withOracle f).env.seekable = s.env.seekable := rfl
@[simp] theorem withOracle_env_callNo (f : List (Nat × Nat)) : (s.withOracle f).env.callNo = s.env.callNo := rfl
@[simp] theorem withOracle_env_accNo (f : List (Nat × Nat)) : (s.withOracle f).env.accNo = s.env.accNo := rfl
@[simp] theorem withOracle_regs (f : List (Nat × Nat)) : (s.withOracle f).regs = s.regs := rfl
@[simp] theorem withOracle_io (f : List (Nat × Nat)) : (s.withOracle f).io = s.io := rfl
@[simp] theorem withOracle_bc (f : List (Nat × Nat)) : (s.withOracle f).bc = s.bc := rfl
@[simp] theorem withOracle_huf (f : List (Nat × Nat)) : (s.withOracle f).huf = s.huf := rfl
@[simp] theorem withOracle_lzw (f : List (Nat × Nat)) : (s.withOracle f).lzw = s.lzw := rfl
@[simp] theorem withOracle_result (f : List (Nat × Nat)) : (s.withOracle f).result = s.result := rfl
@[simp] theorem withOracle_moves (f : List (Nat × Nat)) : (s.withOracle f).moves = s.moves := rfl
@[simp] theorem withOracle_free (f : List (Nat × Nat)) : (s.withOracle f).free = s.free := rfl
@[simp] theorem withOracle_withOracle (f g : List (Nat × Nat)) : (s.withOracle f).withOracle g = s.withOracle g := rfl
@[simp] theorem withOracle_self : s.withOracle s.env.ioFaults = s := rfl

end Sys2Proof.Machine.State
end

