-- ==== Sys2Proof/Laws/Ops.lean ====
section
/-! SUPPORT. What the shared operations of Machine/Ops.lean can do, said once: how a sequence of operations
ends, how an operation's end becomes an outcome, and the accesses to the streams and the arena. -/

namespace Sys2Proof.Machine

/-! ### The end of a sequence (R10) -/

@[simp] theorem Res.bind_ok {α β : Type} (a : α) (s : State) (f : α → State → Res β) :
    (Res.ok a s).bind f = f a s := rfl
@[simp] theorem Res.bind_raised {α β : Type} (k : ErrKind) (s : State) (f : α → State → Res β) :
    (Res.raised k s : Res α).bind f = .raised k s := rfl
@[simp] theorem Res.bind_stuck {α β : Type} (e : Fault) (f : α → State → Res β) :
    (Res.stuck e : Res α).bind f = .stuck e := rfl

/-- A sequence ends well when both parts do. -/
theorem Res.bind_eq_ok {α β : Type} {r : Res α} {f : α → State → Res β} {b : β} {t : State} :
    r.bind f = .ok b t ↔ ∃ a s, r = .ok a s ∧ f a s = .ok b t := by
  cases r <;> simp [Res.bind]

/-- A sequence raises where its first or its second part does. -/
theorem Res.bind_eq_raised {α β : Type} {r : Res α} {f : α → State → Res β} {k : ErrKind} {t : State} :
    r.bind f = .raised k t ↔ r = .raised k t ∨ ∃ a s, r = .ok a s ∧ f a s = .raised k t := by
  cases r <;> simp [Res.bind]

/-- A sequence is stuck where its first or its second part is. -/
theorem Res.bind_eq_stuck {α β : Type} {r : Res α} {f : α → State → Res β} {e : Fault} :
    r.bind f = .stuck e ↔ r = .stuck e ∨ ∃ a s, r = .ok a s ∧ f a s = .stuck e := by
  cases r <;> simp [Res.bind]

/-- R10: how a sequence is bracketed does not matter. -/
theorem Res.bind_assoc {α β γ : Type} (r : Res α) (f : α → State → Res β) (g : β → State → Res γ) :
    (r.bind f).bind g = r.bind fun a s => (f a s).bind g := by
  cases r <;> rfl

/-! ### Outcomes -/

@[simp] theorem Res.finish_ok (a : Unit) (s : State) : (Res.ok a s).finish = .next s := rfl
@[simp] theorem Res.finish_raised (k : ErrKind) (s : State) : (Res.raised k s).finish = .next (s.abort k) := rfl
@[simp] theorem Res.finish_stuck (e : Fault) : (Res.stuck e).finish = .fault e := rfl

/-- R249, R250: a next state is the operation's own end or the abort at its `raise`. -/
theorem Res.finish_eq_next {r : Res Unit} {t : State} :
    r.finish = .next t ↔ r = .ok () t ∨ ∃ k s, r = .raised k s ∧ t = s.abort k := by
  cases r <;> simp [Res.finish, eq_comm]

/-- The same for an operation that returns a value. -/
theorem Res.finishWith_eq_next {α : Type} {r : Res α} {f : α → UopResult} {t : State} :
    r.finishWith f = .next t ↔
      (∃ a s, r = .ok a s ∧ t = s.setResult (f a)) ∨ ∃ k s, r = .raised k s ∧ t = s.abort k := by
  cases r <;> simp [Res.finishWith, Res.finish, Res.bind, eq_comm]

/-- No operation refuses. -/
@[simp] theorem Res.finish_ne_refused (r : Res Unit) (q : Refusal) : r.finish ≠ .refused q := by
  cases r <;> simp [Res.finish]

@[simp] theorem Res.finishWith_ne_refused {α : Type} (r : Res α) (f : α → UopResult) (q : Refusal) :
    r.finishWith f ≠ .refused q := Res.finish_ne_refused _ q

/-! ### Accesses (R10, R61, R62, R244) -/

/-- R62, R244: an append puts one byte at the end of OUT, or fails and leaves OUT. -/
theorem outAppend_cases (b : Byte) (s : State) :
    (s.ioFails = false ∧ outAppend b s = .ok () (s.countAccess.pushOut b)) ∨
      (s.ioFails = true ∧ outAppend b s = .raised .ioFailure s.countAccess) := by
  unfold outAppend
  cases h : s.ioFails <;> simp

/-- R61, R244: a read of IN takes the byte at IN_POS, or fails and leaves IN_POS; past the end there is none. -/
theorem inFetch_cases (s : State) :
    (s.io.inp[s.io.inPos]? = none ∧ inFetch s = .stuck (.noSuchEntry .inStream)) ∨
      ∃ b, s.io.inp[s.io.inPos]? = some b ∧
        ((s.ioFails = false ∧ inFetch s = .ok b (s.countAccess.setInPos (s.io.inPos + 1))) ∨
          (s.ioFails = true ∧ inFetch s = .raised .ioFailure s.countAccess)) := by
  unfold inFetch
  cases h : s.io.inp[s.io.inPos]? with
  | none => simp
  | some b => cases h' : s.ioFails <;> simp

/-- The default oracle never fails an access. -/
@[simp] theorem ioFails_of_noIoFault {s : State} (h : s.noIoFault) : s.ioFails = false := by
  unfold State.noIoFault at h
  simp [State.ioFails, h]

/-- The append with the default oracle. -/
theorem outAppend_ok {s : State} (h : s.noIoFault) (b : Byte) :
    outAppend b s = .ok () (s.countAccess.pushOut b) := by
  simp [outAppend, ioFails_of_noIoFault h]

/-- The read with the default oracle, inside the stream. -/
theorem inFetch_ok {s : State} (h : s.noIoFault) {b : Byte} (hb : s.io.inp[s.io.inPos]? = some b) :
    inFetch s = .ok b (s.countAccess.setInPos (s.io.inPos + 1)) := by
  simp [inFetch, hb, ioFails_of_noIoFault h]

/-- R63: an arena read that answers changes nothing and gives the entry. -/
theorem readNode_eq_ok {i : Nat} {s t : State} {e : NodeEntry} :
    readNode i s = .ok e t ↔ t = s ∧ i < Config.nodeCap ∧ s.huf.node.read i = some e := by
  unfold readNode
  split
  · next h => simp; omega
  · next h =>
    cases s.huf.node.read i with
    | none => simp
    | some e' => simp; constructor <;> (rintro ⟨rfl, h2⟩; simp_all)

/-- An arena read never raises. -/
@[simp] theorem readNode_ne_raised (i : Nat) (s t : State) (k : ErrKind) : readNode i s ≠ .raised k t := by
  unfold readNode
  split
  · simp
  · cases s.huf.node.read i <;> simp

/-- A child index that is there. -/
theorem childIndex_eq_ok {c : Option Nat} {s t : State} {i : Nat} :
    childIndex c s = .ok i t ↔ t = s ∧ c = some i := by
  cases c <;> simp [childIndex, eq_comm, and_comm]

@[simp] theorem childIndex_ne_raised (c : Option Nat) (s t : State) (k : ErrKind) : childIndex c s ≠ .raised k t := by
  cases c <;> simp [childIndex]

end Sys2Proof.Machine
end

