-- ==== Sys2Proof/Laws/BitChannel.lean ====
section
/-! SUPPORT. What the Bit Channel operations can do, said once: the writer's operations change the writer
alone, the reader's operations the reader alone, and each raises nothing but IOFailure. -/

namespace Sys2Proof.Machine

/-- Where an operation ends, well or at a `raise`. -/
def Res.endsAt {α : Type} (r : Res α) (t : State) : Prop := (∃ a, r = .ok a t) ∨ ∃ k, r = .raised k t

theorem Res.endsAt_bind {α β : Type} {r : Res α} {f : α → State → Res β} {t : State} :
    (r.bind f).endsAt t ↔ (∃ k, r = .raised k t) ∨ ∃ a s, r = .ok a s ∧ (f a s).endsAt t := by
  cases r <;> simp [Res.endsAt]

/-! ### The writer -/

/-- An operation with no effect only writes. -/
theorem OnlyWriter.refl (s : State) : OnlyWriter s s := ⟨rfl, fun _ _ => rfl⟩

/-- Two writing operations in a row only write. -/
theorem OnlyWriter.trans {s t u : State} (h : OnlyWriter s t) (h' : OnlyWriter t u) : OnlyWriter s u := by
  obtain ⟨h1, h2⟩ := h
  obtain ⟨h3, h4⟩ := h'
  refine ⟨by rw [h3, h1], fun a ha => ?_⟩
  by_cases hat : a < t.outLen
  · rw [h4 a hat, h2 a ha]
  · have h5 := h2 a ha
    simp only [State.readOut, State.outLen] at h5 ha hat
    rw [List.getElem?_eq_none (by omega), List.getElem?_eq_getElem ha] at h5
    cases h5

/-- The writer's registers alone. -/
theorem OnlyWriter.setWriter (s : State) (acc : Byte) (cnt : Fin 8) : OnlyWriter s (s.setWriter acc cnt) :=
  ⟨rfl, fun _ _ => rfl⟩

/-- One append, done or failed. -/
theorem outAppend_onlyWriter {b : Byte} {s t : State} (h : (outAppend b s).endsAt t) : OnlyWriter s t := by
  rcases outAppend_cases b s with ⟨-, e⟩ | ⟨-, e⟩ <;> rw [e] at h <;> simp [Res.endsAt] at h <;> subst h
  · refine ⟨rfl, fun a ha => ?_⟩
    simp only [State.readOut, State.outLen] at ha ⊢
    simp [List.getElem?_append_left ha]
  · exact ⟨rfl, fun _ _ => rfl⟩

/-- An append raises nothing but IOFailure. -/
theorem outAppend_raised {b : Byte} {s t : State} {k : ErrKind} (h : outAppend b s = .raised k t) :
    k = .ioFailure := by
  rcases outAppend_cases b s with ⟨-, e⟩ | ⟨-, e⟩ <;> rw [e] at h <;> simp_all

/-- R122. -/
theorem putBit_onlyWriter {b : Bool} {s t : State} (h : (putBit b s).endsAt t) : OnlyWriter s t := by
  unfold putBit at h
  dsimp only at h
  split at h
  · rcases Res.endsAt_bind.mp h with ⟨k, hk⟩ | ⟨a, u, hu, hf⟩
    · exact (OnlyWriter.setWriter ..).trans (outAppend_onlyWriter (.inr ⟨k, hk⟩))
    · simp [Res.endsAt] at hf
      exact (OnlyWriter.setWriter ..).trans ((outAppend_onlyWriter (.inl ⟨a, hu⟩)).trans (hf ▸ OnlyWriter.setWriter ..))
  · simp [Res.endsAt] at h
    exact (OnlyWriter.setWriter ..).trans (h ▸ OnlyWriter.setWriter ..)

/-- R159's loop. -/
theorem putList_onlyWriter {bs : List Bool} {s t : State} (h : (putList bs s).endsAt t) : OnlyWriter s t := by
  induction bs generalizing s with
  | nil => simp [putList, Res.endsAt] at h; exact h ▸ .refl s
  | cons b bs ih =>
    rcases Res.endsAt_bind.mp h with ⟨k, hk⟩ | ⟨a, u, hu, hf⟩
    · exact putBit_onlyWriter (.inr ⟨k, hk⟩)
    · exact (putBit_onlyWriter (.inl ⟨a, hu⟩)).trans (ih hf)

/-- R128. -/
theorem putBits_onlyWriter {v n : Nat} {s t : State} (h : (putBits v n s).endsAt t) : OnlyWriter s t := by
  induction n generalizing s with
  | zero => simp [putBits, Res.endsAt] at h; exact h ▸ .refl s
  | succ n ih =>
    rcases Res.endsAt_bind.mp h with ⟨k, hk⟩ | ⟨a, u, hu, hf⟩
    · exact putBit_onlyWriter (.inr ⟨k, hk⟩)
    · exact (putBit_onlyWriter (.inl ⟨a, hu⟩)).trans (ih hf)

/-- R112: a list of bits is what `putBits` puts of a number. -/
theorem putBits_eq_putList (v n : Nat) (s : State) : putBits v n s = putList (bitsOfNat n v) s := by
  induction n generalizing s with
  | zero => rfl
  | succ n ih => simp only [putBits, putList, bitsOfNat, ih]

/-- Two lists of bits, one after the other. -/
theorem putList_append (as bs : List Bool) (s : State) :
    putList (as ++ bs) s = (putList as s).bind fun _ t => putList bs t := by
  induction as generalizing s with
  | nil => rfl
  | cons a as ih => simp only [List.cons_append, putList, Res.bind_assoc, ih]

/-- R123, one byte. -/
theorem putByte_onlyWriter {b : Byte} {s t : State} (h : (putByte b s).endsAt t) : OnlyWriter s t := by
  unfold putByte at h
  split at h
  · exact outAppend_onlyWriter h
  · rcases Res.endsAt_bind.mp h with ⟨k, hk⟩ | ⟨a, u, hu, hf⟩
    · exact outAppend_onlyWriter (.inr ⟨k, hk⟩)
    · simp [Res.endsAt] at hf
      exact (outAppend_onlyWriter (.inl ⟨a, hu⟩)).trans (hf ▸ OnlyWriter.setWriter ..)

/-- R123. -/
theorem putNBytes_onlyWriter {bs : List Byte} {s t : State} (h : (putNBytes bs s).endsAt t) : OnlyWriter s t := by
  induction bs generalizing s with
  | nil => simp [putNBytes, Res.endsAt] at h; exact h ▸ .refl s
  | cons b bs ih =>
    rcases Res.endsAt_bind.mp h with ⟨k, hk⟩ | ⟨a, u, hu, hf⟩
    · exact putByte_onlyWriter (.inr ⟨k, hk⟩)
    · exact (putByte_onlyWriter (.inl ⟨a, hu⟩)).trans (ih hf)

/-- R124. -/
theorem closeWriter_onlyWriter {s t : State} (h : (closeWriter s).endsAt t) : OnlyWriter s t := by
  unfold closeWriter at h
  split at h
  · simp [Res.endsAt] at h; exact h ▸ .refl s
  · rcases Res.endsAt_bind.mp h with ⟨k, hk⟩ | ⟨a, u, hu, hf⟩
    · exact outAppend_onlyWriter (.inr ⟨k, hk⟩)
    · simp [Res.endsAt] at hf
      exact (outAppend_onlyWriter (.inl ⟨a, hu⟩)).trans (hf ▸ OnlyWriter.setWriter ..)

/-! ### The reader -/

/-- R29, R129: within R25's range of IN_POS, EOF is the condition the rules state. -/
theorem atEof_iff {s : State} (h : s.io.inPos ≤ s.inLen) :
    s.atEof = true ↔ s.bc.rCnt = 0 ∧ s.io.inPos = s.inLen := by
  simp only [State.atEof, Bool.and_eq_true, beq_iff_eq, decide_eq_true_eq]
  exact and_congr_right fun _ => by omega

/-- R132, R125: REMAINING is 0 exactly at EOF. -/
theorem remaining_eq_zero_iff (s : State) : s.remaining = 0 ↔ s.atEof = true := by
  simp only [State.remaining, State.atEof, Bool.and_eq_true, beq_iff_eq, decide_eq_true_eq, ← Fin.val_eq_zero_iff]
  omega

/-- An operation with no effect only reads. -/
theorem OnlyReader.refl (s : State) : OnlyReader s s := rfl

/-- Two reading operations in a row only read. -/
theorem OnlyReader.trans {s t u : State} (h : OnlyReader s t) (h' : OnlyReader t u) : OnlyReader s u := by
  unfold OnlyReader at *
  rw [h', h]

/-- One read of IN, done or failed. -/
theorem inFetch_onlyReader {s t : State} (h : (inFetch s).endsAt t) : OnlyReader s t := by
  rcases inFetch_cases s with ⟨-, e⟩ | ⟨b, -, ⟨-, e⟩ | ⟨-, e⟩⟩ <;> rw [e] at h <;> simp [Res.endsAt] at h <;>
    subst h <;> rfl

/-- R125, the last two lines. -/
theorem takeBit_onlyReader {s t : State} (h : (takeBit s).endsAt t) : OnlyReader s t := by
  simp [takeBit, Res.endsAt] at h
  exact h ▸ rfl

/-- R125. -/
theorem getBit_onlyReader {s t : State} (h : (getBit s).endsAt t) : OnlyReader s t := by
  unfold getBit at h
  split at h
  · split at h
    · simp [Res.endsAt] at h; exact h ▸ .refl s
    · rcases Res.endsAt_bind.mp h with ⟨k, hk⟩ | ⟨a, u, hu, hf⟩
      · exact inFetch_onlyReader (.inr ⟨k, hk⟩)
      · exact (inFetch_onlyReader (.inl ⟨a, hu⟩)).trans ((show OnlyReader u (u.setReader a 8) from rfl).trans
          (takeBit_onlyReader hf))
  · exact takeBit_onlyReader h

/-- R127, one byte. -/
theorem getByte_onlyReader {s t : State} (h : (getByte s).endsAt t) : OnlyReader s t := by
  rcases Res.endsAt_bind.mp h with ⟨k, hk⟩ | ⟨a, u, hu, hf⟩
  · exact inFetch_onlyReader (.inr ⟨k, hk⟩)
  · split at hf <;> simp [Res.endsAt] at hf
    · exact hf ▸ inFetch_onlyReader (.inl ⟨a, hu⟩)
    · exact (inFetch_onlyReader (.inl ⟨a, hu⟩)).trans (hf ▸ rfl)

/-- R127's loop. -/
theorem getByteRun_onlyReader {n : Nat} {s t : State} (h : (getByteRun n s).endsAt t) : OnlyReader s t := by
  induction n generalizing s t with
  | zero => simp [getByteRun, Res.endsAt] at h; exact h ▸ .refl s
  | succ n ih =>
    rcases Res.endsAt_bind.mp h with ⟨k, hk⟩ | ⟨a, u, hu, hf⟩
    · exact getByte_onlyReader (.inr ⟨k, hk⟩)
    · refine (getByte_onlyReader (.inl ⟨a, hu⟩)).trans ?_
      rcases Res.endsAt_bind.mp hf with ⟨k, hk⟩ | ⟨a', u', hu', hf'⟩
      · exact ih (.inr ⟨k, hk⟩)
      · simp [Res.endsAt] at hf'
        exact hf' ▸ ih (.inl ⟨a', hu'⟩)

/-- R127. -/
theorem getNBytes_onlyReader {n : Nat} {s t : State} (h : (getNBytes n s).endsAt t) : OnlyReader s t := by
  unfold getNBytes at h
  split at h
  · simp [Res.endsAt] at h; exact h ▸ .refl s
  · rcases Res.endsAt_bind.mp h with ⟨k, hk⟩ | ⟨a, u, hu, hf⟩
    · exact getByteRun_onlyReader (.inr ⟨k, hk⟩)
    · simp [Res.endsAt] at hf
      exact hf ▸ getByteRun_onlyReader (.inl ⟨a, hu⟩)

/-- R130's loop. -/
theorem getBitRun_onlyReader {n v : Nat} {s t : State} (h : (getBitRun n v s).endsAt t) : OnlyReader s t := by
  induction n generalizing s v with
  | zero => simp [getBitRun, Res.endsAt] at h; exact h ▸ .refl s
  | succ n ih =>
    rcases Res.endsAt_bind.mp h with ⟨k, hk⟩ | ⟨a, u, hu, hf⟩
    · exact getBit_onlyReader (.inr ⟨k, hk⟩)
    · refine (getBit_onlyReader (.inl ⟨a, hu⟩)).trans ?_
      cases a with
      | none => simp [Res.endsAt] at hf; exact hf ▸ .refl u
      | some b => exact ih hf

/-- R130. -/
theorem getBits_onlyReader {n : Nat} {s t : State} (h : (getBits n s).endsAt t) : OnlyReader s t := by
  unfold getBits at h
  split at h
  · simp [Res.endsAt] at h; exact h ▸ .refl s
  · exact getBitRun_onlyReader h

end Sys2Proof.Machine
end

