-- ==== Sys2Proof/Laws/Memory.lean ====
section
/-! SUPPORT. The laws of the keyed memories: a read after a write, and the canonical form. -/

namespace Sys2Proof.Machine

variable {α : Type}

/-- R76: the latest write is read back. -/
@[simp] theorem Memory.read_write_same (m : Memory α) (k : Nat) (v : α) : (m.write k v).read k = some v := by
  induction m with
  | nil => simp [write, read]
  | cons e m ih =>
    obtain ⟨j, u⟩ := e
    unfold write
    split
    · next h => simp [read, Nat.ne_of_lt h, ih]
    · split <;> simp [read]

/-- Every other entry keeps its value. -/
theorem Memory.read_write_other (m : Memory α) {k i : Nat} (v : α) (h : i ≠ k) : (m.write k v).read i = m.read i := by
  induction m with
  | nil => simp [write, read, Ne.symm h]
  | cons e m ih =>
    obtain ⟨j, u⟩ := e
    unfold write
    split
    · simp [read, ih]
    · split
      · next hj => subst hj; simp [read, Ne.symm h]
      · simp [read, Ne.symm h]

/-- R63: one write and one read, in one equation. -/
theorem Memory.read_write (m : Memory α) (k i : Nat) (v : α) :
    (m.write k v).read i = if i = k then some v else m.read i := by
  split
  · next h => subst h; exact read_write_same m _ v
  · next h => exact read_write_other m v h

/-- A rising list above a bound rises above every lower bound. -/
theorem Memory.risesFrom_mono {m : Memory α} {lo hi : Nat} (h : lo ≤ hi) (hm : risesFrom hi m = true) :
    risesFrom lo m = true := by
  cases m with
  | nil => rfl
  | cons e m =>
    obtain ⟨j, u⟩ := e
    simp only [risesFrom, Bool.and_eq_true, decide_eq_true_eq] at hm ⊢
    exact ⟨by omega, hm.2⟩

/-- A write at or above the bound keeps the list rising from it. -/
theorem Memory.risesFrom_write {m : Memory α} {lo k : Nat} (v : α) (hk : lo ≤ k) (hm : risesFrom lo m = true) :
    risesFrom lo (m.write k v) = true := by
  induction m generalizing lo with
  | nil => simp [write, risesFrom, hk]
  | cons e m ih =>
    obtain ⟨j, u⟩ := e
    simp only [risesFrom, Bool.and_eq_true, decide_eq_true_eq] at hm
    unfold write
    split
    · next h => simp [risesFrom, hm.1, ih h hm.2]
    · split
      · next h1 h2 => subst h2; simp [risesFrom, hm.1, hm.2]
      · next h1 h2 =>
        have hkj : k + 1 ≤ j := by omega
        simp [risesFrom, hk, hkj, hm.2]

/-- A write keeps the canonical form. -/
theorem Memory.wf_write {m : Memory α} (k : Nat) (v : α) (hm : m.wf = true) : (m.write k v).wf = true :=
  risesFrom_write v (Nat.zero_le k) hm

/-- The empty memory is in canonical form. -/
@[simp] theorem Memory.wf_nil : Memory.wf ([] : Memory α) = true := rfl

/-- An emptied memory has nothing to read. -/
@[simp] theorem Memory.read_nil (k : Nat) : Memory.read ([] : Memory α) k = none := rfl

/-- Below its first key a rising memory lists nothing. -/
theorem Memory.read_of_risesFrom {m : Memory α} {lo k : Nat} (h : k < lo) (hm : risesFrom lo m = true) : m.read k = none := by
  induction m generalizing lo with
  | nil => rfl
  | cons e m ih =>
    obtain ⟨j, u⟩ := e
    simp only [risesFrom, Bool.and_eq_true, decide_eq_true_eq] at hm
    have hj : j ≠ k := by omega
    simpa [read, hj] using ih (lo := j + 1) (by omega) hm.2

/-- Canonical memories that read alike are equal data. -/
theorem Memory.eq_of_read {m n : Memory α} {lo : Nat} (hm : risesFrom lo m = true) (hn : risesFrom lo n = true)
    (h : ∀ k, m.read k = n.read k) : m = n := by
  induction m generalizing n lo with
  | nil =>
    cases n with
    | nil => rfl
    | cons e n => obtain ⟨j, u⟩ := e; have := h j; simp [read] at this
  | cons e m ih =>
    obtain ⟨j, u⟩ := e
    cases n with
    | nil => have := h j; simp [read] at this
    | cons e' n =>
      obtain ⟨j', u'⟩ := e'
      simp only [risesFrom, Bool.and_eq_true, decide_eq_true_eq] at hm hn
      have hjj : j = j' := by
        rcases Nat.lt_trichotomy j j' with hlt | heq | hgt
        · have := h j
          rw [show Memory.read ((j', u') :: n) j = none from
            read_of_risesFrom (lo := j') hlt (by simp [risesFrom, hn.2])] at this
          simp [read] at this
        · exact heq
        · have := h j'
          rw [show Memory.read ((j, u) :: m) j' = none from
            read_of_risesFrom (lo := j) hgt (by simp [risesFrom, hm.2])] at this
          simp [read] at this
      subst hjj
      have hu : u = u' := by simpa [read] using h j
      subst hu
      congr 1
      refine ih hm.2 hn.2 fun k => ?_
      by_cases hk : j = k
      · subst hk
        rw [read_of_risesFrom (lo := j + 1) (by omega) hm.2, read_of_risesFrom (lo := j + 1) (by omega) hn.2]
      · simpa [read, hk] using h k

/-- The private memories after reset are in canonical form. -/
theorem reset_memories :
    State.reset.huf.freq.wf = true ∧ State.reset.huf.node.wf = true ∧ State.reset.huf.ctab.wf = true ∧
      State.reset.lzw.eDict.wf = true ∧ State.reset.lzw.dDict.wf = true := by decide

end Sys2Proof.Machine
end

