-- ==== Sys2Proof/Laws/Huffman.lean ====
section
/-! SUPPORT. What the shared operations of the Huffman units can do, said once. -/

namespace Sys2Proof.Machine

/-- R30: one counter after one more occurrence. -/
theorem freqOf_bumpFreq (s : State) (sym x : Nat) :
    (s.bumpFreq sym).freqOf x = if x = sym then s.freqOf x + 1 else s.freqOf x := by
  simp only [State.freqOf, State.bumpFreq_huf_freq, Memory.read_write]
  split
  · next h => subst h; rfl
  · rfl

/-- R142: the list after an insertion that answers, and nothing else. -/
theorem heInsert_eq_ok {i w : Nat} {s t : State} :
    heInsert i w s = .ok () t ↔
      s.listLen < Config.listCap ∧ t = s.setHuf { s.huf with list := insertEntry ⟨i, w⟩ s.huf.list } := by
  unfold heInsert
  split
  · simp; omega
  · simp [eq_comm]; omega

@[simp] theorem heInsert_ne_raised (i w : Nat) (s t : State) (k : ErrKind) : heInsert i w s ≠ .raised k t := by
  unfold heInsert
  split <;> simp

/-- R151: the arena after an allocation that answers, and the index given. -/
theorem allocNode_eq_ok {e : NodeEntry} {s t : State} {i : Nat} :
    allocNode e s = .ok i t ↔
      i = s.huf.nNodes ∧ i < Config.nodeCap ∧
        t = s.setHuf { s.huf with node := s.huf.node.write s.huf.nNodes e, nNodes := s.huf.nNodes + 1 } := by
  unfold allocNode
  split
  · simp; omega
  · simp only [Res.ok.injEq]
    constructor
    · rintro ⟨rfl, rfl⟩; exact ⟨rfl, by omega, rfl⟩
    · rintro ⟨rfl, -, rfl⟩; exact ⟨rfl, rfl⟩

@[simp] theorem allocNode_ne_raised (e : NodeEntry) (s t : State) (k : ErrKind) : allocNode e s ≠ .raised k t := by
  unfold allocNode
  split <;> simp

/-- R142: an insertion adds one entry. -/
@[simp] theorem insertFromTail_length (e : ListEntry) (l : List ListEntry) :
    (insertFromTail e l).length = l.length + 1 := by
  induction l with
  | nil => rfl
  | cons x xs ih => unfold insertFromTail; split <;> simp [ih]

/-- R142: an insertion adds one entry. -/
@[simp] theorem insertEntry_length (e : ListEntry) (l : List ListEntry) :
    (insertEntry e l).length = l.length + 1 := by simp [insertEntry]

/-- R142: the entries are those there were and the new one. -/
theorem mem_insertFromTail {e x : ListEntry} {l : List ListEntry} :
    x ∈ insertFromTail e l ↔ x = e ∨ x ∈ l := by
  induction l with
  | nil => simp [insertFromTail]
  | cons y ys ih =>
    unfold insertFromTail
    split
    · simp only [List.mem_cons, ih]; tauto
    · simp [List.mem_cons]

/-- R144: a merge that answers takes the last two entries and inserts one for both. -/
theorem heCombine_eq_ok {s t : State} :
    heCombine s = .ok () t ↔
      ∃ a b rest, s.huf.list.reverse = a :: b :: rest ∧
        ∃ i u, allocNode (.internal (some a.node) (some b.node)) (s.setHuf { s.huf with list := rest.reverse }) = .ok i u ∧
          heInsert i (a.weight + b.weight) u = .ok () t := by
  unfold heCombine
  split
  · next a b rest heq =>
    rw [Res.bind_eq_ok]
    constructor
    · rintro ⟨i, u, h1, h2⟩; exact ⟨a, b, rest, heq, i, u, h1, h2⟩
    · rintro ⟨a', b', rest', heq', i, u, h1, h2⟩
      rw [heq] at heq'
      cases heq'
      exact ⟨i, u, h1, h2⟩
  · next h =>
    constructor
    · intro h'; cases h'
    · rintro ⟨a, b, rest, heq, -⟩; exact absurd heq (h a b rest)

/-- R145's last line. -/
theorem takeRoot_eq_ok {s t : State} :
    takeRoot s = .ok () t ↔ ∃ e rest, s.huf.list = e :: rest ∧ t = s.setHuf { s.huf with root := e.node } := by
  unfold takeRoot
  cases h : s.huf.list with
  | nil => simp
  | cons e rest =>
    simp only [Res.ok.injEq, true_and, List.cons.injEq]
    constructor
    · rintro rfl; exact ⟨e, rest, ⟨rfl, rfl⟩, rfl⟩
    · rintro ⟨e', rest', ⟨rfl, rfl⟩, rfl⟩; rfl

/-- R171: one more node is counted, or the limit is met. -/
theorem countNode_cases (s : State) :
    let s1 := s.setHuf { s.huf with nNodes := s.huf.nNodes + 1 }
    (s.huf.nNodes < Config.nodeCap ∧ countNode s = .ok s.huf.nNodes s1) ∨
      (Config.nodeCap ≤ s.huf.nNodes ∧ countNode s = .raised .corruptStream s1) := by
  dsimp only
  unfold countNode
  dsimp only
  by_cases h : s.huf.nNodes < Config.nodeCap
  · left
    refine ⟨h, if_neg ?_⟩
    show ¬ Config.nodeCap < s.huf.nNodes + 1
    omega
  · right
    refine ⟨by omega, if_pos ?_⟩
    show Config.nodeCap < s.huf.nNodes + 1
    omega

/-- R36: the zero-child of an open node, filled in. -/
theorem setZeroChild_eq_ok {j i : Nat} {s t : State} :
    setZeroChild j i s = .ok () t ↔
      ∃ z o, readNode j s = .ok (.internal z o) s ∧ t = s.writeNode j (.internal (some i) o) := by
  unfold setZeroChild
  rw [Res.bind_eq_ok]
  constructor
  · rintro ⟨e, u, h1, h2⟩
    obtain ⟨rfl, hj, hr⟩ := readNode_eq_ok.mp h1
    cases e with
    | leaf _ => cases h2
    | internal z o => exact ⟨z, o, h1, by cases h2; rfl⟩
  · rintro ⟨z, o, h1, rfl⟩; exact ⟨_, _, h1, rfl⟩

/-- R36: the one-child of an open node, filled in. -/
theorem setOneChild_eq_ok {j i : Nat} {s t : State} :
    setOneChild j i s = .ok () t ↔
      ∃ z o, readNode j s = .ok (.internal z o) s ∧ t = s.writeNode j (.internal z (some i)) := by
  unfold setOneChild
  rw [Res.bind_eq_ok]
  constructor
  · rintro ⟨e, u, h1, h2⟩
    obtain ⟨rfl, hj, hr⟩ := readNode_eq_ok.mp h1
    cases e with
    | leaf _ => cases h2
    | internal z o => exact ⟨z, o, h1, by cases h2; rfl⟩
  · rintro ⟨z, o, h1, rfl⟩; exact ⟨_, _, h1, rfl⟩

/-- R159: a code that is there is put bit by bit. -/
theorem putCode_of_read {sym : Nat} {s : State} {e : CodeEntry} (h : s.huf.ctab.read sym = some e) :
    putCode sym s = putList e.bits s := by simp [putCode, h]

/-- R175 on one symbol. -/
theorem takeSymbol_cases (sym : Nat) (s : State) :
    (sym = Config.eosValue ∧ takeSymbol sym s = .ok () s.callDone) ∨
      (sym ≠ Config.eosValue ∧ takeSymbol sym s = outAppend (BitVec.ofNat 8 sym) s) := by
  unfold takeSymbol
  by_cases h : sym = Config.eosValue <;> simp [h]

/-- R158, R275. -/
theorem heRewind_cases (s : State) :
    (s.env.seekable = true ∧ heRewind s = .ok () (s.setInPos 0)) ∨
      (s.env.seekable = false ∧ heRewind s = .raised .ioFailure s) := by
  unfold heRewind
  cases s.env.seekable <;> simp

end Sys2Proof.Machine
end

