-- ==== Sys2Proof/Laws/Lzw.lean ====
section
/-! SUPPORT. What the shared operations of the LZW units can do, said once. -/

namespace Sys2Proof.Machine

/-- R188 puts bits and does nothing else. -/
theorem leEmit_onlyWriter {c : Nat} {s t : State} (h : (leEmit c s).endsAt t) : OnlyWriter s t :=
  putBits_onlyWriter h

/-- R189, R196: the next code for the pair, or a full dictionary. -/
theorem leInsert_cases (p : Nat) (b : Byte) (s : State) :
    (s.lzw.dSize = s.env.dictCap ∧ leInsert p b s = .raised .codeSpaceExhausted s) ∨
      (s.lzw.dSize ≠ s.env.dictCap ∧
        leInsert p b s = .ok (Config.nLiterals + s.lzw.dSize)
          (s.setLzw
            { s.lzw with
              eDict := s.lzw.eDict.write (pairKey p b) (Config.nLiterals + s.lzw.dSize),
              dSize := s.lzw.dSize + 1 })) := by
  unfold leInsert
  by_cases h : s.lzw.dSize = s.env.dictCap <;> simp [h]

/-- R190, R191: growth, the ceiling, or nothing. -/
theorem leGrow_cases (n : Nat) (s : State) :
    (n ≠ s.lzw.maxCode - 1 ∧ leGrow n s = .ok () s) ∨
      (n = s.lzw.maxCode - 1 ∧ s.lzw.width = s.env.maxWidth ∧ leGrow n s = .raised .codeSpaceExhausted s) ∨
      (n = s.lzw.maxCode - 1 ∧ s.lzw.width ≠ s.env.maxWidth ∧ leGrow n s = .ok () s.widen) := by
  unfold leGrow
  by_cases h : n = s.lzw.maxCode - 1 <;> by_cases h' : s.lzw.width = s.env.maxWidth <;> simp [h, h']

/-- R187, the hit. -/
theorem leStep_hit {b : Byte} {s : State} {c : Nat} (h : s.lzw.eDict.read (pairKey s.lzw.cur b) = some c) :
    leStep b s = .ok () (s.setCur c) := by simp [leStep, h]

/-- R187, the miss. -/
theorem leStep_miss {b : Byte} {s : State} (h : s.lzw.eDict.read (pairKey s.lzw.cur b) = none) :
    leStep b s =
      (leEmit s.lzw.cur s).bind fun _ s1 =>
        (leInsert s.lzw.cur b s1).bind fun n s2 => (leGrow n s2).bind fun _ s3 => .ok () (s3.setCur b.toNat) := by
  simp [leStep, h]

/-- R207: the four tests in order. -/
theorem ldReadCode_cases (s : State) :
    (s.remaining < 8 ∧ ldReadCode s = .ok none s) ∨
      (8 ≤ s.remaining ∧ s.env.maxWidth < s.lzw.width ∧ ldReadCode s = .raised .codeSpaceExhausted s) ∨
      (8 ≤ s.remaining ∧ s.lzw.width ≤ s.env.maxWidth ∧ s.remaining < s.lzw.width ∧
        ldReadCode s = .raised .corruptStream s) ∨
      (8 ≤ s.remaining ∧ s.lzw.width ≤ s.env.maxWidth ∧ s.lzw.width ≤ s.remaining ∧
        ldReadCode s = getBits s.lzw.width s) := by
  unfold ldReadCode
  by_cases h1 : s.remaining < 8
  · simp [h1]
  · by_cases h2 : s.env.maxWidth < s.lzw.width
    · right; left; simp [h1, h2]; omega
    · by_cases h3 : s.remaining < s.lzw.width
      · right; right; left; simp [h1, h2, h3]; omega
      · right; right; right; simp [h1, h2, h3]; omega

/-- R207 reads and does nothing else. -/
theorem ldReadCode_onlyReader {s t : State} (h : (ldReadCode s).endsAt t) : OnlyReader s t := by
  rcases ldReadCode_cases s with ⟨-, e⟩ | ⟨-, -, e⟩ | ⟨-, -, -, e⟩ | ⟨-, -, -, e⟩ <;> rw [e] at h
  · simp [Res.endsAt] at h; exact h ▸ .refl s
  · simp [Res.endsAt] at h; exact h ▸ .refl s
  · simp [Res.endsAt] at h; exact h ▸ .refl s
  · exact getBits_onlyReader h

/-- R39: a table read that answers changes nothing and gives the entry. -/
theorem readDict_eq_ok {c : Nat} {s t : State} {e : DictEntry} :
    readDict c s = .ok e t ↔ t = s ∧ s.lzw.dDict.read (c - Config.nLiterals) = some e := by
  unfold readDict
  cases s.lzw.dDict.read (c - Config.nLiterals) with
  | none => simp
  | some e' => simp; constructor <;> (rintro ⟨rfl, rfl⟩; exact ⟨rfl, rfl⟩)

/-- R209 changes nothing. -/
theorem firstLoop_state {n c : Nat} {s t : State} {b : Byte} (h : firstLoop n c s = .ok b t) : t = s := by
  induction n generalizing c with
  | zero => cases h
  | succ n ih =>
    unfold firstLoop at h
    split at h
    · cases h; rfl
    · obtain ⟨e, u, h1, h2⟩ := Res.bind_eq_ok.mp h
      obtain ⟨rfl, -⟩ := readDict_eq_ok.mp h1
      exact ih h2

/-- R213, R196: the entry at D_SIZE, or a full table. -/
theorem ldAppend_cases (fb : Byte) (s : State) :
    (s.lzw.dSize = s.env.dictCap ∧ ldAppend fb s = .raised .codeSpaceExhausted s) ∨
      (s.lzw.dSize ≠ s.env.dictCap ∧
        ldAppend fb s = .ok ()
          (s.setLzw
            { s.lzw with
              dDict := s.lzw.dDict.write s.lzw.dSize ⟨s.lzw.c1, fb⟩, dSize := s.lzw.dSize + 1 })) := by
  unfold ldAppend
  by_cases h : s.lzw.dSize = s.env.dictCap <;> simp [h]

/-- R210: a chain walked and popped changes OUT, the access count and XSTK alone. -/
theorem popStack_frame {bs : List Byte} {s t : State} (h : (popStack bs s).endsAt t) :
    t = { s with
          io := { s.io with out := t.io.out }
          lzw := { s.lzw with xstk := t.lzw.xstk }
          env := { s.env with accNo := t.env.accNo } } := by
  induction bs generalizing s with
  | nil => simp [popStack, Res.endsAt] at h; rw [h]
  | cons b bs ih =>
    rcases Res.endsAt_bind.mp h with ⟨k, hk⟩ | ⟨a, u, hu, hf⟩
    · rcases outAppend_cases b s with ⟨-, e⟩ | ⟨-, e⟩ <;> rw [e] at hk <;> simp at hk
      rw [← hk.2]; rfl
    · rcases outAppend_cases b s with ⟨-, e⟩ | ⟨-, e⟩ <;> rw [e] at hu <;> simp at hu
      subst hu
      rw [ih hf]; rfl

/-- R211: growth or nothing, with no ceiling. -/
theorem ldGrow_eq (n : Nat) (s : State) :
    ldGrow n s = .ok () (if n = s.lzw.maxCode - 2 then s.widen else s) := rfl

end Sys2Proof.Machine
end

