-- ==== Sys2Proof/Laws/PerInstr.lean ====
section
/-! SUPPORT. Statements about every instruction as syntax, one lemma per constructor of Instr. -/

namespace Sys2Proof.Laws.EncodeFormat

/-- R90, R109: an instruction is encoded in the format of its row of the opcode table. -/
def Statement (i : Instr) : Prop := (encode i).format = i.format

theorem compress (method : Byte) : Statement (.compress method) := rfl
theorem decompress (method : Byte) : Statement (.decompress method) := rfl
theorem cmdReserved (method op : Byte) : Statement (.cmdReserved method op) := rfl
theorem tagHuffman : Statement .tagHuffman := rfl
theorem tagLzw : Statement .tagLzw := rfl
theorem tagReserved (tag : Byte) : Statement (.tagReserved tag) := rfl
theorem hnodeLeaf (sym : BitVec 16) : Statement (.hnodeLeaf sym) := rfl
theorem hnodeInternal : Statement .hnodeInternal := rfl
theorem hcode (path : List Bool) : Statement (.hcode path) := rfl
theorem lcode (width code : Nat) : Statement (.lcode width code) := rfl
theorem bcOpenW : Statement .bcOpenW := rfl
theorem bcOpenR : Statement .bcOpenR := rfl
theorem bcPutBit (b : Bool) : Statement (.bcPutBit b) := rfl
theorem bcPutNBytes (bytes : List Byte) : Statement (.bcPutNBytes bytes) := rfl
theorem bcClose : Statement .bcClose := rfl
theorem bcGetBit : Statement .bcGetBit := rfl
theorem bcGetNBytes (n : Nat) : Statement (.bcGetNBytes n) := rfl
theorem bcPutBits (v n : Nat) : Statement (.bcPutBits v n) := rfl
theorem bcEof : Statement .bcEof := rfl
theorem bcGetBits (n : Nat) : Statement (.bcGetBits n) := rfl
theorem heFreq : Statement .heFreq := rfl
theorem heInsert (t w : Nat) : Statement (.heInsert t w) := rfl
theorem heLeaves : Statement .heLeaves := rfl
theorem heCombine : Statement .heCombine := rfl
theorem heBuild : Statement .heBuild := rfl
theorem heSer (t : Nat) : Statement (.heSer t) := rfl
theorem heTable : Statement .heTable := rfl
theorem heRewind : Statement .heRewind := rfl
theorem heEncode : Statement .heEncode := rfl
theorem heCompress : Statement .heCompress := rfl
theorem hdDeser : Statement .hdDeser := rfl
theorem hdSymbol : Statement .hdSymbol := rfl
theorem hdDecompress : Statement .hdDecompress := rfl
theorem leInit : Statement .leInit := rfl
theorem leStep (b : Byte) : Statement (.leStep b) := rfl
theorem leEmit (c : Nat) : Statement (.leEmit c) := rfl
theorem leInsert (p : Nat) (b : Byte) : Statement (.leInsert p b) := rfl
theorem leGrow (n : Nat) : Statement (.leGrow n) := rfl
theorem leFinish : Statement .leFinish := rfl
theorem leCompress : Statement .leCompress := rfl
theorem ldInit : Statement .ldInit := rfl
theorem ldReadCode : Statement .ldReadCode := rfl
theorem ldFirst (c : Nat) : Statement (.ldFirst c) := rfl
theorem ldExpand (c : Nat) : Statement (.ldExpand c) := rfl
theorem ldGrow (n : Nat) : Statement (.ldGrow n) := rfl
theorem ldStep : Statement .ldStep := rfl
theorem ldFlush : Statement .ldFlush := rfl
theorem ldDecompress : Statement .ldDecompress := rfl

end Sys2Proof.Laws.EncodeFormat
end

