-- ==== Sys2Proof/Tests/Slice0.lean ====
section
/-! SUPPORT. The package's own tests: the well-formedness checks, one word per constructor written out from
the spec's encodings, one step of most operations on the examples of the rules and the vectors of
95_test_vectors.md, and a witness for the hypotheses of every statement. -/

namespace Sys2Proof.Tests

open Sys2Proof Sys2Proof.Machine

/-! ### Well-formedness: one ill-formed term for each check -/

/-- R92, R104: a reserved item is not one of those the rules name. -/
theorem test_wf_reserved :
    (Instr.cmdReserved 0 1).wellFormed = false ∧ (Instr.cmdReserved 7 2).wellFormed = false ∧
    (Instr.tagReserved 0).wellFormed = false ∧ (Instr.tagReserved 1).wellFormed = false := by decide

/-- R99: a code has at most 256 bits. -/
theorem test_wf_hcode : (Instr.hcode (List.replicate 257 true)).wellFormed = false := by decide +kernel

/-- R101: a code has 9 to 64 bits and fits them. -/
theorem test_wf_lcode :
    (Instr.lcode 8 1).wellFormed = false ∧ (Instr.lcode 65 1).wellFormed = false ∧
    (Instr.lcode 9 512).wellFormed = false := by decide

/-- R128, R130: at most MAX_WIDTH bits, and the value fits them. -/
theorem test_wf_bits :
    (Instr.bcPutBits 2 1).wellFormed = false ∧ (Instr.bcPutBits 0 65).wellFormed = false ∧
    (Instr.bcGetBits 65).wellFormed = false := by decide

/-- The operand fields of log entry 3: counts, codes and weights of 64 bits, arena indices below 513. -/
theorem test_wf_fields :
    (Instr.bcGetNBytes (2 ^ 64)).wellFormed = false ∧ (Instr.heInsert 513 1).wellFormed = false ∧
    (Instr.heInsert 0 (2 ^ 64)).wellFormed = false ∧ (Instr.heSer 513).wellFormed = false ∧
    (Instr.leEmit (2 ^ 64)).wellFormed = false ∧ (Instr.leInsert (2 ^ 64) 0).wellFormed = false ∧
    (Instr.leGrow (2 ^ 64)).wellFormed = false ∧ (Instr.ldFirst (2 ^ 64)).wellFormed = false ∧
    (Instr.ldExpand (2 ^ 64)).wellFormed = false ∧ (Instr.ldGrow (2 ^ 64)).wellFormed = false := by decide

/-! ### Decoding: a word of every row, from the formats' rules -/

/-- R91, R92: METHOD in bits 15 to 8, OP in bits 7 to 0. -/
theorem test_decode_cmd :
    decode (.cmdWord 0x0101) = .ok (.compress 1) ∧ decode (.cmdWord 0x0502) = .ok (.decompress 5) ∧
    decode (.cmdWord 0x0100) = .ok (.cmdReserved 1 0) := by decide

/-- R95, R104. -/
theorem test_decode_tag :
    decode (.tagByte 0x00) = .ok .tagHuffman ∧ decode (.tagByte 0x01) = .ok .tagLzw ∧
    decode (.tagByte 0x47) = .ok (.tagReserved 0x47) := by decide

/-- R97, R98: a mark, and sixteen bits most significant first after a 1 (the leaf 65 of V-HE-2). -/
theorem test_decode_node :
    decode (.nodeBits [true, false, false, false, false, false, false, false, false,
      false, true, false, false, false, false, false, true]) = .ok (.hnodeLeaf 65) ∧
    decode (.nodeBits [false]) = .ok .hnodeInternal ∧
    decode (.nodeBits [true, false]) = .reject .badNodeBits := by decide

/-- R99, R101: a code's own bits; `001000001` is 65 in 9 bits (R192). -/
theorem test_decode_codes :
    decode (.codeBits [true, false, true, true]) = .ok (.hcode [true, false, true, true]) ∧
    decode (.lzwBits [false, false, true, false, false, false, false, false, true]) = .ok (.lcode 9 65) ∧
    decode (.lzwBits [true]) = .reject .operandRange := by decide

/-- R109: the ids of the Bit Channel, with the operand bytes of log entry 3. -/
theorem test_decode_bc :
    decode (.uop [0x10]) = .ok .bcOpenW ∧ decode (.uop [0x11]) = .ok .bcOpenR ∧
    decode (.uop [0x12, 1]) = .ok (.bcPutBit true) ∧
    decode (.uop [0x13, 0xAB, 0xCD]) = .ok (.bcPutNBytes [0xAB, 0xCD]) ∧
    decode (.uop [0x13]) = .ok (.bcPutNBytes []) ∧
    decode (.uop [0x14]) = .ok .bcClose ∧ decode (.uop [0x15]) = .ok .bcGetBit ∧
    decode (.uop [0x16, 0, 0, 0, 0, 0, 0, 1, 2]) = .ok (.bcGetNBytes 258) ∧
    decode (.uop [0x17, 0, 0, 0, 0, 0, 0, 0, 65, 9]) = .ok (.bcPutBits 65 9) ∧
    decode (.uop [0x18]) = .ok .bcEof ∧ decode (.uop [0x19, 9]) = .ok (.bcGetBits 9) ∧
    decode (.uop [0x12]) = .reject .truncatedUop ∧ decode (.uop [0x1A]) = .reject .unknownUop := by decide

/-- R109: the ids of the Huffman units. -/
theorem test_decode_huffman :
    decode (.uop [0x20]) = .ok .heFreq ∧
    decode (.uop [0x21, 1, 2, 0, 0, 0, 0, 0, 0, 0, 7]) = .ok (.heInsert 258 7) ∧
    decode (.uop [0x22]) = .ok .heLeaves ∧ decode (.uop [0x23]) = .ok .heCombine ∧
    decode (.uop [0x24]) = .ok .heBuild ∧ decode (.uop [0x25, 0, 3]) = .ok (.heSer 3) ∧
    decode (.uop [0x26]) = .ok .heTable ∧ decode (.uop [0x27]) = .ok .heRewind ∧
    decode (.uop [0x28]) = .ok .heEncode ∧ decode (.uop [0x29]) = .ok .heCompress ∧
    decode (.uop [0x30]) = .ok .hdDeser ∧ decode (.uop [0x31]) = .ok .hdSymbol ∧
    decode (.uop [0x32]) = .ok .hdDecompress := by decide

/-- R109: the ids of the LZW units, and the second names of the two commands (log entry 3). -/
theorem test_decode_lzw :
    decode (.uop [0x40]) = .ok .leInit ∧ decode (.uop [0x41, 65]) = .ok (.leStep 65) ∧
    decode (.uop [0x42, 0, 0, 0, 0, 0, 0, 1, 0]) = .ok (.leEmit 256) ∧
    decode (.uop [0x43, 0, 0, 0, 0, 0, 0, 1, 0, 65]) = .ok (.leInsert 256 65) ∧
    decode (.uop [0x44, 0, 0, 0, 0, 0, 0, 1, 255]) = .ok (.leGrow 511) ∧
    decode (.uop [0x45]) = .ok .leFinish ∧ decode (.uop [0x46]) = .ok .leCompress ∧
    decode (.uop [0x50]) = .ok .ldInit ∧ decode (.uop [0x51]) = .ok .ldReadCode ∧
    decode (.uop [0x52, 0, 0, 0, 0, 0, 0, 1, 1]) = .ok (.ldFirst 257) ∧
    decode (.uop [0x53, 0, 0, 0, 0, 0, 0, 1, 1]) = .ok (.ldExpand 257) ∧
    decode (.uop [0x54, 0, 0, 0, 0, 0, 0, 1, 254]) = .ok (.ldGrow 510) ∧
    decode (.uop [0x55]) = .ok .ldStep ∧ decode (.uop [0x56]) = .ok .ldFlush ∧
    decode (.uop [0x57]) = .ok .ldDecompress ∧
    decode (.uop [0x60, 1]) = .ok (.compress 1) ∧ decode (.uop [0x61, 0]) = .ok (.decompress 0) := by decide

/-- The words of the opcode table, as `decodeTableWord` reads them (log entry 4). -/
theorem test_table_words :
    decodeTableWord 16 0x0101 = some (.compress 1) ∧ decodeTableWord 24 0x10100 = some (.hnodeLeaf 256) ∧
    decodeTableWord 8 0x02 = some (.tagReserved 2) ∧ decodeTableWord 8 0x31 = some .hdSymbol := by decide

/-! ### Helpers -/

/-- The machine after reset with an input supplied. -/
def onIn (bytes : List Byte) : State := { State.reset with io := { inp := bytes, inPos := 0, out := [] } }

/-- What a step's next state satisfies. -/
def after (o : Host.Outcome State Fault Refusal) (p : State → Bool) : Bool :=
  match o with
  | .next s => p s
  | .fault _ => false
  | .refused _ => false

/-- The reset state with a given writer. -/
def writing (acc : Byte) (cnt : Fin 8) : State := State.reset.setWriter acc cnt

/-- The reset state with a given reader on an input. -/
def reading (bytes : List Byte) (pos : Nat) (cur : Byte) (cnt : Fin 9) : State :=
  ((onIn bytes).setReader cur cnt).setInPos pos

/-- The tree ('a',(EOS,'b')) of R173 in an arena, with ROOT at its root. -/
def withTree (s : State) : State :=
  s.setHuf { s.huf with
    node := [(0, .leaf 97), (1, .leaf 98), (2, .leaf 256), (3, .internal (some 2) (some 1)),
      (4, .internal (some 0) (some 3))]
    nNodes := 5
    root := 4 }

/-- The tree `withTree` holds. -/
def treeAB : HuffTree := .node (.leaf 97) (.node (.leaf 256) (.leaf 98))

/-- Counts under which `treeAB`'s symbols are the present ones. -/
def countedAB (s : State) : State :=
  s.setHuf { s.huf with freq := [(97, 1), (98, 1), (256, 1)] }

/-- The LZW decoder mid-stream: the table of R209. -/
def withDict (c1 c2 : Nat) (s : State) : State :=
  s.setLzw { s.lzw with
    dDict := [(0, { pred := 65, byte := 65 }), (1, { pred := 256, byte := 65 })]
    dSize := 2
    c1 := c1
    c2 := c2
    c2Valid := true }

/-! ### One step of the operations, on the rules' own examples -/

/-- R122's and V-BC-1's last bit: the byte 0xA1 is appended. -/
theorem test_putBit :
    after (exec (.bcPutBit true) (writing 0xA0 7)) (fun t => t.io.out == [0xA1] && t.bc.wCnt == 0 && t.bc.wAcc == 0) =
      true := by decide

/-- V-BC-9: mid-byte bytes are shifted. -/
theorem test_putNBytes :
    after (exec (.bcPutNBytes [0xFF]) (writing 0xA0 3))
      (fun t => t.io.out == [0xBF] && t.bc.wCnt == 3 && t.bc.wAcc == 0xE0) = true := by decide

/-- V-BC-5: padding zeros. -/
theorem test_close : after (exec .bcClose (writing 0xC0 3)) (fun t => t.io.out == [0xC0] && t.bc.wCnt == 0) = true := by
  decide

/-- V-BC-8: nine bits of 256 after one pending bit. -/
theorem test_putBits :
    after (exec (.bcPutBits 256 9) (writing 0x80 1))
      (fun t => t.io.out == [0xC0] && t.bc.wCnt == 2 && t.bc.wAcc == 0) = true := by decide

/-- V-BC-10: the first bit is bit 7. -/
theorem test_getBit :
    after (exec .bcGetBit (onIn [0xA1])) (fun t => t.result == .bit (some true) && t.bc.rCnt == 7 && t.io.inPos == 1) =
      true := by decide

/-- V-BC-11: bytes read mid-byte. -/
theorem test_getNBytes :
    after (exec (.bcGetNBytes 2) (reading [0x80, 0x80, 0x00] 1 0x80 7))
      (fun t => t.result == .bytes (some [0x01, 0x00]) && t.bc.rCnt == 7 && t.io.inPos == 3) = true := by decide

/-- V-BC-12: too few bits, nothing consumed. -/
theorem test_getNBytes_none :
    after (exec (.bcGetNBytes 2) (reading [0x80, 0x80] 1 0x80 7))
      (fun t => t.result == .bytes none && t.bc.rCnt == 7 && t.io.inPos == 1) = true := by decide

/-- V-BC-13. -/
theorem test_getBits :
    after (exec (.bcGetBits 9) (onIn [0x20, 0x80]))
      (fun t => t.result == .number (some 65) && t.bc.rCnt == 7 && t.io.inPos == 2) = true := by decide

/-- V-BC-14: false mid-byte though no byte is left. -/
theorem test_eof :
    after (exec .bcEof (reading [0xFF] 1 0xFF 1)) (fun t => t.result == .flag false) = true ∧
    after (exec .bcEof (reading [0xFF] 1 0xFF 0)) (fun t => t.result == .flag true) = true := by decide

/-- R140 on "aab". -/
theorem test_heFreq :
    after (exec .heFreq (onIn [97, 97, 98])) (fun t => t.huf.freq == [(97, 2), (98, 1), (256, 1)] && t.io.inPos == 3) =
      true := by decide

/-- R142's two examples: after an equal weight, before a smaller one. -/
theorem test_heInsert :
    after (exec (.heInsert 9 2) (State.reset.setHuf { Huffman.reset with list := [⟨0, 2⟩] }))
      (fun t => t.huf.list == [⟨0, 2⟩, ⟨9, 2⟩]) = true ∧
    after (exec (.heInsert 9 2) (State.reset.setHuf { Huffman.reset with list := [⟨0, 1⟩] }))
      (fun t => t.huf.list == [⟨9, 2⟩, ⟨0, 1⟩]) = true := by decide

/-- V-HE-6, list 1: "abracadabra" after HE.LEAVES. -/
theorem test_heLeaves :
    after (exec .heLeaves (State.reset.setHuf
        { Huffman.reset with freq := [(97, 5), (98, 2), (99, 1), (100, 1), (114, 2), (256, 1)] }))
      (fun t => t.huf.list == [⟨0, 5⟩, ⟨1, 2⟩, ⟨4, 2⟩, ⟨2, 1⟩, ⟨3, 1⟩, ⟨5, 1⟩]) = true := by decide +kernel

/-- V-HE-6, list 2: the tail is the zero-child, and the new entry goes after the 2s. -/
theorem test_heCombine :
    after (exec .heCombine (State.reset.setHuf
        { Huffman.reset with nNodes := 6, list := [⟨0, 5⟩, ⟨1, 2⟩, ⟨4, 2⟩, ⟨2, 1⟩, ⟨3, 1⟩, ⟨5, 1⟩] }))
      (fun t => t.huf.list == [⟨0, 5⟩, ⟨1, 2⟩, ⟨4, 2⟩, ⟨6, 2⟩, ⟨2, 1⟩] &&
        t.huf.node.read 6 == some (.internal (some 5) (some 3))) = true := by decide

/-- V-HE-6: the tree of "abracadabra". -/
theorem test_huffmanTree :
    huffmanTree (countOf [97, 98, 114, 97, 99, 97, 100, 97, 98, 114, 97]) =
      .node (.leaf 97) (.node (.node (.leaf 99) (.node (.leaf 256) (.leaf 100))) (.node (.leaf 114) (.leaf 98))) := by
  decide +kernel

/-- V-HE-4's codes: a = 0, b = 11, EOS = 10. -/
theorem test_heTable :
    after (exec .heTable (withTree State.reset))
      (fun t => t.huf.ctab == [(97, ⟨1, [false]⟩), (98, ⟨2, [true, true]⟩), (256, ⟨2, [true, false]⟩)]) = true := by
  decide

/-- V-HE-1: the serialisation of Leaf(EOS), 17 bits. -/
theorem test_heSer :
    after (exec (.heSer 2) (withTree State.reset)) (fun t => t.io.out == [0x80, 0x80] && t.bc.wCnt == 1 && t.bc.wAcc == 0) =
      true := by decide

/-- V-HE-2: COMPRESS Huffman of "A". -/
theorem test_compress_huffman :
    after (exec (.compress 0) (onIn [0x41]))
      (fun t => t.io.out == [0x00, 0x40, 0x40, 0x20, 0x08, 0x30] && t.regs.status == .done) = true := by decide +kernel

/-- V-LE-4: COMPRESS LZW of "AAAA". -/
theorem test_compress_lzw :
    after (exec (.compress 1) (onIn [0x41, 0x41, 0x41, 0x41]))
      (fun t => t.io.out == [0x01, 0x20, 0xC0, 0x08, 0x20] && t.regs.status == .done) = true := by decide

/-- V-HD-3: DECOMPRESS of a Huffman container. -/
theorem test_decompress_huffman :
    after (exec (.decompress 0) (onIn [0x00, 0x40, 0x18, 0x50, 0x10, 0x08, 0x03, 0x13, 0x80]))
      (fun t => t.io.out == [0x61, 0x62] && t.regs.status == .done && t.huf.nNodes == 5 && t.io.inPos == 9 &&
        t.bc.rCnt == 6) = true := by decide +kernel

/-- V-LD-1: DECOMPRESS of an LZW container, with the miss case. -/
theorem test_decompress_lzw :
    after (exec (.decompress 0) (onIn [0x01, 0x20, 0xC0, 0x08, 0x20]))
      (fun t => t.io.out == [0x41, 0x41, 0x41, 0x41] && t.regs.status == .done) = true := by decide

/-- V-DI-10: the oracle fails the third append of COMPRESS on "A" (access 3: the tag, a read, two appends). -/
theorem test_ioFault :
    after (exec (.compress 0) { onIn [0x41] with env := { Env.default with ioFaults := [(1, 3)] } })
      (fun t => decide (t.failedWith .ioFailure) && t.io.out == [0x00, 0x40] && t.env.accNo == 4) = true := by
  decide +kernel

/-- Log entry 25: an IN shorter than IN_POS, supplied after a call, has no byte left for a single operation. -/
theorem test_shorterSupply :
    after (step { reading [1, 2, 3] 3 0 0 with moves := [.supply [7]] })
      (fun t => t.io.inPos == 3 && t.io.inp == [7] && t.atEof && t.remaining == 0) = true := by decide

/-- R173's example: two bits to 98. -/
theorem test_hdSymbol :
    after (exec .hdSymbol (withTree (reading [0xC0] 0 0 0)))
      (fun t => t.result == .symbol 98 && t.bc.rCnt == 6) = true := by decide

/-- R187's example: "AA" from the phrase 'A'. -/
theorem test_leStep :
    after (exec (.leStep 65) (State.reset.setLzw { Lzw.reset with cur := 65, haveCur := true }))
      (fun t => t.io.out == [0x20] && t.bc.wAcc == 0x80 && t.bc.wCnt == 1 &&
        t.lzw.eDict.read (pairKey 65 65) == some 256 && t.lzw.dSize == 1 && t.lzw.cur == 65) = true := by decide

/-- R190's and R211's first growths: 511 in the encoder, 510 in the decoder. -/
theorem test_grow :
    after (exec (.leGrow 511) State.reset) (fun t => t.lzw.width == 10 && t.lzw.maxCode == 1024) = true ∧
    after (exec (.leGrow 510) State.reset) (fun t => t.lzw.width == 9) = true ∧
    after (exec (.ldGrow 510) State.reset) (fun t => t.lzw.width == 10 && t.lzw.maxCode == 1024) = true ∧
    after (exec (.ldGrow 511) State.reset) (fun t => t.lzw.width == 9) = true := by decide

/-- R207's example: 65 in 9 bits, then only padding. -/
theorem test_ldReadCode :
    after (exec .ldReadCode (reading [0x20, 0x80] 0 0 0)) (fun t => t.result == .code (some 65) && t.remaining == 7) =
      true := by decide

/-- R209's and R210's examples. -/
theorem test_ldFirst_ldExpand :
    after (exec (.ldFirst 257) (withDict 0 0 State.reset)) (fun t => t.result == .byte 0x41) = true ∧
    after (exec (.ldExpand 257) (withDict 0 0 State.reset)) (fun t => t.io.out == [0x41, 0x41, 0x41]) = true := by decide

/-- R92: a reserved word changes CMD alone. -/
theorem test_cmdReserved :
    after (exec (.cmdReserved 5 3) State.reset) (fun t => t == State.reset.setCmd 0x0503) = true := by decide

/-! ### Witnesses: the hypotheses of each statement are met, each clause's at a boundary of its range -/

/-- A machine with one failing access, the first. -/
def failing (s : State) : State := { s with env := { s.env with ioFaults := [(0, 0)] } }

theorem witness_ResetAndCallStart :
    { State.reset with moves := [.reset, .supply []] }.moves = .reset :: [.supply []] := by decide

theorem witness_StepRunsDecoded :
    (State.reset.withFetchWord 8 0x14).moves = .issue (tableWord 8 0x14) :: [] ∧
    decode (tableWord 8 0x14) = .ok .bcClose ∧ decodeTableWord 8 0x14 = some .bcClose ∧
    State.reset.moves = [] ∧ { State.reset with moves := [.supply [1]] }.moves = .supply [1] :: [] ∧
    State.reset.regs.status ≠ .busy := by decide

theorem witness_DecodeEncode :
    (Instr.lcode 64 (2 ^ 64 - 1)).wellFormed = true ∧ (Instr.bcPutBits 0 0).wellFormed = true ∧
    (Instr.hcode (List.replicate 256 true)).wellFormed = true ∧ (Instr.heInsert 512 0).wellFormed = true := by
  decide +kernel

theorem witness_InvKept : Inv State.reset ∧ step State.reset = .next State.reset := ⟨by decide, rfl⟩

theorem witness_StreamsKept :
    Instr.bcOpenW.wellFormed = true ∧ exec .bcOpenW State.reset = .next (State.reset.setWriter 0 0) ∧
    State.reset.io.inPos ≤ State.reset.inLen ∧ isCallOp .bcOpenW = false := ⟨by decide, rfl, by decide, by decide⟩

theorem witness_ErrorTable :
    Instr.bcOpenW.wellFormed = true ∧ exec .bcOpenW State.reset = .next (State.reset.setWriter 0 0) ∧
    isCallOp .bcOpenW = false ∧ (Instr.compress 2).wellFormed = true ∧ isCallOp (.compress 2) = true ∧
    State.reset.regs.status ≠ .busy ∧ ∃ t, exec (.compress 2) State.reset = .next t :=
  ⟨by decide, rfl, by decide, by decide, by decide, by decide, _, rfl⟩

theorem witness_UnmetPreconditionsStop :
    (State.reset.setHuf { Huffman.reset with list := List.replicate 257 ⟨0, 1⟩ }).listLen = Config.listCap ∧
    (State.reset.setHuf { Huffman.reset with list := [⟨0, 1⟩] }).listLen < 2 ∧ State.reset.huf.freq = [] ∧
    State.reset.huf.list = [] ∧ State.reset.huf.node.read 512 = none ∧ 512 < Config.nodeCap ∧
    State.reset.huf.root < Config.nodeCap ∧ State.reset.huf.node.read State.reset.huf.root = none ∧
    State.reset.io.inPos = State.reset.inLen ∧ State.reset.huf.ctab.read Config.eosValue = none ∧
    Config.nLiterals ≤ 256 ∧ State.reset.lzw.dDict.read (256 - Config.nLiterals) = none ∧
    (State.reset.setLzw { Lzw.reset with dDict := [(0, ⟨256, 7⟩)] }).lzw.dDict.read 0 =
      some { pred := Config.nLiterals, byte := 7 } := by decide +kernel

theorem witness_OpenAndEof : (onIn [1]).io.inPos ≤ (onIn [1]).inLen := by decide

theorem witness_PutBit :
    (writing 0xFE 7).writerClean ∧ (writing 0xFE 7).ioFails = false ∧ (writing 0 0).writerClean ∧
    (writing 0 0).bc.wCnt ≠ 7 ∧ (failing (writing 0xFE 7)).writerClean ∧ (failing (writing 0xFE 7)).bc.wCnt = 7 ∧
    (failing (writing 0xFE 7)).ioFails = true := by decide

theorem witness_PutNBytes_PutBits_Close :
    (writing 0xFE 7).noIoFault ∧ (writing 0xFE 7).writerClean ∧ (writing 0 0).noIoFault ∧
    (writing 0 0).writerClean := by decide

theorem witness_BytesAreBits :
    (reading [1] 0 0 0).noIoFault ∧ (reading [1] 0 0 0).writerClean ∧ (reading [1] 0 0 0).readerBetween ∧
    8 ≤ (reading [1] 0 0 0).remaining ∧ (reading [1] 0 0x7F 7).readerBetween ∧
    8 ≤ (reading [1] 0 0x7F 7).remaining := by decide

theorem witness_GetBit :
    (onIn []).remaining = 0 ∧ (reading [1] 1 1 1).remaining ≠ 0 ∧ (reading [1] 1 1 1).bc.rCnt ≠ 0 ∧
    (onIn [1]).remaining ≠ 0 ∧ (onIn [1]).ioFails = false ∧ (failing (onIn [1])).remaining ≠ 0 ∧
    (failing (onIn [1])).bc.rCnt = 0 ∧ (failing (onIn [1])).ioFails = true := by decide

theorem witness_GetNBytes_GetBits :
    (reading [1] 0 0x7F 7).readerBetween ∧ (reading [1] 0 0x7F 7).remaining < 8 * 2 ∧
    8 * 1 ≤ (reading [1] 0 0x7F 7).remaining ∧ (reading [1] 0 0x7F 7).remaining < 16 ∧
    15 ≤ (reading [1] 0 0x7F 7).remaining ∧ (reading [1] 0 0x7F 7).noIoFault := by decide

theorem witness_WriteThenRead :
    (∀ i ∈ [Instr.bcPutBit true, .bcPutNBytes [1], .bcPutBits 5 3], isWriteOp i = true) ∧
    State.reset.noIoFault ∧ State.reset.io.out = [] ∧
    ∃ t, runAll (.bcOpenW :: [Instr.bcPutBit true, .bcPutNBytes [1], .bcPutBits 5 3] ++ [.bcClose]) State.reset =
        .next t ∧ (onIn t.io.out).noIoFault ∧ (onIn t.io.out).io.inp = t.io.out :=
  ⟨by decide, by decide, by decide, _, rfl, by decide, rfl⟩

theorem witness_IoFault :
    (failing (writing 0xFE 7)).ioFails = true ∧ (failing (writing 0xFE 7)).bc.wCnt ≠ 0 ∧
    (failing (onIn [1])).ioFails = true ∧ (failing (onIn [1])).readerBetween ∧
    8 * (0 + 1) ≤ (failing (onIn [1])).remaining ∧
    (failing (onIn [1])).io.inPos < (failing (onIn [1])).inLen ∧ 255 < Config.nLiterals := by decide

/-- Two bytes with the second access failed, and with a failed access after the last. -/
theorem witness_FaultCutsRun :
    ∃ u, exec (.bcPutNBytes [1, 2]) ((writing 0 0).withOracle []) = .next u ∧
      firstAccess (.bcPutNBytes [1, 2]) (writing 0 0) = 0 ∧ u.env.accNo = 2 ∧ u.env.callNo = 0 ∧
      (∀ a, 0 ≤ a → a < 2 → (0, a) ∉ ((writing 0 0).withOracle [(0, 2)]).env.ioFaults) ∧
      (0, 1) ∈ ((writing 0 0).withOracle [(0, 1)]).env.ioFaults ∧
      (∀ b, 0 ≤ b → b < 1 → (0, b) ∉ ((writing 0 0).withOracle [(0, 1)]).env.ioFaults) ∧
      (isCallOp (.compress 0) = true ∧ (writing 0 0).regs.status ≠ .busy) := by
  refine ⟨_, rfl, by decide, by decide, by decide, ?_, by decide, ?_, by decide⟩
  · intro a _ ha
    interval_cases a <;> decide
  · intro b _ hb
    interval_cases b
    decide

theorem witness_HeFreq : (onIn [97]).noIoFault ∧ (onIn [97]).io.inPos = 0 ∧ (onIn [97]).huf.freq = [] := by decide

theorem witness_HeInsert :
    Descending [(⟨0, 2⟩ : ListEntry), ⟨1, 1⟩] ∧
    (State.reset.setHuf { Huffman.reset with list := List.replicate 256 ⟨0, 1⟩ }).listLen < Config.listCap ∧
    Descending (State.reset.setHuf { Huffman.reset with list := List.replicate 256 ⟨0, 1⟩ }).huf.list := by
  refine ⟨by decide, by decide +kernel, ?_⟩
  exact List.pairwise_replicate.mpr (.inr (Nat.le_refl _))

theorem witness_HeLeaves :
    (countedAB State.reset).huf.list = [] ∧
    (countedAB State.reset).huf.nNodes + (countedAB State.reset).present.length ≤ Config.nodeCap := by decide +kernel

theorem witness_HeCombine :
    (State.reset.setHuf { Huffman.reset with nNodes := 512, list := [⟨0, 5⟩, ⟨1, 2⟩, ⟨2, 1⟩] }).huf.list =
      [⟨0, 5⟩] ++ [⟨1, 2⟩, ⟨2, 1⟩] ∧
    Descending [(⟨0, 5⟩ : ListEntry), ⟨1, 2⟩, ⟨2, 1⟩] ∧ 3 ≤ Config.listCap ∧ 512 < Config.nodeCap := by decide

theorem witness_HeBuild :
    (countedAB State.reset).huf.list = [] ∧ (countedAB State.reset).huf.nNodes = 0 ∧
    0 < (countedAB State.reset).freqOf Config.eosValue := by decide

/-- R31: the arena of `withTree` holds `treeAB`. -/
theorem denotes_treeAB (s : State) : Denotes (withTree s).huf.node treeAB (withTree s).huf.root :=
  have h (i : Nat) (hi : i ≤ 4) : i < Config.nodeCap := Nat.lt_of_le_of_lt hi (by decide)
  ⟨h 4 (by decide), 0, 3, rfl, ⟨h 0 (by decide), rfl⟩, h 3 (by decide), 2, 1, rfl, ⟨h 2 (by decide), rfl⟩,
    h 1 (by decide), rfl⟩

theorem witness_HeSer :
    (withTree (writing 0xFE 7)).noIoFault ∧ (withTree (writing 0xFE 7)).writerClean ∧
    Denotes (withTree (writing 0xFE 7)).huf.node treeAB 4 ∧ treeAB.depth ≤ Config.maxCodeLen :=
  ⟨by decide, by decide, denotes_treeAB _, by decide⟩

theorem witness_HeTable :
    Denotes (countedAB (withTree State.reset)).huf.node treeAB (countedAB (withTree State.reset)).huf.root ∧
    treeAB.depth ≤ Config.maxCodeLen ∧ treeAB.leaves.Perm (countedAB (withTree State.reset)).present ∧
    (countedAB (withTree State.reset)).huf.ctab = [] :=
  ⟨denotes_treeAB State.reset, by decide, by decide +kernel, rfl⟩

theorem witness_PrefixFree :
    Denotes (withTree State.reset).huf.node treeAB (withTree State.reset).huf.root ∧
    treeAB.depth ≤ Config.maxCodeLen ∧ treeAB.leaves.Nodup ∧ (withTree State.reset).huf.ctab = [] ∧
    ∃ t, exec .heTable (withTree State.reset) = .next t :=
  ⟨denotes_treeAB _, by decide, by decide, rfl, _, rfl⟩

theorem witness_HeRewind :
    State.reset.env.seekable = true ∧ { State.reset.env with seekable := false }.seekable = false := by decide

/-- The machine about to encode "a" with the codes of V-HE-2's shape. -/
def encoding : State :=
  (onIn [97]).setHuf { Huffman.reset with ctab := [(97, ⟨1, [true]⟩), (256, ⟨1, [false]⟩)] }

theorem witness_HeEncode :
    encoding.noIoFault ∧ encoding.writerClean ∧ encoding.io.inPos = 0 ∧
    (∀ b ∈ encoding.io.inp, encoding.huf.ctab.read b.toNat ≠ none) ∧
    encoding.huf.ctab.read Config.eosValue ≠ none := by decide

theorem witness_HeCompress :
    (onIn [97]).noIoFault ∧ (onIn [97]).env.seekable = true ∧ (onIn [97]).writerClean ∧ (onIn [97]).io.inPos = 0 ∧
    (onIn [97]).huf.freq = [] ∧ (onIn [97]).huf.list = [] ∧ (onIn [97]).huf.nNodes = 0 ∧
    (onIn [97]).huf.ctab = [] := by decide

/-- V-HD-1's payload: Leaf(EOS) and padding. -/
theorem witness_HdDeser :
    (onIn [0x80, 0x80, 0x00]).noIoFault ∧ (onIn [0x80, 0x80, 0x00]).readerBetween ∧
    (onIn [0x80, 0x80, 0x00]).unreadBits = (HuffTree.leaf 256).ser ++ List.replicate 7 false ∧
    (HuffTree.leaf 256).legalAfter 512 := by decide

theorem witness_HdDeserRejects :
    (onIn []).noIoFault ∧ (onIn []).readerBetween ∧
    ∀ (T : HuffTree) (rest : List Bool), (onIn []).unreadBits = T.ser ++ rest →
      ¬ T.legalAfter (onIn []).huf.nNodes := by
  refine ⟨by decide, by decide, fun T rest h => ?_⟩
  have h0 : (onIn []).unreadBits = [] := by decide
  rw [h0] at h
  cases T <;> cases h

/-- A leaf that is no symbol, 257: no legal tree starts its bits. -/
theorem witness_HdDeserRejects_symbol :
    (onIn [0x80, 0x80, 0x80]).noIoFault ∧ (onIn [0x80, 0x80, 0x80]).readerBetween ∧
    ∀ (T : HuffTree) (rest : List Bool), (onIn [0x80, 0x80, 0x80]).unreadBits = T.ser ++ rest →
      ¬ T.legalAfter (onIn [0x80, 0x80, 0x80]).huf.nNodes := by
  refine ⟨by decide, by decide, fun T rest h hT => ?_⟩
  have h0 : (onIn [0x80, 0x80, 0x80]).unreadBits = true :: (bitsOfNat 16 257 ++ List.replicate 7 false) := by decide
  rw [h0] at h
  cases T with
  | node z o => cases h
  | leaf s =>
    have hs : s ≤ 256 := hT.1 s (List.mem_singleton_self s)
    have hb : bitsOfNat 16 257 = bitsOfNat 16 s := (List.append_inj (List.cons.inj h).2 rfl).1
    have no : ∀ k ≤ 256, bitsOfNat 16 257 ≠ bitsOfNat 16 k := by decide +kernel
    exact no s hs hb

theorem witness_HdSymbol :
    (withTree (reading [0xC0] 0 0 0)).noIoFault ∧ (withTree (reading [0xC0] 0 0 0)).readerBetween ∧
    Denotes (withTree (reading [0xC0] 0 0 0)).huf.node treeAB 4 ∧
    treeAB.walk (withTree (reading [0xC0] 0 0 0)).unreadBits = some (98, List.replicate 6 false) ∧
    treeAB.walk (withTree (reading [0xFF] 1 0xFF 1)).unreadBits = none :=
  ⟨by decide, by decide, denotes_treeAB _, by decide, by decide⟩

/-- V-HD-3's payload. -/
theorem witness_HdDecompress :
    (onIn [0x40, 0x18, 0x50, 0x10, 0x08, 0x03, 0x13, 0x80]).noIoFault ∧
    (onIn [0x40, 0x18, 0x50, 0x10, 0x08, 0x03, 0x13, 0x80]).readerBetween ∧
    (onIn [0x40, 0x18, 0x50, 0x10, 0x08, 0x03, 0x13, 0x80]).unreadBits =
      huffmanBits treeAB [0x61, 0x62] ++ List.replicate 6 false ∧
    treeAB.legalAfter 0 ∧ Config.eosValue ∈ treeAB.leaves ∧
    ∀ b ∈ [(0x61 : Byte), 0x62], b.toNat ∈ treeAB.leaves := by decide

/-- A leaf that is not EOS, and V-HD-3's payload cut in its last code. -/
theorem witness_HdDecompressRejects :
    255 < Config.eosValue ∧ (onIn [0x80, 0x7F, 0x80]).unreadBits = (HuffTree.leaf 255).ser ++ List.replicate 7 false ∧
    (onIn [0x40, 0x18, 0x50, 0x10, 0x08, 0x03, 0x17]).unreadBits =
      treeAB.ser ++ [(0x62 : Byte)].flatMap (fun b => treeAB.code b.toNat) ++ [true] ∧
    treeAB.legalAfter 0 ∧ (∀ b ∈ [(0x62 : Byte)], b.toNat ∈ treeAB.leaves) ∧ treeAB.walk [true] = none := by decide

theorem witness_NodeItems :
    512 < Config.nodeCap ∧ (256 : BitVec 16).toNat ≤ Config.eosValue ∧ Config.eosValue < (257 : BitVec 16).toNat ∧
    Config.eosValue < (0xFFFF : BitVec 16).toNat ∧ Config.nodeCap ≤ 513 ∧ State.reset.huf.dstk = [] ∧
    treeAB.legalAfter 508 := by decide

theorem witness_CodeItem :
    (withTree State.reset).noIoFault ∧ Denotes (withTree State.reset).huf.node treeAB 4 ∧
    treeAB.walk [true, false] = some (Config.eosValue, []) ∧
    treeAB.walk [true, true] = some ((98 : Byte).toNat, []) ∧ treeAB.walk [true] = none :=
  ⟨by decide, denotes_treeAB _, by decide, by decide, by decide⟩

theorem witness_LeInit :
    (onIn []).inLen ≤ (onIn []).io.inPos ∧ (onIn [65]).readIn (onIn [65]).io.inPos = some 65 ∧
    (onIn [65]).ioFails = false ∧ (failing (onIn [65])).readIn (failing (onIn [65])).io.inPos = some 65 ∧
    (failing (onIn [65])).ioFails = true := by decide

/-- The encoder holding the phrase 'A', one entry from its first growth. -/
def stepping (maxWidth dictCap : Nat) : State :=
  { State.reset with
    lzw := { Lzw.reset with cur := 65, haveCur := true, dSize := 255, eDict := [(pairKey 65 66, 256)] }
    env := { Env.default with maxWidth := maxWidth, dictCap := dictCap } }

theorem witness_LeStep :
    (stepping 64 500).lzw.haveCur = true ∧ (stepping 64 500).lzw.eDict.read (pairKey 65 66) = some 256 ∧
    (stepping 64 500).lzw.eDict.read (pairKey 65 65) = none ∧ (stepping 64 500).noIoFault ∧
    (stepping 64 500).writerClean ∧ WidthOk (stepping 64 500).lzw ∧
    (stepping 64 500).lzw.dSize ≠ (stepping 64 500).env.dictCap ∧
    Config.nLiterals + (stepping 64 500).lzw.dSize = (stepping 64 500).lzw.maxCode - 1 ∧
    (stepping 64 500).lzw.width ≠ (stepping 64 500).env.maxWidth ∧
    (stepping 64 255).lzw.dSize = (stepping 64 255).env.dictCap ∧
    (stepping 9 500).lzw.width = (stepping 9 500).env.maxWidth := by decide

theorem witness_LeEmitFinish :
    (stepping 64 500).noIoFault ∧ (stepping 64 500).writerClean ∧ (stepping 64 500).lzw.haveCur = true ∧
    State.reset.noIoFault ∧ State.reset.writerClean ∧ State.reset.lzw.haveCur = false := by decide

theorem witness_LeInsertGrow :
    (stepping 64 500).lzw.eDict.read (pairKey 65 65) = none ∧
    (stepping 64 500).lzw.dSize ≠ (stepping 64 500).env.dictCap ∧
    (stepping 64 255).lzw.dSize = (stepping 64 255).env.dictCap ∧ 510 ≠ (stepping 64 500).lzw.maxCode - 1 ∧
    511 = (stepping 64 500).lzw.maxCode - 1 ∧ (stepping 64 500).lzw.width ≠ (stepping 64 500).env.maxWidth ∧
    (stepping 9 500).lzw.width = (stepping 9 500).env.maxWidth := by decide

theorem witness_LeCompress_CompressLzw :
    (onIn [65, 65]).noIoFault ∧ (onIn [65, 65]).writerClean ∧ (onIn [65, 65]).io.inPos = 0 ∧
    RoomFor (onIn [65, 65]).env (lzwCodes (onIn [65, 65]).io.inp).length ∧ (onIn [65, 65]).regs.status ≠ .busy ∧
    RoomFor { Env.default with maxWidth := 9, dictCap := 255 } 256 ∧
    RoomFor { Env.default with maxWidth := 9, dictCap := 23 }
      (lzwCodes (List.replicate 300 (65 : Byte))).length := by decide +kernel

theorem witness_LdInitGrow : 509 ≠ State.reset.lzw.maxCode - 2 ∧ 510 = State.reset.lzw.maxCode - 2 := by decide

/-- The decoder before a read, at a width and a ceiling. -/
def codeReading (bytes : List Byte) (width maxWidth : Nat) : State :=
  { onIn bytes with
    lzw := { Lzw.reset with width := width }
    env := { Env.default with maxWidth := maxWidth } }

theorem witness_LdReadCode :
    (reading [1] 1 0x7F 7).remaining < 8 ∧ 8 ≤ (codeReading [1] 10 9).remaining ∧
    (codeReading [1] 10 9).env.maxWidth < (codeReading [1] 10 9).lzw.width ∧ 8 ≤ (codeReading [1] 9 9).remaining ∧
    (codeReading [1] 9 9).lzw.width ≤ (codeReading [1] 9 9).env.maxWidth ∧
    (codeReading [1] 9 9).remaining < (codeReading [1] 9 9).lzw.width ∧
    (codeReading [1, 2] 9 9).lzw.width ≤ (codeReading [1, 2] 9 9).remaining ∧
    8 ≤ (codeReading [1, 2] 9 9).remaining ∧ (codeReading [1, 2] 9 9).noIoFault ∧
    (codeReading [1, 2] 9 9).readerBetween := by decide

/-- The table of `withDict` is in order. -/
theorem dictOk_withDict (c1 c2 : Nat) (s : State) : DictOk (withDict c1 c2 s) := by
  intro i hi
  have hi : i < 2 := hi
  interval_cases i
  · exact ⟨_, rfl, by decide⟩
  · exact ⟨_, rfl, by decide⟩

theorem witness_LdFirstExpandFlush :
    DictOk (withDict 257 0 State.reset) ∧ 257 < Config.nLiterals + (withDict 257 0 State.reset).lzw.dSize ∧
    (withDict 257 0 State.reset).noIoFault ∧
    (withDict 257 0 State.reset).lzw.c1 < Config.nLiterals + (withDict 257 0 State.reset).lzw.dSize :=
  ⟨dictOk_withDict 257 0 _, by decide, by decide, by decide⟩

/-- A decoder about to step, in the miss case, on what is left of an input. -/
def ldStepping (bytes : List Byte) (maxWidth : Nat) : State :=
  { withDict 257 258 (onIn bytes) with env := { Env.default with maxWidth := maxWidth } }

theorem witness_LdStep :
    StepReady (ldStepping [] 9) ∧ StepReady (ldStepping [1] 8) ∧ StepReady (ldStepping [1] 9) ∧
    StepReady (ldStepping [1, 2] 9) ∧ (ldStepping [1] 9).lzw.c2Valid = true ∧ (ldStepping [1] 9).noIoFault ∧
    (ldStepping [1] 9).readerBetween ∧ (ldStepping [] 9).remaining < 8 ∧ 8 ≤ (ldStepping [1] 8).remaining ∧
    (ldStepping [1] 8).env.maxWidth < decoderWidth (ldStepping [1] 8).lzw 258 ∧
    decoderWidth (ldStepping [1] 9).lzw 258 ≤ (ldStepping [1] 9).env.maxWidth ∧
    (ldStepping [1] 9).remaining < decoderWidth (ldStepping [1] 9).lzw 258 ∧
    decoderWidth (ldStepping [1, 2] 9).lzw 258 ≤ (ldStepping [1, 2] 9).remaining := by
  refine ⟨?_, ?_, ?_, ?_, by decide⟩ <;>
    exact ⟨dictOk_withDict 257 258 (onIn []), by decide, by decide, by decide⟩

theorem witness_LdRejects :
    Config.nLiterals + (withDict 0 259 State.reset).lzw.dSize < (withDict 0 259 State.reset).lzw.c2 ∧
    DictOk { withDict 257 258 State.reset with env := { Env.default with dictCap := 2 } } ∧
    (withDict 257 258 State.reset).lzw.c1 < Config.nLiterals + (withDict 257 258 State.reset).lzw.dSize ∧
    (withDict 257 258 State.reset).lzw.c2 ≤ Config.nLiterals + (withDict 257 258 State.reset).lzw.dSize ∧
    (withDict 257 258 State.reset).lzw.dSize = 2 ∧ (withDict 257 258 State.reset).noIoFault ∧
    (onIn [0x80, 0x00]).noIoFault ∧ (onIn [0x80, 0x00]).readerBetween ∧ 9 ≤ (onIn [0x80, 0x00]).env.maxWidth ∧
    Config.nLiterals ≤ 256 ∧ 256 < 2 ^ 9 ∧
    (onIn [0x80, 0x00]).unreadBits = bitsOfNat 9 256 ++ List.replicate 7 false :=
  ⟨by decide, dictOk_withDict 257 258 State.reset, by decide⟩

/-- V-LD-1's payload: the codes 65, 256, 65. -/
theorem witness_LdDecompress :
    (onIn [0x20, 0xC0, 0x08, 0x20]).noIoFault ∧ (onIn [0x20, 0xC0, 0x08, 0x20]).readerBetween ∧
    (onIn [0x20, 0xC0, 0x08, 0x20]).unreadBits = codeBits 1 [65, 256, 65] ++ List.replicate 5 false ∧
    (List.replicate 5 false).length < 8 ∧ lzwText [65, 256, 65] = some [0x41, 0x41, 0x41, 0x41] ∧
    codeWidth 3 ≤ (onIn [0x20, 0xC0, 0x08, 0x20]).env.maxWidth ∧
    3 ≤ (onIn [0x20, 0xC0, 0x08, 0x20]).env.dictCap + 1 := by decide

/-- Before the first code, and after it with and without a legal second code. -/
def codeHeld (c1 c2 : Nat) : State :=
  (withDict c1 c2 State.reset).setLzw { (withDict c1 c2 State.reset).lzw with c1Held := true }

theorem witness_LcodeItem :
    255 < 2 ^ 9 ∧ 9 ≤ State.reset.lzw.width ∧ State.reset.lzw.width ≤ State.reset.env.maxWidth ∧
    9 = State.reset.lzw.width ∧ State.reset.lzw.c1Held = false ∧ 255 < Config.nLiterals ∧ Config.nLiterals ≤ 256 ∧
    (codeHeld 257 0).lzw.c1Held = true ∧ (codeHeld 257 0).noIoFault ∧
    StepReady { codeHeld 257 0 with lzw := { (codeHeld 257 0).lzw with c2 := 258 } } ∧
    Config.nLiterals + (codeHeld 257 0).lzw.dSize < 259 ∧ 259 < 2 ^ 9 ∧ DictOk (codeHeld 257 0) ∧
    (codeHeld 257 0).lzw.c1 < Config.nLiterals + (codeHeld 257 0).lzw.dSize ∧
    258 ≤ Config.nLiterals + (codeHeld 257 0).lzw.dSize ∧
    (codeHeld 257 0).lzw.dSize = { Env.default with dictCap := 2 }.dictCap ∧
    State.reset.lzw.width < 10 ∧ 9 < (codeReading [] 10 10).lzw.width ∧
    (codeReading [] 10 10).lzw.width ≤ (codeReading [] 10 10).env.maxWidth ∧
    (codeReading [] 10 9).env.maxWidth < (codeReading [] 10 9).lzw.width := by
  refine ⟨by decide, by decide, by decide, by decide, by decide, by decide, by decide, by decide, by decide,
    ⟨?_, by decide, by decide, by decide⟩, by decide, by decide, ?_, by decide⟩ <;>
    exact dictOk_withDict 257 0 State.reset

theorem witness_CmdReservedAndBusy :
    State.reset.regs.status ≠ .busy ∧ (0 : Byte) ≠ 1 ∧ (0 : Byte) ≠ 2 ∧ (3 : Byte) ≠ 1 ∧ (3 : Byte) ≠ 2 ∧
    State.reset.callStart.regs.status = .busy := by decide

theorem witness_UnknownMethod : State.reset.regs.status ≠ .busy ∧ (2 : Byte) ≠ 0 ∧ (2 : Byte) ≠ 1 := by decide

theorem witness_MissingOrUnknownTag :
    (onIn []).regs.status ≠ .busy ∧ (onIn []).io.inp = [] ∧ (onIn [2]).regs.status ≠ .busy ∧
    (onIn [2]).io.inp = 2 :: [] ∧ (onIn [2]).noIoFault ∧ (2 : Byte) ≠ 0 ∧ (2 : Byte) ≠ 1 := by decide

theorem witness_CompressHuffman :
    (onIn [97]).regs.status ≠ .busy ∧ (onIn [97]).noIoFault ∧ (onIn [97]).env.seekable = true := by decide

theorem witness_DecompressContainer :
    (onIn [0x00, 0x40, 0x18, 0x50, 0x10, 0x08, 0x03, 0x13, 0x80]).regs.status ≠ .busy ∧
    (onIn [0x00, 0x40, 0x18, 0x50, 0x10, 0x08, 0x03, 0x13, 0x80]).noIoFault ∧
    [(0x40 : Byte), 0x18, 0x50, 0x10, 0x08, 0x03, 0x13, 0x80].flatMap byteBits =
      huffmanBits treeAB [0x61, 0x62] ++ List.replicate 6 false ∧
    treeAB.legalAfter 0 ∧ Config.eosValue ∈ treeAB.leaves ∧
    (∀ b ∈ [(0x61 : Byte), 0x62], b.toNat ∈ treeAB.leaves) ∧
    [(0x20 : Byte), 0xC0, 0x08, 0x20].flatMap byteBits = codeBits 1 [65, 256, 65] ++ List.replicate 5 false ∧
    lzwText [65, 256, 65] = some [0x41, 0x41, 0x41, 0x41] ∧ codeWidth 3 ≤ 9 ∧ 3 ≤ 2 + 1 := by decide

theorem witness_RoundTrip :
    (onIn [65, 65]).regs.status ≠ .busy ∧ (onIn [65, 65]).noIoFault ∧ (onIn [65, 65]).env.seekable = true ∧
    RoomFor (onIn [65, 65]).env (lzwCodes (onIn [65, 65]).io.inp).length ∧
    ∃ t, exec (.compress 1) (onIn [65, 65]) = .next t ∧ (onIn t.io.out).regs.status ≠ .busy ∧
      (onIn t.io.out).noIoFault ∧ (onIn t.io.out).io.inp = t.io.out ∧
      RoomFor (onIn t.io.out).env (lzwCodes (onIn [65, 65]).io.inp).length :=
  ⟨by decide, by decide, by decide, by decide, _, rfl, by decide, rfl, rfl, by decide⟩

/-- The round trip of METHOD 0, run whole. -/
theorem witness_RoundTrip_huffman :
    after (exec (.compress 0) (onIn [65, 65])) (fun t =>
      t.readOut 0 == some 0 && after (exec (.decompress 9) (onIn t.io.out)) (fun v => v.io.out == [65, 65])) = true := by
  decide +kernel

theorem witness_EveryCallEnds : isCallOp (.decompress 0) = true ∧ (onIn [7]).regs.status ≠ .busy := by decide

/-- A machine with calls, faults and free values behind it, whose next call meets the same oracle. -/
def usedMachine : State :=
  { State.reset with
    free := 9
    io := { inp := [], inPos := 4, out := [8] }
    env := { Env.default with callNo := 4, accNo := 17, ioFaults := [(1, 3), (5, 0)] } }

theorem witness_CallIsFunction :
    isCallOp (.compress 1) = true ∧ (State.reset.withOracle [(1, 0)]).regs.status ≠ .busy ∧
    usedMachine.regs.status ≠ .busy ∧ SameCallArguments (State.reset.withOracle [(1, 0)]) usedMachine := by
  refine ⟨by decide, by decide, by decide, rfl, rfl, rfl, rfl, fun a => ?_⟩
  simp [State.reset, State.withOracle, usedMachine, Env.default]

end Sys2Proof.Tests
end

section
/-! PROOFS, Invariant. The machine's invariant taken apart by unit: the writer, the reader, the Huffman data,
the LZW data and the host registers each keep a part of their own. -/

namespace Sys2Proof.Machine

/-! ### The parts of the invariant -/

/-- The invariant's part that speaks of the Huffman data (R32, R34, R36). -/
structure HuffmanOk (h : Huffman) : Prop where
  sorted : Descending h.list
  listFits : h.list.length ≤ Config.listCap
  openCounted : h.dstk.length ≤ h.nNodes
  openFits : h.dstk.length ≤ Config.nodeCap
  freqWf : h.freq.wf = true
  nodeWf : h.node.wf = true
  ctabWf : h.ctab.wf = true
  freqPositive : ∀ e ∈ h.freq, e.2 ≠ 0
  codeLength : ∀ e ∈ h.ctab, e.2.len = e.2.bits.length

/-- The invariant's part that speaks of the LZW data (R37 to R39). -/
structure LzwOk (l : Lzw) : Prop where
  width : WidthOk l
  eDictWf : l.eDict.wf = true
  dDictWf : l.dDict.wf = true

/-- The invariant's part that speaks of the host registers (R22, R24). -/
structure RegsOk (r : HostRegs) : Prop where
  failed : r.status = .failed → r.err ≠ none
  noError : r.status = .idle ∨ r.status = .busy → r.err = none

/-- The invariant is the conjunction of its units' parts. -/
theorem inv_iff (s : State) :
    Inv s ↔ (s.noIoFault → s.writerClean) ∧ s.readerBetween ∧ HuffmanOk s.huf ∧ LzwOk s.lzw ∧ RegsOk s.regs := by
  constructor
  · rintro ⟨clean, between, sorted, fits, counted, opens, width, ⟨freq, node, ctab, eDict, dDict, pos, len⟩, failed,
      noError⟩
    exact ⟨clean, between, ⟨sorted, fits, counted, opens, freq, node, ctab, pos, len⟩, ⟨width, eDict, dDict⟩,
      ⟨failed, noError⟩⟩
  · rintro ⟨clean, between, ⟨sorted, fits, counted, opens, freq, node, ctab, pos, len⟩, ⟨width, eDict, dDict⟩,
      ⟨failed, noError⟩⟩
    exact ⟨clean, between, sorted, fits, counted, opens, width, ⟨freq, node, ctab, eDict, dDict, pos, len⟩, failed,
      noError⟩

/-! ### The host registers -/

/-- R23 constrains no other register. -/
theorem RegsOk.withPhase {r : HostRegs} (h : RegsOk r) (p : Phase) : RegsOk { r with phase := p } :=
  ⟨h.failed, h.noError⟩

/-- CMD takes no part in the invariant (R21). -/
theorem RegsOk.withCmd {r : HostRegs} (h : RegsOk r) (w : BitVec 16) : RegsOk { r with cmd := w } :=
  ⟨h.failed, h.noError⟩

/-- R250: FAILED stands with the kind raised. -/
theorem RegsOk.aborted (c : BitVec 16) (k : ErrKind) : RegsOk ⟨c, .failed, .idle, some k⟩ :=
  ⟨by simp, by simp⟩

/-- R232: DONE asks nothing of ERR. -/
theorem RegsOk.ended (c : BitVec 16) (p : Phase) (e : Option ErrKind) : RegsOk ⟨c, .done, p, e⟩ :=
  ⟨by simp, by simp⟩

/-- R44: both columns have ERR at NONE. -/
theorem RegsOk.noErr (c : BitVec 16) {st : Status} (p : Phase) (h : st ≠ .failed) : RegsOk ⟨c, st, p, none⟩ :=
  ⟨fun hf => absurd hf h, fun _ => rfl⟩

/-! ### The Huffman data -/

/-- R44: emptied Huffman data, whatever the registers ROOT and WALK hold. -/
theorem HuffmanOk.emptied (root walk : Nat) : HuffmanOk { Huffman.reset with root := root, walk := walk } where
  sorted := .nil
  listFits := Nat.zero_le _
  openCounted := Nat.zero_le _
  openFits := Nat.zero_le _
  freqWf := rfl
  nodeWf := rfl
  ctabWf := rfl
  freqPositive := by simp [Huffman.reset]
  codeLength := by simp [Huffman.reset]

/-- An entry of a memory after a write is the one written or was there before. -/
theorem Memory.mem_write {α : Type} {m : Memory α} {k : Nat} {v : α} {e : Nat × α} (h : e ∈ m.write k v) :
    e = (k, v) ∨ e ∈ m := by
  induction m with
  | nil => simpa [Memory.write] using h
  | cons x m ih =>
    obtain ⟨j, u⟩ := x
    unfold Memory.write at h
    split at h
    · simp only [List.mem_cons] at h ⊢
      rcases h with rfl | h
      · simp
      · rcases ih h with h | h <;> simp [h]
    · split at h <;> simp only [List.mem_cons] at h ⊢ <;> tauto

/-- R142: an insertion walking up from the lowest end keeps the weights rising from there. -/
theorem insertFromTail_sorted {e : ListEntry} {l : List ListEntry} (h : l.Pairwise (fun a b => a.weight ≤ b.weight)) :
    (insertFromTail e l).Pairwise (fun a b => a.weight ≤ b.weight) := by
  induction l with
  | nil => simp [insertFromTail]
  | cons x xs ih =>
    obtain ⟨hx, hxs⟩ := List.pairwise_cons.mp h
    unfold insertFromTail
    split
    · next hlt =>
      refine List.pairwise_cons.mpr ⟨fun y hy => ?_, ih hxs⟩
      rcases mem_insertFromTail.mp hy with rfl | hy
      · omega
      · exact hx y hy
    · next hge =>
      refine List.pairwise_cons.mpr ⟨fun y hy => ?_, h⟩
      rcases List.mem_cons.mp hy with rfl | hy
      · omega
      · have := hx y hy
        omega

/-- R32, R142: an insertion keeps LIST in descending weight. -/
theorem insertEntry_descending {e : ListEntry} {l : List ListEntry} (h : Descending l) :
    Descending (insertEntry e l) := by
  rw [Descending, insertEntry, List.pairwise_reverse]
  exact insertFromTail_sorted (List.pairwise_reverse.mpr h)

/-- R140: a counter that is written is not 0. -/
theorem HuffmanOk.bumpFreq {h : Huffman} (ok : HuffmanOk h) (sym n : Nat) :
    HuffmanOk { h with freq := h.freq.write sym (n + 1) } :=
  { ok with
    freqWf := Memory.wf_write _ _ ok.freqWf
    freqPositive := fun e he => by
      rcases Memory.mem_write he with rfl | he
      · simp
      · exact ok.freqPositive e he }

/-- R142 with R41: an insertion below LIST's size. -/
theorem HuffmanOk.insert {h : Huffman} (ok : HuffmanOk h) (e : ListEntry) (room : h.list.length < Config.listCap) :
    HuffmanOk { h with list := insertEntry e h.list } :=
  { ok with
    sorted := insertEntry_descending ok.sorted
    listFits := by rw [insertEntry_length]; exact room }

/-- R144: LIST without its two lowest entries. -/
theorem HuffmanOk.dropTwo {h : Huffman} (ok : HuffmanOk h) {a b : ListEntry} {rest : List ListEntry}
    (hl : h.list.reverse = a :: b :: rest) : HuffmanOk { h with list := rest.reverse } := by
  have parts : h.list = rest.reverse ++ [b, a] := by simpa using congrArg List.reverse hl
  have sorted := ok.sorted
  have fits := ok.listFits
  rw [parts] at sorted fits
  exact
    { ok with
      sorted := (List.pairwise_append.mp sorted).1
      listFits := by simp at fits ⊢; omega }

/-- R31, R63: an arena entry is written. -/
theorem HuffmanOk.writeNode {h : Huffman} (ok : HuffmanOk h) (i : Nat) (e : NodeEntry) :
    HuffmanOk { h with node := h.node.write i e } :=
  { ok with nodeWf := Memory.wf_write _ _ ok.nodeWf }

/-- R31: one more node is counted. -/
theorem HuffmanOk.count {h : Huffman} (ok : HuffmanOk h) : HuffmanOk { h with nNodes := h.nNodes + 1 } :=
  { ok with openCounted := Nat.le_succ_of_le ok.openCounted }

/-- R36: DSTK grows no longer than it was. -/
theorem HuffmanOk.shrink {h : Huffman} (ok : HuffmanOk h) {d : List (Nat × Bool)} (hd : d.length ≤ h.dstk.length) :
    HuffmanOk { h with dstk := d } :=
  { ok with
    openCounted := hd.trans ok.openCounted
    openFits := hd.trans ok.openFits }

/-- R36: an open node is pushed on DSTK when there are fewer of them than nodes counted. -/
theorem HuffmanOk.push {h : Huffman} (ok : HuffmanOk h) (x : Nat × Bool) (room : h.dstk.length < h.nNodes)
    (limit : h.nNodes ≤ Config.nodeCap) : HuffmanOk { h with dstk := x :: h.dstk } :=
  { ok with
    openCounted := room
    openFits := Nat.le_trans room limit }

/-- R170: with DSTK empty any count of nodes will do. -/
theorem HuffmanOk.restart {h : Huffman} (ok : HuffmanOk h) (n : Nat) :
    HuffmanOk { h with nNodes := n, dstk := [] } :=
  { ok with
    openCounted := Nat.zero_le _
    openFits := Nat.zero_le _ }

/-- R154: a code is entered with its own length. -/
theorem HuffmanOk.setCode {h : Huffman} (ok : HuffmanOk h) (sym : Nat) (path : List Bool) :
    HuffmanOk { h with ctab := h.ctab.write sym ⟨path.length, path⟩ } :=
  { ok with
    ctabWf := Memory.wf_write _ _ ok.ctabWf
    codeLength := fun e he => by
      rcases Memory.mem_write he with rfl | he
      · rfl
      · exact ok.codeLength e he }

/-- The registers ROOT and WALK and the traversal's stack and path take no part in the invariant. -/
theorem HuffmanOk.walking {h : Huffman} (ok : HuffmanOk h) (root walk : Nat) (hstk : List Nat) (hpath : List Bool) :
    HuffmanOk { h with root := root, walk := walk, hstk := hstk, hpath := hpath } :=
  { ok with }

/-! ### The LZW data -/

/-- R186, R206: WIDTH and MAXCODE start over. -/
theorem widthOk_start : Config.initWidth ≤ Config.initWidth ∧ 1 <<< Config.initWidth = 2 ^ Config.initWidth := by
  decide

/-- R44: emptied LZW data, whatever the code registers hold. -/
theorem LzwOk.emptied (cur c1 c2 : Nat) : LzwOk { Lzw.reset with cur := cur, c1 := c1, c2 := c2 } :=
  ⟨widthOk_start, rfl, rfl⟩

/-- R37, R190, R211: WIDTH and MAXCODE grow together. -/
theorem LzwOk.widen {l : Lzw} (ok : LzwOk l) :
    LzwOk { l with width := l.width + 1, maxCode := 1 <<< (l.width + 1) } :=
  { ok with width := ⟨Nat.le_succ_of_le ok.width.1, Nat.one_shiftLeft _⟩ }

/-- R186: the encoder's table is emptied with WIDTH and MAXCODE at their start. -/
theorem LzwOk.startEncoder {l : Lzw} (ok : LzwOk l) :
    LzwOk { l with
      width := Config.initWidth, maxCode := 1 <<< Config.initWidth, dSize := 0, eDict := [], haveCur := false } :=
  { width := widthOk_start, eDictWf := rfl, dDictWf := ok.dDictWf }

/-- R206: the decoder's table is emptied with WIDTH and MAXCODE at their start. -/
theorem LzwOk.startDecoder {l : Lzw} (ok : LzwOk l) :
    LzwOk { l with
      width := Config.initWidth, maxCode := 1 <<< Config.initWidth, dSize := 0, dDict := [], c2Valid := false,
      c1Held := false } :=
  { width := widthOk_start, eDictWf := ok.eDictWf, dDictWf := rfl }

/-- R189: a pair is entered in the encoder's table. -/
theorem LzwOk.insertPair {l : Lzw} (ok : LzwOk l) (key code n : Nat) :
    LzwOk { l with eDict := l.eDict.write key code, dSize := n } :=
  { ok with eDictWf := Memory.wf_write _ _ ok.eDictWf }

/-- R213: an entry is appended to the decoder's table. -/
theorem LzwOk.appendEntry {l : Lzw} (ok : LzwOk l) (i : Nat) (e : DictEntry) (n : Nat) :
    LzwOk { l with dDict := l.dDict.write i e, dSize := n } :=
  { ok with dDictWf := Memory.wf_write _ _ ok.dDictWf }

/-- The code registers, their flags and XSTK take no part in the invariant. -/
theorem LzwOk.codeRegs {l : Lzw} (ok : LzwOk l) (cur : Nat) (haveCur : Bool) (c1 c2 : Nat) (c2Valid : Bool)
    (xstk : List Byte) (c1Held : Bool) :
    LzwOk { l with
      cur := cur, haveCur := haveCur, c1 := c1, c2 := c2, c2Valid := c2Valid, xstk := xstk, c1Held := c1Held } :=
  { ok with }

end Sys2Proof.Machine
end

section
/-! PROOFS, UnitStep. What the operations are made of, said once: a run of changes to one unit of the block at
a time, each keeping its unit's part of the invariant. Each operation's lemma splits it into such changes, and
the claims about all operations are read off the five kinds of change. -/

namespace Sys2Proof.Machine

/-! ### Changes to one unit -/

/-- One unit of the block changes and the others stay: the writer (R27, R62), the reader (R28, R61), the
Huffman data (R30 to R36), the LZW data (R37 to R39) or the host registers (R21 to R24). -/
inductive UnitStep (s : State) : State → Prop where
  | write {t : State} (frame : OnlyWriter s t) (clean : s.noIoFault → s.writerClean → t.writerClean) : UnitStep s t
  | read {t : State} (frame : OnlyReader s t) (between : s.readerBetween → t.readerBetween)
      (inRange : s.io.inPos ≤ s.inLen → t.io.inPos ≤ t.inLen) : UnitStep s t
  | huffman {h : Huffman} (keeps : HuffmanOk s.huf → HuffmanOk h) : UnitStep s (s.setHuf h)
  | lzw {l : Lzw} (free : Nat) (keeps : LzwOk s.lzw → LzwOk l) : UnitStep s { s with lzw := l, free := free }
  | regs {r : HostRegs} (keeps : RegsOk s.regs → RegsOk r) : UnitStep s { s with regs := r }

/-- Any number of such changes, one after the other. -/
abbrev Reaches : State → State → Prop := Relation.ReflTransGen UnitStep

/-- One change is a run of changes. -/
theorem UnitStep.reaches {s t : State} (h : UnitStep s t) : Reaches s t := .single h

/-- Wherever the operation ends, well or at a `raise`, it got there from `s` by such changes. -/
def Res.EndsFrom {α : Type} (r : Res α) (s : State) : Prop := ∀ t, r.endsAt t → Reaches s t

theorem Res.endsFrom_ok {α : Type} {a : α} {s t : State} (h : Reaches s t) : (Res.ok a t).EndsFrom s := by
  rintro u (⟨b, hb⟩ | ⟨k, hk⟩)
  · cases hb; exact h
  · cases hk

theorem Res.endsFrom_raised {α : Type} {k : ErrKind} {s t : State} (h : Reaches s t) :
    (Res.raised k t : Res α).EndsFrom s := by
  rintro u (⟨b, hb⟩ | ⟨k', hk⟩)
  · cases hb
  · cases hk; exact h

theorem Res.endsFrom_stuck {α : Type} (f : Fault) (s : State) : (Res.stuck f : Res α).EndsFrom s := by
  rintro u (⟨b, hb⟩ | ⟨k, hk⟩) <;> contradiction

/-- An operation run from a state reached from `s`. -/
theorem Res.EndsFrom.after {α : Type} {r : Res α} {s t : State} (h : r.EndsFrom t) (hst : Reaches s t) :
    r.EndsFrom s := fun u hu => hst.trans (h u hu)

/-- A sequence, where the second part is looked at from the state the whole started in. -/
theorem Res.EndsFrom.bind_from {α β : Type} {r : Res α} {f : α → State → Res β} {s : State} (h : r.EndsFrom s)
    (hf : ∀ a t, r = .ok a t → (f a t).EndsFrom s) : (r.bind f).EndsFrom s := by
  intro u hu
  rcases Res.endsAt_bind.mp hu with ⟨k, hk⟩ | ⟨a, t, ht, hu⟩
  · exact h u (.inr ⟨k, hk⟩)
  · exact hf a t ht u hu

/-- A sequence, each part from where it starts. -/
theorem Res.EndsFrom.bind {α β : Type} {r : Res α} {f : α → State → Res β} {s : State} (h : r.EndsFrom s)
    (hf : ∀ a t, (f a t).EndsFrom t) : (r.bind f).EndsFrom s :=
  h.bind_from fun a t ht => (hf a t).after (h t (.inl ⟨a, ht⟩))

/-- A sequence whose second part is one more change. -/
theorem Res.EndsFrom.bind_step {α β : Type} {r : Res α} {b : α → State → β} {g : α → State → State} {s : State}
    (h : r.EndsFrom s) (hg : ∀ a t, UnitStep t (g a t)) : (r.bind fun a t => .ok (b a t) (g a t)).EndsFrom s :=
  h.bind fun a t => endsFrom_ok (hg a t).reaches

/-! ### The host registers -/

theorem UnitStep.setPhase (s : State) (p : Phase) : UnitStep s (s.setPhase p) := .regs (·.withPhase p)

theorem UnitStep.setCmd (s : State) (w : BitVec 16) : UnitStep s (s.setCmd w) := .regs (·.withCmd w)

theorem UnitStep.callDone (s : State) : UnitStep s s.callDone := .regs fun _ => .ended _ _ _

theorem UnitStep.abort (s : State) (k : ErrKind) : UnitStep s (s.abort k) := .regs fun _ => .aborted _ k

/-- The returned value is the reader's to change (R110). -/
theorem UnitStep.setResult (s : State) (r : UopResult) : UnitStep s (s.setResult r) := .read rfl id id

/-- R249, R250: the outcome of an operation, its `raise` included. -/
theorem Res.EndsFrom.finish {r : Res Unit} {s t : State} (h : r.EndsFrom s) (ht : r.finish = .next t) :
    Reaches s t := by
  rcases Res.finish_eq_next.mp ht with hr | ⟨k, u, hr, rfl⟩
  · exact h t (.inl ⟨(), hr⟩)
  · exact (h u (.inr ⟨k, hr⟩)).tail (.abort u k)

/-- The same for an operation that returns a value. -/
theorem Res.EndsFrom.finishWith {α : Type} {r : Res α} {f : α → UopResult} {s t : State} (h : r.EndsFrom s)
    (ht : r.finishWith f = .next t) : Reaches s t :=
  (h.bind_step fun a u => .setResult u (f a)).finish ht

/-! ### The writer -/

/-- R65: a bit of the travel order is a bit of the number. -/
theorem getElem?_bitsOfNat (n v k : Nat) :
    (bitsOfNat n v)[k]? = if k < n then some (v.testBit (n - 1 - k)) else none := by
  induction n generalizing k with
  | zero => simp [bitsOfNat]
  | succ n ih =>
    cases k with
    | zero => simp [bitsOfNat]
    | succ k =>
      have index : n - 1 - k = n - (k + 1) := by omega
      simp [bitsOfNat, ih, index]

/-- R27: the accumulator is clean when its `8 - W_CNT` low bits are zero. -/
theorem writerClean_iff (s : State) :
    s.writerClean ↔ ∀ j, j + s.bc.wCnt.val < 8 → s.bc.wAcc.getLsbD j = false := by
  have bit (k : Nat) : ((byteBits s.bc.wAcc).drop s.bc.wCnt.val)[k]? =
      if k + s.bc.wCnt.val < 8 then some (s.bc.wAcc.getLsbD (7 - (k + s.bc.wCnt.val))) else none := by
    rw [List.getElem?_drop, byteBits, getElem?_bitsOfNat, Nat.add_comm]
    rfl
  have zero (k : Nat) : (List.replicate (8 - s.bc.wCnt.val) false)[k]? =
      if k + s.bc.wCnt.val < 8 then some false else none := by
    rw [List.getElem?_replicate]
    exact if_congr (by omega) rfl rfl
  rw [State.writerClean, List.ext_getElem?_iff]
  simp only [bit, zero]
  constructor
  · intro h j hj
    have mirrored : 7 - (7 - j - s.bc.wCnt.val + s.bc.wCnt.val) = j := by omega
    have := h (7 - j - s.bc.wCnt.val)
    rw [if_pos (by omega), if_pos (by omega), mirrored] at this
    simpa using this
  · intro h k
    split
    · rw [h _ (by omega)]
    · rfl

/-- R120, R122, R124: an emptied accumulator is clean. -/
theorem writerClean_setWriter_zero (s : State) : (s.setWriter 0 0).writerClean := by
  rw [writerClean_iff]
  simp

/-- R62: an append, done or failed, leaves the accumulator. -/
theorem outAppend_bc {b : Byte} {s t : State} (h : (outAppend b s).endsAt t) : t.bc = s.bc := by
  rcases outAppend_cases b s with ⟨-, e⟩ | ⟨-, e⟩ <;> rw [e] at h <;> simp [Res.endsAt] at h
  · exact h ▸ rfl
  · exact h ▸ rfl

/-- R62: one append. -/
theorem outAppend_endsFrom (b : Byte) (s : State) : (outAppend b s).EndsFrom s := fun t ht =>
  (UnitStep.write (outAppend_onlyWriter ht) fun _ clean => by
    rw [State.writerClean, outAppend_bc ht]
    exact clean).reaches

/-- R120. -/
theorem openWriter_endsFrom (s : State) : (openWriter s).EndsFrom s :=
  Res.endsFrom_ok (UnitStep.write (.setWriter ..) fun _ _ => writerClean_setWriter_zero s).reaches

/-- R122: the bit joins at the next free place, above the zeros that stay. -/
theorem writerClean_addBit {s : State} (clean : s.writerClean) (b : Bool) (h : s.bc.wCnt ≠ 7) :
    (s.setWriter (s.bc.wAcc ||| ((if b then 1 else 0 : Byte) <<< (7 - s.bc.wCnt.val)))
      (s.bc.wCnt + 1)).writerClean := by
  rw [writerClean_iff] at clean ⊢
  intro j hj
  have next : (s.bc.wCnt + 1).val = s.bc.wCnt.val + 1 := by
    have := s.bc.wCnt.isLt
    rw [Fin.val_add, Fin.val_one]
    simp only [ne_eq, Fin.ext_iff] at h
    change ¬ s.bc.wCnt.val = 7 at h
    omega
  simp only [State.setWriter_bc_wCnt, State.setWriter_bc_wAcc, next] at hj ⊢
  have below : j < 7 - s.bc.wCnt.val := by omega
  simp [clean j (by omega), below]

/-- R122. -/
theorem putBit_endsFrom (b : Bool) (s : State) : (putBit b s).EndsFrom s := fun t ht =>
  (UnitStep.write (putBit_onlyWriter ht) fun quiet clean => by
    unfold putBit at ht
    dsimp only at ht
    split at ht
    · rw [outAppend_ok (by exact quiet)] at ht
      simp [Res.endsAt] at ht
      exact ht ▸ writerClean_setWriter_zero _
    · next h =>
      simp [Res.endsAt] at ht
      exact ht ▸ writerClean_addBit clean b h).reaches

/-- R159's loop. -/
theorem putList_endsFrom (bs : List Bool) (s : State) : (putList bs s).EndsFrom s := by
  induction bs generalizing s with
  | nil => exact Res.endsFrom_ok .refl
  | cons b bs ih => exact (putBit_endsFrom b s).bind fun _ => ih

/-- R128. -/
theorem putBits_endsFrom (v n : Nat) (s : State) : (putBits v n s).EndsFrom s :=
  putBits_eq_putList v n s ▸ putList_endsFrom _ s

/-- R123: the bits shifted in leave zeros below them. -/
theorem writerClean_shifted (s : State) (b : Byte) :
    (s.setWriter (b <<< (8 - s.bc.wCnt.val)) s.bc.wCnt).writerClean := by
  rw [writerClean_iff]
  intro j hj
  simp only [State.setWriter_bc_wCnt, State.setWriter_bc_wAcc] at hj ⊢
  have below : j < 8 - s.bc.wCnt.val := by omega
  simp [below]

/-- R123, one byte. -/
theorem putByte_endsFrom (b : Byte) (s : State) : (putByte b s).EndsFrom s := fun t ht =>
  (UnitStep.write (putByte_onlyWriter ht) fun quiet clean => by
    unfold putByte at ht
    rw [outAppend_ok quiet, outAppend_ok quiet] at ht
    split at ht <;> simp [Res.endsAt] at ht
    · exact ht ▸ clean
    · exact ht ▸ writerClean_shifted (s.countAccess.pushOut _) b).reaches

/-- R123. -/
theorem putNBytes_endsFrom (bs : List Byte) (s : State) : (putNBytes bs s).EndsFrom s := by
  induction bs generalizing s with
  | nil => exact Res.endsFrom_ok .refl
  | cons b bs ih => exact (putByte_endsFrom b s).bind fun _ => ih

/-- R124. -/
theorem closeWriter_endsFrom (s : State) : (closeWriter s).EndsFrom s := by
  unfold closeWriter
  split
  · exact Res.endsFrom_ok .refl
  · exact (outAppend_endsFrom _ s).bind_step fun _ t => .write (.setWriter ..) fun _ _ => writerClean_setWriter_zero t

/-! ### The reader -/

/-- The reader's registers alone, R_CNT being in R125's range if it was. -/
theorem UnitStep.setReader (s : State) (cur : Byte) {cnt : Fin 9} (h : s.readerBetween → cnt.val ≤ 7) :
    UnitStep s (s.setReader cur cnt) := .read rfl h id

/-- R25, R121, R158: back to byte 0. -/
theorem UnitStep.setInPos_zero (s : State) : UnitStep s (s.setInPos 0) := .read rfl id fun _ => Nat.zero_le _

/-- R61: a read that answers is of a byte inside IN. -/
theorem inFetch_endsFrom (s : State) : (inFetch s).EndsFrom s := by
  have counted : UnitStep s s.countAccess := .read rfl id id
  rcases inFetch_cases s with ⟨-, e⟩ | ⟨b, hb, ⟨-, e⟩ | ⟨-, e⟩⟩ <;> rw [e]
  · exact Res.endsFrom_stuck _ _
  · obtain ⟨inside, -⟩ := List.getElem?_eq_some_iff.mp hb
    exact Res.endsFrom_ok (counted.reaches.tail (.read rfl id fun _ => inside))
  · exact Res.endsFrom_raised counted.reaches

/-- R61: a read of IN leaves the reader's registers. -/
theorem inFetch_bc {s t : State} {b : Byte} (h : inFetch s = .ok b t) : t.bc = s.bc := by
  rcases inFetch_cases s with ⟨-, e⟩ | ⟨c, -, ⟨-, e⟩ | ⟨-, e⟩⟩ <;> rw [e] at h <;> cases h
  rfl

/-- R121. -/
theorem openReader_endsFrom (s : State) : (openReader s).EndsFrom s :=
  Res.endsFrom_ok ((UnitStep.setReader s 0 fun _ => Nat.zero_le _).reaches.tail (.setInPos_zero _))

/-- R125: a bit is taken from a byte that has one; R_CNT = 8 stands only inside. -/
theorem getBit_endsFrom (s : State) : (getBit s).EndsFrom s := by
  unfold getBit
  split
  · split
    · exact Res.endsFrom_ok .refl
    · exact (inFetch_endsFrom s).bind_step fun b t => .setReader t b fun _ => (by decide : (8 - 1 : Fin 9).val ≤ 7)
  · next h =>
    exact Res.endsFrom_ok (UnitStep.setReader s _ fun _ => by rw [Fin.val_sub_one_of_ne_zero h]; omega).reaches

/-- R127, one byte. -/
theorem getByte_endsFrom (s : State) : (getByte s).EndsFrom s := by
  refine (inFetch_endsFrom s).bind_from fun b t ht => ?_
  have fetched := inFetch_endsFrom s t (.inl ⟨b, ht⟩)
  split
  · exact Res.endsFrom_ok fetched
  · exact Res.endsFrom_ok (fetched.tail (.setReader t b fun between => by rwa [← inFetch_bc ht]))

/-- R127's loop. -/
theorem getByteRun_endsFrom (n : Nat) (s : State) : (getByteRun n s).EndsFrom s := by
  induction n generalizing s with
  | zero => exact Res.endsFrom_ok .refl
  | succ n ih => exact (getByte_endsFrom s).bind fun b t => (ih t).bind fun bs u => Res.endsFrom_ok .refl

/-- R127. -/
theorem getNBytes_endsFrom (n : Nat) (s : State) : (getNBytes n s).EndsFrom s := by
  unfold getNBytes
  split
  · exact Res.endsFrom_ok .refl
  · exact (getByteRun_endsFrom n s).bind fun bs t => Res.endsFrom_ok .refl

/-- R130's loop. -/
theorem getBitRun_endsFrom (n v : Nat) (s : State) : (getBitRun n v s).EndsFrom s := by
  induction n generalizing v s with
  | zero => exact Res.endsFrom_ok .refl
  | succ n ih =>
    refine (getBit_endsFrom s).bind fun b t => ?_
    cases b with
    | none => exact Res.endsFrom_ok .refl
    | some b => exact ih _ t

/-- R130. -/
theorem getBits_endsFrom (n : Nat) (s : State) : (getBits n s).EndsFrom s := by
  unfold getBits
  split
  · exact Res.endsFrom_ok .refl
  · exact getBitRun_endsFrom n 0 s

/-! ### The Huffman encoder -/

theorem UnitStep.bumpFreq (s : State) (sym : Nat) : UnitStep s (s.bumpFreq sym) := .huffman (·.bumpFreq sym _)

/-- The registers and the traversal's own data, which the invariant does not speak of. -/
theorem UnitStep.walking (s : State) (root walk : Nat) (hstk : List Nat) (hpath : List Bool) :
    UnitStep s (s.setHuf { s.huf with root := root, walk := walk, hstk := hstk, hpath := hpath }) :=
  .huffman (·.walking root walk hstk hpath)

theorem UnitStep.enterNode (s : State) (i : Nat) : UnitStep s (s.enterNode i) := .walking ..

theorem UnitStep.leaveNode (s : State) : UnitStep s s.leaveNode := .walking ..

theorem UnitStep.setPath (s : State) (p : List Bool) : UnitStep s (s.setPath p) := .walking ..

theorem UnitStep.setWalk (s : State) (i : Nat) : UnitStep s (s.setWalk i) := .walking ..

theorem UnitStep.setCode (s : State) (sym : Nat) (p : List Bool) : UnitStep s (s.setCode sym p) :=
  .huffman (·.setCode sym p)

theorem UnitStep.writeNode (s : State) (i : Nat) (e : NodeEntry) : UnitStep s (s.writeNode i e) :=
  .huffman (·.writeNode i e)

/-- R31, R63. -/
theorem readNode_endsFrom (i : Nat) (s : State) : (readNode i s).EndsFrom s := by
  rintro t (⟨e, he⟩ | ⟨k, hk⟩)
  · rw [(readNode_eq_ok.mp he).1]
  · exact absurd hk (readNode_ne_raised i s t k)

theorem childIndex_endsFrom (c : Option Nat) (s : State) : (childIndex c s).EndsFrom s := by
  rintro t (⟨e, he⟩ | ⟨k, hk⟩)
  · rw [(childIndex_eq_ok.mp he).1]
  · exact absurd hk (childIndex_ne_raised c s t k)

/-- R140's loop. -/
theorem countBytes_endsFrom (n : Nat) (s : State) : (countBytes n s).EndsFrom s := by
  induction n generalizing s with
  | zero => exact Res.endsFrom_ok .refl
  | succ n ih => exact (inFetch_endsFrom s).bind fun b t => (ih _).after (UnitStep.bumpFreq t _).reaches

/-- R140. -/
theorem heFreq_endsFrom (s : State) : (heFreq s).EndsFrom s :=
  (countBytes_endsFrom _ s).bind_step fun _ t => .bumpFreq t _

/-- R142. -/
theorem heInsert_endsFrom (i w : Nat) (s : State) : (heInsert i w s).EndsFrom s := by
  unfold heInsert
  split
  · exact Res.endsFrom_stuck _ _
  · next h => exact Res.endsFrom_ok (UnitStep.huffman (·.insert ⟨i, w⟩ (Nat.lt_of_not_le h))).reaches

/-- R151. -/
theorem allocNode_endsFrom (e : NodeEntry) (s : State) : (allocNode e s).EndsFrom s := by
  unfold allocNode
  split
  · exact Res.endsFrom_stuck _ _
  · exact Res.endsFrom_ok (UnitStep.huffman fun ok => (ok.writeNode s.huf.nNodes e).count).reaches

/-- R143, one symbol. -/
theorem leafFor_endsFrom (sym : Nat) (s : State) : (leafFor sym s).EndsFrom s := by
  unfold leafFor
  split
  · exact (allocNode_endsFrom _ s).bind fun i t => heInsert_endsFrom i _ t
  · exact Res.endsFrom_ok .refl

/-- R143's loop. -/
theorem leavesFor_endsFrom (syms : List Nat) (s : State) : (leavesFor syms s).EndsFrom s := by
  induction syms generalizing s with
  | nil => exact Res.endsFrom_ok .refl
  | cons sym rest ih => exact (leafFor_endsFrom sym s).bind fun _ => ih

/-- R144. -/
theorem heCombine_endsFrom (s : State) : (heCombine s).EndsFrom s := by
  unfold heCombine
  split
  · next a b rest lowest =>
    exact ((allocNode_endsFrom _ _).bind fun i t => heInsert_endsFrom i _ t).after
      (UnitStep.huffman (·.dropTwo lowest)).reaches
  · exact Res.endsFrom_stuck _ _

/-- R145's loop. -/
theorem combineAll_endsFrom (n : Nat) (s : State) : (combineAll n s).EndsFrom s := by
  induction n generalizing s with
  | zero => exact Res.endsFrom_ok .refl
  | succ n ih =>
    unfold combineAll
    split
    · exact (heCombine_endsFrom s).bind fun _ => ih
    · exact Res.endsFrom_ok .refl

/-- R145's last line. -/
theorem takeRoot_endsFrom (s : State) : (takeRoot s).EndsFrom s := by
  unfold takeRoot
  split
  · exact Res.endsFrom_stuck _ _
  · exact Res.endsFrom_ok (UnitStep.walking ..).reaches

/-- R145. -/
theorem heBuild_endsFrom (s : State) : (heBuild s).EndsFrom s :=
  (leavesFor_endsFrom _ s).bind fun _ t => (combineAll_endsFrom _ t).bind fun _ => takeRoot_endsFrom

/-- R152. -/
theorem serNode_endsFrom (d i : Nat) (s : State) : (serNode d i s).EndsFrom s := by
  induction d generalizing i s with
  | zero => exact Res.endsFrom_stuck _ _
  | succ d ih =>
    refine ((readNode_endsFrom i _).bind fun e t => ?_).after (UnitStep.enterNode s i).reaches
    refine Res.EndsFrom.bind_step ?_ fun _ u => .leaveNode u
    cases e with
    | leaf sym => exact (putBit_endsFrom true t).bind fun _ => putNBytes_endsFrom _
    | internal z o =>
      exact (putBit_endsFrom false t).bind fun _ u => (childIndex_endsFrom z u).bind fun zi u =>
        (ih zi u).bind fun _ u => (childIndex_endsFrom o u).bind ih

/-- R152, HSTK emptied first. -/
theorem heSer_endsFrom (i : Nat) (s : State) : (heSer i s).EndsFrom s :=
  (serNode_endsFrom _ i _).after (UnitStep.walking s _ _ [] _).reaches

/-- R154, `WALKT`. -/
theorem tableNode_endsFrom (d i : Nat) (s : State) : (tableNode d i s).EndsFrom s := by
  induction d generalizing i s with
  | zero => exact Res.endsFrom_stuck _ _
  | succ d ih =>
    refine ((readNode_endsFrom i _).bind fun e t => ?_).after (UnitStep.enterNode s i).reaches
    refine Res.EndsFrom.bind ?_ fun _ u =>
      Res.endsFrom_ok ((UnitStep.setPath u _).reaches.tail (.leaveNode _))
    cases e with
    | leaf sym => exact Res.endsFrom_ok (UnitStep.setCode t sym _).reaches
    | internal z o =>
      exact (childIndex_endsFrom z t).bind fun zi u => ((ih zi _).after (UnitStep.setPath u _).reaches).bind fun _ u =>
        (childIndex_endsFrom o u).bind fun oi u => (ih oi _).after (UnitStep.setPath u _).reaches

/-- R154, HSTK and the path emptied first. -/
theorem heTable_endsFrom (s : State) : (heTable s).EndsFrom s :=
  (tableNode_endsFrom _ _ _).after (UnitStep.walking s _ _ [] []).reaches

/-- R158, R275. -/
theorem heRewind_endsFrom (s : State) : (heRewind s).EndsFrom s := by
  rcases heRewind_cases s with ⟨-, e⟩ | ⟨-, e⟩ <;> rw [e]
  · exact Res.endsFrom_ok (UnitStep.setInPos_zero s).reaches
  · exact Res.endsFrom_raised .refl

/-- R159, one symbol. -/
theorem putCode_endsFrom (sym : Nat) (s : State) : (putCode sym s).EndsFrom s := by
  unfold putCode
  split
  · exact Res.endsFrom_stuck _ _
  · exact putList_endsFrom _ s

/-- R159's loop. -/
theorem encodeBytes_endsFrom (n : Nat) (s : State) : (encodeBytes n s).EndsFrom s := by
  induction n generalizing s with
  | zero => exact Res.endsFrom_ok .refl
  | succ n ih => exact (inFetch_endsFrom s).bind fun b t => (putCode_endsFrom _ t).bind fun _ => ih

/-- R159. -/
theorem heEncode_endsFrom (s : State) : (heEncode s).EndsFrom s :=
  (encodeBytes_endsFrom _ s).bind fun _ => putCode_endsFrom _

/-- An operation run in a phase of its own (R23). -/
theorem Res.EndsFrom.inPhase {α : Type} {r : Res α} {s : State} {p : Phase} (h : r.EndsFrom (s.setPhase p)) :
    r.EndsFrom s := h.after (UnitStep.setPhase s p).reaches

/-- R160. -/
theorem heCompress_endsFrom (s : State) : (heCompress s).EndsFrom s :=
  (heFreq_endsFrom _).inPhase.bind fun _ _ => (heBuild_endsFrom _).inPhase.bind fun _ _ =>
    (heSer_endsFrom _ _).inPhase.bind fun _ _ => (heTable_endsFrom _).inPhase.bind fun _ _ =>
      (heRewind_endsFrom _).inPhase.bind fun _ => heEncode_endsFrom

/-! ### The Huffman decoder -/

/-- R171: the count goes up also where it meets the limit. -/
theorem countNode_endsFrom (s : State) : (countNode s).EndsFrom s := by
  have counted : UnitStep s (s.setHuf { s.huf with nNodes := s.huf.nNodes + 1 }) := .huffman (·.count)
  rcases countNode_cases s with ⟨-, e⟩ | ⟨-, e⟩ <;> rw [e]
  · exact Res.endsFrom_ok counted.reaches
  · exact Res.endsFrom_raised counted.reaches

/-- R36, the zero-child. -/
theorem setZeroChild_endsFrom (j i : Nat) (s : State) : (setZeroChild j i s).EndsFrom s :=
  (readNode_endsFrom j s).bind fun e t => by
    cases e with
    | leaf _ => exact Res.endsFrom_stuck _ _
    | internal z o => exact Res.endsFrom_ok (UnitStep.writeNode t ..).reaches

/-- R36, the one-child. -/
theorem setOneChild_endsFrom (j i : Nat) (s : State) : (setOneChild j i s).EndsFrom s :=
  (readNode_endsFrom j s).bind fun e t => by
    cases e with
    | leaf _ => exact Res.endsFrom_stuck _ _
    | internal z o => exact Res.endsFrom_ok (UnitStep.writeNode t ..).reaches

/-- R36: filling in a zero-child leaves DSTK. -/
theorem setZeroChild_dstk {j i : Nat} {s t : State} (h : setZeroChild j i s = .ok () t) : t.huf.dstk = s.huf.dstk := by
  obtain ⟨z, o, -, rfl⟩ := setZeroChild_eq_ok.mp h
  rfl

/-- R36: filling in a one-child leaves DSTK. -/
theorem setOneChild_dstk {j i : Nat} {s t : State} (h : setOneChild j i s = .ok () t) : t.huf.dstk = s.huf.dstk := by
  obtain ⟨z, o, -, rfl⟩ := setOneChild_eq_ok.mp h
  rfl

/-- R170: completing a node pops DSTK and never pushes. -/
theorem completeNode_endsFrom (d : List (Nat × Bool)) (i : Nat) (s : State) (hd : d.length ≤ s.huf.dstk.length) :
    (completeNode d i s).EndsFrom s := by
  induction d, i, s using completeNode.induct with
  | case1 i s =>
    exact Res.endsFrom_ok (UnitStep.huffman fun ok => (ok.shrink hd).walking i _ _ _).reaches
  | case2 j rest i s =>
    refine (setZeroChild_endsFrom j i s).bind_from fun _ t ht => ?_
    have filled := setZeroChild_endsFrom j i s t (.inl ⟨_, ht⟩)
    exact Res.endsFrom_ok (filled.tail (.huffman (·.shrink (by rwa [setZeroChild_dstk ht]))))
  | case3 j rest i s ih =>
    refine (setOneChild_endsFrom j i s).bind_from fun _ t ht => ?_
    have filled := setOneChild_endsFrom j i s t (.inl ⟨_, ht⟩)
    have popped : UnitStep t (t.setHuf { t.huf with dstk := rest }) :=
      .huffman (·.shrink (by rw [setOneChild_dstk ht]; simp at hd; omega))
    exact (ih t le_rfl).after (filled.tail popped)

/-- R170, R179, a leaf. -/
theorem takeLeaf_endsFrom (i : Nat) (field : BitVec 16) (s : State) : (takeLeaf i field s).EndsFrom s := by
  unfold takeLeaf
  split
  · exact (completeNode_endsFrom _ i _ le_rfl).after (UnitStep.writeNode s i _).reaches
  · exact Res.endsFrom_raised .refl

/-- R36, R170: an internal node is pushed on DSTK once it is counted, so DSTK stays within the count. -/
theorem takeInternal_endsFrom {i : Nat} {s t : State} (h : countNode s = .ok i t) : (takeInternal i t).EndsFrom s := by
  rcases countNode_cases s with ⟨limit, e⟩ | ⟨-, e⟩ <;> rw [e] at h <;> cases h
  exact Res.endsFrom_ok (UnitStep.huffman fun ok =>
    HuffmanOk.push (ok.count.writeNode s.huf.nNodes _) _ (Nat.lt_succ_of_le ok.openCounted) limit).reaches

/-- R170, one node. -/
theorem deserNode_endsFrom (s : State) : (deserNode s).EndsFrom s := by
  refine (getBit_endsFrom s).bind fun m t => ?_
  cases m with
  | none => exact Res.endsFrom_raised .refl
  | some mark =>
    refine (countNode_endsFrom t).bind_from fun i u hu => ?_
    cases mark with
    | false => exact takeInternal_endsFrom hu
    | true =>
      refine ((getNBytes_endsFrom 2 u).bind fun bs v => ?_).after (countNode_endsFrom t u (.inl ⟨i, hu⟩))
      split
      · exact takeLeaf_endsFrom i _ v
      · exact Res.endsFrom_raised .refl

/-- R170's loop. -/
theorem deserLoop_endsFrom (n : Nat) (s : State) : (deserLoop n s).EndsFrom s := by
  induction n generalizing s with
  | zero => exact Res.endsFrom_raised .refl
  | succ n ih =>
    refine (deserNode_endsFrom s).bind fun whole t => ?_
    split
    · exact Res.endsFrom_ok .refl
    · exact ih t

/-- R170, DSTK emptied first. -/
theorem hdDeser_endsFrom (s : State) : (hdDeser s).EndsFrom s :=
  (deserLoop_endsFrom _ _).after (UnitStep.huffman (·.shrink (Nat.zero_le _))).reaches

/-- R173's loop. -/
theorem walkLoop_endsFrom (n : Nat) (s : State) : (walkLoop n s).EndsFrom s := by
  induction n generalizing s with
  | zero => exact Res.endsFrom_raised .refl
  | succ n ih =>
    refine (readNode_endsFrom _ s).bind fun e t => ?_
    cases e with
    | leaf sym => exact Res.endsFrom_ok .refl
    | internal z o =>
      refine (getBit_endsFrom t).bind fun b u => ?_
      cases b with
      | none => exact Res.endsFrom_raised .refl
      | some b => exact (childIndex_endsFrom _ u).bind fun i v => (ih _).after (UnitStep.setWalk v i).reaches

/-- R173. -/
theorem hdSymbol_endsFrom (s : State) : (hdSymbol s).EndsFrom s :=
  (walkLoop_endsFrom _ _).after (UnitStep.setWalk s _).reaches

/-- R175's loop. -/
theorem symbolLoop_endsFrom (n : Nat) (s : State) : (symbolLoop n s).EndsFrom s := by
  induction n generalizing s with
  | zero => exact Res.endsFrom_raised .refl
  | succ n ih =>
    refine (hdSymbol_endsFrom s).bind fun sym t => ?_
    split
    · exact Res.endsFrom_ok .refl
    · exact (outAppend_endsFrom _ t).bind fun _ => ih

/-- R174, R175. -/
theorem checkRoot_endsFrom (s : State) : (checkRoot s).EndsFrom s := by
  refine (readNode_endsFrom _ s).bind fun e t => ?_
  cases e with
  | internal z o => exact Res.endsFrom_ok .refl
  | leaf sym =>
    dsimp only
    split
    · exact Res.endsFrom_ok .refl
    · exact Res.endsFrom_raised .refl

/-- R175: N_NODES and DSTK are cleared together, before the first node. -/
theorem hdDecompress_endsFrom (s : State) : (hdDecompress s).EndsFrom s :=
  ((deserLoop_endsFrom _ _).after (UnitStep.huffman (·.restart 0)).reaches).inPhase.bind fun _ t =>
    (checkRoot_endsFrom t).bind fun _ _ => (symbolLoop_endsFrom _ _).inPhase

/-- R99, R173. -/
theorem walkCode_endsFrom (path : List Bool) (s : State) : (walkCode path s).EndsFrom s := by
  induction path generalizing s with
  | nil =>
    refine (readNode_endsFrom _ s).bind fun e t => ?_
    cases e with
    | leaf sym => exact Res.endsFrom_ok .refl
    | internal z o => exact Res.endsFrom_raised .refl
  | cons b bs ih =>
    refine (readNode_endsFrom _ s).bind fun e t => ?_
    cases e with
    | leaf sym => exact Res.endsFrom_ok .refl
    | internal z o => exact (childIndex_endsFrom _ t).bind fun i u => (ih _).after (UnitStep.setWalk u i).reaches

/-- R175 on one symbol. -/
theorem takeSymbol_endsFrom (sym : Nat) (s : State) : (takeSymbol sym s).EndsFrom s := by
  rcases takeSymbol_cases sym s with ⟨-, e⟩ | ⟨-, e⟩ <;> rw [e]
  · exact Res.endsFrom_ok (UnitStep.callDone s).reaches
  · exact outAppend_endsFrom _ s

/-! ### The LZW encoder -/

theorem UnitStep.setLzw {s : State} {l : Lzw} (keeps : LzwOk s.lzw → LzwOk l) : UnitStep s (s.setLzw l) :=
  .lzw s.free keeps

theorem UnitStep.setCur (s : State) (c : Nat) : UnitStep s (s.setCur c) := .setLzw (·.codeRegs ..)

theorem UnitStep.setXstk (s : State) (x : List Byte) : UnitStep s (s.setXstk x) := .setLzw (·.codeRegs ..)

theorem UnitStep.widen (s : State) : UnitStep s s.widen := .setLzw (·.widen)

/-- R186's first byte. -/
theorem leFirstByte_endsFrom (s : State) : (leFirstByte s).EndsFrom s := by
  unfold leFirstByte
  split
  · exact (inFetch_endsFrom s).bind_step fun b t => .setLzw (·.codeRegs ..)
  · exact Res.endsFrom_ok .refl

/-- R186. -/
theorem leInit_endsFrom (s : State) : (leInit s).EndsFrom s :=
  (leFirstByte_endsFrom _).after (UnitStep.setLzw (·.startEncoder)).reaches

/-- R188. -/
theorem leEmit_endsFrom (c : Nat) (s : State) : (leEmit c s).EndsFrom s := putBits_endsFrom c _ s

/-- R189. -/
theorem leInsert_endsFrom (p : Nat) (b : Byte) (s : State) : (leInsert p b s).EndsFrom s := by
  rcases leInsert_cases p b s with ⟨-, e⟩ | ⟨-, e⟩ <;> rw [e]
  · exact Res.endsFrom_raised .refl
  · exact Res.endsFrom_ok (UnitStep.setLzw (·.insertPair ..)).reaches

/-- R190. -/
theorem leGrow_endsFrom (n : Nat) (s : State) : (leGrow n s).EndsFrom s := by
  rcases leGrow_cases n s with ⟨-, e⟩ | ⟨-, -, e⟩ | ⟨-, -, e⟩ <;> rw [e]
  · exact Res.endsFrom_ok .refl
  · exact Res.endsFrom_raised .refl
  · exact Res.endsFrom_ok (UnitStep.widen s).reaches

/-- R187. -/
theorem leStep_endsFrom (b : Byte) (s : State) : (leStep b s).EndsFrom s := by
  unfold leStep
  split
  · exact Res.endsFrom_ok (UnitStep.setCur s _).reaches
  · exact (leEmit_endsFrom _ s).bind fun _ t => (leInsert_endsFrom _ b t).bind fun n u =>
      (leGrow_endsFrom n u).bind_step fun _ v => .setCur v _

/-- R192. -/
theorem leFinish_endsFrom (s : State) : (leFinish s).EndsFrom s := by
  unfold leFinish
  split
  · exact leEmit_endsFrom _ s
  · exact Res.endsFrom_ok .refl

/-- R194's loop. -/
theorem leSteps_endsFrom (n : Nat) (s : State) : (leSteps n s).EndsFrom s := by
  induction n generalizing s with
  | zero => exact Res.endsFrom_ok .refl
  | succ n ih => exact (inFetch_endsFrom s).bind fun b t => (leStep_endsFrom b t).bind fun _ => ih

/-- R194. -/
theorem leCompress_endsFrom (s : State) : (leCompress s).EndsFrom s :=
  (leInit_endsFrom _).inPhase.bind fun _ t => (leSteps_endsFrom _ t).bind fun _ => leFinish_endsFrom

/-! ### The LZW decoder -/

/-- R206. -/
theorem ldInit_endsFrom (s : State) : (ldInit s).EndsFrom s :=
  Res.endsFrom_ok (UnitStep.setLzw (·.startDecoder)).reaches

/-- R207. -/
theorem ldReadCode_endsFrom (s : State) : (ldReadCode s).EndsFrom s := by
  rcases ldReadCode_cases s with ⟨-, e⟩ | ⟨-, -, e⟩ | ⟨-, -, -, e⟩ | ⟨-, -, -, e⟩ <;> rw [e]
  · exact Res.endsFrom_ok .refl
  · exact Res.endsFrom_raised .refl
  · exact Res.endsFrom_raised .refl
  · exact getBits_endsFrom _ s

/-- R39. -/
theorem readDict_endsFrom (c : Nat) (s : State) : (readDict c s).EndsFrom s := by
  unfold readDict
  split
  · exact Res.endsFrom_stuck _ _
  · exact Res.endsFrom_ok .refl

/-- R209's loop. -/
theorem firstLoop_endsFrom (n c : Nat) (s : State) : (firstLoop n c s).EndsFrom s := by
  induction n generalizing c s with
  | zero => exact Res.endsFrom_stuck _ _
  | succ n ih =>
    unfold firstLoop
    split
    · exact Res.endsFrom_ok .refl
    · exact (readDict_endsFrom c s).bind fun e => ih e.pred

/-- R209. -/
theorem ldFirst_endsFrom (c : Nat) (s : State) : (ldFirst c s).EndsFrom s := firstLoop_endsFrom _ c s

/-- R210's walk. -/
theorem pushChain_endsFrom (n c : Nat) (s : State) : (pushChain n c s).EndsFrom s := by
  induction n generalizing c s with
  | zero => exact Res.endsFrom_stuck _ _
  | succ n ih =>
    unfold pushChain
    split
    · exact Res.endsFrom_ok (UnitStep.setXstk s _).reaches
    · exact (readDict_endsFrom c s).bind fun e t => (ih e.pred _).after (UnitStep.setXstk t _).reaches

/-- R210's pops. -/
theorem popStack_endsFrom (bs : List Byte) (s : State) : (popStack bs s).EndsFrom s := by
  induction bs generalizing s with
  | nil => exact Res.endsFrom_ok .refl
  | cons b bs ih => exact (outAppend_endsFrom b s).bind fun _ t => (ih _).after (UnitStep.setXstk t bs).reaches

/-- R210. -/
theorem ldExpand_endsFrom (c : Nat) (s : State) : (ldExpand c s).EndsFrom s :=
  ((pushChain_endsFrom _ c _).after (UnitStep.setXstk s []).reaches).bind fun _ t => popStack_endsFrom _ t

/-- R211. -/
theorem ldGrow_endsFrom (n : Nat) (s : State) : (ldGrow n s).EndsFrom s := by
  rw [ldGrow_eq]
  split
  · exact Res.endsFrom_ok (UnitStep.widen s).reaches
  · exact Res.endsFrom_ok .refl

/-- R213, the new entry. -/
theorem ldAppend_endsFrom (fb : Byte) (s : State) : (ldAppend fb s).EndsFrom s := by
  rcases ldAppend_cases fb s with ⟨-, e⟩ | ⟨-, e⟩ <;> rw [e]
  · exact Res.endsFrom_raised .refl
  · exact Res.endsFrom_ok (UnitStep.setLzw (·.appendEntry ..)).reaches

/-- R213 but for its last line. -/
theorem ldStepBody_endsFrom (s : State) : (ldStepBody s).EndsFrom s := by
  unfold ldStepBody
  dsimp only
  split
  · exact Res.endsFrom_raised .refl
  · exact (ldFirst_endsFrom _ s).bind fun fb t => (ldExpand_endsFrom _ t).bind fun _ u =>
      (ldAppend_endsFrom fb u).bind fun _ v =>
        (ldGrow_endsFrom _ _).after (UnitStep.setLzw (·.codeRegs ..)).reaches

theorem UnitStep.loseC1 (s : State) : UnitStep s s.loseC1 := .lzw _ (·.codeRegs ..)

/-- R213, R217: C2 after a read. -/
theorem UnitStep.setC2 (s : State) (c : Option Nat) : UnitStep s (s.setC2 c) := by
  cases c with
  | none => exact .lzw _ (·.codeRegs ..)
  | some c => exact .setLzw (·.codeRegs ..)

/-- R213's last line. -/
theorem readC2_endsFrom (s : State) : (readC2 s).EndsFrom s := (ldReadCode_endsFrom s).bind_step fun c t => .setC2 t c

/-- R213. -/
theorem ldStep_endsFrom (s : State) : (ldStep s).EndsFrom s := (ldStepBody_endsFrom s).bind fun _ => readC2_endsFrom

/-- R216. -/
theorem ldFlush_endsFrom (s : State) : (ldFlush s).EndsFrom s := ldExpand_endsFrom _ s

/-- R217's loop. -/
theorem ldSteps_endsFrom (n : Nat) (s : State) : (ldSteps n s).EndsFrom s := by
  induction n generalizing s with
  | zero => exact Res.endsFrom_ok .refl
  | succ n ih =>
    unfold ldSteps
    split
    · exact (ldStep_endsFrom s).bind fun _ => ih
    · exact Res.endsFrom_ok .refl

/-- R215, R217. -/
theorem takeFirstCode_endsFrom (c : Nat) (s : State) : (takeFirstCode c s).EndsFrom s := by
  have held : UnitStep s (s.setLzw { s.lzw with c1 := c, c1Held := true }) := .setLzw (·.codeRegs ..)
  unfold takeFirstCode
  dsimp only
  split
  · exact Res.endsFrom_raised held.reaches
  · exact Res.endsFrom_ok held.reaches

/-- R217. -/
theorem ldDecompress_endsFrom (s : State) : (ldDecompress s).EndsFrom s := by
  refine (ldInit_endsFrom _).inPhase.bind fun _ t => (ldReadCode_endsFrom t).bind fun c u => ?_
  cases c with
  | none => exact Res.endsFrom_ok (UnitStep.loseC1 u).reaches
  | some c =>
    exact (takeFirstCode_endsFrom c u).bind fun _ v => (readC2_endsFrom v).bind fun _ w =>
      (ldSteps_endsFrom _ w).bind fun _ => ldFlush_endsFrom

/-- R207 on an item's own bits. -/
theorem itemCode_endsFrom (w c : Nat) (s : State) : (itemCode w c s).EndsFrom s := by
  unfold itemCode
  split
  · exact Res.endsFrom_ok .refl
  · split
    · exact Res.endsFrom_raised .refl
    · split
      · exact Res.endsFrom_raised .refl
      · exact Res.endsFrom_ok .refl

/-- R217 on one code read. -/
theorem takeCode_endsFrom (c : Option Nat) (s : State) : (takeCode c s).EndsFrom s := by
  cases c with
  | none =>
    unfold takeCode
    dsimp only
    split
    · exact Res.endsFrom_ok (UnitStep.setC2 s none).reaches
    · exact Res.endsFrom_ok (UnitStep.loseC1 s).reaches
  | some c =>
    unfold takeCode
    dsimp only
    split
    · exact (ldStepBody_endsFrom _).after (UnitStep.setC2 s (some c)).reaches
    · exact takeFirstCode_endsFrom c s

/-! ### The dispatcher -/

/-- R226. -/
theorem compressCall_endsFrom (s : State) : (compressCall s).EndsFrom s := by
  refine Res.EndsFrom.inPhase (p := .tag) ?_
  unfold compressCall
  dsimp only
  split
  · exact Res.endsFrom_raised .refl
  · refine (openWriter_endsFrom _).bind fun _ t => (putNBytes_endsFrom _ t).bind fun _ u => Res.EndsFrom.bind ?_
      fun _ _ => (closeWriter_endsFrom _).inPhase.bind_step fun _ v => .callDone v
    unfold encodeWith
    split
    · exact heCompress_endsFrom u
    · exact leCompress_endsFrom u

/-- R229, R231. -/
theorem afterTag_endsFrom (tag : Byte) (s : State) : (afterTag tag s).EndsFrom s := by
  refine Res.EndsFrom.bind_step ?_ fun _ t => .callDone t
  unfold routeTag
  split
  · exact hdDecompress_endsFrom s
  · split
    · exact ldDecompress_endsFrom s
    · exact Res.endsFrom_raised .refl

/-- R229, R230. -/
theorem decompressCall_endsFrom (s : State) : (decompressCall s).EndsFrom s := by
  refine (openReader_endsFrom _).inPhase.bind fun _ t => (getNBytes_endsFrom 1 t).bind fun bs u => ?_
  split
  · exact afterTag_endsFrom _ u
  · exact Res.endsFrom_raised .refl

/-- R225: what a write to CMD can lead to: changes to single units, from where it was or from call start. Only
a word whose OP is a command's starts a call. -/
theorem hostWrite_reaches {w : BitVec 16} {s t : State} (h : hostWrite w s = .next t) :
    Reaches s t ∨ ((opField w = 0x01 ∨ opField w = 0x02) ∧ Reaches (s.setCmd w).callStart t) := by
  unfold hostWrite at h
  split at h
  · cases h; exact .inl .refl
  · split at h
    · next op => exact .inr ⟨.inl op, (compressCall_endsFrom _).finish h⟩
    · split at h
      · next op => exact .inr ⟨.inr op, (decompressCall_endsFrom _).finish h⟩
      · cases h; exact .inl (UnitStep.setCmd s w).reaches

/-- R91: the OP field of a word put together from its fields. -/
theorem opField_cmdWordOf (method op : Byte) : opField (cmdWordOf method op) = op := by
  unfold opField cmdWordOf
  exact BitVec.extractLsb'_append_eq_right

/-- What any instruction does: changes to single units, from where it was or, for an accepted command, from
call start. -/
theorem exec_reaches {i : Instr} {s t : State} (h : exec i s = .next t) :
    Reaches s t ∨ ((i.wellFormed = true → isCallOp i = true) ∧ ∃ w, Reaches (s.setCmd w).callStart t) := by
  cases i with
  | compress m => exact (hostWrite_reaches h).imp id fun hc => ⟨fun _ => rfl, _, hc.2⟩
  | decompress m => exact (hostWrite_reaches h).imp id fun hc => ⟨fun _ => rfl, _, hc.2⟩
  | cmdReserved m op =>
    refine (hostWrite_reaches h).imp id fun ⟨hop, hc⟩ => ⟨fun wf => ?_, _, hc⟩
    rw [opField_cmdWordOf] at hop
    rcases hop with rfl | rfl <;> simp [Instr.wellFormed] at wf
  | tagHuffman => exact .inl ((afterTag_endsFrom _ s).finish h)
  | tagLzw => exact .inl ((afterTag_endsFrom _ s).finish h)
  | tagReserved tag => exact .inl ((afterTag_endsFrom tag s).finish h)
  | hnodeLeaf sym =>
    exact .inl (((countNode_endsFrom s).bind fun i u =>
      (takeLeaf_endsFrom i sym u).bind fun _ _ => Res.endsFrom_ok .refl).finish h)
  | hnodeInternal =>
    exact .inl (((countNode_endsFrom s).bind_from fun _ _ hu =>
      (takeInternal_endsFrom hu).bind fun _ _ => Res.endsFrom_ok .refl).finish h)
  | hcode path =>
    exact .inl ((((walkCode_endsFrom path _).after (UnitStep.setWalk s _).reaches).bind takeSymbol_endsFrom).finish h)
  | lcode w c => exact .inl (((itemCode_endsFrom w c s).bind takeCode_endsFrom).finish h)
  | bcOpenW => exact .inl ((openWriter_endsFrom s).finish h)
  | bcOpenR => exact .inl ((openReader_endsFrom s).finish h)
  | bcPutBit b => exact .inl ((putBit_endsFrom b s).finish h)
  | bcPutNBytes bytes => exact .inl ((putNBytes_endsFrom bytes s).finish h)
  | bcClose => exact .inl ((closeWriter_endsFrom s).finish h)
  | bcGetBit => exact .inl ((getBit_endsFrom s).finishWith h)
  | bcGetNBytes n => exact .inl ((getNBytes_endsFrom n s).finishWith h)
  | bcPutBits v n => exact .inl ((putBits_endsFrom v n s).finish h)
  | bcEof => cases h; exact .inl (UnitStep.setResult s _).reaches
  | bcGetBits n => exact .inl ((getBits_endsFrom n s).finishWith h)
  | heFreq => exact .inl ((heFreq_endsFrom s).finish h)
  | heInsert n w => exact .inl ((heInsert_endsFrom n w s).finish h)
  | heLeaves => exact .inl ((leavesFor_endsFrom _ s).finish h)
  | heCombine => exact .inl ((heCombine_endsFrom s).finish h)
  | heBuild => exact .inl ((heBuild_endsFrom s).finish h)
  | heSer n => exact .inl ((heSer_endsFrom n s).finish h)
  | heTable => exact .inl ((heTable_endsFrom s).finish h)
  | heRewind => exact .inl ((heRewind_endsFrom s).finish h)
  | heEncode => exact .inl ((heEncode_endsFrom s).finish h)
  | heCompress => exact .inl ((heCompress_endsFrom s).finish h)
  | hdDeser => exact .inl ((hdDeser_endsFrom s).finishWith h)
  | hdSymbol => exact .inl ((hdSymbol_endsFrom s).finishWith h)
  | hdDecompress => exact .inl ((hdDecompress_endsFrom s).finish h)
  | leInit => exact .inl ((leInit_endsFrom s).finish h)
  | leStep b => exact .inl ((leStep_endsFrom b s).finish h)
  | leEmit c => exact .inl ((leEmit_endsFrom c s).finish h)
  | leInsert p b => exact .inl ((leInsert_endsFrom p b s).finishWith h)
  | leGrow n => exact .inl ((leGrow_endsFrom n s).finish h)
  | leFinish => exact .inl ((leFinish_endsFrom s).finish h)
  | leCompress => exact .inl ((leCompress_endsFrom s).finish h)
  | ldInit => exact .inl ((ldInit_endsFrom s).finish h)
  | ldReadCode => exact .inl ((ldReadCode_endsFrom s).finishWith h)
  | ldFirst c => exact .inl ((ldFirst_endsFrom c s).finishWith h)
  | ldExpand c => exact .inl ((ldExpand_endsFrom c s).finish h)
  | ldGrow n => exact .inl ((ldGrow_endsFrom n s).finish h)
  | ldStep => exact .inl ((ldStep_endsFrom s).finish h)
  | ldFlush => exact .inl ((ldFlush_endsFrom s).finish h)
  | ldDecompress => exact .inl ((ldDecompress_endsFrom s).finish h)

end Sys2Proof.Machine
end

section
/-! PROOFS, StateClaims. Reset and call start, the invariant of every step, what no operation does to the
streams and the parameters, and the stops outside the stated preconditions. -/

namespace Sys2Proof.Machine

/-! ### Reset and call start -/

/-- Settles O1: both columns of R44 read off hardware reset and call start. -/
theorem resetAndCallStart : Obligations.ResetAndCallStart := by
  intro s
  refine ⟨fun rest hm => ⟨State.hardReset { s with moves := rest }, by simp only [step, hm], ?_, rfl⟩,
    fun w => ⟨?_, rfl, rfl⟩⟩
  · exact ⟨rfl, rfl, rfl, rfl, rfl, rfl, rfl, rfl, rfl, rfl, rfl, rfl, rfl, rfl, rfl, rfl, rfl, rfl, rfl, rfl, rfl⟩
  · simp [PerCallFresh]

/-! ### The invariant -/

/-- R270: the invariant holds after a hardware reset of any machine. -/
theorem inv_hardReset (s : State) : Inv s.hardReset :=
  (inv_iff _).mpr
    ⟨fun _ => writerClean_setWriter_zero State.reset, Nat.zero_le _, .emptied _ _, .emptied _ _ _,
      .noErr _ _ (by decide)⟩

/-- R225, R44: call start makes the invariant hold, whatever held before. -/
theorem inv_callStart (s : State) : Inv s.callStart :=
  (inv_iff _).mpr
    ⟨fun _ => writerClean_setWriter_zero State.reset, Nat.zero_le _, .emptied _ _, .emptied _ _ _,
      .noErr _ _ (by decide)⟩

/-- The writer's operations leave the oracle. -/
theorem OnlyWriter.ioFaults {s t : State} (h : OnlyWriter s t) : t.env.ioFaults = s.env.ioFaults := by
  rw [h.1]

/-- A change to one unit keeps the invariant: it keeps the unit's part and leaves the others. -/
theorem UnitStep.inv {s t : State} (h : UnitStep s t) (hs : Inv s) : Inv t := by
  obtain ⟨clean, between, huf, lzw, regs⟩ := (inv_iff s).mp hs
  refine (inv_iff t).mpr ?_
  cases h with
  | write frame keeps =>
    have clean' : t.noIoFault → t.writerClean := fun quiet =>
      have quiet : s.noIoFault := frame.ioFaults.symm.trans quiet
      keeps quiet (clean quiet)
    obtain ⟨e, -⟩ := frame
    refine ⟨clean', ?_, ?_, ?_, ?_⟩ <;> rw [e] <;> assumption
  | read frame keeps inRange =>
    refine ⟨?_, keeps between, ?_, ?_, ?_⟩ <;> rw [frame] <;> assumption
  | huffman keeps => exact ⟨clean, between, keeps huf, lzw, regs⟩
  | lzw free keeps => exact ⟨clean, between, huf, keeps lzw, regs⟩
  | regs keeps => exact ⟨clean, between, huf, lzw, keeps regs⟩

/-- So does a run of such changes. -/
theorem Reaches.inv {s t : State} (h : Reaches s t) (hs : Inv s) : Inv t := by
  induction h with
  | refl => exact hs
  | tail _ last ih => exact last.inv ih

/-- Every instruction keeps the invariant, well formed or not. -/
theorem exec_inv {i : Instr} {s t : State} (h : exec i s = .next t) (hs : Inv s) : Inv t := by
  rcases exec_reaches h with run | ⟨-, w, run⟩
  · exact run.inv hs
  · exact run.inv (inv_callStart _)

/-- The host's supply of IN and its moves take no part in the invariant. -/
theorem inv_supplied {s : State} (hs : Inv s) (bytes : List Byte) : Inv (s.supplied bytes) := by
  unfold State.supplied
  split
  · exact hs
  · exact hs

/-- Settles O5: reset is the hardware reset of the reset machine. -/
theorem invAtReset : Obligations.InvAtReset := inv_hardReset State.reset

/-- Settles O6, by the host's next move; an instruction is a run of changes to single units. -/
theorem invKept : Obligations.InvKept := by
  intro s t hs h
  have made (rest : List HostMove) : Inv { s with moves := rest } := hs
  unfold step at h
  split at h
  · cases h; exact hs
  · next bytes rest _ => cases h; exact inv_supplied (made rest) bytes
  · cases h; exact inv_hardReset _
  · next e rest _ =>
    unfold runItem at h
    split at h
    · exact exec_inv h (made rest)
    · cases h

/-! ### The streams and the parameters -/

/-- R26: no byte of OUT is removed or rewritten exactly when OUT only grows at its end. -/
theorem readOut_eq_iff_prefix (s t : State) :
    (∀ a, a < s.outLen → t.readOut a = s.readOut a) ↔ s.io.out <+: t.io.out := by
  rw [List.prefix_iff_getElem?]
  refine forall₂_congr fun a ha => ?_
  rw [State.readOut, State.readOut, List.getElem?_eq_getElem ha]

/-- What a run inside a call, or outside of one, does to the streams and to what stands outside the block. -/
structure StreamsGrow (s t : State) : Prop where
  arguments : SameArguments s t
  inRange : s.io.inPos ≤ s.inLen → t.io.inPos ≤ t.inLen
  out : s.io.out <+: t.io.out
  moves : t.moves = s.moves

/-- A change to neither stream, to nothing of the environment and to none of the host's moves. -/
theorem StreamsGrow.of_eq {s t : State} (io : t.io = s.io) (env : t.env = s.env) (moves : t.moves = s.moves) :
    StreamsGrow s t := by
  refine ⟨?_, ?_, ?_, moves⟩
  · rw [SameArguments, io, env]
    exact ⟨rfl, rfl, rfl, rfl, rfl⟩
  · rw [State.inLen, State.inLen, io]
    exact id
  · rw [io]

theorem SameArguments.trans {s t u : State} (h : SameArguments s t) (h' : SameArguments t u) : SameArguments s u := by
  obtain ⟨inp, width, cap, faults, seek⟩ := h
  obtain ⟨inp', width', cap', faults', seek'⟩ := h'
  exact ⟨inp'.trans inp, width'.trans width, cap'.trans cap, faults'.trans faults, seek'.trans seek⟩

theorem StreamsGrow.trans {s t u : State} (h : StreamsGrow s t) (h' : StreamsGrow t u) : StreamsGrow s u :=
  ⟨h.arguments.trans h'.arguments, h'.inRange ∘ h.inRange, h.out.trans h'.out, h'.moves.trans h.moves⟩

/-- A change to one unit: the writer appends to OUT, the reader stays inside IN, the others touch no stream. -/
theorem UnitStep.streamsGrow {s t : State} (h : UnitStep s t) : StreamsGrow s t := by
  cases h with
  | write frame _ =>
    obtain ⟨e, kept⟩ := frame
    refine ⟨?_, ?_, (readOut_eq_iff_prefix s t).mp kept, ?_⟩ <;> rw [e]
    · exact ⟨rfl, rfl, rfl, rfl, rfl⟩
    · exact id
  | read frame _ inRange =>
    refine ⟨?_, inRange, ?_, ?_⟩ <;> rw [frame]
    exact ⟨rfl, rfl, rfl, rfl, rfl⟩
  | huffman _ => exact .of_eq rfl rfl rfl
  | lzw _ _ => exact .of_eq rfl rfl rfl
  | regs _ => exact .of_eq rfl rfl rfl

theorem Reaches.streamsGrow {s t : State} (h : Reaches s t) : StreamsGrow s t := by
  induction h with
  | refl => exact .of_eq rfl rfl rfl
  | tail _ last ih => exact ih.trans last.streamsGrow

/-- Settles O7: a run of changes to single units, from where the machine was or, for a command, from call
start, which empties OUT and puts IN_POS at 0 (R44). -/
theorem streamsKept : Obligations.StreamsKept := by
  intro i s t wf h
  rcases exec_reaches h with run | ⟨command, w, run⟩
  · have grow := run.streamsGrow
    exact ⟨grow.arguments, grow.inRange, fun _ => (readOut_eq_iff_prefix s t).mpr grow.out, grow.moves⟩
  · have grow := run.streamsGrow
    refine ⟨grow.arguments, fun _ => grow.inRange (Nat.zero_le _), fun single => ?_, grow.moves⟩
    rw [command wf] at single
    cases single

/-! ### Stops outside the stated preconditions -/

/-- R31, R44: an arena entry below the cap that nothing has written. -/
theorem readNode_unwritten {i : Nat} {s : State} (hi : i < Config.nodeCap) (h : s.huf.node.read i = none) :
    readNode i s = .stuck (.unwrittenEntry .node) := by
  rw [readNode, if_neg (Nat.not_le.mpr hi), h]

/-- R39, R44: a table entry that nothing has written. -/
theorem readDict_unwritten {c : Nat} {s : State} (h : s.lzw.dDict.read (c - Config.nLiterals) = none) :
    readDict c s = .stuck (.unwrittenEntry .dDict) := by
  rw [readDict, h]

/-- R143: with every counter at 0 there is no leaf to make. -/
theorem leavesFor_of_freq_nil {s : State} (h : s.huf.freq = []) (syms : List Nat) : leavesFor syms s = .ok () s := by
  induction syms with
  | nil => rfl
  | cons sym rest ih =>
    have absent : leafFor sym s = .ok () s := by simp [leafFor, State.freqOf, h]
    simp [leavesFor, absent, ih]

/-- R145: with neither a counter nor an entry LIST has no head to take. -/
theorem heBuild_of_empty {s : State} (hf : s.huf.freq = []) (hl : s.huf.list = []) :
    heBuild s = .stuck (.unwrittenEntry .list) := by
  simp [heBuild, heLeaves, leavesFor_of_freq_nil hf, State.listLen, hl, combineAll, takeRoot]

/-- R144: a merge takes two entries. -/
theorem heCombine_of_lt_two {s : State} (h : s.listLen < 2) : heCombine s = .stuck (.noSuchEntry .list) := by
  unfold heCombine
  split
  · next a b rest lowest =>
    have := congrArg List.length lowest
    simp only [List.length_reverse, List.length_cons] at this
    simp only [State.listLen] at h
    omega
  · rfl

/-- R152: the traversal reads the node it enters first. -/
theorem serNode_unwritten (d : Nat) {i : Nat} {s : State} (hi : i < Config.nodeCap) (h : s.huf.node.read i = none) :
    serNode (d + 1) i s = .stuck (.unwrittenEntry .node) := by
  rw [serNode, readNode_unwritten hi (by exact h), Res.bind_stuck]

/-- R154: the traversal reads the node it enters first. -/
theorem tableNode_unwritten (d : Nat) {i : Nat} {s : State} (hi : i < Config.nodeCap)
    (h : s.huf.node.read i = none) : tableNode (d + 1) i s = .stuck (.unwrittenEntry .node) := by
  rw [tableNode, readNode_unwritten hi (by exact h), Res.bind_stuck]

/-- R173: the walk reads the node it stands at first. -/
theorem walkLoop_unwritten (n : Nat) {s : State} (hi : s.huf.walk < Config.nodeCap)
    (h : s.huf.node.read s.huf.walk = none) : walkLoop (n + 1) s = .stuck (.unwrittenEntry .node) := by
  rw [walkLoop, readNode_unwritten hi h, Res.bind_stuck]

/-- R159: with no byte of IN left the EOS code is next. -/
theorem heEncode_of_eosAbsent {s : State} (atEnd : s.io.inPos = s.inLen) (h : s.huf.ctab.read Config.eosValue = none) :
    heEncode s = .stuck (.unwrittenEntry .ctab) := by
  rw [heEncode, atEnd, Nat.sub_self, encodeBytes, Res.bind_ok, putCode, h]

/-- R209: a walk from a code of the table starts with that code's entry. -/
theorem firstLoop_entry (n : Nat) {c : Nat} (s : State) (hc : Config.nLiterals ≤ c) :
    firstLoop (n + 1) c s = (readDict c s).bind fun e t => firstLoop n e.pred t := by
  rw [firstLoop, if_neg (Nat.not_lt.mpr hc)]

/-- R210: the walk that pushes starts with that entry too. -/
theorem pushChain_entry (n : Nat) {c : Nat} (s : State) (hc : Config.nLiterals ≤ c) :
    pushChain (n + 1) c s =
      (readDict c s).bind fun e t => pushChain n e.pred (t.setXstk (e.byte :: t.lzw.xstk)) := by
  rw [pushChain, if_neg (Nat.not_lt.mpr hc)]

/-- R209: a code the table does not have. -/
theorem ldFirst_unwritten {c : Nat} {s : State} (hc : Config.nLiterals ≤ c)
    (h : s.lzw.dDict.read (c - Config.nLiterals) = none) : ldFirst c s = .stuck (.unwrittenEntry .dDict) := by
  rw [ldFirst, firstLoop_entry _ s hc, readDict_unwritten h, Res.bind_stuck]

/-- R210: a code the table does not have. -/
theorem ldExpand_unwritten {c : Nat} {s : State} (hc : Config.nLiterals ≤ c)
    (h : s.lzw.dDict.read (c - Config.nLiterals) = none) : ldExpand c s = .stuck (.unwrittenEntry .dDict) := by
  rw [ldExpand, pushChain_entry _ _ hc, readDict_unwritten (by exact h), Res.bind_stuck, Res.bind_stuck]

/-- R39: code 256 is the table's entry 0. -/
theorem readDict_zero {s : State} {e : DictEntry} (h : s.lzw.dDict.read 0 = some e) :
    readDict Config.nLiterals s = .ok e s :=
  readDict_eq_ok.mpr ⟨rfl, by rw [Nat.sub_self]; exact h⟩

/-- R209: an entry that names itself is followed for ever. -/
theorem firstLoop_selfLink {b : Byte} (n : Nat) {s : State}
    (h : s.lzw.dDict.read 0 = some { pred := Config.nLiterals, byte := b }) :
    firstLoop n Config.nLiterals s = .stuck .endlessChain := by
  induction n with
  | zero => rfl
  | succ n ih => rw [firstLoop_entry n s le_rfl, readDict_zero h, Res.bind_ok, ih]

/-- R210: the walk that pushes follows it for ever too. -/
theorem pushChain_selfLink {b : Byte} (n : Nat) {s : State}
    (h : s.lzw.dDict.read 0 = some { pred := Config.nLiterals, byte := b }) :
    pushChain n Config.nLiterals s = .stuck .endlessChain := by
  induction n generalizing s with
  | zero => rfl
  | succ n ih =>
    rw [pushChain_entry n s le_rfl, readDict_zero h, Res.bind_ok]
    exact ih h

/-- R210: so the expansion never gets to OUT. -/
theorem ldExpand_selfLink {b : Byte} {s : State}
    (h : s.lzw.dDict.read 0 = some { pred := Config.nLiterals, byte := b }) :
    ldExpand Config.nLiterals s = .stuck .endlessChain := by
  rw [ldExpand, pushChain_selfLink _ (by exact h), Res.bind_stuck]

theorem Res.finish_of_stuck {r : Res Unit} {f : Fault} (h : r = .stuck f) : r.finish = .fault f := by
  rw [h, finish_stuck]

theorem Res.finishWith_of_stuck {α : Type} {r : Res α} {g : α → UopResult} {f : Fault} (h : r = .stuck f) :
    r.finishWith g = .fault f := by
  rw [h, finishWith, bind_stuck, finish_stuck]

/-- Settles O9, clause by clause: each operation is stuck where it needs the missing entry, and an operation
that is stuck stops the machine. -/
theorem unmetPreconditionsStop : Obligations.UnmetPreconditionsStop := by
  intro s
  refine ⟨fun full i w => ?_, fun short => ?_, fun noFreq noList => ?_, fun i hi absent => ?_,
    fun hi absent => ⟨?_, ?_⟩, fun atEnd absent => ?_, fun c hc absent => ⟨?_, ?_⟩, fun b self => ⟨?_, ?_⟩⟩
  · exact Res.finish_of_stuck (if_pos full.ge)
  · exact Res.finish_of_stuck (heCombine_of_lt_two short)
  · exact Res.finish_of_stuck (heBuild_of_empty noFreq noList)
  · exact Res.finish_of_stuck (serNode_unwritten 256 hi absent)
  · exact Res.finish_of_stuck (tableNode_unwritten 256 hi absent)
  · exact Res.finishWith_of_stuck (walkLoop_unwritten _ hi absent)
  · exact Res.finish_of_stuck (heEncode_of_eosAbsent atEnd absent)
  · exact Res.finishWith_of_stuck (ldFirst_unwritten hc absent)
  · exact Res.finish_of_stuck (ldExpand_unwritten hc absent)
  · exact Res.finishWith_of_stuck (firstLoop_selfLink _ self)
  · exact Res.finish_of_stuck (ldExpand_selfLink self)

end Sys2Proof.Machine
end

section
/-! PROOFS, Encoding. The decoder reads back what the encoder writes: bit strings and byte strings as numbers,
the operand bytes, the fields of a command word, and then one instruction after the other. -/

namespace Sys2Proof

/-! ### Numbers as bits and as bytes (R66, R67) -/

@[simp] theorem length_bitsOfNat (n v : Nat) : (bitsOfNat n v).length = n := by
  induction n with
  | zero => rfl
  | succ n ih => simp [bitsOfNat, ih]

@[simp] theorem length_bytesOfNat (n v : Nat) : (bytesOfNat n v).length = n := by
  induction n with
  | zero => rfl
  | succ n ih => simp [bytesOfNat, ih]

/-- R67: bits read after a number `a` shift it up and add their own. -/
theorem foldl_bitsOfNat (n v a : Nat) :
    (bitsOfNat n v).foldl (fun a b => 2 * a + b.toNat) a = a * 2 ^ n + v % 2 ^ n := by
  induction n generalizing a with
  | zero => simp [bitsOfNat, Nat.mod_one]
  | succ n ih =>
    rw [bitsOfNat, List.foldl_cons, ih, Nat.mod_pow_succ, Nat.toNat_testBit]
    ring

/-- R67: the low bits of a number, read back. -/
theorem natOfBits_bitsOfNat (n v : Nat) : natOfBits (bitsOfNat n v) = v % 2 ^ n := by
  rw [natOfBits, foldl_bitsOfNat, Nat.zero_mul, Nat.zero_add]

/-- R66: the byte `n` places up, and the bytes below it. -/
theorem mod_pow_byte_succ (n v : Nat) :
    v % 2 ^ (8 * (n + 1)) = 2 ^ (8 * n) * ((v >>> (8 * n)) % 2 ^ 8) + v % 2 ^ (8 * n) := by
  rw [Nat.shiftRight_eq_div_pow, Nat.mul_add, pow_add, Nat.mod_mul, Nat.add_comm]

/-- R66: bytes read after a number `a` shift it up and add their own. -/
theorem foldl_bytesOfNat (n v a : Nat) :
    (bytesOfNat n v).foldl (fun a b => 256 * a + b.toNat) a = a * 2 ^ (8 * n) + v % 2 ^ (8 * n) := by
  induction n generalizing a with
  | zero => simp [bytesOfNat, Nat.mod_one]
  | succ n ih =>
    rw [bytesOfNat, List.foldl_cons, ih, mod_pow_byte_succ, BitVec.toNat_ofNat, Nat.mul_add, pow_add]
    ring

/-- R66: the low bytes of a number, read back. -/
theorem natOfBytes_bytesOfNat (n v : Nat) : natOfBytes (bytesOfNat n v) = v % 2 ^ (8 * n) := by
  rw [natOfBytes, foldl_bytesOfNat, Nat.zero_mul, Nat.zero_add]

/-! ### Operand bytes (log entry 3) -/

/-- An operand that fits its bytes is read back, and the bytes after it are left. -/
theorem operand_append {n v : Nat} (hv : v < 2 ^ (8 * n)) (rest : List Byte) :
    operand n (bytesOfNat n v ++ rest) = some (v, rest) := by
  simp [operand, natOfBytes_bytesOfNat, Nat.mod_eq_of_lt hv]

theorem withOperand_append {n v : Nat} (hv : v < 2 ^ (8 * n)) (rest : List Byte) (mk : Nat → Instr) :
    withOperand n (bytesOfNat n v ++ rest) mk = .ok (mk v) := by
  rw [withOperand, operand_append hv]

theorem withOperand_bytesOfNat {n v : Nat} (hv : v < 2 ^ (8 * n)) (mk : Nat → Instr) :
    withOperand n (bytesOfNat n v) mk = .ok (mk v) := by
  simpa using withOperand_append hv [] mk

theorem withOperands_bytesOfNat {n m v w : Nat} (hv : v < 2 ^ (8 * n)) (hw : w < 2 ^ (8 * m))
    (mk : Nat → Nat → Instr) : withOperands n m (bytesOfNat n v ++ bytesOfNat m w) mk = .ok (mk v w) := by
  rw [withOperands, operand_append hv]
  exact withOperand_bytesOfNat hw _

/-- Eight bytes hold the operands of 64 bits. -/
theorem withOperand_fits64 {n : Nat} (h : fits64 n = true) (mk : Nat → Instr) :
    withOperand 8 (bytesOfNat 8 n) mk = .ok (mk n) :=
  withOperand_bytesOfNat (n := 8) (v := n) (of_decide_eq_true h) mk

/-- A byte is its own one operand byte. -/
theorem bytesOfNat_one (b : Byte) : bytesOfNat 1 b.toNat = [b] := by
  simp [bytesOfNat]

theorem withOperand_byte (b : Byte) (mk : Nat → Instr) : withOperand 1 [b] mk = .ok (mk b.toNat) := by
  rw [← bytesOfNat_one]
  exact withOperand_bytesOfNat b.isLt mk

theorem withOperands_byte {n v : Nat} (hv : v < 2 ^ (8 * n)) (b : Byte) (mk : Nat → Nat → Instr) :
    withOperands n 1 (bytesOfNat n v ++ [b]) mk = .ok (mk v b.toNat) := by
  rw [← bytesOfNat_one]
  exact withOperands_bytesOfNat hv b.isLt mk

/-! ### The formats -/

/-- R91: METHOD and OP are taken from where they were put. -/
theorem decodeCmd_cmdWordOf (m op : Byte) :
    decodeCmd (cmdWordOf m op) =
      if op = 1 then .ok (.compress m) else if op = 2 then .ok (.decompress m) else .ok (.cmdReserved m op) := by
  have method : (m ++ op).extractLsb' 8 8 = m := BitVec.extractLsb'_append_eq_left
  have opcode : (m ++ op).extractLsb' 0 8 = op := BitVec.extractLsb'_append_eq_right
  rw [decodeCmd, cmdWordOf, method, opcode]

/-- R97, R98: the sixteen bits after the mark are the symbol. -/
theorem decodeNode_leafBits (sym : BitVec 16) : decodeNode (leafBits sym) = .ok (.hnodeLeaf sym) := by
  simp [leafBits, decodeNode, natOfBits_bitsOfNat, Nat.mod_eq_of_lt sym.isLt]

/-- R104: a tag that is no codec's. -/
theorem decodeTag_reserved {t : Byte} (h0 : t ≠ 0) (h1 : t ≠ 1) : decodeTag t = .ok (.tagReserved t) := by
  rw [decodeTag, if_neg (by exact h0), if_neg (by exact h1)]

/-- The format's own reading of a well-formed instruction's item gives the instruction, constructor by
constructor: the operands' ranges are those that fit their bits. -/
theorem decodeRaw_encode {i : Instr} (wf : i.wellFormed = true) : decodeRaw (encode i) = .ok i := by
  cases i with
  | compress m => exact decodeCmd_cmdWordOf m 1
  | decompress m => exact decodeCmd_cmdWordOf m 2
  | cmdReserved m op =>
    simp only [Instr.wellFormed, Bool.and_eq_true, bne_iff_ne] at wf
    exact (decodeCmd_cmdWordOf m op).trans (by rw [if_neg wf.1, if_neg wf.2])
  | tagReserved t =>
    simp only [Instr.wellFormed, Bool.and_eq_true, bne_iff_ne] at wf
    exact decodeTag_reserved wf.1 wf.2
  | hnodeLeaf sym => exact decodeNode_leafBits sym
  | lcode w c =>
    simp only [Instr.wellFormed, Bool.and_eq_true, decide_eq_true_eq] at wf
    simp [encode, decodeRaw, natOfBits_bitsOfNat, Nat.mod_eq_of_lt wf.2]
  | bcPutBit b => cases b <;> rfl
  | bcGetNBytes n => exact withOperand_fits64 wf _
  | bcPutBits v n =>
    simp only [Instr.wellFormed, Bool.and_eq_true, decide_eq_true_eq] at wf
    obtain ⟨width, value⟩ := wf
    have value : v < 2 ^ (8 * 8) := value.trans_le (Nat.pow_le_pow_right two_pos width)
    have count : n < 2 ^ (8 * 1) := Nat.lt_of_le_of_lt width (by decide)
    exact withOperands_bytesOfNat value count _
  | bcGetBits n =>
    have count : n < 2 ^ (8 * 1) := Nat.lt_of_le_of_lt (of_decide_eq_true wf) (by decide)
    exact withOperand_bytesOfNat count _
  | heInsert t w =>
    simp only [Instr.wellFormed, fits64, Bool.and_eq_true, decide_eq_true_eq] at wf
    have index : t < 2 ^ (8 * 2) := wf.1.trans (by decide)
    exact withOperands_bytesOfNat (m := 8) index wf.2 _
  | heSer t =>
    have index : t < 2 ^ (8 * 2) := (of_decide_eq_true wf).trans (by decide)
    exact withOperand_bytesOfNat index _
  | leStep b =>
    exact (withOperand_byte b fun b => .leStep (BitVec.ofNat 8 b)).trans (by simp)
  | leEmit c => exact withOperand_fits64 wf _
  | leInsert p b =>
    have value : p < 2 ^ (8 * 8) := of_decide_eq_true wf
    exact (withOperands_byte value b fun p b => .leInsert p (BitVec.ofNat 8 b)).trans (by simp)
  | leGrow n => exact withOperand_fits64 wf _
  | ldFirst c => exact withOperand_fits64 wf _
  | ldExpand c => exact withOperand_fits64 wf _
  | ldGrow n => exact withOperand_fits64 wf _
  | _ => rfl

/-- Settles O4: the format's reading gives the instruction back, and it meets the operand ranges it met
before. -/
theorem decodeEncode : Obligations.DecodeEncode := by
  intro i wf
  rw [decode, decodeRaw_encode wf]
  exact if_pos wf

/-- Settles O3: each word is written out, so the decoder runs on it. -/
theorem decodeWords : Obligations.DecodeWords := by
  unfold Obligations.DecodeWords
  decide

end Sys2Proof
end

section
/-! PROOFS, HostWrite. The host's write to CMD (R225), by its OP field and by STATUS. -/

namespace Sys2Proof.Machine

/-- R225, R282: the host has no command write while BUSY. -/
theorem hostWrite_busy {s : State} (h : s.regs.status = .busy) (w : BitVec 16) : hostWrite w s = .next s :=
  if_pos h

/-- R92, R225: a word that selects no command stands in CMD and starts nothing. -/
theorem hostWrite_reserved {s : State} (h : s.regs.status ≠ .busy) {w : BitVec 16} (h1 : opField w ≠ 1)
    (h2 : opField w ≠ 2) : hostWrite w s = .next (s.setCmd w) := by
  rw [hostWrite, if_neg h, if_neg h1, if_neg h2]

/-- R225: a word with COMPRESS in its OP field starts the call. -/
theorem hostWrite_compress {s : State} (h : s.regs.status ≠ .busy) {w : BitVec 16} (h1 : opField w = 1) :
    hostWrite w s = (compressCall (s.setCmd w).callStart).finish := by
  rw [hostWrite, if_neg h, if_pos h1]

/-- Settles O51: a reserved word's OP field is the one put there, and BUSY is tested before any word. -/
theorem cmdReservedAndBusy : Obligations.CmdReservedAndBusy := by
  intro s m op
  refine ⟨fun idle h1 h2 => ?_, fun busy => ⟨hostWrite_busy busy _, hostWrite_busy busy _, hostWrite_busy busy _⟩⟩
  refine hostWrite_reserved idle ?_ ?_ <;> rwa [opField_cmdWordOf]

end Sys2Proof.Machine
end

section
/-! PROOFS, Trees. The arena read as a tree: which entries a tree stands on, and the walk down a code's bits. -/

namespace Sys2Proof.Machine

/-! ### The entries a tree stands on -/

/-- The entries from `lo` below `hi` alone make index `i` stand for the tree, whatever the others hold. -/
def DenotesIn (m : Memory NodeEntry) (T : HuffTree) (i lo hi : Nat) : Prop :=
  ∀ m' : Memory NodeEntry, (∀ j, lo ≤ j → j < hi → m'.read j = m.read j) → Denotes m' T i

theorem DenotesIn.denotes {m : Memory NodeEntry} {T : HuffTree} {i lo hi : Nat} (h : DenotesIn m T i lo hi) :
    Denotes m T i := h m fun _ _ _ => rfl

/-- Another memory that agrees on a wider range. -/
theorem DenotesIn.mono {m m' : Memory NodeEntry} {T : HuffTree} {i lo hi lo' hi' : Nat} (h : DenotesIn m T i lo hi)
    (hlo : lo' ≤ lo) (hhi : hi ≤ hi') (agree : ∀ j, lo ≤ j → j < hi → m'.read j = m.read j) :
    DenotesIn m' T i lo' hi' := fun m'' agree' =>
  h m'' fun j hl hh => (agree' j (hlo.trans hl) (hh.trans_le hhi)).trans (agree j hl hh)

/-- R31: a leaf stands on its own entry. -/
theorem DenotesIn.leaf {m : Memory NodeEntry} {sym i lo hi : Nat} (cap : i < Config.nodeCap) (hl : lo ≤ i)
    (hh : i < hi) (h : m.read i = some (.leaf sym)) : DenotesIn m (.leaf sym) i lo hi := fun _ agree =>
  ⟨cap, (agree i hl hh).trans h⟩

/-- R31: an internal node stands on its own entry and its children's. -/
theorem DenotesIn.node {m : Memory NodeEntry} {z o : HuffTree} {i a b lo hi : Nat} (cap : i < Config.nodeCap)
    (hl : lo ≤ i) (hh : i < hi) (h : m.read i = some (.internal (some a) (some b))) (hz : DenotesIn m z a lo hi)
    (ho : DenotesIn m o b lo hi) : DenotesIn m (.node z o) i lo hi := fun m' agree =>
  ⟨cap, a, b, (agree i hl hh).trans h, hz m' agree, ho m' agree⟩

/-- R31: what the index of a tree's root holds. -/
theorem readNode_leaf {s : State} {sym i : Nat} (h : Denotes s.huf.node (.leaf sym) i) :
    readNode i s = .ok (.leaf sym) s := readNode_eq_ok.mpr ⟨rfl, h⟩

theorem readNode_node {s : State} {z o : HuffTree} {i : Nat} (h : Denotes s.huf.node (.node z o) i) :
    ∃ a b, readNode i s = .ok (.internal (some a) (some b)) s ∧ Denotes s.huf.node z a ∧ Denotes s.huf.node o b := by
  obtain ⟨cap, a, b, entry, hz, ho⟩ := h
  exact ⟨a, b, readNode_eq_ok.mpr ⟨rfl, cap, entry⟩, hz, ho⟩

/-! ### The walk of a code's bits (R99, R173) -/

/-- R173: where the tree's walk finds a leaf, the machine's ends there, with WALK on it. -/
theorem walkCode_of_walk {T : HuffTree} {path rest : List Bool} {sym : Nat} {s : State}
    (h : Denotes s.huf.node T s.huf.walk) (hw : T.walk path = some (sym, rest)) :
    ∃ w, walkCode path s = .ok sym (s.setWalk w) ∧ s.huf.node.read w = some (.leaf sym) := by
  induction T generalizing path s with
  | leaf x =>
    cases hw
    exact ⟨s.huf.walk, by cases rest <;> simp [walkCode, readNode_leaf h] <;> rfl, h.2⟩
  | node z o ihz iho =>
    obtain ⟨a, b, read, hz, ho⟩ := readNode_node h
    cases path with
    | nil => cases hw
    | cons bit path =>
      cases bit with
      | false =>
        obtain ⟨w, e, leaf⟩ := ihz (s := s.setWalk a) hz hw
        exact ⟨w, by simp [walkCode, read, childIndex, e]; rfl, leaf⟩
      | true =>
        obtain ⟨w, e, leaf⟩ := iho (s := s.setWalk b) ho hw
        exact ⟨w, by simp [walkCode, read, childIndex, e]; rfl, leaf⟩

/-- R107, R173: where the bits run out inside the tree, the machine's walk raises, having written WALK alone. -/
theorem walkCode_of_walk_none {T : HuffTree} {path : List Bool} {s : State} (h : Denotes s.huf.node T s.huf.walk)
    (hw : T.walk path = none) : ∃ w, walkCode path s = .raised .corruptStream (s.setWalk w) := by
  induction T generalizing path s with
  | leaf x => cases hw
  | node z o ihz iho =>
    obtain ⟨a, b, read, hz, ho⟩ := readNode_node h
    cases path with
    | nil => exact ⟨s.huf.walk, by simp [walkCode, read]; rfl⟩
    | cons bit path =>
      cases bit with
      | false =>
        obtain ⟨w, e⟩ := ihz (s := s.setWalk a) hz hw
        exact ⟨w, by simp [walkCode, read, childIndex, e]; rfl⟩
      | true =>
        obtain ⟨w, e⟩ := iho (s := s.setWalk b) ho hw
        exact ⟨w, by simp [walkCode, read, childIndex, e]; rfl⟩

/-- R175: the symbol EOS ends the call. -/
theorem takeSymbol_eos (s : State) : takeSymbol Config.eosValue s = .ok () s.callDone := if_pos rfl

/-- R175: a byte value is appended. -/
theorem takeSymbol_byte {s : State} (quiet : s.noIoFault) (b : Byte) :
    takeSymbol b.toNat s = .ok () (s.countAccess.pushOut b) := by
  have notEos : b.toNat ≠ Config.eosValue := b.isLt.ne
  rw [takeSymbol, if_neg notEos, outAppend_ok quiet, BitVec.ofNat_toNat, BitVec.setWidth_eq]

/-- What the item of a code runs. -/
theorem exec_hcode_eq (path : List Bool) (s : State) :
    exec (.hcode path) s =
      ((walkCode path (s.setWalk s.huf.root)).bind fun sym s1 => takeSymbol sym s1).finish := rfl

/-- Settles O38: the walk from ROOT ends at the leaf the tree's walk finds, and the loop body does the rest. -/
theorem codeItem : Obligations.CodeItem := by
  intro T path s quiet denotes
  refine ⟨fun rest hw => ?_, fun b rest hw => ?_, fun hw => ?_⟩
  · obtain ⟨w, e, leaf⟩ := walkCode_of_walk (s := s.setWalk s.huf.root) denotes hw
    rw [exec_hcode_eq, e, Res.bind_ok, takeSymbol_eos]
    exact ⟨_, rfl, leaf, rfl⟩
  · obtain ⟨w, e, leaf⟩ := walkCode_of_walk (s := s.setWalk s.huf.root) denotes hw
    rw [exec_hcode_eq, e, Res.bind_ok, takeSymbol_byte (by exact quiet)]
    exact ⟨_, rfl, leaf, rfl, rfl⟩
  · obtain ⟨w, e⟩ := walkCode_of_walk_none (s := s.setWalk s.huf.root) denotes hw
    rw [exec_hcode_eq, e, Res.bind_raised]
    exact ⟨_, rfl, ⟨rfl, rfl, rfl⟩, rfl⟩

/-! ### Node items (R97, R170, R36) -/

/-- R98, R235: a symbol's field as a signed value is the symbol. -/
theorem sext16_of_le {sym : BitVec 16} (h : sym.toNat ≤ Config.eosValue) : sext16 sym = sym.toNat := by
  have small : sym.toNat ≤ 256 := h
  exact BitVec.toInt_eq_toNat_of_lt (by omega)

/-- R179: the fields that are symbols are those up to EOS; a negative one is none. -/
theorem isSymbol_sext16 (sym : BitVec 16) : isSymbol (sext16 sym) = decide (sym.toNat ≤ Config.eosValue) := by
  have bound := sym.isLt
  have value : sext16 sym = if 2 * sym.toNat < 2 ^ 16 then (sym.toNat : Int) else sym.toNat - 2 ^ 16 :=
    BitVec.toInt_eq_toNat_cond sym
  have eos : Config.eosValue = 256 := rfl
  rw [Bool.eq_iff_iff, isSymbol]
  simp only [Bool.and_eq_true, decide_eq_true_eq]
  split at value <;> omega

/-- R170: a legal leaf completes the innermost open node. -/
theorem takeLeaf_of_le {sym : BitVec 16} (h : sym.toNat ≤ Config.eosValue) (i : Nat) (s : State) :
    takeLeaf i sym s = completeNode s.huf.dstk i (s.writeNode i (.leaf sym.toNat)) := by
  rw [takeLeaf, isSymbol_sext16, if_pos (decide_eq_true h), sext16_of_le h, Int.toNat_natCast]

/-- R179: a field that is no symbol is rejected. -/
theorem takeLeaf_of_lt {sym : BitVec 16} (h : Config.eosValue < sym.toNat) (i : Nat) (s : State) :
    takeLeaf i sym s = .raised .corruptStream s := by
  rw [takeLeaf, isSymbol_sext16, if_neg (by simpa using h)]

/-- The state in which the node at index N_NODES has been counted. -/
def State.counted (s : State) : State := s.setHuf { s.huf with nNodes := s.huf.nNodes + 1 }

theorem countNode_of_lt {s : State} (h : s.huf.nNodes < Config.nodeCap) : countNode s = .ok s.huf.nNodes s.counted := by
  rcases countNode_cases s with ⟨-, e⟩ | ⟨full, -⟩
  · exact e
  · omega

theorem countNode_of_ge {s : State} (h : Config.nodeCap ≤ s.huf.nNodes) :
    countNode s = .raised .corruptStream s.counted := by
  rcases countNode_cases s with ⟨room, -⟩ | ⟨-, e⟩
  · omega
  · exact e

/-- What the two node items run. -/
theorem exec_hnodeInternal_eq (s : State) :
    exec .hnodeInternal s = ((countNode s).bind fun i s1 => (takeInternal i s1).bind fun _ s2 => .ok () s2).finish :=
  rfl

theorem exec_hnodeLeaf_eq (sym : BitVec 16) (s : State) :
    exec (.hnodeLeaf sym) s =
      ((countNode s).bind fun i s1 => (takeLeaf i sym s1).bind fun _ s2 => .ok () s2).finish := rfl

/-- The item of an internal node opens it: the node is counted, written without children and put on DSTK. -/
theorem exec_hnodeInternal {s : State} (h : s.huf.nNodes < Config.nodeCap) :
    exec .hnodeInternal s =
      .next { s with huf := { s.huf with
        node := s.huf.node.write s.huf.nNodes (.internal none none)
        nNodes := s.huf.nNodes + 1
        dstk := (s.huf.nNodes, false) :: s.huf.dstk } } := by
  rw [exec_hnodeInternal_eq, countNode_of_lt h]
  rfl

/-- The item of a leaf, within both limits: its node is counted and written, and completes the innermost open
node. -/
theorem exec_hnodeLeaf {s : State} {sym : BitVec 16} (h : s.huf.nNodes < Config.nodeCap)
    (legal : sym.toNat ≤ Config.eosValue) :
    exec (.hnodeLeaf sym) s =
      ((completeNode s.huf.dstk s.huf.nNodes (s.counted.writeNode s.huf.nNodes (.leaf sym.toNat))).bind
        fun _ t => .ok () t).finish := by
  rw [exec_hnodeLeaf_eq, countNode_of_lt h, Res.bind_ok, takeLeaf_of_le legal]
  rfl

/-- A list of operations in two parts. -/
theorem runAll_append {is js : List Instr} {s t : State} (h : runAll is s = .next t) :
    runAll (is ++ js) s = runAll js t := by
  induction is generalizing s with
  | nil => cases h; rfl
  | cons i is ih =>
    unfold runAll at h
    simp only [List.cons_append, runAll]
    split at h
    · exact ih h
    · cases h
    · cases h

theorem runAll_singleton (i : Instr) (s : State) : runAll [i] s = exec i s := by
  unfold runAll
  cases exec i s <;> rfl

/-- R36: a first child leaves its node the innermost open one. -/
theorem completeNode_zero {j i : Nat} {z o : Option Nat} {rest : List (Nat × Bool)} {s : State}
    (h : readNode j s = .ok (.internal z o) s) :
    completeNode ((j, false) :: rest) i s =
      .ok false (s.setHuf { s.huf with
        node := s.huf.node.write j (.internal (some i) o)
        dstk := (j, true) :: rest }) := by
  rw [completeNode, setZeroChild_eq_ok.mpr ⟨z, o, h, rfl⟩]
  rfl

/-- R36: a second child completes its node, which completes the next open one. -/
theorem completeNode_one {j i : Nat} {z o : Option Nat} {rest : List (Nat × Bool)} {s : State}
    (h : readNode j s = .ok (.internal z o) s) :
    completeNode ((j, true) :: rest) i s =
      completeNode rest j (s.setHuf { s.huf with
        node := s.huf.node.write j (.internal z (some i))
        dstk := rest }) := by
  rw [completeNode, setOneChild_eq_ok.mpr ⟨z, o, h, rfl⟩]
  rfl

/-- From `s` to `t` a tree was built on the entries from N_NODES on, counted, and nothing else changed: what a
tree's items do before its root completes the innermost open node. -/
structure BuildsTree (T : HuffTree) (s t : State) : Prop where
  built : DenotesIn t.huf.node T s.huf.nNodes s.huf.nNodes (s.huf.nNodes + T.size)
  below : ∀ j, j < s.huf.nNodes → t.huf.node.read j = s.huf.node.read j
  frame : t = s.setHuf { s.huf with node := t.huf.node, nNodes := s.huf.nNodes + T.size }

/-- The state after the item of an internal node. -/
def State.opened (s : State) : State :=
  s.setHuf { s.huf with
    node := s.huf.node.write s.huf.nNodes (.internal none none)
    nNodes := s.huf.nNodes + 1
    dstk := (s.huf.nNodes, false) :: s.huf.dstk }

/-- The state in which the innermost open node `n` has its zero-child, the node after it. -/
def State.zeroDone (s : State) (n : Nat) (d : List (Nat × Bool)) : State :=
  s.setHuf { s.huf with node := s.huf.node.write n (.internal (some (n + 1)) none), dstk := (n, true) :: d }

/-- The state in which the node `n` has both its children, the second of them at `i`. -/
def State.oneDone (s : State) (n i : Nat) (d : List (Nat × Bool)) : State :=
  s.setHuf { s.huf with node := s.huf.node.write n (.internal (some (n + 1)) (some i)), dstk := d }

/-- An internal node is built when it is opened and its two children are built in turn. -/
theorem BuildsTree.node {z o : HuffTree} {s u v : State} (cap : s.huf.nNodes < Config.nodeCap)
    (hz : BuildsTree z s.opened u) (ho : BuildsTree o (u.zeroDone s.huf.nNodes s.huf.dstk) v) :
    BuildsTree (.node z o) s (v.oneDone s.huf.nNodes (s.huf.nNodes + 1 + z.size) s.huf.dstk) := by
  obtain ⟨builtZ, belowZ, frameZ⟩ := hz
  obtain ⟨builtO, belowO, frameO⟩ := ho
  have count : u.huf.nNodes = s.huf.nNodes + 1 + z.size := by rw [frameZ]; rfl
  have count' : (u.zeroDone s.huf.nNodes s.huf.dstk).huf.nNodes = s.huf.nNodes + 1 + z.size := count
  rw [count'] at builtO belowO frameO
  have afterO (j : Nat) (hj : s.huf.nNodes + 1 ≤ j) :
      (v.oneDone s.huf.nNodes (s.huf.nNodes + 1 + z.size) s.huf.dstk).huf.node.read j = v.huf.node.read j :=
    Memory.read_write_other _ _ (by omega)
  have afterZ (j : Nat) (hj : s.huf.nNodes + 1 ≤ j) (hj' : j < s.huf.nNodes + 1 + z.size) :
      (v.oneDone s.huf.nNodes (s.huf.nNodes + 1 + z.size) s.huf.dstk).huf.node.read j = u.huf.node.read j := by
    rw [afterO j hj, belowO j hj']
    exact Memory.read_write_other _ _ (by omega)
  refine ⟨.node cap le_rfl (by simp [HuffTree.size]) (Memory.read_write_same ..)
      (builtZ.mono (Nat.le_succ _) ?_ afterZ)
      (builtO.mono (by omega) ?_ fun j hj _ => afterO j (by omega)), fun j hj => ?_, ?_⟩
  · change s.huf.nNodes + 1 + z.size ≤ _
    simp only [HuffTree.size]
    omega
  · simp only [HuffTree.size]
    omega
  · calc (v.oneDone s.huf.nNodes (s.huf.nNodes + 1 + z.size) s.huf.dstk).huf.node.read j
        = v.huf.node.read j := Memory.read_write_other _ _ hj.ne
      _ = (u.zeroDone s.huf.nNodes s.huf.dstk).huf.node.read j := belowO j (by omega)
      _ = u.huf.node.read j := Memory.read_write_other _ _ hj.ne
      _ = s.opened.huf.node.read j := belowZ j (Nat.lt_succ_of_lt hj)
      _ = s.huf.node.read j := Memory.read_write_other _ _ hj.ne
  · rw [frameO, frameZ]
    simp [State.oneDone, State.zeroDone, State.opened, State.setHuf, HuffTree.size]
    omega

/-- R170, R36: the items of a tree build it from N_NODES on, and then its root completes the innermost open
node, whichever nodes are open. -/
theorem runAll_items {T : HuffTree} {s : State} (legal : T.legalAfter s.huf.nNodes) :
    ∃ u, BuildsTree T s u ∧
      runAll T.items s = ((completeNode s.huf.dstk s.huf.nNodes u).bind fun _ t => .ok () t).finish := by
  induction T generalizing s with
  | leaf sym =>
    obtain ⟨symbols, room⟩ := legal
    have small : sym ≤ Config.eosValue := symbols sym (List.mem_singleton_self sym)
    have field : (BitVec.ofNat 16 sym).toNat = sym := by
      rw [BitVec.toNat_ofNat, Nat.mod_eq_of_lt (Nat.lt_of_le_of_lt small (by decide))]
    have cap : s.huf.nNodes < Config.nodeCap := room
    refine ⟨s.counted.writeNode s.huf.nNodes (.leaf sym), ⟨?_, fun j hj => ?_, rfl⟩, ?_⟩
    · exact .leaf cap le_rfl (Nat.lt_succ_self _) (Memory.read_write_same ..)
    · exact Memory.read_write_other _ _ hj.ne
    · rw [HuffTree.items, runAll_singleton, exec_hnodeLeaf cap (by rwa [field]), field]
  | node z o ihz iho =>
    obtain ⟨symbols, room⟩ := legal
    simp only [HuffTree.size] at room
    simp only [HuffTree.leaves, List.mem_append] at symbols
    have cap : s.huf.nNodes < Config.nodeCap := by omega
    obtain ⟨u, hu, runZ⟩ := ihz (s := s.opened)
      ⟨fun x hx => symbols x (.inl hx), show s.huf.nNodes + 1 + z.size ≤ _ by omega⟩
    have count : u.huf.nNodes = s.huf.nNodes + 1 + z.size := by rw [hu.frame]; rfl
    have openU : readNode s.huf.nNodes u = .ok (.internal none none) u :=
      readNode_eq_ok.mpr ⟨rfl, cap, (hu.below _ (Nat.lt_succ_self _)).trans (Memory.read_write_same ..)⟩
    obtain ⟨v, hv, runO⟩ := iho (s := u.zeroDone s.huf.nNodes s.huf.dstk)
      ⟨fun x hx => symbols x (.inr hx), show u.huf.nNodes + o.size ≤ _ by omega⟩
    have openV : readNode s.huf.nNodes v = .ok (.internal (some (s.huf.nNodes + 1)) none) v :=
      readNode_eq_ok.mpr ⟨rfl, cap,
        (hv.below _ (show s.huf.nNodes < u.huf.nNodes by omega)).trans (Memory.read_write_same ..)⟩
    refine ⟨_, .node cap hu hv, ?_⟩
    have first : runAll [.hnodeInternal] s = .next s.opened := by
      rw [runAll_singleton, exec_hnodeInternal cap]
      rfl
    have second : runAll z.items s.opened = .next (u.zeroDone s.huf.nNodes s.huf.dstk) := by
      rw [runZ]
      exact congrArg (fun r => (Res.bind r fun _ t => .ok () t).finish) (completeNode_zero openU)
    have third : completeNode ((s.huf.nNodes, true) :: s.huf.dstk) u.huf.nNodes v =
        completeNode s.huf.dstk s.huf.nNodes
          (v.oneDone s.huf.nNodes (s.huf.nNodes + 1 + z.size) s.huf.dstk) := by
      rw [completeNode_one openV, count]
      rfl
    calc runAll (HuffTree.node z o).items s
        = runAll (z.items ++ o.items) s.opened := runAll_append first
      _ = runAll o.items (u.zeroDone s.huf.nNodes s.huf.dstk) := runAll_append second
      _ = _ := runO.trans (congrArg (fun r => (Res.bind r fun _ t => .ok () t).finish) third)

/-- Settles O37: the items one by one, then a tree's items from an empty DSTK, where the root's completion
writes ROOT. -/
theorem nodeItems : Obligations.NodeItems := by
  refine ⟨fun s h => exec_hnodeInternal h, fun s sym h legal empty => ?_, fun s sym h illegal => ?_,
    fun s sym full => ⟨?_, ?_⟩, fun T s empty legal => ?_⟩
  · rw [exec_hnodeLeaf h legal, empty]
    refine congrArg Host.Outcome.next ?_
    rw [← empty]
    rfl
  · rw [exec_hnodeLeaf_eq, countNode_of_lt h, Res.bind_ok, takeLeaf_of_lt illegal]
    exact ⟨_, rfl, ⟨rfl, rfl, rfl⟩, rfl⟩
  · rw [exec_hnodeInternal_eq, countNode_of_ge full]
    exact ⟨_, rfl, ⟨rfl, rfl, rfl⟩, rfl⟩
  · rw [exec_hnodeLeaf_eq, countNode_of_ge full]
    exact ⟨_, rfl, ⟨rfl, rfl, rfl⟩, rfl⟩
  · obtain ⟨u, hu, run⟩ := runAll_items legal
    rw [run, empty]
    refine ⟨_, rfl, hu.built.denotes, ?_⟩
    rw [hu.frame, ← empty]
    rfl

end Sys2Proof.Machine
end

section
/-! PROOFS, LzwChains. A code's chain of links in D_DICT (R209, R210) spells its string: both walks follow it,
and the expansion puts the string in OUT. -/

namespace Sys2Proof.Machine

/-! ### Strings of codes -/

/-- R210: no code spells the empty string. -/
theorem Spells.exists_head {d : Memory DictEntry} {c : Nat} {str : List Byte} (h : Spells d c str) :
    ∃ b, str.head? = some b := by
  induction h with
  | literal b => exact ⟨b, rfl⟩
  | entry i e str _ _ ih =>
    obtain ⟨b, hb⟩ := ih
    exact ⟨b, by simp [hb]⟩

/-- R39: a byte is a literal's code. -/
theorem literal_lt (b : Byte) : b.toNat < Config.nLiterals := b.isLt

/-- R210: a literal spells its byte. -/
theorem spells_literal (d : Memory DictEntry) {c : Nat} (h : c < Config.nLiterals) :
    Spells d c [BitVec.ofNat 8 c] := by
  have value : (BitVec.ofNat 8 c).toNat = c := (BitVec.toNat_ofNat c 8).trans (Nat.mod_eq_of_lt h)
  simpa only [value] using Spells.literal (d := d) (BitVec.ofNat 8 c)

/-- R39, R210: every code of the table spells a string, no longer than the table allows. -/
theorem DictOk.spells {s : State} (ok : DictOk s) {c : Nat} (h : c < Config.nLiterals + s.lzw.dSize) :
    ∃ str, Spells s.lzw.dDict c str ∧ str.length ≤ s.lzw.dSize + 1 := by
  have bounded : ∃ str, Spells s.lzw.dDict c str ∧
      str.length + (Config.nLiterals - 1) ≤ max c (Config.nLiterals - 1) + 1 := by
    induction c using Nat.strong_induction_on with
    | _ c ih =>
      by_cases literal : c < Config.nLiterals
      · exact ⟨_, spells_literal _ literal, by simp only [List.length_singleton]; omega⟩
      · obtain ⟨i, rfl⟩ := Nat.exists_eq_add_of_le (Nat.not_lt.mp literal)
        obtain ⟨e, entry, earlier⟩ := ok i (by omega)
        obtain ⟨str, spells, length⟩ := ih e.pred earlier (earlier.trans h)
        exact ⟨_, .entry i e str entry spells, by simp only [List.length_append, List.length_singleton]; omega⟩
  obtain ⟨str, spells, length⟩ := bounded
  exact ⟨str, spells, by omega⟩

/-! ### The two walks -/

/-- R39: a code of the table is looked up at its place after the literals. -/
theorem readDict_entry {s : State} {i : Nat} {e : DictEntry} (h : s.lzw.dDict.read i = some e) :
    readDict (Config.nLiterals + i) s = .ok e s :=
  readDict_eq_ok.mpr ⟨rfl, by rwa [Nat.add_sub_cancel_left]⟩

/-- R209: the walk ends at the string's first byte, in as many steps as the string has bytes. -/
theorem firstLoop_of_spells {d : Memory DictEntry} {c n : Nat} {str : List Byte} {b : Byte} {s : State}
    (h : Spells d c str) (hd : s.lzw.dDict = d) (hn : str.length ≤ n) (hb : str.head? = some b) :
    firstLoop n c s = .ok b s := by
  induction h generalizing n with
  | literal x =>
    obtain ⟨n, rfl⟩ := Nat.exists_eq_add_of_le' hn
    obtain rfl : x = b := Option.some.inj hb
    rw [List.length_singleton, firstLoop, if_pos (literal_lt x), BitVec.ofNat_toNat, BitVec.setWidth_eq]
  | entry i e str entry spells ih =>
    rw [List.length_append, List.length_singleton] at hn
    obtain ⟨n, rfl⟩ := Nat.exists_eq_add_of_le' (Nat.le_of_add_left_le hn)
    have first : str.head? = some b := by
      obtain ⟨x, hx⟩ := spells.exists_head
      simpa [hx] using hb
    rw [firstLoop_entry n s (Nat.le_add_right ..), readDict_entry (hd ▸ entry), Res.bind_ok, ih (by omega) first]

/-- R210: the walk that pushes leaves the string on top of XSTK, first byte first. -/
theorem pushChain_of_spells {d : Memory DictEntry} {c n : Nat} {str : List Byte} {s : State} (h : Spells d c str)
    (hd : s.lzw.dDict = d) (hn : str.length ≤ n) : pushChain n c s = .ok () (s.setXstk (str ++ s.lzw.xstk)) := by
  induction h generalizing n s with
  | literal x =>
    obtain ⟨n, rfl⟩ := Nat.exists_eq_add_of_le' hn
    rw [List.length_singleton, pushChain, if_pos (literal_lt x), BitVec.ofNat_toNat, BitVec.setWidth_eq]
    rfl
  | entry i e str entry spells ih =>
    rw [List.length_append, List.length_singleton] at hn
    obtain ⟨n, rfl⟩ := Nat.exists_eq_add_of_le' (Nat.le_of_add_left_le hn)
    rw [pushChain_entry n s (Nat.le_add_right ..), readDict_entry (hd ▸ entry), Res.bind_ok,
      ih (s := s.setXstk (e.byte :: s.lzw.xstk)) hd (by omega)]
    simp [State.setXstk, State.setLzw]

/-- Two runs of appended bytes, one after the other. -/
theorem Appends.trans {s t u : State} {as bs : List Byte} (h : Appends s t as) (h' : Appends t u bs) :
    Appends s u (as ++ bs) := by
  obtain ⟨out, frame⟩ := h
  obtain ⟨out', frame'⟩ := h'
  exact ⟨by rw [out', out, List.append_assoc], by rw [frame', frame]⟩

/-- R210: XSTK is popped to OUT and left empty. -/
theorem popStack_ok {bs : List Byte} {s : State} (quiet : s.noIoFault) (hx : s.lzw.xstk = bs) :
    ∃ t, popStack bs s = .ok () t ∧ Appends (s.setXstk []) t bs := by
  induction bs generalizing s with
  | nil => exact ⟨s, rfl, by simp, by rw [State.setXstk, ← hx]; rfl⟩
  | cons b bs ih =>
    obtain ⟨t, run, appends⟩ := ih (s := (s.countAccess.pushOut b).setXstk bs) quiet rfl
    refine ⟨t, by rw [popStack, outAppend_ok quiet, Res.bind_ok, run], ?_⟩
    exact Appends.trans (t := (s.countAccess.pushOut b).setXstk []) (as := [b]) ⟨rfl, rfl⟩ appends

/-- R209: FIRST answers the first byte of a code's string. -/
theorem ldFirst_of_spells {s : State} {c : Nat} {str : List Byte} {b : Byte} (h : Spells s.lzw.dDict c str)
    (length : str.length ≤ s.lzw.dSize + 1) (hb : str.head? = some b) : ldFirst c s = .ok b s :=
  firstLoop_of_spells h rfl length hb

/-- R210: EXPAND appends a code's string to OUT. -/
theorem ldExpand_of_spells {s : State} (quiet : s.noIoFault) {c : Nat} {str : List Byte}
    (h : Spells s.lzw.dDict c str) (length : str.length ≤ s.lzw.dSize + 1) :
    ∃ t, ldExpand c s = .ok () t ∧ Appends (s.setXstk []) t str := by
  obtain ⟨t, run, appends⟩ := popStack_ok (s := s.setXstk str) quiet rfl
  have pushed : str ++ (s.setXstk []).lzw.xstk = str := List.append_nil str
  refine ⟨t, ?_, appends⟩
  rw [ldExpand, pushChain_of_spells (s := s.setXstk []) h rfl length, Res.bind_ok, pushed]
  exact run

/-- The state after a run of appended bytes, written out. -/
theorem Appends.exists_eq {s t : State} {bs : List Byte} (h : Appends s t bs) :
    ∃ a, t = { s with io := { s.io with out := s.io.out ++ bs }, env := { s.env with accNo := a } } := by
  obtain ⟨out, frame⟩ := h
  exact ⟨t.env.accNo, by rw [frame, out]⟩

/-! ### R213 but for its last line -/

/-- R215: a code above the next one is rejected before anything is done. -/
theorem ldStepBody_above {s : State} (h : Config.nLiterals + s.lzw.dSize < s.lzw.c2) :
    ldStepBody s = .raised .corruptStream s := if_pos h

/-- R213, R214: with both codes in order, the first byte of the new entry is found and C1's string goes to OUT;
what is left is the entry and the width. -/
theorem ldStepBody_eq {s : State} (quiet : s.noIoFault) (ok : DictOk s)
    (h1 : s.lzw.c1 < Config.nLiterals + s.lzw.dSize) (h2 : s.lzw.c2 ≤ Config.nLiterals + s.lzw.dSize) :
    ∃ str1 strx fb u, Spells s.lzw.dDict s.lzw.c1 str1 ∧
      Spells s.lzw.dDict (if s.lzw.c2 = Config.nLiterals + s.lzw.dSize then s.lzw.c1 else s.lzw.c2) strx ∧
      strx.head? = some fb ∧ Appends (s.setXstk []) u str1 ∧
      ldStepBody s = (ldAppend fb u).bind fun _ v =>
        ldGrow (Config.nLiterals + s.lzw.dSize) (v.setLzw { v.lzw with c1 := v.lzw.c2 }) := by
  have inTable : (if s.lzw.c2 = Config.nLiterals + s.lzw.dSize then s.lzw.c1 else s.lzw.c2) <
      Config.nLiterals + s.lzw.dSize := by
    split <;> omega
  obtain ⟨str1, spells1, length1⟩ := ok.spells h1
  obtain ⟨strx, spellsx, lengthx⟩ := ok.spells inTable
  obtain ⟨fb, head⟩ := spellsx.exists_head
  obtain ⟨u, expand, appends⟩ := ldExpand_of_spells quiet spells1 length1
  refine ⟨str1, strx, fb, u, spells1, spellsx, head, appends, ?_⟩
  simp only [ldStepBody]
  rw [if_neg (by omega), ldFirst_of_spells spellsx lengthx head, Res.bind_ok, expand, Res.bind_ok]

/-- R211: the registers after the decoder's growth test. -/
theorem ldGrow_registers (n : Nat) (s : State) :
    ∃ m, ldGrow n s = .ok () (s.setLzw { s.lzw with width := decoderWidth s.lzw n, maxCode := m }) ∧
      (WidthOk s.lzw → Config.initWidth ≤ decoderWidth s.lzw n ∧ m = 2 ^ decoderWidth s.lzw n) := by
  rw [ldGrow_eq]
  unfold decoderWidth
  split
  · exact ⟨_, rfl, fun wide => ⟨Nat.le_succ_of_le wide.1, Nat.one_shiftLeft _⟩⟩
  · exact ⟨_, rfl, id⟩

/-- R213, R211: the whole of the step's effect, where the codes are in order and the table has room. -/
theorem ldStepBody_ok {s : State} (quiet : s.noIoFault) (ready : StepReady s) :
    ∃ t, ldStepBody s = .ok () t ∧ StepEffect s t ∧
      t = { s with
            io := { s.io with out := t.io.out }
            lzw := t.lzw
            env := { s.env with accNo := t.env.accNo } } := by
  obtain ⟨ok, h1, h2, room⟩ := ready
  obtain ⟨str1, strx, fb, u, spells1, spellsx, head, appends, run⟩ := ldStepBody_eq quiet ok h1 h2
  obtain ⟨a, hu⟩ := appends.exists_eq
  rcases ldAppend_cases fb u with ⟨full, -⟩ | ⟨-, append⟩ <;> subst hu
  · exact absurd full room
  · rw [append, Res.bind_ok] at run
    obtain ⟨m, grow, wide⟩ := ldGrow_registers (Config.nLiterals + s.lzw.dSize) _
    rw [grow] at run
    exact ⟨_, run, ⟨str1, strx, fb, spells1, spellsx, head, rfl, rfl, rfl, rfl, rfl, wide, rfl, rfl, rfl, rfl⟩, rfl⟩

/-- R196, R213: a full table stops the step after C1's string went out. -/
theorem ldStepBody_full {s : State} (quiet : s.noIoFault) (ok : DictOk s)
    (h1 : s.lzw.c1 < Config.nLiterals + s.lzw.dSize) (h2 : s.lzw.c2 ≤ Config.nLiterals + s.lzw.dSize)
    (full : s.lzw.dSize = s.env.dictCap) :
    ∃ str t, Spells s.lzw.dDict s.lzw.c1 str ∧ ldStepBody s = .raised .codeSpaceExhausted t ∧
      Appends (s.setXstk []) t str := by
  obtain ⟨str1, strx, fb, u, spells1, -, -, appends, run⟩ := ldStepBody_eq quiet ok h1 h2
  refine ⟨str1, u, spells1, ?_, appends⟩
  obtain ⟨a, hu⟩ := appends.exists_eq
  rcases ldAppend_cases fb u with ⟨-, append⟩ | ⟨room, -⟩
  · rw [run, append, Res.bind_raised]
  · subst hu
    exact absurd full room

end Sys2Proof.Machine
end

section
/-! PROOFS, LcodeItem. One F-LCODE item (log entries 5 and 6): its bits as a code, and what is done with it. -/

namespace Sys2Proof.Machine

/-- What the item of a code runs. -/
theorem exec_lcode_eq (w c : Nat) (s : State) :
    exec (.lcode w c) s = ((itemCode w c s).bind fun c s1 => takeCode c s1).finish := rfl

/-- R207: the item's first WIDTH bits, where it has them and WIDTH is within the ceiling. -/
theorem itemCode_of_le {w c : Nat} {s : State} (hw : 8 ≤ w) (ceiling : s.lzw.width ≤ s.env.maxWidth)
    (enough : s.lzw.width ≤ w) : itemCode w c s = .ok (some (c >>> (w - s.lzw.width))) s := by
  rw [itemCode, if_neg (by omega), if_neg (by omega), if_neg (by omega)]

/-- R207, R248: the ceiling is tested before the item's length. -/
theorem itemCode_of_ceiling {w c : Nat} {s : State} (hw : 8 ≤ w) (beyond : s.env.maxWidth < s.lzw.width) :
    itemCode w c s = .raised .codeSpaceExhausted s := by
  rw [itemCode, if_neg (by omega), if_pos beyond]

/-- R207: an item of fewer bits than WIDTH is a truncated code. -/
theorem itemCode_of_short {w c : Nat} {s : State} (hw : 8 ≤ w) (ceiling : s.lzw.width ≤ s.env.maxWidth)
    (short : w < s.lzw.width) : itemCode w c s = .raised .corruptStream s := by
  rw [itemCode, if_neg (by omega), if_neg (by omega), if_pos short]

/-- An item of WIDTH bits is its code. -/
theorem exec_lcode_of_width {w c : Nat} {s : State} (hw : 8 ≤ w) (ceiling : s.lzw.width ≤ s.env.maxWidth)
    (width : w = s.lzw.width) : exec (.lcode w c) s = (takeCode (some c) s).finish := by
  rw [exec_lcode_eq, itemCode_of_le hw ceiling width.ge, width, Nat.sub_self, Nat.shiftRight_zero, Res.bind_ok]

/-- R217: the first code of a stream. -/
theorem takeCode_first {c : Nat} {s : State} (first : s.lzw.c1Held = false) :
    takeCode (some c) s = takeFirstCode c s := by
  simp [takeCode, first]

/-- R213, R217: every later code is C2, and its step runs. -/
theorem takeCode_later {c : Nat} {s : State} (later : s.lzw.c1Held = true) :
    takeCode (some c) s = ldStepBody (s.setLzw { s.lzw with c2 := c, c2Valid := true }) := by
  simp [takeCode, later, State.setC2]

/-- Settles O50: the item's bits first (R207), then, for an item of WIDTH bits, the place in the stream and the
step's own cases. -/
theorem lcodeItem : Obligations.LcodeItem := by
  intro w c s hw _ hwidth
  have hw : 8 ≤ w := Nat.le_of_succ_le hw
  refine ⟨fun ceiling width => ?_, fun ceiling long => ?_, fun ceiling short => ?_, fun beyond => ?_⟩
  · rw [exec_lcode_of_width hw ceiling width]
    refine ⟨fun first literal => ?_, fun first notLiteral => ?_, fun later quiet ready => ?_, fun later above => ?_,
      fun later quiet ok h1 h2 full => ?_⟩
    · rw [takeCode_first first, takeFirstCode, if_neg (Nat.not_le.mpr literal)]
      rfl
    · rw [takeCode_first first, takeFirstCode, if_pos notLiteral]
      exact ⟨_, rfl, ⟨rfl, rfl, rfl⟩, rfl⟩
    · obtain ⟨t, run, effect, frame⟩ :=
        ldStepBody_ok (s := s.setLzw { s.lzw with c2 := c, c2Valid := true }) quiet ready
      rw [takeCode_later later, run]
      exact ⟨t, rfl, effect, frame⟩
    · rw [takeCode_later later, ldStepBody_above (by exact above)]
      exact ⟨_, rfl, ⟨rfl, rfl, rfl⟩, rfl⟩
    · obtain ⟨str, t, spells, run, out, frame⟩ :=
        ldStepBody_full (s := s.setLzw { s.lzw with c2 := c, c2Valid := true }) quiet ok h1 h2 full
      rw [takeCode_later later, run]
      refine ⟨str, _, spells, rfl, ⟨rfl, rfl, rfl⟩, out, ?_, ?_⟩ <;> rw [State.abort_lzw, frame] <;> rfl
  · rw [exec_lcode_eq, itemCode_of_le hw ceiling long.le, Res.bind_ok,
      exec_lcode_of_width (Nat.le_of_succ_le hwidth) ceiling rfl]
  · rw [exec_lcode_eq, itemCode_of_short hw ceiling short]
    rfl
  · rw [exec_lcode_eq, itemCode_of_ceiling hw beyond]
    rfl

end Sys2Proof.Machine
end

section
/-! PROOFS, Writer. What the writer's operations send with the default oracle, as bits (R65, R68): each one adds
its own bits to those sent before and changes the writer alone. -/

namespace Sys2Proof.Machine

/-! ### Bytes as bits (R65) -/

theorem getElem?_byteBits (x : Byte) (k : Nat) :
    (byteBits x)[k]? = if k < 8 then some (x.getLsbD (7 - k)) else none := getElem?_bitsOfNat 8 x.toNat k

@[simp] theorem length_byteBits (x : Byte) : (byteBits x).length = 8 := length_bitsOfNat 8 x.toNat

theorem length_flatMap_byteBits (bytes : List Byte) : (bytes.flatMap byteBits).length = 8 * bytes.length := by
  simp [List.length_flatMap, Nat.mul_comm]

/-- R122: a bit that joins at the next free place, with zeros there and below. -/
theorem take_byteBits_addBit {acc : Byte} {n : Nat} (hn : n < 8) (zero : ∀ j, j + n < 8 → acc.getLsbD j = false)
    (b : Bool) :
    (byteBits (acc ||| ((if b then 1 else 0 : Byte) <<< (7 - n)))).take (n + 1) = (byteBits acc).take n ++ [b] := by
  have full : ((byteBits acc).take n).length = n := by simp; omega
  refine List.ext_getElem? fun k => ?_
  rw [List.getElem?_take, getElem?_byteBits, List.getElem?_append, full, List.getElem?_take, getElem?_byteBits]
  rcases Nat.lt_trichotomy k n with below | rfl | above
  · have index : 7 - k - (7 - n) = n - k - 1 + 1 := by omega
    have high : ((if b then 1 else 0 : Byte)).getLsbD (n - k - 1 + 1) = false := by cases b <;> simp
    simp only [below, below.trans hn, Nat.lt_succ_of_lt below, if_true, BitVec.getLsbD_or, BitVec.getLsbD_shiftLeft,
      index, high, Bool.and_false, Bool.or_false]
  · have bit : (acc ||| ((if b then 1 else 0 : Byte) <<< (7 - k))).getLsbD (7 - k) = b := by
      rw [BitVec.getLsbD_or, zero _ (by omega), BitVec.getLsbD_shiftLeft, Nat.sub_self, decide_eq_true (by omega)]
      cases b <;> simp
    rw [if_pos (Nat.lt_succ_self k), if_pos hn, bit, if_neg (Nat.lt_irrefl k), Nat.sub_self]
    rfl
  · have past : ¬ k < n + 1 := by omega
    have past' : [b][k - n]? = none := List.getElem?_eq_none (by simp; omega)
    simp [past, past', Nat.not_lt.mpr above.le]

/-- R123: the byte put together on the shifting path, its low places taken from the byte sent. -/
theorem byteBits_joined {acc : Byte} {n : Nat} (hn : n < 8) (zero : ∀ j, j + n < 8 → acc.getLsbD j = false) (b : Byte) :
    byteBits (acc ||| (b >>> n)) = (byteBits acc).take n ++ (byteBits b).take (8 - n) := by
  have full : ((byteBits acc).take n).length = n := by simp; omega
  refine List.ext_getElem? fun k => ?_
  rw [getElem?_byteBits, List.getElem?_append, full, List.getElem?_take, getElem?_byteBits, List.getElem?_take,
    getElem?_byteBits]
  by_cases below : k < n
  · have gone : b.getLsbD (n + (7 - k)) = false := BitVec.getLsbD_of_ge _ _ (by omega)
    simp [below, below.trans hn, gone]
  · by_cases inside : k < 8
    · have index : n + (7 - k) = 7 - (k - n) := by omega
      have inside' : k - n < 8 - n := by omega
      have inside'' : k - n < 8 := by omega
      simp [below, inside, inside', inside'', zero (7 - k) (by omega), index]
    · have past : ¬ k - n < 8 - n := by omega
      simp [below, inside, past]

/-- R123: what is left pending on the shifting path. -/
theorem take_byteBits_shifted {n : Nat} (hn : n < 8) (b : Byte) :
    (byteBits (b <<< (8 - n))).take n = (byteBits b).drop (8 - n) := by
  refine List.ext_getElem? fun k => ?_
  rw [List.getElem?_take, getElem?_byteBits, List.getElem?_drop, getElem?_byteBits]
  by_cases below : k < n
  · have index : 7 - k - (8 - n) = 7 - (8 - n + k) := by omega
    have inside : 8 - n + k < 8 := by omega
    have notBelow : ¬ 7 - k < 8 - n := by omega
    rw [if_pos below, if_pos (below.trans hn), if_pos inside, BitVec.getLsbD_shiftLeft, index,
      decide_eq_true (by omega), decide_eq_false notBelow]
    rfl
  · have past : ¬ 8 - n + k < 8 := by omega
    simp [below, past]

/-! ### Bits sent -/

theorem Sends.refl {s : State} (clean : s.writerClean) : Sends s s [] :=
  ⟨.refl s, clean, (List.append_nil _).symm⟩

theorem Sends.trans {s t u : State} {as bs : List Bool} (h : Sends s t as) (h' : Sends t u bs) :
    Sends s u (as ++ bs) := by
  obtain ⟨only, -, sent⟩ := h
  obtain ⟨only', clean, sent'⟩ := h'
  exact ⟨only.trans only', clean, by rw [sent', sent, List.append_assoc]⟩

theorem Sends.clean {s t : State} {bits : List Bool} (h : Sends s t bits) : t.writerClean := h.2.1

theorem Sends.noIoFault {s t : State} {bits : List Bool} (h : Sends s t bits) (quiet : s.noIoFault) : t.noIoFault :=
  h.1.ioFaults.trans quiet

theorem Sends.huf {s t : State} {bits : List Bool} (h : Sends s t bits) : t.huf = s.huf := by
  rw [h.1.1]

/-- The operation ends well, with exactly these bits sent. -/
def Res.Sent (r : Res Unit) (s : State) (bits : List Bool) : Prop := ∃ t, r = .ok () t ∧ Sends s t bits

/-- Two sending operations, one after the other. -/
theorem Res.Sent.bind {r : Res Unit} {f : Unit → State → Res Unit} {s : State} {as bs : List Bool}
    (h : r.Sent s as) (hf : ∀ t, Sends s t as → (f () t).Sent t bs) : (r.bind f).Sent s (as ++ bs) := by
  obtain ⟨t, run, sends⟩ := h
  obtain ⟨u, run', sends'⟩ := hf t sends
  exact ⟨u, by rw [run, Res.bind_ok, run'], sends.trans sends'⟩

/-- R122: W_ACC with the bit at its next free place. -/
def State.accWith (s : State) (b : Bool) : Byte := s.bc.wAcc ||| ((if b then 1 else 0 : Byte) <<< (7 - s.bc.wCnt.val))

theorem putBit_eq (b : Bool) (s : State) :
    putBit b s =
      if s.bc.wCnt = 7 then
        (outAppend (s.accWith b) (s.setWriter (s.accWith b) s.bc.wCnt)).bind fun _ t => .ok () (t.setWriter 0 0)
      else .ok () (s.setWriter (s.accWith b) (s.bc.wCnt + 1)) := rfl

/-- R27: the pending bits as the writer's two registers give them. -/
theorem pendingBits_setWriter (s : State) (acc : Byte) (cnt : Fin 8) :
    (s.setWriter acc cnt).sentBits = s.io.out.flatMap byteBits ++ (byteBits acc).take cnt.val := rfl

/-- R122: the bit joins the pending ones, which go to OUT when they are a whole byte. -/
theorem putBit_sent {s : State} (quiet : s.noIoFault) (clean : s.writerClean) (b : Bool) : (putBit b s).Sent s [b] := by
  have joined : (byteBits (s.accWith b)).take (s.bc.wCnt.val + 1) = (byteBits s.bc.wAcc).take s.bc.wCnt.val ++ [b] :=
    take_byteBits_addBit s.bc.wCnt.isLt ((writerClean_iff s).mp clean) b
  have run := putBit_eq b s
  by_cases last : s.bc.wCnt = 7
  · rw [if_pos last, outAppend_ok (by exact quiet), Res.bind_ok] at run
    have whole : (byteBits (s.accWith b)).take (s.bc.wCnt.val + 1) = byteBits (s.accWith b) :=
      List.take_of_length_le (by rw [length_byteBits, last]; rfl)
    refine ⟨_, run, putBit_onlyWriter (.inl ⟨_, run⟩), writerClean_setWriter_zero _, ?_⟩
    rw [whole] at joined
    simp [State.sentBits, State.pendingBits, joined]
  · rw [if_neg last] at run
    have next : (s.bc.wCnt + 1).val = s.bc.wCnt.val + 1 := Fin.val_add_one_of_lt' (by omega)
    refine ⟨_, run, putBit_onlyWriter (.inl ⟨_, run⟩), writerClean_addBit clean b last, ?_⟩
    simp [State.sentBits, State.pendingBits, next, joined]

/-- R159's loop: the bits in order. -/
theorem putList_sent {s : State} (quiet : s.noIoFault) (clean : s.writerClean) (bits : List Bool) :
    (putList bits s).Sent s bits := by
  induction bits generalizing s with
  | nil => exact ⟨s, rfl, .refl clean⟩
  | cons b bits ih => exact (putBit_sent quiet clean b).bind fun t ht => ih (ht.noIoFault quiet) ht.clean

theorem putByte_aligned {s : State} (quiet : s.noIoFault) (h : s.bc.wCnt = 0) (b : Byte) :
    putByte b s = .ok () (s.countAccess.pushOut b) := by
  rw [putByte, if_pos h, outAppend_ok quiet]

theorem putByte_shifting {s : State} (quiet : s.noIoFault) (h : s.bc.wCnt ≠ 0) (b : Byte) :
    putByte b s =
      .ok () ((s.countAccess.pushOut (s.bc.wAcc ||| (b >>> s.bc.wCnt.val))).setWriter (b <<< (8 - s.bc.wCnt.val))
        s.bc.wCnt) := by
  rw [putByte, if_neg h, outAppend_ok quiet, Res.bind_ok]

/-- R123, one byte: the aligned path appends it, the shifting path joins its first bits to the pending ones. -/
theorem putByte_sent {s : State} (quiet : s.noIoFault) (clean : s.writerClean) (b : Byte) :
    (putByte b s).Sent s (byteBits b) := by
  by_cases aligned : s.bc.wCnt = 0
  · have run := putByte_aligned quiet aligned b
    refine ⟨_, run, putByte_onlyWriter (.inl ⟨_, run⟩), clean, ?_⟩
    simp [State.sentBits, State.pendingBits, aligned]
  · have run := putByte_shifting quiet aligned b
    refine ⟨_, run, putByte_onlyWriter (.inl ⟨_, run⟩), writerClean_shifted (s.countAccess.pushOut _) b, ?_⟩
    simp [State.sentBits, State.pendingBits, take_byteBits_shifted s.bc.wCnt.isLt,
      byteBits_joined s.bc.wCnt.isLt ((writerClean_iff s).mp clean)]

/-- R123. -/
theorem putNBytes_sent {s : State} (quiet : s.noIoFault) (clean : s.writerClean) (bytes : List Byte) :
    (putNBytes bytes s).Sent s (bytes.flatMap byteBits) := by
  induction bytes generalizing s with
  | nil => exact ⟨s, rfl, .refl clean⟩
  | cons b bytes ih => exact (putByte_sent quiet clean b).bind fun t ht => ih (ht.noIoFault quiet) ht.clean

/-! ### The end of a stream (R94, R124) -/

/-- R42: how many bits were sent, by OUT's length and W_CNT. -/
theorem length_sentBits (s : State) : s.sentBits.length = 8 * s.outLen + s.bc.wCnt.val := by
  have := s.bc.wCnt.isLt
  simp only [State.sentBits, State.pendingBits, List.length_append, length_flatMap_byteBits, List.length_take,
    length_byteBits, State.outLen]
  omega

/-- R94: the padding depends on the bits sent beyond the last whole byte alone. -/
theorem padding_add_mul (k m : Nat) : padding (8 * k + m) = padding m := by
  rw [padding, padding, Nat.mul_add_mod]

/-- R124: closing puts the padding after the bits sent and leaves nothing pending. -/
theorem closeWriter_ok {s : State} (quiet : s.noIoFault) (clean : s.writerClean) :
    ∃ t, closeWriter s = .ok () t ∧ OnlyWriter s t ∧ t.bc.wCnt = 0 ∧
      t.io.out.flatMap byteBits = s.sentBits ++ padding s.sentBits.length := by
  rw [length_sentBits, padding_add_mul, State.sentBits, State.pendingBits, padding,
    Nat.mod_eq_of_lt s.bc.wCnt.isLt]
  by_cases aligned : s.bc.wCnt = 0
  · have run : closeWriter s = .ok () s := if_pos aligned
    refine ⟨_, run, closeWriter_onlyWriter (.inl ⟨_, run⟩), aligned, ?_⟩
    simp [aligned]
  · have run : closeWriter s = .ok () ((s.countAccess.pushOut s.bc.wAcc).setWriter 0 0) := by
      rw [closeWriter, if_neg aligned, outAppend_ok quiet, Res.bind_ok]
    refine ⟨_, run, closeWriter_onlyWriter (.inl ⟨_, run⟩), rfl, ?_⟩
    have zeros : (8 - s.bc.wCnt.val) % 8 = 8 - s.bc.wCnt.val := Nat.mod_eq_of_lt (by omega)
    rw [zeros, ← clean, List.append_assoc, List.take_append_drop]
    simp

end Sys2Proof.Machine
end

section
/-! PROOFS, HuffmanBuild. The Frequency Table counts the input (R140), and LIST with the arena follows the
reference's working list of trees step by step (R142 to R145), so that ROOT ends on the reference's tree. -/

namespace Sys2Proof.Machine

/-! ### The Frequency Table (R140) -/

/-- R61, R237: the first byte of what is left of IN is fetched, and the rest is left. -/
theorem inFetch_of_drop {s : State} (quiet : s.noIoFault) {b : Byte} {bytes : List Byte}
    (h : s.io.inp.drop s.io.inPos = b :: bytes) :
    inFetch s = .ok b (s.countAccess.setInPos (s.io.inPos + 1)) ∧ s.io.inp.drop (s.io.inPos + 1) = bytes := by
  refine ⟨inFetch_ok quiet ?_, ?_⟩
  · rw [← List.head?_drop, h, List.head?_cons]
  · rw [← List.tail_drop, h, List.tail_cons]

/-- R140: the bytes left are counted, and IN_POS goes past them. -/
theorem countBytes_ok {s : State} (quiet : s.noIoFault) {bytes : List Byte} (h : s.io.inp.drop s.io.inPos = bytes) :
    ∃ t, countBytes bytes.length s = .ok () t ∧
      (∀ sym, t.freqOf sym = s.freqOf sym + bytes.countP (fun b => b.toNat = sym)) ∧
      t = { s with
            io := { s.io with inPos := s.io.inPos + bytes.length }
            huf := { s.huf with freq := t.huf.freq }
            env := { s.env with accNo := t.env.accNo } } := by
  induction bytes generalizing s with
  | nil => exact ⟨s, rfl, fun _ => rfl, rfl⟩
  | cons b bytes ih =>
    obtain ⟨fetch, left⟩ := inFetch_of_drop quiet h
    obtain ⟨t, run, counts, frame⟩ := ih (s := (s.countAccess.setInPos (s.io.inPos + 1)).bumpFreq b.toNat) quiet left
    refine ⟨t, by rw [List.length_cons, countBytes, fetch, Res.bind_ok, run], fun sym => ?_, ?_⟩
    · have before : (s.countAccess.setInPos (s.io.inPos + 1)).freqOf sym = s.freqOf sym := rfl
      rw [counts, freqOf_bumpFreq, before, List.countP_cons]
      by_cases here : sym = b.toNat
      · simp [here]
        omega
      · simp [here, Ne.symm here]
    · rw [frame]
      simp [State.bumpFreq, State.setHuf, State.setInPos, State.countAccess]
      omega

/-- R140: from an empty table every counter is the symbol's count in the input, EOS's 1. -/
theorem heFreq_ok {s : State} (quiet : s.noIoFault) (start : s.io.inPos = 0) (empty : s.huf.freq = []) :
    ∃ t, heFreq s = .ok () t ∧ (∀ sym, t.freqOf sym = countOf s.io.inp sym) ∧
      t = { s with
            io := { s.io with inPos := s.inLen }
            huf := { s.huf with freq := t.huf.freq }
            env := { s.env with accNo := t.env.accNo } } := by
  obtain ⟨t, run, counts, frame⟩ := countBytes_ok quiet (s := s) (bytes := s.io.inp) (by rw [start, List.drop_zero])
  have zero (sym : Nat) : s.freqOf sym = 0 := by rw [State.freqOf, empty]; rfl
  refine ⟨t.bumpFreq Config.eosValue, ?_, fun sym => ?_, ?_⟩
  · have whole : s.inLen - s.io.inPos = s.io.inp.length := by rw [start]; rfl
    rw [heFreq, whole, run]
    rfl
  · rw [freqOf_bumpFreq, counts, zero, Nat.zero_add, countOf]
    split
    · next eos =>
      have noByte : s.io.inp.countP (fun b => b.toNat = sym) = 0 := by
        rw [List.countP_eq_zero]
        intro b _
        have := b.isLt
        simp [eos, Config.eosValue]
        omega
      rw [noByte]
    · rfl
  · rw [frame, start, Nat.zero_add]
    rfl

/-! ### Insertion (R142) -/

/-- R142: the walk from the tail passes the last entry if it is lighter. -/
theorem insertEntry_concat (e x : ListEntry) (l : List ListEntry) :
    insertEntry e (l ++ [x]) = if x.weight < e.weight then insertEntry e l ++ [x] else l ++ [x, e] := by
  rw [insertEntry, insertEntry, List.reverse_append, List.reverse_singleton, List.singleton_append, insertFromTail]
  split <;> simp

/-- R142: in a sorted list the new entry goes after all that are not lighter. -/
theorem insertEntry_eq {e : ListEntry} {l : List ListEntry} (sorted : Descending l) :
    insertEntry e l = l.take (insertAt e.weight l) ++ e :: l.drop (insertAt e.weight l) := by
  induction l using List.reverseRecOn with
  | nil => rfl
  | append_singleton l x ih =>
    obtain ⟨sortedL, -, heavier⟩ := List.pairwise_append.mp sorted
    have heavier : ∀ y ∈ l, x.weight ≤ y.weight := fun y hy => heavier y hy x (List.mem_singleton_self x)
    have count : insertAt e.weight (l ++ [x]) = insertAt e.weight l + if e.weight ≤ x.weight then 1 else 0 := by
      simp [insertAt, List.countP_append, List.countP_singleton]
    rw [insertEntry_concat, count]
    by_cases lighter : x.weight < e.weight
    · have fits : insertAt e.weight l ≤ l.length := List.countP_le_length
      rw [if_pos lighter, if_neg (by omega), ih sortedL, Nat.add_zero, List.take_append_of_le_length fits,
        List.drop_append_of_le_length fits]
      simp
    · have all : insertAt e.weight l = l.length := by
        rw [insertAt, List.countP_eq_length]
        intro y hy
        have := heavier y hy
        simp
        omega
      rw [if_neg lighter, if_pos (by omega), all, List.take_of_length_le (by simp), List.drop_of_length_le (by simp)]
      simp

/-! ### LIST and the trees it stands for -/

/-- LIST's entries, one by one: the reference's weight, and a node that stands for the reference's tree on the
entries allocated so far. -/
def EntryFor (s : State) (e : ListEntry) (x : HuffTree × Nat) : Prop :=
  e.weight = x.2 ∧ DenotesIn s.huf.node x.1 e.node 0 s.huf.nNodes

/-- LIST, sorted, stands for the reference's working list. -/
structure WorkingList (s : State) (L : List (HuffTree × Nat)) : Prop where
  entries : List.Forall₂ (EntryFor s) s.huf.list L
  sorted : Descending s.huf.list

/-- What building the tree may change. -/
def OnlyTree (s t : State) : Prop :=
  t = s.setHuf { s.huf with node := t.huf.node, nNodes := t.huf.nNodes, list := t.huf.list, root := t.huf.root }

theorem OnlyTree.refl (s : State) : OnlyTree s s := rfl

theorem OnlyTree.trans {s t u : State} (h : OnlyTree s t) (h' : OnlyTree t u) : OnlyTree s u := by
  unfold OnlyTree at *
  rw [h', h]
  rfl

theorem OnlyTree.freqOf {s t : State} (h : OnlyTree s t) : t.freqOf = s.freqOf := by
  rw [h]
  rfl

theorem WorkingList.length_eq {s : State} {L : List (HuffTree × Nat)} (h : WorkingList s L) : s.listLen = L.length :=
  h.entries.length_eq

/-- R142: the same place in both lists. -/
theorem WorkingList.insertAt_eq {s : State} {l : List ListEntry} {L : List (HuffTree × Nat)} (w : Nat)
    (h : List.Forall₂ (EntryFor s) l L) : insertAt w l = L.countP (fun x => w ≤ x.2) := by
  unfold insertAt
  induction h with
  | nil => rfl
  | cons head _ ih => rw [List.countP_cons, List.countP_cons, ih, head.1]

theorem length_treeInsert (e : HuffTree × Nat) (L : List (HuffTree × Nat)) :
    (treeInsert e L).length = L.length + 1 := by
  have fits : L.countP (fun x => e.2 ≤ x.2) ≤ L.length := List.countP_le_length
  simp only [treeInsert, List.length_append, List.length_take, List.length_cons, List.length_drop]
  omega

/-- R151, R142: a node is allocated and inserted; where its entry makes it stand for a tree, LIST stands for the
working list with the tree inserted. -/
theorem WorkingList.allocInsert {s : State} {L : List (HuffTree × Nat)} {T : HuffTree} {e : NodeEntry} (w : Nat)
    (work : WorkingList s L) (room : s.listLen < Config.listCap) (cap : s.huf.nNodes < Config.nodeCap)
    (stands : DenotesIn (s.huf.node.write s.huf.nNodes e) T s.huf.nNodes 0 (s.huf.nNodes + 1)) :
    ∃ t, ((allocNode e s).bind fun i s1 => heInsert i w s1) = .ok () t ∧ WorkingList t (treeInsert (T, w) L) ∧
      OnlyTree s t ∧ t.huf.nNodes = s.huf.nNodes + 1 := by
  let u := s.setHuf { s.huf with node := s.huf.node.write s.huf.nNodes e, nNodes := s.huf.nNodes + 1 }
  let t := u.setHuf { u.huf with list := insertEntry ⟨s.huf.nNodes, w⟩ s.huf.list }
  have alloc : allocNode e s = .ok s.huf.nNodes u := allocNode_eq_ok.mpr ⟨rfl, cap, rfl⟩
  have insert : heInsert s.huf.nNodes w u = .ok () t := heInsert_eq_ok.mpr ⟨room, rfl⟩
  have kept : List.Forall₂ (EntryFor t) s.huf.list L := work.entries.imp fun x y hxy =>
    ⟨hxy.1, hxy.2.mono le_rfl (Nat.le_succ _) fun j _ hj => Memory.read_write_other _ _ hj.ne⟩
  refine ⟨t, by rw [alloc, Res.bind_ok, insert], ⟨?_, insertEntry_descending work.sorted⟩, rfl, rfl⟩
  change List.Forall₂ _ (insertEntry ⟨s.huf.nNodes, w⟩ s.huf.list) _
  rw [insertEntry_eq work.sorted, WorkingList.insertAt_eq w work.entries]
  exact List.rel_append (List.forall₂_take _ kept) (.cons ⟨rfl, stands⟩ (List.forall₂_drop _ kept))

/-! ### The leaves (R143) -/

/-- R143: the present symbols' leaves, inserted in the order given. -/
def insertLeaves (freq : Nat → Nat) (syms : List Nat) (L : List (HuffTree × Nat)) : List (HuffTree × Nat) :=
  syms.foldl (fun L sym => treeInsert (.leaf sym, freq sym) L) L

theorem length_insertLeaves (freq : Nat → Nat) (syms : List Nat) (L : List (HuffTree × Nat)) :
    (insertLeaves freq syms L).length = L.length + syms.length := by
  induction syms generalizing L with
  | nil => rfl
  | cons sym syms ih =>
    rw [insertLeaves, List.foldl_cons, ← insertLeaves, ih, length_treeInsert, List.length_cons]
    omega

/-- R143: LIST follows the reference through the symbols, absent ones skipped. -/
theorem WorkingList.leavesFor {s : State} {L : List (HuffTree × Nat)} (syms : List Nat) (work : WorkingList s L)
    (room : s.listLen + (syms.filter (fun sym => 0 < s.freqOf sym)).length ≤ Config.listCap)
    (cap : s.huf.nNodes + (syms.filter (fun sym => 0 < s.freqOf sym)).length ≤ Config.nodeCap) :
    ∃ t, leavesFor syms s = .ok () t ∧
      WorkingList t (insertLeaves s.freqOf (syms.filter (fun sym => 0 < s.freqOf sym)) L) ∧ OnlyTree s t ∧
      t.huf.nNodes = s.huf.nNodes + (syms.filter (fun sym => 0 < s.freqOf sym)).length := by
  induction syms generalizing s L with
  | nil => exact ⟨s, rfl, work, .refl s, rfl⟩
  | cons sym syms ih =>
    by_cases present : 0 < s.freqOf sym
    · rw [List.filter_cons_of_pos (by simpa using present), List.length_cons] at room cap ⊢
      have stands : DenotesIn (s.huf.node.write s.huf.nNodes (.leaf sym)) (.leaf sym) s.huf.nNodes 0
          (s.huf.nNodes + 1) :=
        .leaf (by omega) (Nat.zero_le _) (Nat.lt_succ_self _) (Memory.read_write_same ..)
      obtain ⟨t, run, work', only, count⟩ := work.allocInsert (s.freqOf sym) (by omega) (by omega) stands
      have freq := only.freqOf
      obtain ⟨u, run', work'', only', count'⟩ := ih work'
        (by rw [work'.length_eq, length_treeInsert, ← work.length_eq, freq]; omega) (by rw [count, freq]; omega)
      rw [freq] at work'' count'
      refine ⟨u, ?_, work'', only.trans only', by omega⟩
      rw [Machine.leavesFor, leafFor, if_pos present, run, Res.bind_ok, run']
    · rw [List.filter_cons_of_neg (by simpa using present)] at room cap ⊢
      obtain ⟨u, run, rest⟩ := ih work room cap
      refine ⟨u, ?_, rest⟩
      rw [Machine.leavesFor, leafFor, if_neg present, Res.bind_ok, run]

/-! ### The merges (R144, R145) -/

/-- R144, R146: the two lowest entries are merged as the reference merges its two last trees. -/
theorem WorkingList.heCombine {s : State} {L : List (HuffTree × Nat)} {a b : HuffTree × Nat}
    {rest : List (HuffTree × Nat)} (work : WorkingList s L) (lowest : L.reverse = a :: b :: rest)
    (fits : s.listLen ≤ Config.listCap) (cap : s.huf.nNodes < Config.nodeCap) :
    ∃ t, heCombine s = .ok () t ∧ WorkingList t (treeInsert (.node a.1 b.1, a.2 + b.2) rest.reverse) ∧
      OnlyTree s t ∧ t.huf.nNodes = s.huf.nNodes + 1 := by
  have entries := List.forall₂_reverse_iff.mpr work.entries
  rw [lowest] at entries
  obtain ⟨x, l, ha, entries', hl⟩ := List.forall₂_cons_right_iff.mp entries
  obtain ⟨y, tail, hb, entries'', hl'⟩ := List.forall₂_cons_right_iff.mp entries'
  subst hl'
  have parts : s.huf.list = tail.reverse ++ [y, x] := by simpa using congrArg List.reverse hl
  have sorted := work.sorted
  have short : s.listLen = tail.length + 2 := by rw [State.listLen, parts]; simp
  rw [parts] at sorted
  have work' : WorkingList (s.setHuf { s.huf with list := tail.reverse }) rest.reverse :=
    ⟨List.forall₂_reverse_iff.mpr entries'', (List.pairwise_append.mp sorted).1⟩
  have stands : DenotesIn (s.huf.node.write s.huf.nNodes (.internal (some x.node) (some y.node))) (.node a.1 b.1)
      s.huf.nNodes 0 (s.huf.nNodes + 1) :=
    .node cap (Nat.zero_le _) (Nat.lt_succ_self _) (Memory.read_write_same ..)
      (ha.2.mono le_rfl (Nat.le_succ _) fun j _ hj => Memory.read_write_other _ _ hj.ne)
      (hb.2.mono le_rfl (Nat.le_succ _) fun j _ hj => Memory.read_write_other _ _ hj.ne)
  have room : (s.setHuf { s.huf with list := tail.reverse }).listLen < Config.listCap := by
    change tail.reverse.length < _
    rw [List.length_reverse]
    omega
  have dropped : OnlyTree s (s.setHuf { s.huf with list := tail.reverse }) := rfl
  obtain ⟨t, run, work'', only, count⟩ := work'.allocInsert (a.2 + b.2) room cap stands
  refine ⟨t, ?_, work'', dropped.trans only, count⟩
  rw [← ha.1, ← hb.1] at run
  rw [Machine.heCombine, hl]
  exact run

theorem mergeTrees_of_two {n : Nat} {L : List (HuffTree × Nat)} {a b : HuffTree × Nat} {rest : List (HuffTree × Nat)}
    (h : L.reverse = a :: b :: rest) :
    mergeTrees (n + 1) L = mergeTrees n (treeInsert (.node a.1 b.1, a.2 + b.2) rest.reverse) := by
  rw [mergeTrees, h]

theorem mergeTrees_of_le_one {n : Nat} {L : List (HuffTree × Nat)} (h : L.length ≤ 1) : mergeTrees n L = L := by
  cases n with
  | zero => rfl
  | succ n =>
    rw [mergeTrees]
    split
    · next a b rest two =>
      have := congrArg List.length two
      simp only [List.length_reverse, List.length_cons] at this
      omega
    · rfl

/-- R144: a list of at least two has its two last. -/
theorem exists_reverse_eq_of_two_le {α : Type} {l : List α} (h : 1 < l.length) :
    ∃ a b rest, l.reverse = a :: b :: rest := by
  have long : 1 < l.reverse.length := by rwa [List.length_reverse]
  match l.reverse, long with
  | a :: b :: rest, _ => exact ⟨a, b, rest, rfl⟩

/-- R144: a merge leaves one tree fewer. -/
theorem length_merged {L : List (HuffTree × Nat)} {a b : HuffTree × Nat} {rest : List (HuffTree × Nat)}
    (h : L.reverse = a :: b :: rest) (T : HuffTree × Nat) : (treeInsert T rest.reverse).length + 1 = L.length := by
  rw [length_treeInsert, List.length_reverse, ← List.length_reverse (as := L), h]
  rfl

/-- R145: LIST follows the reference through the merges. -/
theorem WorkingList.combineAll {s : State} {L : List (HuffTree × Nat)} (n : Nat) (work : WorkingList s L)
    (fits : s.listLen ≤ Config.listCap) (cap : s.huf.nNodes + s.listLen ≤ Config.nodeCap + 1) :
    ∃ t, combineAll n s = .ok () t ∧ WorkingList t (mergeTrees n L) ∧ OnlyTree s t := by
  induction n generalizing s L with
  | zero => exact ⟨s, rfl, work, .refl s⟩
  | succ n ih =>
    by_cases two : 1 < s.listLen
    · obtain ⟨a, b, rest, lowest⟩ := exists_reverse_eq_of_two_le (work.length_eq ▸ two)
      obtain ⟨t, run, work', only, count⟩ := work.heCombine lowest fits (by omega)
      have shorter : t.listLen + 1 = s.listLen := by rw [work'.length_eq, length_merged lowest, work.length_eq]
      obtain ⟨u, run', work'', only'⟩ := ih work' (by omega) (by omega)
      refine ⟨u, ?_, mergeTrees_of_two lowest ▸ work'', only.trans only'⟩
      rw [Machine.combineAll, if_pos two, run, Res.bind_ok, run']
    · refine ⟨s, by rw [Machine.combineAll, if_neg two], ?_, .refl s⟩
      rwa [mergeTrees_of_le_one (by rw [← work.length_eq]; omega)]

/-- R145: as many merges as there are trees leave one. -/
theorem length_mergeTrees {n : Nat} {L : List (HuffTree × Nat)} (nonempty : L ≠ []) (h : L.length ≤ n + 1) :
    (mergeTrees n L).length = 1 := by
  have positive := List.length_pos_iff.mpr nonempty
  induction n generalizing L with
  | zero => exact Nat.le_antisymm h positive
  | succ n ih =>
    by_cases two : 1 < L.length
    · obtain ⟨a, b, rest, lowest⟩ := exists_reverse_eq_of_two_le two
      have shorter := length_merged lowest (.node a.1 b.1, a.2 + b.2)
      rw [mergeTrees_of_two lowest]
      have left : 0 < (treeInsert (.node a.1 b.1, a.2 + b.2) rest.reverse).length := by omega
      exact ih (List.length_pos_iff.mp left) (by omega) left
    · rw [mergeTrees_of_le_one (by omega)]
      omega

/-! ### The reference's tree (R147, R149, R150) -/

/-- The symbols of the leaves of all the trees of a working list. -/
def listLeaves (L : List (HuffTree × Nat)) : List Nat := L.flatMap fun x => x.1.leaves

theorem listLeaves_treeInsert (e : HuffTree × Nat) (L : List (HuffTree × Nat)) :
    (listLeaves (treeInsert e L)).Perm (e.1.leaves ++ listLeaves L) := by
  have perm : (treeInsert e L).Perm (e :: L) := by
    unfold treeInsert
    refine List.perm_middle.trans (.cons e ?_)
    rw [List.take_append_drop]
  exact perm.flatMap_right _

/-- R143: the leaves are the symbols inserted. -/
theorem listLeaves_insertLeaves (freq : Nat → Nat) (syms : List Nat) (L : List (HuffTree × Nat)) :
    (listLeaves (insertLeaves freq syms L)).Perm (syms ++ listLeaves L) := by
  induction syms generalizing L with
  | nil => exact .refl _
  | cons sym syms ih =>
    calc (listLeaves (insertLeaves freq (sym :: syms) L)).Perm
          (syms ++ listLeaves (treeInsert (.leaf sym, freq sym) L)) := ih _
      List.Perm _ (syms ++ (sym :: listLeaves L)) := (listLeaves_treeInsert _ L).append_left syms
      List.Perm _ (sym :: syms ++ listLeaves L) := List.perm_middle

/-- R144: a merge keeps the leaves. -/
theorem listLeaves_merged {L : List (HuffTree × Nat)} {a b : HuffTree × Nat} {rest : List (HuffTree × Nat)}
    (h : L.reverse = a :: b :: rest) :
    (listLeaves (treeInsert (.node a.1 b.1, a.2 + b.2) rest.reverse)).Perm (listLeaves L) := by
  have whole : (listLeaves L).Perm (listLeaves L.reverse) := (List.reverse_perm L).symm.flatMap_right _
  rw [h] at whole
  calc (listLeaves (treeInsert (.node a.1 b.1, a.2 + b.2) rest.reverse)).Perm
        ((a.1.leaves ++ b.1.leaves) ++ listLeaves rest.reverse) := listLeaves_treeInsert _ _
    List.Perm _ ((a.1.leaves ++ b.1.leaves) ++ listLeaves rest) :=
        ((List.reverse_perm rest).flatMap_right _).append_left _
    _ = listLeaves (a :: b :: rest) := List.append_assoc ..
    List.Perm _ (listLeaves L) := whole.symm

theorem listLeaves_mergeTrees (n : Nat) (L : List (HuffTree × Nat)) :
    (listLeaves (mergeTrees n L)).Perm (listLeaves L) := by
  induction n generalizing L with
  | zero => exact .refl _
  | succ n ih =>
    by_cases two : 1 < L.length
    · obtain ⟨a, b, rest, lowest⟩ := exists_reverse_eq_of_two_le two
      rw [mergeTrees_of_two lowest]
      exact (ih _).trans (listLeaves_merged lowest)
    · rw [mergeTrees_of_le_one (by omega)]

/-- R141: the symbols a Frequency Table has, ascending. -/
def presentIn (freq : Nat → Nat) : List Nat := (List.range Config.nSymbols).filter (fun sym => 0 < freq sym)

theorem mem_presentIn {freq : Nat → Nat} {sym : Nat} : sym ∈ presentIn freq ↔ sym < Config.nSymbols ∧ 0 < freq sym := by
  rw [presentIn, List.mem_filter, List.mem_range, decide_eq_true_iff]

theorem nodup_presentIn (freq : Nat → Nat) : (presentIn freq).Nodup := List.nodup_range.filter _

theorem length_presentIn (freq : Nat → Nat) : (presentIn freq).length ≤ Config.nSymbols :=
  (List.length_filter_le ..).trans_eq List.length_range

theorem initialTrees_eq (freq : Nat → Nat) : initialTrees freq = insertLeaves freq (presentIn freq) [] := rfl

/-- R145: where a symbol is present the merges end with the reference's tree alone. -/
theorem mergeTrees_initialTrees {freq : Nat → Nat} (nonempty : presentIn freq ≠ []) :
    ∃ w, mergeTrees (initialTrees freq).length (initialTrees freq) = [(huffmanTree freq, w)] := by
  have notEmpty : initialTrees freq ≠ [] := by
    rw [← List.length_pos_iff, initialTrees_eq, length_insertLeaves]
    exact Nat.lt_add_left _ (List.length_pos_iff.mpr nonempty)
  obtain ⟨e, he⟩ := List.length_eq_one_iff.mp (length_mergeTrees notEmpty (Nat.le_succ _))
  exact ⟨e.2, by rw [huffmanTree, he]⟩

/-- R147, R149: the tree has one leaf for each present symbol. -/
theorem huffmanTree_leaves {freq : Nat → Nat} (nonempty : presentIn freq ≠ []) :
    (huffmanTree freq).leaves.Perm (presentIn freq) := by
  obtain ⟨w, single⟩ := mergeTrees_initialTrees nonempty
  have kept := listLeaves_mergeTrees (initialTrees freq).length (initialTrees freq)
  rw [single, initialTrees_eq] at kept
  simpa [listLeaves] using kept.trans (listLeaves_insertLeaves freq (presentIn freq) [])

/-- R150: a tree is less deep than it has leaves. -/
theorem HuffTree.depth_lt_leaves (T : HuffTree) : T.depth < T.leaves.length := by
  induction T with
  | leaf s => exact Nat.zero_lt_one
  | node z o ihz iho =>
    simp only [HuffTree.depth, HuffTree.leaves, List.length_append]
    omega

/-- R150, R156: no present symbol lies deeper than MAX_CODE_LEN. -/
theorem huffmanTree_depth {freq : Nat → Nat} (nonempty : presentIn freq ≠ []) :
    (huffmanTree freq).depth ≤ Config.maxCodeLen := by
  have deep := (huffmanTree freq).depth_lt_leaves
  rw [(huffmanTree_leaves nonempty).length_eq] at deep
  exact Nat.le_of_lt_succ (deep.trans_le (length_presentIn freq))

/-- R145: from an empty LIST and arena, ROOT stands for the reference's tree of the Frequency Table. -/
theorem heBuild_ok {s : State} (noList : s.huf.list = []) (noNodes : s.huf.nNodes = 0)
    (nonempty : presentIn s.freqOf ≠ []) :
    ∃ t, heBuild s = .ok () t ∧ Denotes t.huf.node (huffmanTree s.freqOf) t.huf.root ∧ OnlyTree s t := by
  have start : WorkingList s [] := ⟨by rw [noList]; exact .nil, by rw [noList]; exact .nil⟩
  have bound : (presentIn s.freqOf).length ≤ 257 := length_presentIn s.freqOf
  have empty : s.listLen = 0 := start.length_eq
  obtain ⟨t, leaves, workT, onlyT, count⟩ := start.leavesFor (List.range Config.nSymbols)
    (by rw [empty, Nat.zero_add]; exact bound) (by rw [noNodes, Nat.zero_add]; exact bound.trans (by decide))
  change WorkingList t (insertLeaves s.freqOf (presentIn s.freqOf) []) at workT
  change t.huf.nNodes = s.huf.nNodes + (presentIn s.freqOf).length at count
  have length : t.listLen = (presentIn s.freqOf).length := by
    rw [workT.length_eq, length_insertLeaves, List.length_nil, Nat.zero_add]
  rw [← initialTrees_eq] at workT
  obtain ⟨u, merges, workU, onlyU⟩ := workT.combineAll t.listLen (length.trans_le bound)
    (by rw [length, count, noNodes]; simp only [Config.nodeCap]; omega)
  obtain ⟨w, single⟩ := mergeTrees_initialTrees nonempty
  rw [workT.length_eq, single] at workU
  obtain ⟨e, l, he, -, list⟩ := List.forall₂_cons_right_iff.mp workU.entries
  refine ⟨u.setHuf { u.huf with root := e.node }, ?_, he.2.denotes, (onlyT.trans onlyU).trans rfl⟩
  rw [heBuild, heLeaves, leaves, Res.bind_ok, merges, Res.bind_ok, takeRoot_eq_ok]
  exact ⟨e, l, list, rfl⟩

end Sys2Proof.Machine
end

section
/-! PROOFS, HuffmanEncoder. The tree is sent (R152), the Code Table holds its paths (R154), and the second pass
sends the codes (R159); together the payload of R96. -/

namespace Sys2Proof.Machine

/-! ### The serialised tree (R97, R152) -/

/-- R65: the bits of a longer number are those above and those below. -/
theorem bitsOfNat_add (m n v : Nat) : bitsOfNat (m + n) v = bitsOfNat m (v >>> n) ++ bitsOfNat n v := by
  induction m with
  | zero => simp [bitsOfNat]
  | succ m ih => rw [Nat.succ_add, bitsOfNat, bitsOfNat, ih, Nat.testBit_shiftRight, Nat.add_comm n m]; rfl

/-- R65: a byte made of a number has the number's low bits. -/
theorem byteBits_ofNat (v : Nat) : byteBits (BitVec.ofNat 8 v) = bitsOfNat 8 v := by
  refine List.ext_getElem? fun k => ?_
  rw [getElem?_byteBits, getElem?_bitsOfNat]
  refine if_congr Iff.rfl ?_ rfl
  rw [BitVec.getLsbD_ofNat, decide_eq_true (by omega), Bool.true_and]

/-- R66: bytes in travel order are the number's bits in travel order. -/
theorem flatMap_byteBits_bytesOfNat (n v : Nat) : (bytesOfNat n v).flatMap byteBits = bitsOfNat (8 * n) v := by
  induction n with
  | zero => rfl
  | succ n ih => rw [bytesOfNat, List.flatMap_cons, ih, byteBits_ofNat, Nat.mul_succ, Nat.add_comm, bitsOfNat_add]

/-- R35: HSTK is back where it was when the traversal leaves the node it entered. -/
theorem Res.Sent.leave {r : Res Unit} {s : State} {i : Nat} {bits : List Bool} (h : r.Sent (s.enterNode i) bits) :
    (r.bind fun _ t => .ok () t.leaveNode).Sent s bits := by
  obtain ⟨t, run, ⟨frame, kept⟩, clean, sent⟩ := h
  refine ⟨t.leaveNode, by rw [run, Res.bind_ok], ⟨?_, kept⟩, clean, sent⟩
  rw [frame]
  rfl

/-- R152: a tree no deeper than HSTK has room for is sent in pre-order. -/
theorem serNode_sent {T : HuffTree} {d i : Nat} {s : State} (quiet : s.noIoFault) (clean : s.writerClean)
    (denotes : Denotes s.huf.node T i) (deep : T.depth < d) : (serNode d i s).Sent s T.ser := by
  induction T generalizing d i s with
  | leaf sym =>
    obtain ⟨d, rfl⟩ := Nat.exists_eq_add_one_of_ne_zero deep.ne_bot
    rw [serNode, readNode_leaf (by exact denotes), Res.bind_ok]
    refine Res.Sent.leave (i := i) ?_
    have symbol : (symBytes sym).flatMap byteBits = bitsOfNat 16 sym := flatMap_byteBits_bytesOfNat 2 sym
    refine (putBit_sent (s := s.enterNode i) quiet clean true).bind (bs := bitsOfNat 16 sym) fun t ht => ?_
    rw [← symbol]
    exact putNBytes_sent (ht.noIoFault quiet) ht.clean _
  | node z o ihz iho =>
    obtain ⟨d, rfl⟩ := Nat.exists_eq_add_one_of_ne_zero deep.ne_bot
    simp only [HuffTree.depth] at deep
    obtain ⟨a, b, read, hz, ho⟩ := readNode_node (s := s.enterNode i) denotes
    rw [serNode, read, Res.bind_ok]
    refine Res.Sent.leave (i := i) ?_
    refine (putBit_sent (s := s.enterNode i) quiet clean false).bind (bs := z.ser ++ o.ser) fun t ht => ?_
    refine Res.Sent.bind (ihz (ht.noIoFault quiet) ht.clean (ht.huf ▸ hz) (by omega)) fun u hu => ?_
    have both := ht.trans hu
    exact iho (both.noIoFault quiet) both.clean (both.huf ▸ ho) (by omega)

/-- R152: HE.SER, HSTK emptied first. -/
theorem heSer_sent {T : HuffTree} {i : Nat} {s : State} (quiet : s.noIoFault) (clean : s.writerClean)
    (denotes : Denotes s.huf.node T i) (deep : T.depth ≤ Config.maxCodeLen) :
    (heSer i s).Sent (s.setHuf { s.huf with hstk := [] }) T.ser :=
  serNode_sent quiet clean denotes (Nat.lt_succ_of_le deep)

/-! ### The Code Table (R154) -/

/-- R99: a tree has a path to exactly the symbols of its leaves. -/
theorem HuffTree.pathTo_eq_none_iff {T : HuffTree} {sym : Nat} : T.pathTo sym = none ↔ sym ∉ T.leaves := by
  induction T with
  | leaf x => simp [HuffTree.pathTo, HuffTree.leaves, eq_comm]
  | node z o ihz iho =>
    rw [HuffTree.leaves, List.mem_append, not_or, ← ihz, ← iho, HuffTree.pathTo]
    cases z.pathTo sym <;> simp

theorem HuffTree.pathTo_of_mem {T : HuffTree} {sym : Nat} (h : sym ∈ T.leaves) : T.pathTo sym = some (T.code sym) := by
  cases path : T.pathTo sym with
  | none => exact absurd h (HuffTree.pathTo_eq_none_iff.mp path)
  | some p => rw [HuffTree.code, path]; rfl

/-- R34: the entry for a leaf found by `p` below a node found by `path`. -/
def codeEntry (path p : List Bool) : CodeEntry := ⟨(path ++ p).length, path ++ p⟩

theorem codeEntry_append_singleton (path p : List Bool) (b : Bool) :
    codeEntry (path ++ [b]) p = codeEntry path (b :: p) := by
  rw [codeEntry, codeEntry, List.append_assoc, List.singleton_append]

/-- The Code Table replaced by another. -/
def State.withTable (s : State) (c : Memory CodeEntry) : State := s.setHuf { s.huf with ctab := c }

/-- R154: the traversal of a tree with no symbol twice enters each leaf's path, below the path it started with,
and keeps the other entries. -/
theorem tableNode_ok {T : HuffTree} {d i : Nat} {s : State} (denotes : Denotes s.huf.node T i) (deep : T.depth < d)
    (nodup : T.leaves.Nodup) :
    ∃ c, tableNode d i s = .ok () (s.withTable c) ∧
      ∀ sym, c.read sym = ((T.pathTo sym).map (codeEntry s.huf.hpath)).or (s.huf.ctab.read sym) := by
  induction T generalizing d i s with
  | leaf x =>
    obtain ⟨d, rfl⟩ := Nat.exists_eq_add_one_of_ne_zero deep.ne_bot
    refine ⟨s.huf.ctab.write x ⟨s.huf.hpath.length, s.huf.hpath⟩, ?_, fun sym => ?_⟩
    · rw [tableNode, readNode_leaf (by exact denotes)]
      rfl
    · rw [Memory.read_write, HuffTree.pathTo]
      by_cases here : sym = x
      · simp [here, codeEntry]
      · simp [here, Ne.symm here]
  | node z o ihz iho =>
    obtain ⟨d, rfl⟩ := Nat.exists_eq_add_one_of_ne_zero deep.ne_bot
    simp only [HuffTree.depth] at deep
    obtain ⟨nodupZ, nodupO, apart⟩ := List.nodup_append.mp nodup
    obtain ⟨a, b, read, hz, ho⟩ := readNode_node (s := s.enterNode i) denotes
    have deepZ : z.depth < d := by omega
    have deepO : o.depth < d := by omega
    obtain ⟨c, runZ, readZ⟩ := ihz (s := (s.enterNode i).setPath (s.huf.hpath ++ [false])) hz deepZ nodupZ
    obtain ⟨c', runO, readO⟩ :=
      iho (s := ((s.enterNode i).withTable c).setPath (s.huf.hpath ++ [true])) ho deepO nodupO
    have runO : tableNode d b
      ((((s.enterNode i).setPath (s.huf.hpath ++ [false])).withTable c).setPath (s.huf.hpath ++ [true])) = _ := runO
    refine ⟨c', ?_, fun sym => ?_⟩
    · simp only [tableNode, read, Res.bind_ok, childIndex, runZ, runO]
      rfl
    · have before : c.read sym = ((z.pathTo sym).map (codeEntry (s.huf.hpath ++ [false]))).or (s.huf.ctab.read sym) :=
        readZ sym
      have after : c'.read sym = ((o.pathTo sym).map (codeEntry (s.huf.hpath ++ [true]))).or (c.read sym) := readO sym
      rw [after, before, HuffTree.pathTo]
      cases path : z.pathTo sym with
      | none => cases o.pathTo sym <;> simp [codeEntry_append_singleton]
      | some p =>
        have inZ : sym ∈ z.leaves := by
          by_contra absent
          rw [HuffTree.pathTo_eq_none_iff.mpr absent] at path
          cases path
        have notInO : o.pathTo sym = none := HuffTree.pathTo_eq_none_iff.mpr fun inO => apart sym inZ sym inO rfl
        simp [notInO, codeEntry_append_singleton]

/-- R154: HE.TABLE from an empty table enters the code of every leaf and nothing else. -/
theorem heTable_ok {T : HuffTree} {s : State} (denotes : Denotes s.huf.node T s.huf.root)
    (deep : T.depth ≤ Config.maxCodeLen) (nodup : T.leaves.Nodup) (empty : s.huf.ctab = []) :
    ∃ c, heTable s = .ok () (s.setHuf { s.huf with ctab := c, hstk := [], hpath := [] }) ∧
      ∀ sym, c.read sym = (T.pathTo sym).map (codeEntry []) := by
  obtain ⟨c, run, entries⟩ := tableNode_ok (s := s.setHuf { s.huf with hstk := [], hpath := [] }) denotes
    (Nat.lt_succ_of_le deep) nodup
  refine ⟨c, run, fun sym => ?_⟩
  have whole : c.read sym = ((T.pathTo sym).map (codeEntry [])).or (s.huf.ctab.read sym) := entries sym
  rw [whole, empty, Memory.read_nil, Option.or_none]

/-! ### The second pass (R159) -/

/-- R159: the code CTAB holds for a symbol is sent. -/
theorem putCode_sent {s : State} (quiet : s.noIoFault) (clean : s.writerClean) {sym : Nat}
    (valid : s.huf.ctab.read sym ≠ none) : (putCode sym s).Sent s (s.codeOf sym) := by
  obtain ⟨e, he⟩ := Option.ne_none_iff_exists'.mp valid
  have code : s.codeOf sym = e.bits := by rw [State.codeOf, he]; rfl
  rw [putCode_of_read he, code]
  exact putList_sent quiet clean e.bits

/-- What was sent does not depend on where IN is read. -/
theorem Sends.setInPos {s t : State} {bits : List Bool} (h : Sends s t bits) (p : Nat) :
    Sends (s.setInPos p) (t.setInPos p) bits := by
  obtain ⟨⟨frame, kept⟩, clean, sent⟩ := h
  refine ⟨⟨?_, kept⟩, clean, sent⟩
  rw [frame]
  rfl

/-- A counted access sends nothing. -/
theorem Sends.countAccess {s : State} (clean : s.writerClean) : Sends s s.countAccess [] :=
  ⟨⟨rfl, fun _ _ => rfl⟩, clean, (List.append_nil _).symm⟩

/-- R159: the codes of the bytes left are sent in order, and IN_POS goes past them. -/
theorem encodeBytes_sent {s : State} (quiet : s.noIoFault) (clean : s.writerClean) {bytes : List Byte}
    (left : s.io.inp.drop s.io.inPos = bytes) (valid : ∀ b ∈ bytes, s.huf.ctab.read b.toNat ≠ none) :
    (encodeBytes bytes.length s).Sent (s.setInPos (s.io.inPos + bytes.length))
      (bytes.flatMap fun b => s.codeOf b.toNat) := by
  induction bytes generalizing s with
  | nil => exact ⟨s, rfl, .refl clean⟩
  | cons b bytes ih =>
    obtain ⟨fetch, left'⟩ := inFetch_of_drop quiet left
    obtain ⟨u, code, sends⟩ := putCode_sent (s := s.countAccess.setInPos (s.io.inPos + 1)) quiet clean
      (valid b List.mem_cons_self)
    have stream : u.io.inp = s.io.inp ∧ u.io.inPos = s.io.inPos + 1 := by rw [sends.1.1]; exact ⟨rfl, rfl⟩
    have table : u.huf = s.huf := sends.huf
    obtain ⟨t, run, sends'⟩ := ih (s := u) (sends.noIoFault quiet) sends.clean (by rw [stream.1, stream.2, left'])
      fun x hx => table ▸ valid x (List.mem_cons_of_mem _ hx)
    have codes : (bytes.flatMap fun b => u.codeOf b.toNat) = bytes.flatMap fun b => s.codeOf b.toNat := by
      simp only [State.codeOf, table]
    have past : u.io.inPos + bytes.length = s.io.inPos + (bytes.length + 1) := by rw [stream.2]; omega
    rw [codes, past] at sends'
    refine ⟨t, by rw [List.length_cons, encodeBytes, fetch, Res.bind_ok, code, Res.bind_ok, run], ?_⟩
    have first := (Sends.countAccess clean).setInPos (s.io.inPos + (bytes.length + 1))
    exact first.trans ((sends.setInPos (s.io.inPos + (bytes.length + 1))).trans sends')

/-- R159: the whole input's codes, then the EOS code. -/
theorem heEncode_sent {s : State} (quiet : s.noIoFault) (clean : s.writerClean) (start : s.io.inPos = 0)
    (valid : ∀ b ∈ s.io.inp, s.huf.ctab.read b.toNat ≠ none) (eos : s.huf.ctab.read Config.eosValue ≠ none) :
    (heEncode s).Sent (s.setInPos s.inLen)
      (s.io.inp.flatMap (fun b => s.codeOf b.toNat) ++ s.codeOf Config.eosValue) := by
  have bytes := encodeBytes_sent quiet clean (bytes := s.io.inp) (by rw [start, List.drop_zero]) valid
  have whole : s.inLen - s.io.inPos = s.io.inp.length := by rw [start]; rfl
  rw [start, Nat.zero_add] at bytes
  rw [heEncode, whole]
  refine bytes.bind fun t ht => ?_
  have code : t.codeOf Config.eosValue = s.codeOf Config.eosValue := by simp only [State.codeOf, ht.huf]; rfl
  exact code ▸ putCode_sent (ht.noIoFault quiet) ht.clean (by rw [ht.huf]; exact eos)

/-! ### The payload (R96, R160) -/

/-- R140: a byte of the input is counted. -/
theorem countOf_pos {bytes : List Byte} {b : Byte} (h : b ∈ bytes) : 0 < countOf bytes b.toNat := by
  rw [countOf]
  split
  · exact Nat.zero_lt_one
  · exact List.countP_pos_iff.mpr ⟨b, h, decide_eq_true rfl⟩

/-- R140: EOS is present in every input's table. -/
theorem eos_mem_presentIn (bytes : List Byte) : Config.eosValue ∈ presentIn (countOf bytes) :=
  mem_presentIn.mpr ⟨by decide, by rw [countOf, if_pos rfl]; exact Nat.zero_lt_one⟩

/-- R140: so is every byte of it. -/
theorem byte_mem_presentIn {bytes : List Byte} {b : Byte} (h : b ∈ bytes) : b.toNat ∈ presentIn (countOf bytes) :=
  mem_presentIn.mpr ⟨b.isLt.trans (by decide), countOf_pos h⟩

/-- What a part of HE.COMPRESS that ends with the whole input read, in phase `p`, may change. -/
def OnlyEncoder (p : Phase) (s t : State) : Prop :=
  t = { s with
        regs := { s.regs with phase := p }
        io := { s.io with inPos := s.inLen, out := t.io.out }
        bc := { s.bc with wAcc := t.bc.wAcc, wCnt := t.bc.wCnt }
        huf := t.huf
        env := { s.env with accNo := t.env.accNo } }

theorem OnlyEncoder.trans {p q : Phase} {s t u : State} (h : OnlyEncoder p s t) (h' : OnlyEncoder q t u) :
    OnlyEncoder q s u := by
  unfold OnlyEncoder at *
  rw [h', h]
  rfl

/-- R160's first pass: the input counted, its tree built and sent. -/
theorem firstPass_ok {s : State} (quiet : s.noIoFault) (clean : s.writerClean) (start : s.io.inPos = 0)
    (noFreq : s.huf.freq = []) (noList : s.huf.list = []) (noNodes : s.huf.nNodes = 0) :
    ∃ t, ((heFreq (s.setPhase .hFreq)).bind fun _ s1 =>
        (heBuild (s1.setPhase .hBuild)).bind fun _ s2 => heSer s2.huf.root (s2.setPhase .hSer)) = .ok () t ∧
      Denotes t.huf.node (huffmanTree (countOf s.io.inp)) t.huf.root ∧ t.huf.ctab = s.huf.ctab ∧ t.writerClean ∧
      t.sentBits = s.sentBits ++ (huffmanTree (countOf s.io.inp)).ser ∧ OnlyEncoder .hSer s t := by
  have nonempty : presentIn (countOf s.io.inp) ≠ [] := List.ne_nil_of_mem (eos_mem_presentIn s.io.inp)
  obtain ⟨t1, freqRun, counts, frame1⟩ := heFreq_ok (s := s.setPhase .hFreq) quiet start noFreq
  have counts : t1.freqOf = countOf s.io.inp := funext counts
  have huf : t1.huf.list = [] ∧ t1.huf.nNodes = 0 := by
    rw [frame1]
    exact ⟨noList, noNodes⟩
  obtain ⟨t2, buildRun, denotes, only⟩ := heBuild_ok (s := t1.setPhase .hBuild) huf.1 huf.2 (counts ▸ nonempty)
  have built : t2 = (t1.setPhase .hBuild).setHuf t2.huf := by rw [only]; rfl
  have quiet2 : t2.noIoFault := by
    rw [built, frame1]
    exact quiet
  have clean2 : t2.writerClean := by
    rw [built, frame1]
    exact clean
  have sent2 : t2.sentBits = s.sentBits := by
    rw [built, frame1]
    rfl
  have codes2 : t2.huf.ctab = s.huf.ctab := by
    rw [only, frame1]
    rfl
  obtain ⟨t3, serRun, sends⟩ := heSer_sent (s := t2.setPhase .hSer) quiet2 clean2 denotes
    (huffmanTree_depth (counts ▸ nonempty))
  rw [show (t1.setPhase .hBuild).freqOf = countOf s.io.inp from counts] at denotes sends
  refine ⟨t3, ?_, ?_, ?_, sends.clean, ?_, ?_⟩
  · rw [freqRun, Res.bind_ok, buildRun, Res.bind_ok, serRun]
  · rw [sends.huf]
    exact denotes
  · rw [sends.huf]
    exact codes2
  · rw [← sent2]
    exact sends.2.2
  · rw [OnlyEncoder, sends.1.1, built, frame1]
    rfl

/-- R160's second pass: the codes of the tree at ROOT entered, and those of the input and of EOS sent. -/
theorem secondPass_ok {T : HuffTree} {s : State} (quiet : s.noIoFault) (seekable : s.env.seekable = true)
    (clean : s.writerClean) (denotes : Denotes s.huf.node T s.huf.root) (deep : T.depth ≤ Config.maxCodeLen)
    (nodup : T.leaves.Nodup) (noCodes : s.huf.ctab = []) (bytes : ∀ b ∈ s.io.inp, b.toNat ∈ T.leaves)
    (eos : Config.eosValue ∈ T.leaves) :
    ∃ t, ((heTable (s.setPhase .hTable)).bind fun _ s1 =>
        (heRewind (s1.setPhase .hEnc)).bind fun _ s2 => heEncode s2) = .ok () t ∧ t.writerClean ∧
      t.sentBits = s.sentBits ++ (s.io.inp.flatMap (fun b => T.code b.toNat) ++ T.code Config.eosValue) ∧
      OnlyEncoder .hEnc s t := by
  obtain ⟨c, tableRun, entries⟩ := heTable_ok (s := s.setPhase .hTable) denotes deep nodup noCodes
  let u := (s.setHuf { s.huf with ctab := c, hstk := [], hpath := [] }).setPhase .hEnc
  have rewind : heRewind u = .ok () (u.setInPos 0) := if_pos seekable
  have entry {sym : Nat} (h : sym ∈ T.leaves) : c.read sym = some (codeEntry [] (T.code sym)) := by
    rw [entries, HuffTree.pathTo_of_mem h]
    rfl
  have valid {sym : Nat} (h : sym ∈ T.leaves) : (u.setInPos 0).huf.ctab.read sym ≠ none := by
    change c.read sym ≠ none
    simp [entry h]
  have code {sym : Nat} (h : sym ∈ T.leaves) : (u.setInPos 0).codeOf sym = T.code sym := by
    change ((c.read sym).map (·.bits)).getD [] = T.code sym
    rw [entry h]
    rfl
  obtain ⟨t, encodeRun, sends⟩ := heEncode_sent (s := u.setInPos 0) quiet clean rfl
    (fun b hb => valid (bytes b hb)) (valid eos)
  have codes : (s.io.inp.flatMap fun b => (u.setInPos 0).codeOf b.toNat) = s.io.inp.flatMap fun b => T.code b.toNat :=
    List.flatMap_congr fun b hb => code (bytes b hb)
  refine ⟨t, ?_, sends.clean, ?_, ?_⟩
  · rw [tableRun, Res.bind_ok]
    change (heRewind u).bind _ = _
    rw [rewind, Res.bind_ok, encodeRun]
  · rw [← codes, ← code eos]
    exact sends.2.2
  · rw [OnlyEncoder, sends.1.1]
    rfl

/-- R160, R161, R162: with the default oracle, an input that can be repositioned and call start's Huffman data,
HE.COMPRESS sends R96's bits. -/
theorem heCompress_ok {s : State} (quiet : s.noIoFault) (seekable : s.env.seekable = true) (clean : s.writerClean)
    (start : s.io.inPos = 0) (noFreq : s.huf.freq = []) (noList : s.huf.list = []) (noNodes : s.huf.nNodes = 0)
    (noCodes : s.huf.ctab = []) :
    ∃ t, heCompress s = .ok () t ∧ t.writerClean ∧
      t.sentBits = s.sentBits ++ huffmanBits (huffmanTree (countOf s.io.inp)) s.io.inp ∧ OnlyEncoder .hEnc s t := by
  have nonempty : presentIn (countOf s.io.inp) ≠ [] := List.ne_nil_of_mem (eos_mem_presentIn s.io.inp)
  have leaves := huffmanTree_leaves nonempty
  obtain ⟨t, first, denotes, codes, cleanT, sentT, onlyT⟩ := firstPass_ok quiet clean start noFreq noList noNodes
  have same : t.io.inp = s.io.inp ∧ t.env.ioFaults = s.env.ioFaults ∧ t.env.seekable = s.env.seekable := by
    rw [onlyT]
    exact ⟨rfl, rfl, rfl⟩
  obtain ⟨inp, faults, seek⟩ := same
  obtain ⟨u, second, cleanU, sentU, onlyU⟩ := secondPass_ok (faults.trans quiet) (seek.trans seekable) cleanT denotes
    (huffmanTree_depth nonempty) (leaves.nodup_iff.mpr (nodup_presentIn _)) (codes.trans noCodes)
    (fun b hb => leaves.mem_iff.mpr (byte_mem_presentIn (inp ▸ hb))) (leaves.mem_iff.mpr (eos_mem_presentIn _))
  refine ⟨u, ?_, cleanU, ?_, onlyT.trans onlyU⟩
  · calc heCompress s
        = ((heFreq (s.setPhase .hFreq)).bind fun _ s1 =>
            (heBuild (s1.setPhase .hBuild)).bind fun _ s2 => heSer s2.huf.root (s2.setPhase .hSer)).bind fun _ s3 =>
              (heTable (s3.setPhase .hTable)).bind fun _ s4 =>
                (heRewind (s4.setPhase .hEnc)).bind fun _ s5 => heEncode s5 := by
          simp only [heCompress, Res.bind_assoc]
      _ = .ok () u := by rw [first, Res.bind_ok, second]
  · rw [sentU, sentT, inp, huffmanBits, List.append_assoc, List.append_assoc]

end Sys2Proof.Machine
end

section
/-! PROOFS, CompressHuffman. The container of METHOD 0 (R226, R227): the tag byte, the payload and the padding. -/

namespace Sys2Proof.Machine

/-- R91: the METHOD field of a word put together from its fields. -/
theorem methodField_cmdWordOf (method op : Byte) : methodField (cmdWordOf method op) = method :=
  BitVec.extractLsb'_append_eq_left

/-- R226: COMPRESS with METHOD 0 from call start, piece by piece. -/
theorem compressCall_huffman {s : State} (h : s.method = Config.tagHuffman) :
    compressCall s =
      (openWriter (s.setPhase .tag)).bind fun _ s1 =>
        (putNBytes [Config.tagHuffman] s1).bind fun _ s2 =>
          (heCompress s2).bind fun _ s3 =>
            (closeWriter (s3.setPhase .close)).bind fun _ s4 => .ok () s4.callDone := by
  have method : (s.setPhase .tag).method = Config.tagHuffman := h
  simp only [compressCall, method]
  rfl

/-- R120, R123, R227: the tag byte opens the container. -/
theorem putTag_ok {s : State} (quiet : s.noIoFault) (aligned : s.bc.wCnt = 0) (b : Byte) :
    putNBytes [b] s = .ok () (s.countAccess.pushOut b) := by
  rw [putNBytes, putByte_aligned quiet aligned, Res.bind_ok, putNBytes]

/-- Settles O54: the tag goes out first, HE.COMPRESS sends the payload, closing pads it, and what was appended
stays. -/
theorem compressHuffman : Obligations.CompressHuffman := by
  intro s idle quiet seekable bits
  let s0 := (s.setCmd (cmdWordOf Config.tagHuffman 1)).callStart
  let s1 := (s0.setPhase .tag).setWriter 0 0
  let s2 := s1.countAccess.pushOut Config.tagHuffman
  have clean : s2.writerClean := writerClean_setWriter_zero (s0.setPhase .tag)
  obtain ⟨t, payload, cleanT, sent, only⟩ :=
    heCompress_ok (s := s2) quiet seekable clean rfl rfl rfl rfl rfl
  have quietT : t.noIoFault := by
    rw [only]
    exact quiet
  obtain ⟨u, close, onlyU, noPending, out⟩ := closeWriter_ok (s := t.setPhase .close) quietT cleanT
  have tag : putNBytes [Config.tagHuffman] s1 = .ok () s2 := putTag_ok (s := s1) quiet rfl _
  have run : exec (.compress 0) s = .next u.callDone := by
    have method : s0.method = Config.tagHuffman := methodField_cmdWordOf Config.tagHuffman 1
    change hostWrite (cmdWordOf Config.tagHuffman 1) s = _
    rw [hostWrite_compress idle (opField_cmdWordOf Config.tagHuffman 1), compressCall_huffman method]
    change (((putNBytes [Config.tagHuffman] s1).bind fun _ s2 => _).finish) = _
    rw [tag, Res.bind_ok, payload, Res.bind_ok, close, Res.bind_ok]
    rfl
  have tagFirst : s2.io.out <+: u.io.out := by
    have first := ((heCompress_endsFrom s2) t (.inl ⟨_, payload⟩)).streamsGrow.out
    have second := ((closeWriter_endsFrom _) u (.inl ⟨_, close⟩)).streamsGrow.out
    exact first.trans second
  have regs : u.regs = { s0.regs with phase := .close } := by
    rw [onlyU.1, only]
    rfl
  refine ⟨u.callDone, run, ⟨rfl, ?_, rfl⟩, ?_, ?_, ?_, noPending⟩
  · rw [State.callDone_regs_err, regs]
    rfl
  · rw [State.callDone_regs_cmd, regs]
    rfl
  · exact (readOut_eq_iff_prefix s2 u).mpr tagFirst 0 Nat.zero_lt_one
  · have whole : t.sentBits = byteBits 0 ++ bits := sent
    have length : (t.setPhase .close).sentBits.length = 8 * 1 + bits.length := by
      rw [State.setPhase_sentBits, whole, List.length_append, length_byteBits]
    rw [State.callDone_io, out, length, padding_add_mul, State.setPhase_sentBits, whole]

end Sys2Proof.Machine
end

section
/-! PROOFS, ChannelWriter. The writer's claims (R122 to R124, R128) and what determines a writer: the bits sent and
the accesses made (R131). -/

namespace Sys2Proof.Machine

/-! ### Bits sent, counted -/

theorem Sends.sentBits_eq {s t : State} {bits : List Bool} (h : Sends s t bits) : t.sentBits = s.sentBits ++ bits :=
  h.2.2

/-- R42: the bits sent fix OUT's length and W_CNT. -/
theorem Sends.count {s t : State} {bits : List Bool} (h : Sends s t bits) :
    8 * t.outLen + t.bc.wCnt.val = 8 * s.outLen + s.bc.wCnt.val + bits.length := by
  rw [← length_sentBits, ← length_sentBits, h.sentBits_eq, List.length_append]

/-- The step of an operation that ends well and sends bits. -/
theorem exec_sends {i : Instr} {r : Res Unit} {s : State} {bits : List Bool} (h : r.Sent s bits)
    (run : exec i s = r.finish) : ∃ t, exec i s = .next t ∧ Sends s t bits := by
  obtain ⟨t, ok, sends⟩ := h
  exact ⟨t, by rw [run, ok, Res.finish_ok], sends⟩

/-! ### One bit with any oracle (R122, R244) -/

/-- R244: an append that was done is done with the default oracle too. -/
theorem outAppend_withoutFaults {b : Byte} {s t : State} (h : outAppend b s = .ok () t) :
    outAppend b (s.withOracle []) = .ok () (t.withOracle []) := by
  rcases outAppend_cases b s with ⟨-, e⟩ | ⟨-, e⟩ <;> rw [e] at h <;> cases h
  exact outAppend_ok rfl b

/-- R122, R244: so is a bit that was put. -/
theorem putBit_withoutFaults {b : Bool} {s t : State} (h : putBit b s = .ok () t) :
    putBit b (s.withOracle []) = .ok () (t.withOracle []) := by
  rw [putBit_eq] at h ⊢
  split at h
  · next last =>
    obtain ⟨_, u, append, ended⟩ := Res.bind_eq_ok.mp h
    cases ended
    rw [if_pos (by exact last)]
    exact Res.bind_eq_ok.mpr ⟨(), _, outAppend_withoutFaults append, rfl⟩
  · next more =>
    cases h
    exact if_neg more

/-- R122: a bit that was put joins the bits sent, whatever the oracle. -/
theorem putBit_sends {b : Bool} {s t : State} (clean : s.writerClean) (h : putBit b s = .ok () t) : Sends s t [b] := by
  obtain ⟨u, run, -, cleanU, sent⟩ := putBit_sent (s := s.withOracle []) rfl clean b
  rw [putBit_withoutFaults h] at run
  cases run
  exact ⟨putBit_onlyWriter (.inl ⟨_, h⟩), cleanU, sent⟩

/-- R122, R244: only the eighth bit makes an access, and only that can fail. -/
theorem putBit_ok {s : State} (h : s.bc.wCnt ≠ 7 ∨ s.ioFails = false) (b : Bool) : ∃ t, putBit b s = .ok () t := by
  rw [putBit_eq]
  by_cases last : s.bc.wCnt = 7
  · have done : s.ioFails = false := h.resolve_left (not_not.mpr last)
    rw [if_pos last, outAppend, if_neg (by simp [done])]
    exact ⟨_, rfl⟩
  · rw [if_neg last]
    exact ⟨_, rfl⟩

/-- R122, R244: the eighth bit where the append fails. -/
theorem putBit_fails {s : State} (last : s.bc.wCnt = 7) (fails : s.ioFails = true) (b : Bool) :
    putBit b s = .raised .ioFailure (s.setWriter (s.accWith b) s.bc.wCnt).countAccess := by
  rw [putBit_eq, if_pos last, outAppend, if_pos (by exact fails)]
  rfl

/-- R29: no partial byte is pending exactly when W_CNT is 0. -/
theorem partialPending_eq_false_iff (s : State) : s.partialPending = false ↔ s.bc.wCnt.val = 0 := by
  rw [State.partialPending, bne_eq_false_iff_eq, Fin.val_eq_zero_iff]

/-- Settles O11: the bit joins the bits sent, and counting them gives OUT_LEN and W_CNT. -/
theorem BitChannel.putBit : Obligations.PutBit := by
  intro b s clean
  refine ⟨fun done => ?_, fun last fails => ?_⟩
  · obtain ⟨t, run⟩ := putBit_ok done b
    have sends := putBit_sends clean run
    have count : 8 * t.outLen + t.bc.wCnt.val = 8 * s.outLen + s.bc.wCnt.val + 1 := sends.count
    have last : s.bc.wCnt = 7 ↔ s.bc.wCnt.val = 7 := Fin.ext_iff
    refine ⟨t, congrArg Res.finish run, sends, ?_, ?_⟩
    · rw [partialPending_eq_false_iff, last]
      omega
    · simp only [last]
      split <;> omega
  · exact ⟨_, congrArg Res.finish (putBit_fails last fails b), ⟨rfl, rfl, rfl⟩, rfl⟩

/-! ### Bytes and numbers (R123, R128) -/

/-- Settles O12: the bytes are sent whole, so W_CNT comes back to where it was. -/
theorem BitChannel.putNBytes : Obligations.PutNBytes := by
  intro bytes s quiet clean
  obtain ⟨t, run, sends⟩ := exec_sends (i := .bcPutNBytes bytes) (putNBytes_sent quiet clean bytes) rfl
  have count := sends.count
  rw [length_flatMap_byteBits] at count
  exact ⟨t, run, sends, Fin.ext (by omega), by omega⟩

/-- R128: a number's bits are sent in order. -/
theorem putBits_sent {s : State} (quiet : s.noIoFault) (clean : s.writerClean) (v n : Nat) :
    (putBits v n s).Sent s (bitsOfNat n v) :=
  putBits_eq_putList v n s ▸ putList_sent quiet clean _

/-- Settles O13: `n` more bits were sent. -/
theorem BitChannel.putBits : Obligations.PutBits := by
  intro v n s quiet clean
  obtain ⟨t, run, sends⟩ := exec_sends (i := .bcPutBits v n) (putBits_sent quiet clean v n) rfl
  have count := sends.count
  rw [length_bitsOfNat] at count
  exact ⟨t, run, sends, by omega, count⟩

/-! ### The end of a stream (R124) -/

/-- R124: closing keeps a clean accumulator clean. -/
theorem closeWriter_clean {s t : State} (clean : s.writerClean) (h : closeWriter s = .ok () t) : t.writerClean := by
  unfold closeWriter at h
  split at h
  · cases h
    exact clean
  · obtain ⟨_, u, -, ended⟩ := Res.bind_eq_ok.mp h
    cases ended
    exact writerClean_setWriter_zero u

/-- R27: a clean accumulator with nothing pending is 0. -/
theorem wAcc_eq_zero {s : State} (clean : s.writerClean) (empty : s.bc.wCnt = 0) : s.bc.wAcc = 0 := by
  refine BitVec.eq_of_getLsbD_eq fun j hj => ?_
  rw [(writerClean_iff s).mp clean j (by rw [empty]; exact hj)]
  simp

/-- R124: closing sends the padding. -/
theorem closeWriter_sent {s : State} (quiet : s.noIoFault) (clean : s.writerClean) :
    ∃ t, closeWriter s = .ok () t ∧ t.bc.wCnt = 0 ∧ Sends s t (padding s.sentBits.length) := by
  obtain ⟨t, run, only, empty, out⟩ := closeWriter_ok quiet clean
  refine ⟨t, run, empty, only, closeWriter_clean clean run, ?_⟩
  rw [State.sentBits, State.pendingBits, empty, out]
  exact List.append_nil _

/-- Settles O14: closing sends the padding, after which the writer is empty. -/
theorem BitChannel.close : Obligations.Close := by
  intro s quiet clean
  obtain ⟨t, run, empty, sends⟩ := closeWriter_sent quiet clean
  rw [length_sentBits, padding_add_mul, padding, Nat.mod_eq_of_lt s.bc.wCnt.isLt] at sends
  have count := sends.count
  rw [List.length_replicate, empty, Fin.val_zero] at count
  have aligned : s.bc.wCnt = 0 ↔ s.bc.wCnt.val = 0 := Fin.ext_iff
  refine ⟨t, congrArg Res.finish run, sends, wAcc_eq_zero sends.clean empty, empty, ?_⟩
  simp only [aligned]
  split <;> omega

/-! ### What determines a writer (R131) -/

/-- R65: a byte is its bits. -/
theorem byteBits_injective : Function.Injective byteBits := fun a b h => by
  have value (x : Byte) : natOfBits (byteBits x) = x.toNat := by
    rw [byteBits, natOfBits_bitsOfNat, Nat.mod_eq_of_lt x.isLt]
  exact BitVec.eq_of_toNat_eq (by rw [← value a, ← value b, h])

/-- R65: as many bytes are their bits. -/
theorem eq_of_flatMap_byteBits {as bs : List Byte} (length : as.length = bs.length)
    (h : as.flatMap byteBits = bs.flatMap byteBits) : as = bs := by
  induction as generalizing bs with
  | nil => exact (List.length_eq_zero_iff.mp length.symm).symm
  | cons a as ih =>
    obtain ⟨b, bs, rfl⟩ := List.exists_cons_of_length_eq_add_one length.symm
    obtain ⟨first, others⟩ := List.append_inj h (by simp)
    rw [byteBits_injective first, ih (Nat.succ.inj length) others]

/-- R27, R42: two writers with clean accumulators that sent the same bits hold the same. -/
theorem writer_eq_of_sentBits {s t : State} (cleanS : s.writerClean) (cleanT : t.writerClean)
    (sent : s.sentBits = t.sentBits) : s.io.out = t.io.out ∧ s.bc.wAcc = t.bc.wAcc ∧ s.bc.wCnt = t.bc.wCnt := by
  have length := congrArg List.length sent
  rw [length_sentBits, length_sentBits] at length
  have outLen : s.outLen = t.outLen := by omega
  have cnt : s.bc.wCnt = t.bc.wCnt := Fin.ext (by omega)
  obtain ⟨out, pending⟩ := List.append_inj sent (by
    rw [length_flatMap_byteBits, length_flatMap_byteBits]
    exact congrArg (8 * ·) outLen)
  refine ⟨eq_of_flatMap_byteBits outLen out, byteBits_injective ?_, cnt⟩
  calc byteBits s.bc.wAcc
      = s.pendingBits ++ (byteBits s.bc.wAcc).drop s.bc.wCnt.val := (List.take_append_drop ..).symm
    _ = t.pendingBits ++ (byteBits t.bc.wAcc).drop t.bc.wCnt.val := by rw [pending, cleanS, cleanT, cnt]
    _ = byteBits t.bc.wAcc := List.take_append_drop ..

/-- R62, R244: every access made was a byte appended. -/
def AppendsAll (s t : State) : Prop := t.env.accNo + s.outLen = s.env.accNo + t.outLen

theorem AppendsAll.trans {s t u : State} (h : AppendsAll s t) (h' : AppendsAll t u) : AppendsAll s u := by
  unfold AppendsAll at *
  omega

/-- R62: one append. -/
theorem outAppend_appendsAll {b : Byte} {s t : State} (h : outAppend b s = .ok () t) : AppendsAll s t := by
  rcases outAppend_cases b s with ⟨-, e⟩ | ⟨-, e⟩ <;> rw [e] at h <;> cases h
  simp only [AppendsAll, State.outLen, State.pushOut_env, State.countAccess_env_accNo, State.pushOut_io_out,
    State.countAccess_io, List.length_append, List.length_singleton]
  omega

/-- R122. -/
theorem putBit_appendsAll {b : Bool} {s t : State} (h : putBit b s = .ok () t) : AppendsAll s t := by
  rw [putBit_eq] at h
  split at h
  · obtain ⟨_, u, append, ended⟩ := Res.bind_eq_ok.mp h
    cases ended
    exact outAppend_appendsAll (s := s.setWriter (s.accWith b) s.bc.wCnt) (t := u) append
  · cases h
    rfl

/-- R159's loop. -/
theorem putList_appendsAll {bits : List Bool} {s t : State} (h : putList bits s = .ok () t) : AppendsAll s t := by
  induction bits generalizing s with
  | nil => cases h; rfl
  | cons b bits ih =>
    obtain ⟨_, u, first, others⟩ := Res.bind_eq_ok.mp h
    exact (putBit_appendsAll first).trans (ih others)

/-- R123, one byte. -/
theorem putByte_appendsAll {b : Byte} {s t : State} (h : putByte b s = .ok () t) : AppendsAll s t := by
  unfold putByte at h
  split at h
  · exact outAppend_appendsAll h
  · obtain ⟨_, u, append, ended⟩ := Res.bind_eq_ok.mp h
    cases ended
    exact outAppend_appendsAll (t := u) append

/-- Two writers that sent the same bits, with no other accesses, are in the same state. -/
theorem Sends.unique {s t u : State} {bits : List Bool} (ht : Sends s t bits) (hu : Sends s u bits)
    (appendsT : AppendsAll s t) (appendsU : AppendsAll s u) : t = u := by
  obtain ⟨⟨frameT, -⟩, cleanT, sentT⟩ := ht
  obtain ⟨⟨frameU, -⟩, cleanU, sentU⟩ := hu
  obtain ⟨out, acc, cnt⟩ := writer_eq_of_sentBits cleanT cleanU (sentT.trans sentU.symm)
  have accesses : t.env.accNo = u.env.accNo := by
    have length : t.outLen = u.outLen := congrArg List.length out
    unfold AppendsAll at appendsT appendsU
    omega
  rw [frameT, frameU, out, acc, cnt, accesses]

/-- R131: a byte put whole is its eight bits put one by one. -/
theorem putByte_eq_putBits {s : State} (quiet : s.noIoFault) (clean : s.writerClean) (b : Byte) :
    putByte b s = putBits b.toNat 8 s := by
  obtain ⟨t, runT, sendsT⟩ := putByte_sent quiet clean b
  obtain ⟨u, runU, sendsU⟩ := putBits_sent quiet clean b.toNat 8
  have appendsU : AppendsAll s u := putList_appendsAll (putBits_eq_putList _ _ s ▸ runU)
  rw [runT, runU, sendsT.unique sendsU (putByte_appendsAll runT) appendsU]

/-- R123: one byte is a list of one. -/
theorem putNBytes_singleton (b : Byte) (s : State) : putNBytes [b] s = putByte b s := by
  rw [putNBytes]
  cases putByte b s <;> rfl

end Sys2Proof.Machine
end

section
/-! PROOFS, ChannelReader. What the reader's operations take with the default oracle, as bits (R65, R68), and the
reader's claims (R125 to R127, R130, R132): each operation takes its own bits from those not yet read. -/

namespace Sys2Proof.Machine

/-! ### Bits not yet read -/

/-- R132: REMAINING is how many they are. -/
theorem length_unreadBits (s : State) : s.unreadBits.length = s.remaining := by
  have := s.bc.rCnt.isLt
  simp only [State.unreadBits, State.remaining, State.inLen, List.length_append, length_flatMap_byteBits,
    List.length_drop, length_byteBits]
  omega

theorem Takes.between {s t : State} {bits : List Bool} (h : Takes s t bits) : t.readerBetween := h.2.1

theorem Takes.unread {s t : State} {bits : List Bool} (h : Takes s t bits) : s.unreadBits = bits ++ t.unreadBits :=
  h.2.2

/-- R132: the bits taken no longer remain. -/
theorem Takes.remaining {s t : State} {bits : List Bool} (h : Takes s t bits) :
    t.remaining + bits.length = s.remaining := by
  rw [← length_unreadBits, ← length_unreadBits, h.unread, List.length_append, Nat.add_comm]

theorem OnlyReader.ioFaults {s t : State} (h : OnlyReader s t) : t.env.ioFaults = s.env.ioFaults := by rw [h]

theorem OnlyReader.inp {s t : State} (h : OnlyReader s t) : t.io.inp = s.io.inp := by rw [h]

theorem Takes.noIoFault {s t : State} {bits : List Bool} (h : Takes s t bits) (quiet : s.noIoFault) : t.noIoFault :=
  h.1.ioFaults.trans quiet

theorem Takes.refl {s : State} (between : s.readerBetween) : Takes s s [] := ⟨.refl s, between, rfl⟩

theorem Takes.trans {s t u : State} {as bs : List Bool} (h : Takes s t as) (h' : Takes t u bs) :
    Takes s u (as ++ bs) := by
  obtain ⟨only, -, unread⟩ := h
  obtain ⟨only', between, unread'⟩ := h'
  exact ⟨only.trans only', between, by rw [unread, unread', List.append_assoc]⟩

/-- The place of the result is no part of the reader (log entry 7). -/
theorem Takes.setResult {s t : State} {bits : List Bool} (h : Takes s t bits) (r : UopResult) :
    Takes s (t.setResult r) bits :=
  ⟨h.1.trans rfl, h.between, h.unread⟩

/-! ### One bit (R125) -/

/-- R125: R_CNT after a bit of R_CUR was taken. -/
theorem val_rCnt_sub_one {s : State} (h : s.bc.rCnt ≠ 0) : (s.bc.rCnt - 1).val = s.bc.rCnt.val - 1 :=
  Fin.val_sub_one_of_ne_zero h

/-- R28: the bits of a byte from the `n`-th last on. -/
theorem drop_byteBits {n : Nat} (pos : 0 < n) (hn : n ≤ 8) (x : Byte) :
    (byteBits x).drop (8 - n) = x.getLsbD (n - 1) :: (byteBits x).drop (8 - (n - 1)) := by
  have start : 8 - n < (byteBits x).length := by rw [length_byteBits]; omega
  have bit : (byteBits x)[8 - n] = x.getLsbD (n - 1) := by
    have index : 7 - (8 - n) = n - 1 := by omega
    rw [List.getElem_eq_iff, getElem?_byteBits, if_pos (by omega), index]
  have next : 8 - n + 1 = 8 - (n - 1) := by omega
  rw [List.drop_eq_getElem_cons start, bit, next]

/-- R125, the last two lines: the next bit of R_CUR is taken. -/
theorem takeBit_takes {s : State} (h : s.bc.rCnt ≠ 0) : ∃ b t, takeBit s = .ok (some b) t ∧ Takes s t [b] := by
  have pos : 0 < s.bc.rCnt.val := Fin.pos_iff_ne_zero.mpr h
  have bound := s.bc.rCnt.isLt
  refine ⟨_, _, rfl, takeBit_onlyReader (.inl ⟨_, rfl⟩), ?_, ?_⟩
  · rw [State.readerBetween, State.setReader_bc_rCnt, val_rCnt_sub_one h]
    omega
  · simp only [State.unreadBits, State.setReader_bc_rCur, State.setReader_bc_rCnt, State.setReader_io,
      val_rCnt_sub_one h]
    rw [drop_byteBits pos (by omega)]
    rfl

/-- R61: where a byte of IN is left, it is the next one read. -/
theorem inFetch_of_lt {s : State} (done : s.ioFails = false) (left : s.io.inPos < s.inLen) :
    inFetch s = .ok (s.io.inp[s.io.inPos]'left) (s.countAccess.setInPos (s.io.inPos + 1)) := by
  have byte : s.io.inp[s.io.inPos]? = some (s.io.inp[s.io.inPos]'left) := List.getElem?_eq_getElem left
  simp [inFetch, byte, done]

/-- R61: the bits of IN from IN_POS on. -/
theorem unreadInp_eq {s : State} (left : s.io.inPos < s.inLen) :
    (s.io.inp.drop s.io.inPos).flatMap byteBits =
      byteBits (s.io.inp[s.io.inPos]'left) ++ (s.io.inp.drop (s.io.inPos + 1)).flatMap byteBits := by
  rw [List.drop_eq_getElem_cons left, List.flatMap_cons]

/-- R132: at a byte boundary the bits that remain are those of the bytes left. -/
theorem lt_inLen_of_remaining {s : State} (remain : s.remaining ≠ 0) (aligned : s.bc.rCnt = 0) :
    s.io.inPos < s.inLen := by
  rw [State.remaining, aligned, Fin.val_zero] at remain
  omega

/-- R125: the next bit is taken, from R_CUR or from the byte after it. -/
theorem getBit_takes {s : State} (remain : s.remaining ≠ 0) (done : s.bc.rCnt ≠ 0 ∨ s.ioFails = false) :
    ∃ b t, getBit s = .ok (some b) t ∧ Takes s t [b] := by
  by_cases aligned : s.bc.rCnt = 0
  · have left := lt_inLen_of_remaining remain aligned
    have fetch := inFetch_of_lt (done.resolve_left (not_not.mpr aligned)) left
    obtain ⟨b, t, run, only, between, unread⟩ := takeBit_takes
      (s := (s.countAccess.setInPos (s.io.inPos + 1)).setReader (s.io.inp[s.io.inPos]'left) 8)
      (show (8 : Fin 9) ≠ 0 by decide)
    have fetched : s.unreadBits =
        ((s.countAccess.setInPos (s.io.inPos + 1)).setReader (s.io.inp[s.io.inPos]'left) 8).unreadBits := by
      rw [State.unreadBits, aligned, unreadInp_eq left]
      exact congrArg (· ++ _) (List.drop_of_length_le (length_byteBits _).le)
    have run' : getBit s = .ok (some b) t := by
      rw [getBit, if_pos aligned, if_neg (Nat.not_le.mpr left), fetch, Res.bind_ok, run]
    exact ⟨b, t, run', getBit_onlyReader (.inl ⟨_, run'⟩), between, fetched.trans unread⟩
  · rw [getBit, if_neg aligned]
    exact takeBit_takes aligned

/-- R125, R126: with no bit left the answer is none. -/
theorem getBit_exhausted {s : State} (exhausted : s.remaining = 0) : getBit s = .ok none s := by
  have eof := (remaining_eq_zero_iff s).mp exhausted
  simp only [State.atEof, Bool.and_eq_true, beq_iff_eq, decide_eq_true_eq] at eof
  obtain ⟨aligned, past⟩ := eof
  rw [getBit, if_pos aligned, if_pos past]

/-- R125, R244: a byte that cannot be read. -/
theorem getBit_fails {s : State} (remain : s.remaining ≠ 0) (aligned : s.bc.rCnt = 0) (fails : s.ioFails = true) :
    getBit s = .raised .ioFailure s.countAccess := by
  have left := lt_inLen_of_remaining remain aligned
  have byte : s.io.inp[s.io.inPos]? = some (s.io.inp[s.io.inPos]'left) := List.getElem?_eq_getElem left
  have fetch : inFetch s = .raised .ioFailure s.countAccess := by simp [inFetch, byte, fails]
  rw [getBit, if_pos aligned, if_neg (Nat.not_le.mpr left), fetch, Res.bind_raised]

/-- Settles O16: the three ends of GETBIT. -/
theorem BitChannel.getBit : Obligations.GetBit := by
  refine fun s => ⟨fun exhausted => ?_, fun remain done => ?_, fun remain aligned fails => ?_⟩
  · exact congrArg (Res.finishWith · .bit) (getBit_exhausted exhausted)
  · obtain ⟨b, t, run, takes⟩ := getBit_takes remain done
    exact ⟨b, t.setResult (.bit (some b)), congrArg (Res.finishWith · .bit) run, rfl, takes.setResult _,
      takes.remaining⟩
  · exact ⟨_, congrArg (Res.finishWith · .bit) (getBit_fails remain aligned fails), ⟨rfl, rfl, rfl⟩, rfl, rfl⟩

/-! ### A number's bits (R130) -/

/-- R67: bits as a number and back. -/
theorem bitsOfNat_natOfBits (bits : List Bool) : bitsOfNat bits.length (natOfBits bits) = bits := by
  induction bits using List.reverseRecOn with
  | nil => rfl
  | append_singleton bits b ih =>
    have value : natOfBits (bits ++ [b]) = 2 * natOfBits bits + b.toNat := by
      rw [natOfBits, List.foldl_append]
      rfl
    have high : (2 * natOfBits bits + b.toNat) >>> 1 = natOfBits bits := by
      rw [Nat.shiftRight_one]
      cases b
      · simp
      · simp [Nat.mul_add_div]
    have low : bitsOfNat 1 (2 * natOfBits bits + b.toNat) = [b] := by
      cases b <;> simp [bitsOfNat]
    rw [List.length_append, List.length_singleton, bitsOfNat_add, value, high, ih, low]

/-- R67: `n` bits give a number below `2 ^ n`. -/
theorem natOfBits_lt (bits : List Bool) : natOfBits bits < 2 ^ bits.length := by
  have value := natOfBits_bitsOfNat bits.length (natOfBits bits)
  rw [bitsOfNat_natOfBits] at value
  rw [value]
  exact Nat.mod_lt _ (Nat.two_pow_pos _)

/-- R130's loop: the next `n` bits are put behind the number so far. -/
theorem getBitRun_takes {n : Nat} {s : State} (quiet : s.noIoFault) (between : s.readerBetween)
    (enough : n ≤ s.remaining) (v : Nat) :
    ∃ bits t, getBitRun n v s = .ok (some (bits.foldl (fun a b => 2 * a + b.toNat) v)) t ∧ bits.length = n ∧
      Takes s t bits := by
  induction n generalizing s v with
  | zero => exact ⟨[], s, rfl, rfl, .refl between⟩
  | succ n ih =>
    obtain ⟨b, t, run, takes⟩ := getBit_takes (s := s) (by omega) (.inr (ioFails_of_noIoFault quiet))
    have rest : t.remaining + 1 = s.remaining := takes.remaining
    obtain ⟨bits, u, run', length, takes'⟩ := ih (takes.noIoFault quiet) takes.between (by omega) (2 * v + b.toNat)
    refine ⟨b :: bits, u, ?_, congrArg Nat.succ length, takes.trans takes'⟩
    rw [getBitRun, run, Res.bind_ok]
    exact run'

/-- R130: GETBITS with enough bits left. -/
theorem getBits_takes {n : Nat} {s : State} (quiet : s.noIoFault) (between : s.readerBetween)
    (enough : n ≤ s.remaining) :
    ∃ bits t, getBits n s = .ok (some (natOfBits bits)) t ∧ bits.length = n ∧ Takes s t bits := by
  obtain ⟨bits, t, run, h⟩ := getBitRun_takes quiet between enough 0
  refine ⟨bits, t, ?_, h⟩
  rw [getBits, State.exhaustedFor, decide_eq_false (Nat.not_lt.mpr enough)]
  exact run

/-- Settles O18: too few bits left, or the next `n` as a number. -/
theorem BitChannel.getBits : Obligations.GetBits := by
  refine fun n s between => ⟨fun short => ?_, fun enough quiet => ?_⟩
  · have run : Machine.getBits n s = .ok none s := if_pos (decide_eq_true short)
    exact congrArg (Res.finishWith · .number) run
  · obtain ⟨bits, t, run, rfl, takes⟩ := getBits_takes quiet between enough
    refine ⟨natOfBits bits, t.setResult (.number (some (natOfBits bits))), congrArg (Res.finishWith · .number) run, rfl,
      natOfBits_lt bits, ?_, takes.remaining⟩
    rw [bitsOfNat_natOfBits]
    exact takes.setResult _

/-! ### Whole bytes (R127) -/

/-- R127: at a byte boundary the next byte of IN is the one. -/
theorem getByte_aligned {s : State} (done : s.ioFails = false) (left : s.io.inPos < s.inLen) (aligned : s.bc.rCnt = 0) :
    getByte s = .ok (s.io.inp[s.io.inPos]'left) (s.countAccess.setInPos (s.io.inPos + 1)) := by
  rw [getByte, inFetch_of_lt done left, Res.bind_ok]
  exact if_pos aligned

/-- R127: mid-byte the byte is put together from R_CUR and the next byte of IN, which becomes R_CUR. -/
theorem getByte_shifting {s : State} (done : s.ioFails = false) (left : s.io.inPos < s.inLen) (mid : s.bc.rCnt ≠ 0) :
    getByte s =
      .ok ((s.bc.rCur <<< (8 - s.bc.rCnt.val)) ||| (s.io.inp[s.io.inPos]'left >>> s.bc.rCnt.val))
        ((s.countAccess.setInPos (s.io.inPos + 1)).setReader (s.io.inp[s.io.inPos]'left) s.bc.rCnt) := by
  rw [getByte, inFetch_of_lt done left, Res.bind_ok]
  exact if_neg mid

/-- R127: the byte's bits are what is left of R_CUR, then the first of the next byte. -/
theorem byteBits_putTogether {n : Nat} (hn : n < 8) (cur next : Byte) :
    byteBits ((cur <<< (8 - n)) ||| (next >>> n)) = (byteBits cur).drop (8 - n) ++ (byteBits next).take (8 - n) := by
  have zero (j : Nat) (hj : j + n < 8) : (cur <<< (8 - n)).getLsbD j = false := by
    have below : j < 8 - n := by omega
    simp [below]
  rw [byteBits_joined hn zero, take_byteBits_shifted hn]

/-- R127: a byte is taken, and R_CNT stays. -/
theorem getByte_takes {s : State} (quiet : s.noIoFault) (between : s.readerBetween) (left : s.io.inPos < s.inLen) :
    ∃ b t, getByte s = .ok b t ∧ Takes s t (byteBits b) ∧ t.bc.rCnt = s.bc.rCnt ∧ t.io.inPos = s.io.inPos + 1 := by
  have done := ioFails_of_noIoFault quiet
  by_cases aligned : s.bc.rCnt = 0
  · have run := getByte_aligned done left aligned
    refine ⟨_, _, run, ⟨getByte_onlyReader (.inl ⟨_, run⟩), between, ?_⟩, rfl, rfl⟩
    have empty (x : Byte) : (byteBits x).drop 8 = [] := List.drop_of_length_le (length_byteBits x).le
    simp [State.unreadBits, unreadInp_eq left, aligned, empty]
  · have run := getByte_shifting done left aligned
    refine ⟨_, _, run, ⟨getByte_onlyReader (.inl ⟨_, run⟩), between, ?_⟩, rfl, rfl⟩
    rw [byteBits_putTogether (Nat.lt_succ_of_le between), State.unreadBits, unreadInp_eq left, List.append_assoc]
    refine congrArg ((byteBits s.bc.rCur).drop (8 - s.bc.rCnt.val) ++ ·) ?_
    rw [State.unreadBits, ← List.append_assoc]
    exact congrArg (· ++ _) (List.take_append_drop ..).symm

/-- R132: with R_CNT at most 7, eight bits more are never without a byte more. -/
theorem lt_inLen_of_eight {s : State} (between : s.readerBetween) (enough : 8 ≤ s.remaining) :
    s.io.inPos < s.inLen := by
  rw [State.readerBetween] at between
  rw [State.remaining] at enough
  omega

/-- R127's loop. -/
theorem getByteRun_takes {n : Nat} {s : State} (quiet : s.noIoFault) (between : s.readerBetween)
    (enough : 8 * n ≤ s.remaining) :
    ∃ bytes t, getByteRun n s = .ok bytes t ∧ bytes.length = n ∧ Takes s t (bytes.flatMap byteBits) ∧
      t.bc.rCnt = s.bc.rCnt ∧ t.io.inPos = s.io.inPos + n := by
  induction n generalizing s with
  | zero => exact ⟨[], s, rfl, rfl, .refl between, rfl, rfl⟩
  | succ n ih =>
    obtain ⟨b, t, run, takes, cnt, pos⟩ := getByte_takes quiet between (lt_inLen_of_eight between (by omega))
    have rest := takes.remaining
    rw [length_byteBits] at rest
    obtain ⟨bytes, u, run', length, takes', cnt', pos'⟩ := ih (takes.noIoFault quiet) takes.between (by omega)
    refine ⟨b :: bytes, u, ?_, congrArg Nat.succ length, takes.trans takes', cnt'.trans cnt, by omega⟩
    rw [getByteRun, run, Res.bind_ok, run', Res.bind_ok]

/-- R127: GETNBYTES with enough bits left is its loop. -/
theorem getNBytes_of_le {n : Nat} {s : State} (enough : 8 * n ≤ s.remaining) :
    getNBytes n s = (getByteRun n s).bind fun bytes t => .ok (some bytes) t := by
  rw [getNBytes, State.exhaustedFor, decide_eq_false (Nat.not_lt.mpr enough)]
  rfl

/-- Settles O17: too few bits left, or the next `n` bytes. -/
theorem BitChannel.getNBytes : Obligations.GetNBytes := by
  refine fun n s between => ⟨fun short => ?_, fun enough quiet => ?_⟩
  · have run : Machine.getNBytes n s = .ok none s := if_pos (decide_eq_true short)
    exact congrArg (Res.finishWith · .bytes) run
  · obtain ⟨bytes, t, run, length, takes, cnt, pos⟩ := getByteRun_takes quiet between enough
    have whole : Machine.getNBytes n s = .ok (some bytes) t := by rw [getNBytes_of_le enough, run, Res.bind_ok]
    exact ⟨bytes, t.setResult (.bytes (some bytes)), congrArg (Res.finishWith · .bytes) whole, rfl, length,
      takes.setResult _, cnt, pos⟩

end Sys2Proof.Machine
end

section
/-! PROOFS, ChannelClaims. The claims about both sides of the Bit Channel: opening them (R120, R121, R129), whole
bytes against single bits (R131), and what is written against what is read (R133). -/

namespace Sys2Proof.Machine

/-! ### Opening and EOF (R120, R121, R129) -/

/-- R124: an empty writer closes without an append. -/
theorem closeWriter_aligned {s : State} (aligned : s.bc.wCnt = 0) : closeWriter s = .ok () s := if_pos aligned

/-- R29, R129: within R25's range of IN_POS, EOF answers the condition the rules state. -/
theorem atEof_eq {s : State} (inRange : s.io.inPos ≤ s.inLen) :
    s.atEof = decide (s.bc.rCnt = 0 ∧ s.io.inPos = s.inLen) :=
  Bool.eq_iff_iff.mpr ((atEof_iff inRange).trans decide_eq_true_iff.symm)

/-- Settles O10: the opened writer closes at a boundary, and EOF answers `atEof`. -/
theorem BitChannel.openAndEof : Obligations.OpenAndEof := by
  refine fun s => ⟨rfl, ?_, rfl, fun inRange => ?_⟩
  · exact congrArg Res.finish (closeWriter_aligned (s := s.setWriter 0 0) rfl)
  · rw [← atEof_eq inRange]
    rfl

/-! ### What determines a reader (R131) -/

/-- R61, R244: every access made read one byte of IN, and R_CUR holds the last of them. -/
structure FetchesAll (s t : State) : Prop where
  inp : t.io.inp = s.io.inp
  accesses : t.env.accNo + s.io.inPos = s.env.accNo + t.io.inPos
  current : t.io.inPos = s.io.inPos ∧ t.bc.rCur = s.bc.rCur ∨
    s.io.inPos < t.io.inPos ∧ s.io.inp[t.io.inPos - 1]? = some t.bc.rCur

theorem FetchesAll.refl (s : State) : FetchesAll s s := ⟨rfl, rfl, .inl ⟨rfl, rfl⟩⟩

theorem FetchesAll.trans {s t u : State} (h : FetchesAll s t) (h' : FetchesAll t u) : FetchesAll s u := by
  obtain ⟨inp, accesses, current⟩ := h
  obtain ⟨inp', accesses', current'⟩ := h'
  refine ⟨inp'.trans inp, by omega, ?_⟩
  rw [inp] at current'
  rcases current' with ⟨pos, cur⟩ | ⟨pos, last⟩
  · rwa [pos, cur]
  · refine .inr ⟨?_, last⟩
    rcases current with ⟨pos', -⟩ | ⟨pos', -⟩ <;> omega

/-- R61: one read of IN, taken into R_CUR. -/
theorem inFetch_fetchesAll {s t : State} {b : Byte} (h : inFetch s = .ok b t) (cnt : Fin 9) :
    FetchesAll s (t.setReader b cnt) := by
  rcases inFetch_cases s with ⟨-, e⟩ | ⟨c, byte, ⟨-, e⟩ | ⟨-, e⟩⟩ <;> rw [e] at h <;> cases h
  exact ⟨rfl, by simp; omega, .inr ⟨Nat.lt_succ_self _, byte⟩⟩

/-- R125. -/
theorem getBit_fetchesAll {s t : State} {r : Option Bool} (h : getBit s = .ok r t) : FetchesAll s t := by
  unfold getBit at h
  split at h
  · split at h
    · cases h
      exact .refl _
    · obtain ⟨b, u, fetch, taken⟩ := Res.bind_eq_ok.mp h
      cases taken
      exact inFetch_fetchesAll fetch _
  · cases h
    exact ⟨rfl, rfl, .inl ⟨rfl, rfl⟩⟩

/-- R130's loop. -/
theorem getBitRun_fetchesAll {n v : Nat} {s t : State} {r : Option Nat} (h : getBitRun n v s = .ok r t) :
    FetchesAll s t := by
  induction n generalizing v s with
  | zero =>
    cases h
    exact .refl _
  | succ n ih =>
    obtain ⟨b, u, first, others⟩ := Res.bind_eq_ok.mp h
    refine (getBit_fetchesAll first).trans ?_
    cases b with
    | none =>
      cases others
      exact .refl _
    | some b => exact ih others

/-- R130. -/
theorem getBits_fetchesAll {n : Nat} {s t : State} {r : Option Nat} (h : getBits n s = .ok r t) : FetchesAll s t := by
  unfold getBits at h
  split at h
  · cases h
    exact .refl _
  · exact getBitRun_fetchesAll h

/-- R127, one byte: one access, and R_CUR holds the byte read but at a byte boundary. -/
theorem getByte_reads {s t : State} {b : Byte} (h : getByte s = .ok b t) :
    t.env.accNo = s.env.accNo + 1 ∧ (s.bc.rCnt = 0 → t.bc.rCur = s.bc.rCur) ∧
      (s.bc.rCnt ≠ 0 → s.io.inp[s.io.inPos]? = some t.bc.rCur) := by
  obtain ⟨c, u, fetch, joined⟩ := Res.bind_eq_ok.mp h
  rcases inFetch_cases s with ⟨-, e⟩ | ⟨d, byte, ⟨-, e⟩ | ⟨-, e⟩⟩ <;> rw [e] at fetch <;> cases fetch
  split at joined
  · next aligned =>
    cases joined
    exact ⟨rfl, fun _ => rfl, fun mid => absurd aligned mid⟩
  · next mid =>
    cases joined
    exact ⟨rfl, fun aligned => absurd aligned mid, fun _ => byte⟩

/-- R25, R28: of eight bits taken one byte was read, and R_CNT is the same. -/
theorem reader_after_eight {s t : State} (between : s.readerBetween) (between' : t.readerBetween)
    (inRange : t.io.inPos ≤ t.inLen) (inp : t.io.inp = s.io.inp) (taken : t.remaining + 8 = s.remaining) :
    t.io.inPos = s.io.inPos + 1 ∧ t.bc.rCnt = s.bc.rCnt := by
  have left := lt_inLen_of_eight between (by omega)
  have sameLen : t.inLen = s.inLen := congrArg List.length inp
  rw [State.readerBetween] at between between'
  rw [State.remaining, State.remaining, sameLen] at taken
  exact ⟨by omega, Fin.ext (by omega)⟩

/-- R131, the writer's half. -/
theorem exec_putNBytes_singleton {s : State} (quiet : s.noIoFault) (clean : s.writerClean) (b : Byte) :
    exec (.bcPutNBytes [b]) s = exec (.bcPutBits b.toNat 8) s := by
  change (putNBytes [b] s).finish = (putBits b.toNat 8 s).finish
  rw [putNBytes_singleton, putByte_eq_putBits quiet clean]

/-- R127: GETNBYTES of one byte. -/
theorem getNBytes_one {s t : State} {b : Byte} (enough : 8 ≤ s.remaining) (h : getByte s = .ok b t) :
    getNBytes 1 s = .ok (some [b]) t := by
  rw [getNBytes_of_le enough, getByteRun, h, Res.bind_ok, getByteRun, Res.bind_ok, Res.bind_ok]

/-- R131, the reader's half: the same eight bits are taken, in as many accesses. -/
theorem getByte_getBits {s : State} (quiet : s.noIoFault) (between : s.readerBetween) (enough : 8 ≤ s.remaining) :
    ∃ b t u, getByte s = .ok b t ∧ getBits 8 s = .ok (some b.toNat) u ∧
      u = { t with result := u.result, bc := { t.bc with rCur := u.bc.rCur } } ∧
      (s.bc.rCnt ≠ 0 → u.bc.rCur = t.bc.rCur) ∧ (s.bc.rCnt = 0 → t.bc.rCur = s.bc.rCur) := by
  have left := lt_inLen_of_eight between enough
  obtain ⟨b, t, runT, takesT, cntT, posT⟩ := getByte_takes quiet between left
  obtain ⟨bits, u, runU, eight, takesU⟩ := getBits_takes quiet between enough
  have sameBits : bits = byteBits b :=
    (List.append_inj (takesU.unread.symm.trans takesT.unread) (by rw [eight, length_byteBits])).1
  have value : natOfBits bits = b.toNat := by rw [sameBits, byteBits, natOfBits_bitsOfNat, Nat.mod_eq_of_lt b.isLt]
  have inRange := ((getBits_endsFrom 8 s) u (.inl ⟨_, runU⟩)).streamsGrow.inRange left.le
  obtain ⟨posU, cntU⟩ := reader_after_eight between takesU.between inRange takesU.1.inp (eight ▸ takesU.remaining)
  obtain ⟨-, accesses, current⟩ := getBits_fetchesAll runU
  obtain ⟨accessesT, aligned, mid⟩ := getByte_reads runT
  refine ⟨b, t, u, runT, value ▸ runU, ?_, fun hmid => ?_, aligned⟩
  · have pos : u.io.inPos = t.io.inPos := posU.trans posT.symm
    have cnt : u.bc.rCnt = t.bc.rCnt := cntU.trans cntT.symm
    have acc : u.env.accNo = t.env.accNo := by omega
    rw [takesT.1, takesU.1, pos, cnt, acc]
  · rcases current with ⟨pos, -⟩ | ⟨-, last⟩
    · omega
    · rw [posU, Nat.add_sub_cancel, mid hmid] at last
      exact (Option.some.inj last).symm

/-- Settles O15: the same bits are put, and the same bits are taken. -/
theorem BitChannel.bytesAreBits : Obligations.BytesAreBits := by
  refine fun s quiet => ⟨fun clean b => ⟨exec_putNBytes_singleton quiet clean b, ?_⟩, fun between enough => ?_⟩
  · obtain ⟨t, run, -⟩ := exec_sends (i := .bcPutNBytes [b]) (putNBytes_sent quiet clean [b]) rfl
    exact ⟨t, run⟩
  · obtain ⟨b, t, u, runT, runU, same, mid, aligned⟩ := getByte_getBits quiet between enough
    refine ⟨t.setResult (.bytes (some [b])), u.setResult (.number (some b.toNat)), b,
      congrArg (Res.finishWith · .bytes) (getNBytes_one enough runT), congrArg (Res.finishWith · .number) runU, rfl, rfl,
      ?_, mid, aligned⟩
    rw [same]
    rfl

/-! ### What is written is what is read (R133) -/

/-- R122, R123, R128: a write operation sends its bits. -/
theorem exec_writeOp {i : Instr} (h : isWriteOp i = true) {s : State} (quiet : s.noIoFault) (clean : s.writerClean) :
    ∃ t, exec i s = .next t ∧ Sends s t (bitsPut i) := by
  cases i with
  | bcPutBit b => exact exec_sends (putBit_sent quiet clean b) rfl
  | bcPutNBytes bytes => exact exec_sends (putNBytes_sent quiet clean bytes) rfl
  | bcPutBits v n => exact exec_sends (putBits_sent quiet clean v n) rfl
  | _ => cases h

/-- R133: any mix of them sends their bits in order. -/
theorem runAll_writeOps {ops : List Instr} (h : ∀ i ∈ ops, isWriteOp i = true) {s : State} (quiet : s.noIoFault)
    (clean : s.writerClean) : ∃ t, runAll ops s = .next t ∧ Sends s t (ops.flatMap bitsPut) := by
  induction ops generalizing s with
  | nil => exact ⟨s, rfl, .refl clean⟩
  | cons i ops ih =>
    obtain ⟨write, writes⟩ := List.forall_mem_cons.mp h
    obtain ⟨t, run, sends⟩ := exec_writeOp write quiet clean
    obtain ⟨u, run', sends'⟩ := ih writes (sends.noIoFault quiet) sends.clean
    exact ⟨u, by rw [runAll, run]; exact run', sends.trans sends'⟩

/-- R133: opened on an empty OUT, written to and closed, OUT holds the bits put and the padding. -/
theorem runAll_written {ops : List Instr} (h : ∀ i ∈ ops, isWriteOp i = true) {s : State} (quiet : s.noIoFault)
    (empty : s.io.out = []) :
    ∃ t, runAll (.bcOpenW :: ops ++ [.bcClose]) s = .next t ∧
      t.io.out.flatMap byteBits = ops.flatMap bitsPut ++ padding (ops.flatMap bitsPut).length := by
  obtain ⟨t, run, sends⟩ := runAll_writeOps h (s := s.setWriter 0 0) quiet (writerClean_setWriter_zero s)
  obtain ⟨u, close, -, -, out⟩ := closeWriter_ok (sends.noIoFault quiet) sends.clean
  have sent : t.sentBits = ops.flatMap bitsPut := by
    rw [sends.sentBits_eq, pendingBits_setWriter, empty]
    rfl
  refine ⟨u, ?_, sent ▸ out⟩
  change runAll (ops ++ [.bcClose]) (s.setWriter 0 0) = .next u
  rw [runAll_append run, runAll_singleton]
  exact congrArg Res.finish close

/-- R125, R126: GETBIT answers the first unread bit, if there is one, and leaves the others. -/
theorem exec_getBit {s : State} (quiet : s.noIoFault) :
    ∃ t, exec .bcGetBit s = .next t ∧ t.result = .bit s.unreadBits.head? ∧ t.unreadBits = s.unreadBits.tail ∧
      t.noIoFault := by
  by_cases remain : s.remaining = 0
  · have empty : s.unreadBits = [] := List.length_eq_zero_iff.mp ((length_unreadBits s).trans remain)
    refine ⟨s.setResult (.bit none), congrArg (Res.finishWith · .bit) (getBit_exhausted remain), ?_, ?_, quiet⟩
    · rw [empty]
      rfl
    · rw [State.setResult_unreadBits, empty]
      rfl
  · obtain ⟨b, t, run, takes⟩ := getBit_takes remain (.inr (ioFails_of_noIoFault quiet))
    refine ⟨t.setResult (.bit (some b)), congrArg (Res.finishWith · .bit) run, ?_, ?_, takes.noIoFault quiet⟩
    · rw [takes.unread]
      rfl
    · rw [takes.unread]
      rfl

/-- R133: the `k + 1`-th GETBIT answers the `k`-th unread bit, counted from 0, and none past the last. -/
theorem runAll_getBits {s : State} (quiet : s.noIoFault) (k : Nat) :
    ∃ t, runAll (List.replicate (k + 1) .bcGetBit) s = .next t ∧ t.result = .bit s.unreadBits[k]? := by
  induction k generalizing s with
  | zero =>
    obtain ⟨t, run, result, -, -⟩ := exec_getBit quiet
    exact ⟨t, (runAll_singleton _ s).trans run, result.trans (by rw [List.head?_eq_getElem?])⟩
  | succ k ih =>
    obtain ⟨t, run, -, unread, quiet'⟩ := exec_getBit quiet
    obtain ⟨u, run', result⟩ := ih quiet'
    refine ⟨u, ?_, ?_⟩
    · rw [List.replicate_succ, runAll, run]
      exact run'
    · rw [result, unread, List.getElem?_tail]

/-- R121: an opened reader has all the bits of IN before it. -/
theorem unreadBits_opened (s : State) :
    ((s.setReader 0 0).setInPos 0).unreadBits = s.io.inp.flatMap byteBits := rfl

/-- Settles O19: the bytes written are the bits put and the padding, and those are a reader's unread bits. -/
theorem BitChannel.writeThenRead : Obligations.WriteThenRead := by
  intro ops s writes quiet empty
  obtain ⟨t, run, out⟩ := runAll_written writes quiet empty
  refine ⟨t, run, ?_, fun r quietR inp k => ?_⟩
  · rw [← out, length_flatMap_byteBits]
    rfl
  · obtain ⟨u, reads, result⟩ := runAll_getBits (s := (r.setReader 0 0).setInPos 0) quietR k
    rw [unreadBits_opened, inp, out] at result
    exact ⟨u, reads, result⟩

end Sys2Proof.Machine
end

section
/-! PROOFS, EncoderTree. The claims about the Frequency Table and the tree made of it (R140 to R151): what is
counted, the order LIST keeps, the leaves one after the other, and what the merges conserve. -/

namespace Sys2Proof.Machine

/-! ### The Frequency Table (R140) -/

/-- R140: one more byte of the input adds one to its own counter. -/
theorem countOf_cons (b : Byte) (bytes : List Byte) (sym : Nat) :
    countOf (b :: bytes) sym = countOf bytes sym + if sym = b.toNat then 1 else 0 := by
  by_cases eos : sym = Config.eosValue
  · have notByte : sym ≠ b.toNat := eos ▸ b.isLt.ne'
    simp only [countOf, if_pos eos, if_neg notByte]
  · simp only [countOf, if_neg eos, List.countP_cons, decide_eq_true_iff, @eq_comm Nat sym b.toNat]

/-- Of a sum over a range, the one symbol picked out. -/
theorem sum_range_pick {n x : Nat} (h : x < n) (f : Nat → Nat) :
    ((List.range n).map fun sym => (if sym = x then 1 else 0) * f sym).sum = f x := by
  change ∑ sym ∈ Finset.range n, (if sym = x then 1 else 0) * f sym = f x
  simp [h]

/-- R140: a sum over the symbols, each taken as often as it is counted, runs over the input and EOS. -/
theorem sum_countOf_mul (bytes : List Byte) (f : Nat → Nat) :
    ((List.range Config.nSymbols).map fun sym => countOf bytes sym * f sym).sum =
      (bytes.map fun b => f b.toNat).sum + f Config.eosValue := by
  induction bytes with
  | nil =>
    have eosAlone := sum_range_pick (n := Config.nSymbols) (x := Config.eosValue) (by decide) f
    exact eosAlone.trans (Nat.zero_add _).symm
  | cons b bytes ih =>
    have symbol : b.toNat < Config.nSymbols := b.isLt.trans (by decide)
    simp only [countOf_cons, Nat.add_mul]
    rw [List.sum_map_add, ih, sum_range_pick symbol, List.map_cons, List.sum_cons]
    omega

/-- Settles O21: the counters are the counts, and each byte and EOS counts once in their sum. -/
theorem HuffmanEncoder.heFreq : Obligations.HeFreq := by
  intro s quiet start empty
  obtain ⟨t, run, counts, frame⟩ := heFreq_ok quiet start empty
  refine ⟨t, congrArg Res.finish run, counts, ?_, frame⟩
  have sum := sum_countOf_mul s.io.inp fun _ => 1
  simp only [Nat.mul_one, List.map_const', List.sum_replicate, smul_eq_mul] at sum
  rw [funext counts]
  exact sum

/-! ### Insertion (R142) -/

/-- R142: the entries are those there were and the new one. -/
theorem insertFromTail_perm (e : ListEntry) (l : List ListEntry) : (insertFromTail e l).Perm (e :: l) := by
  induction l with
  | nil => exact .refl _
  | cons x l ih =>
    rw [insertFromTail]
    split
    · exact (ih.cons x).trans (.swap e x l)
    · exact .refl _

theorem insertEntry_perm (e : ListEntry) (l : List ListEntry) : (insertEntry e l).Perm (e :: l) :=
  calc (insertEntry e l).Perm (insertFromTail e l.reverse) := List.reverse_perm _
    List.Perm _ (e :: l.reverse) := insertFromTail_perm e _
    List.Perm _ (e :: l) := (List.reverse_perm l).cons e

/-- Settles O22: the walk from the tail stops behind all entries not lighter. -/
theorem HuffmanEncoder.heInsert : Obligations.HeInsert := by
  intro i w s sorted room
  have place := insertEntry_eq (e := ⟨i, w⟩) sorted
  have run : Machine.heInsert i w s = _ := heInsert_eq_ok.mpr ⟨room, rfl⟩
  rw [place] at run
  exact ⟨congrArg Res.finish run, place ▸ insertEntry_descending sorted⟩

/-- R144, R146: `a` and `b` merged into a new node, which is entered in the rest of LIST. -/
def State.merged (s : State) (front : List ListEntry) (a b : ListEntry) : State :=
  s.setHuf { s.huf with
    node := s.huf.node.write s.huf.nNodes (.internal (some a.node) (some b.node))
    nNodes := s.huf.nNodes + 1
    list := insertEntry ⟨s.huf.nNodes, a.weight + b.weight⟩ front }

/-- R144: a merge takes two entries off the end of LIST, where there are two and the arena has room. -/
theorem heCombine_eq_merged {s t : State} :
    heCombine s = .ok () t ↔
      ∃ front a b, s.huf.list = front ++ [b, a] ∧ front.length < Config.listCap ∧
        s.huf.nNodes < Config.nodeCap ∧ t = s.merged front a b := by
  rw [heCombine_eq_ok]
  constructor
  · rintro ⟨a, b, rest, lowest, i, u, alloc, insert⟩
    obtain ⟨rfl, cap, rfl⟩ := allocNode_eq_ok.mp alloc
    obtain ⟨room, rfl⟩ := heInsert_eq_ok.mp insert
    exact ⟨rest.reverse, a, b, by simpa using congrArg List.reverse lowest, room, cap, rfl⟩
  · rintro ⟨front, a, b, parts, room, cap, rfl⟩
    refine ⟨a, b, front.reverse, by simp [parts], _, _, allocNode_eq_ok.mpr ⟨rfl, cap, rfl⟩, ?_⟩
    rw [List.reverse_reverse]
    exact heInsert_eq_ok.mpr ⟨room, rfl⟩

/-- Settles O24: the two are taken off the end, and the rest is still sorted. -/
theorem HuffmanEncoder.heCombine : Obligations.HeCombine := by
  intro s front a b parts sorted fits cap
  rw [parts] at sorted
  have short : s.listLen = front.length + 2 := by rw [State.listLen, parts]; simp
  have run := heCombine_eq_merged.mpr ⟨front, a, b, parts, by omega, cap, rfl⟩
  rw [State.merged, insertEntry_eq (List.pairwise_append.mp sorted).1] at run
  exact congrArg Res.finish run

/-! ### The leaves, one after the other (R143, R151) -/

/-- R142, R143: descending weight, and among equal weights ascending arena indices. -/
def StablyDescending (l : List ListEntry) : Prop :=
  l.Pairwise fun a b => b.weight < a.weight ∨ (b.weight = a.weight ∧ a.node < b.node)

/-- R142: a newer node goes behind those of its weight. -/
theorem StablyDescending.insertEntry {e : ListEntry} {l : List ListEntry} (stable : StablyDescending l)
    (newer : ∀ x ∈ l, x.node < e.node) : StablyDescending (insertEntry e l) := by
  induction l using List.reverseRecOn with
  | nil => exact List.pairwise_singleton ..
  | append_singleton l x ih =>
    obtain ⟨stableL, -, before⟩ := List.pairwise_append.mp stable
    have before (y : ListEntry) (hy : y ∈ l) := before y hy x (List.mem_singleton_self x)
    rw [insertEntry_concat]
    split
    · next lighter =>
      have stableRest := ih stableL fun y hy => newer y (List.mem_append_left _ hy)
      refine List.pairwise_append.mpr ⟨stableRest, List.pairwise_singleton .., ?_⟩
      intro y hy z hz
      rw [List.mem_singleton.mp hz]
      rcases List.mem_cons.mp ((insertEntry_perm e l).mem_iff.mp hy) with rfl | hy
      · exact .inl lighter
      · exact before y hy
    · next notLighter =>
      rw [List.append_cons]
      refine List.pairwise_append.mpr ⟨stable, List.pairwise_singleton .., ?_⟩
      intro y hy z hz
      rw [List.mem_singleton.mp hz]
      have node := newer y hy
      have weight : x.weight ≤ y.weight := by
        rcases List.mem_append.mp hy with hy | hy
        · have := before y hy
          omega
        · rw [List.mem_singleton.mp hy]
      omega

/-- R143, R151: a leaf for one present symbol. -/
def State.addLeaf (s : State) (sym : Nat) : State :=
  s.setHuf { s.huf with
    node := s.huf.node.write s.huf.nNodes (.leaf sym)
    nNodes := s.huf.nNodes + 1
    list := insertEntry ⟨s.huf.nNodes, s.freqOf sym⟩ s.huf.list }

theorem State.addLeaf_freqOf (s : State) (sym : Nat) : (s.addLeaf sym).freqOf = s.freqOf := rfl

theorem State.addLeaf_listLen (s : State) (sym : Nat) : (s.addLeaf sym).listLen = s.listLen + 1 :=
  insertEntry_length ..

theorem leafFor_present {s : State} {sym : Nat} (present : 0 < s.freqOf sym) (room : s.listLen < Config.listCap)
    (cap : s.huf.nNodes < Config.nodeCap) : leafFor sym s = .ok () (s.addLeaf sym) := by
  rw [leafFor, if_pos present, allocNode_eq_ok.mpr ⟨rfl, cap, rfl⟩, Res.bind_ok]
  exact heInsert_eq_ok.mpr ⟨room, rfl⟩

theorem leafFor_absent {s : State} {sym : Nat} (absent : ¬ 0 < s.freqOf sym) : leafFor sym s = .ok () s :=
  if_neg absent

/-- R143: leaves for the symbols present, in the order given. -/
theorem leavesFor_eq {syms : List Nat} {s : State}
    (room : s.listLen + (syms.filter fun sym => 0 < s.freqOf sym).length ≤ Config.listCap)
    (cap : s.huf.nNodes + (syms.filter fun sym => 0 < s.freqOf sym).length ≤ Config.nodeCap) :
    leavesFor syms s = .ok () ((syms.filter fun sym => 0 < s.freqOf sym).foldl State.addLeaf s) := by
  induction syms generalizing s with
  | nil => rfl
  | cons sym syms ih =>
    by_cases present : 0 < s.freqOf sym
    · rw [List.filter_cons_of_pos (by simpa using present), List.length_cons] at room cap
      have rest := ih (s := s.addLeaf sym)
        (by rw [State.addLeaf_listLen, State.addLeaf_freqOf]; omega)
        (by change s.huf.nNodes + 1 + _ ≤ _; rw [State.addLeaf_freqOf]; omega)
      rw [leavesFor, leafFor_present present (by omega) (by omega), Res.bind_ok, rest, State.addLeaf_freqOf,
        List.filter_cons_of_pos (by simpa using present), List.foldl_cons]
    · rw [List.filter_cons_of_neg (by simpa using present)] at room cap ⊢
      rw [leavesFor, leafFor_absent present, Res.bind_ok, ih room cap]

/-- R143, R151: the entries of the leaves of some symbols, allocated in order from arena index `n` on. -/
def leafEntries (freq : Nat → Nat) (syms : List Nat) (n : Nat) : List ListEntry :=
  (syms.zipIdx n).map fun p => ⟨p.2, freq p.1⟩

/-- From `s` to `t` leaves for these symbols were allocated in order and entered in LIST. -/
structure AddsLeaves (syms : List Nat) (s t : State) : Prop where
  entries : t.huf.list.Perm (s.huf.list ++ leafEntries s.freqOf syms s.huf.nNodes)
  stable : StablyDescending s.huf.list → (∀ x ∈ s.huf.list, x.node < s.huf.nNodes) → StablyDescending t.huf.list
  leaf : ∀ p ∈ syms.zipIdx s.huf.nNodes, t.huf.node.read p.2 = some (.leaf p.1)
  others : ∀ i, i < s.huf.nNodes ∨ s.huf.nNodes + syms.length ≤ i → t.huf.node.read i = s.huf.node.read i
  frame : t = s.setHuf { s.huf with
    node := t.huf.node, nNodes := s.huf.nNodes + syms.length, list := t.huf.list }

theorem AddsLeaves.refl (s : State) : AddsLeaves [] s s where
  entries := by simp [leafEntries]
  stable stable _ := stable
  leaf := by simp
  others _ _ := rfl
  frame := rfl

theorem AddsLeaves.cons {sym : Nat} {syms : List Nat} {s t : State} (h : AddsLeaves syms (s.addLeaf sym) t) :
    AddsLeaves (sym :: syms) s t where
  entries := by
    have first := (insertEntry_perm ⟨s.huf.nNodes, s.freqOf sym⟩ s.huf.list).append_right
      (leafEntries s.freqOf syms (s.huf.nNodes + 1))
    exact h.entries.trans (first.trans List.perm_middle.symm)
  stable stable older := by
    refine h.stable (stable.insertEntry older) fun x hx => ?_
    rcases List.mem_cons.mp ((insertEntry_perm ..).mem_iff.mp hx) with rfl | hx
    · exact Nat.lt_succ_self _
    · exact (older x hx).trans (Nat.lt_succ_self _)
  leaf p hp := by
    rcases List.mem_cons.mp (List.zipIdx_cons ▸ hp) with rfl | hp
    · exact (h.others _ (.inl (Nat.lt_succ_self _))).trans (Memory.read_write_same ..)
    · exact h.leaf p hp
  others i hi := by
    have outside : i < s.huf.nNodes + 1 ∨ s.huf.nNodes + 1 + syms.length ≤ i := by
      rw [List.length_cons] at hi
      omega
    have notNew : i ≠ s.huf.nNodes := by
      rw [List.length_cons] at hi
      omega
    exact (h.others i outside).trans (Memory.read_write_other _ _ notNew)
  frame := by
    have count : s.huf.nNodes + 1 + syms.length = s.huf.nNodes + (sym :: syms).length := by
      rw [List.length_cons]
      omega
    rw [← count]
    exact h.frame

theorem addsLeaves_foldl (syms : List Nat) (s : State) : AddsLeaves syms s (syms.foldl State.addLeaf s) := by
  induction syms generalizing s with
  | nil => exact .refl s
  | cons sym syms ih => exact (ih (s.addLeaf sym)).cons

/-- R143, R141: HE.LEAVES adds the leaves of the symbols present. -/
theorem heLeaves_ok {s : State} (empty : s.huf.list = [])
    (cap : s.huf.nNodes + s.present.length ≤ Config.nodeCap) :
    ∃ t, heLeaves s = .ok () t ∧ AddsLeaves s.present s t := by
  have few : s.present.length ≤ Config.listCap := length_presentIn s.freqOf
  have noEntries : s.listLen = 0 := by rw [State.listLen, empty]; rfl
  exact ⟨_, leavesFor_eq (by rw [noEntries, Nat.zero_add]; exact few) cap, addsLeaves_foldl s.present s⟩

/-- Settles O23: the leaves are added to an empty list, each newer than those before it. -/
theorem HuffmanEncoder.heLeaves : Obligations.HeLeaves := by
  intro s empty cap
  obtain ⟨t, run, adds⟩ := heLeaves_ok empty cap
  have entries := adds.entries
  rw [empty, List.nil_append] at entries
  have stable := adds.stable (by rw [empty]; exact .nil) (by simp [empty])
  exact ⟨t, congrArg Res.finish run, entries, stable, adds.leaf, adds.others, adds.frame⟩

/-! ### What the merges conserve (R144, R145, R149) -/

/-- R144: the weight of all entries of LIST together. -/
def State.listWeight (s : State) : Nat := (s.huf.list.map (·.weight)).sum

/-- R151: LIST has an entry for the node allocated last. -/
def State.NewestListed (s : State) : Prop := ∃ e ∈ s.huf.list, e.node + 1 = s.huf.nNodes

/-- What merges keep: nodes and entries counted together, the entries' weight, and the newest node in LIST. -/
structure MergedFrom (s t : State) : Prop where
  count : t.huf.nNodes + t.listLen = s.huf.nNodes + s.listLen
  weight : t.listWeight = s.listWeight
  newest : s.NewestListed → t.NewestListed

theorem MergedFrom.refl (s : State) : MergedFrom s s := ⟨rfl, rfl, id⟩

theorem MergedFrom.trans {s t u : State} (h : MergedFrom s t) (h' : MergedFrom t u) : MergedFrom s u :=
  ⟨h'.count.trans h.count, h'.weight.trans h.weight, h'.newest ∘ h.newest⟩

/-- R144: one merge, which leaves one entry fewer. -/
theorem heCombine_mergedFrom {s t : State} (h : heCombine s = .ok () t) :
    MergedFrom s t ∧ t.listLen + 1 = s.listLen := by
  obtain ⟨front, a, b, parts, -, -, rfl⟩ := heCombine_eq_merged.mp h
  have entries := insertEntry_perm ⟨s.huf.nNodes, a.weight + b.weight⟩ front
  have shorter : (s.merged front a b).listLen + 1 = s.listLen := by
    rw [State.listLen, State.listLen, parts, List.length_append]
    exact congrArg (· + 1) entries.length_eq
  refine ⟨⟨?_, ?_, fun _ => ⟨_, entries.mem_iff.mpr List.mem_cons_self, rfl⟩⟩, shorter⟩
  · change s.huf.nNodes + 1 + _ = _
    omega
  · rw [State.listWeight, State.listWeight, parts]
    refine (entries.map _).sum_eq.trans ?_
    simp
    omega

/-- R145: the merges leave one entry at most. -/
theorem combineAll_mergedFrom {n : Nat} {s t : State} (h : combineAll n s = .ok () t) (enough : s.listLen ≤ n + 1) :
    MergedFrom s t ∧ t.listLen ≤ 1 := by
  induction n generalizing s with
  | zero =>
    cases h
    exact ⟨.refl _, enough⟩
  | succ n ih =>
    rw [combineAll] at h
    split at h
    · obtain ⟨_, u, merge, rest⟩ := Res.bind_eq_ok.mp h
      obtain ⟨merged, shorter⟩ := heCombine_mergedFrom merge
      obtain ⟨merged', single⟩ := ih rest (by omega)
      exact ⟨merged.trans merged', single⟩
    · next few =>
      cases h
      exact ⟨.refl _, by omega⟩

/-! ### The tree at ROOT (R145 to R151) -/

/-- R149: a tree has a node for each leaf and one fewer inside. -/
theorem HuffTree.size_add_one (T : HuffTree) : T.size + 1 = 2 * T.leaves.length := by
  induction T with
  | leaf s => rfl
  | node z o ihz iho =>
    simp only [HuffTree.size, HuffTree.leaves, List.length_append]
    omega

/-- R141: only the symbols present add to a sum weighted by the table. -/
theorem sum_presentIn (freq f : Nat → Nat) :
    ((presentIn freq).map fun sym => freq sym * f sym).sum =
      ((List.range Config.nSymbols).map fun sym => freq sym * f sym).sum := by
  change ∑ sym ∈ (Finset.range Config.nSymbols).filter (fun sym => 0 < freq sym), freq sym * f sym =
    ∑ sym ∈ Finset.range Config.nSymbols, freq sym * f sym
  exact Finset.sum_filter_of_ne fun sym _ counted => Nat.pos_of_ne_zero (left_ne_zero_of_mul counted)

/-- R143: the leaves' weights are the counts. -/
theorem weights_leafEntries (freq : Nat → Nat) (syms : List Nat) (n : Nat) :
    (leafEntries freq syms n).map (·.weight) = syms.map freq := by
  induction syms generalizing n with
  | nil => rfl
  | cons sym syms ih => exact congrArg (freq sym :: ·) (ih (n + 1))

/-- R151: the last of the leaves has the last of the indices. -/
theorem exists_newest_leafEntry (freq : Nat → Nat) {syms : List Nat} (nonempty : syms ≠ []) (n : Nat) :
    ∃ e ∈ leafEntries freq syms n, e.node + 1 = n + syms.length := by
  have positive := List.length_pos_iff.mpr nonempty
  refine ⟨_, List.mem_map_of_mem (List.getElem_mem (n := syms.length - 1) ?_), ?_⟩
  · rw [List.length_zipIdx]
    omega
  · rw [List.getElem_zipIdx]
    dsimp only
    omega

/-- R145, R149, R151: HE.BUILD leaves one entry, for the node allocated last, with the weight of all. -/
theorem heBuild_single {s t : State} (empty : s.huf.list = []) (noNodes : s.huf.nNodes = 0)
    (nonempty : s.present ≠ []) (run : heBuild s = .ok () t) :
    t.huf.nNodes = 2 * s.present.length - 1 ∧ t.huf.root = 2 * s.present.length - 2 ∧
      t.huf.list = [⟨t.huf.root, ((List.range Config.nSymbols).map s.freqOf).sum⟩] := by
  have few : s.present.length ≤ 257 := length_presentIn s.freqOf
  obtain ⟨u, leaves, adds⟩ := heLeaves_ok empty (by rw [noNodes, Nat.zero_add]; exact few.trans (by decide))
  have entries : u.huf.list.Perm (leafEntries s.freqOf s.present s.huf.nNodes) := by simpa [empty] using adds.entries
  have count : u.huf.nNodes = s.huf.nNodes + s.present.length := by rw [adds.frame]; rfl
  rw [heBuild, leaves, Res.bind_ok] at run
  obtain ⟨_, v, merges, last⟩ := Res.bind_eq_ok.mp run
  obtain ⟨merged, single⟩ := combineAll_mergedFrom merges (Nat.le_succ _)
  have newest : u.NewestListed := by
    obtain ⟨e, he, index⟩ := exists_newest_leafEntry s.freqOf nonempty s.huf.nNodes
    exact ⟨e, entries.mem_iff.mpr he, index.trans count.symm⟩
  have length : u.listLen = s.present.length := entries.length_eq.trans (by simp [leafEntries])
  have weight : u.listWeight = ((List.range Config.nSymbols).map s.freqOf).sum := by
    have present := sum_presentIn s.freqOf fun _ => 1
    simp only [Nat.mul_one] at present
    rw [State.listWeight, (entries.map _).sum_eq, weights_leafEntries]
    exact present
  obtain ⟨e, rest, list, rfl⟩ := takeRoot_eq_ok.mp last
  obtain rfl : rest = [] := by
    rw [State.listLen, list, List.length_cons] at single
    exact List.length_eq_zero_iff.mp (by omega)
  obtain ⟨e', he', index⟩ := merged.newest newest
  obtain rfl : e' = e := by simpa [list] using he'
  have nodes := merged.count
  have total := merged.weight
  have one : v.listLen = 1 := by rw [State.listLen, list]; rfl
  rw [State.listWeight, list, weight] at total
  have total : e'.weight = ((List.range Config.nSymbols).map s.freqOf).sum := by simpa using total
  refine ⟨?_, ?_, ?_⟩
  · change v.huf.nNodes = _
    omega
  · change e'.node = _
    omega
  · change v.huf.list = _
    rw [list, ← total]
    rfl

/-- Settles O25: the arena follows the reference's list of trees, and the counts follow from what merges keep. -/
theorem HuffmanEncoder.heBuild : Obligations.HeBuild := by
  intro s empty noNodes eos
  have nonempty : presentIn s.freqOf ≠ [] := List.ne_nil_of_mem (mem_presentIn.mpr ⟨by decide, eos⟩)
  obtain ⟨t, run, denotes, only⟩ := heBuild_ok empty noNodes nonempty
  obtain ⟨nodes, root, list⟩ := heBuild_single empty noNodes nonempty run
  have leaves : (huffmanTree s.freqOf).leaves.Perm s.present := huffmanTree_leaves nonempty
  have size := (huffmanTree s.freqOf).size_add_one
  have depth := (huffmanTree s.freqOf).depth_lt_leaves
  rw [leaves.length_eq] at size depth
  refine ⟨t, congrArg Res.finish run, denotes, leaves, by omega, by omega, ?_⟩
  rw [← nodes, ← root, ← list]
  exact only

end Sys2Proof.Machine
end

section
/-! PROOFS, EncoderCodes. The claims about the tree as it is sent and as codes (R152 to R159): the leaf a code
leads to, why no code begins another and every bit sequence begins with one, and the two passes' ends. -/

namespace Sys2Proof.Machine

/-! ### The serialised tree (R152) -/

/-- Settles O26: HSTK has room for a traversal as deep as MAX_CODE_LEN. -/
theorem HuffmanEncoder.heSer : Obligations.HeSer := by
  intro T i s quiet clean denotes deep
  obtain ⟨t, run, sends⟩ := heSer_sent quiet clean denotes deep
  exact ⟨t, congrArg Res.finish run, sends⟩

/-! ### Paths and walks (R99, R173) -/

/-- R99: a path leads to the leaf it was found for. -/
theorem HuffTree.walk_of_pathTo {T : HuffTree} {sym : Nat} {p : List Bool} (h : T.pathTo sym = some p) :
    T.walk p = some (sym, []) := by
  induction T generalizing p with
  | leaf x =>
    obtain ⟨rfl, rfl⟩ : x = sym ∧ p = [] := by simpa [HuffTree.pathTo, eq_comm] using h
    rfl
  | node z o ihz iho =>
    rw [HuffTree.pathTo] at h
    cases path : z.pathTo sym with
    | some q =>
      rw [path] at h
      cases h
      exact ihz path
    | none =>
      rw [path] at h
      obtain ⟨q, path', rfl⟩ := Option.map_eq_some_iff.mp h
      exact iho path'

/-- R173: the walk ends at a leaf of the tree. -/
theorem HuffTree.mem_leaves_of_walk {T : HuffTree} {sym : Nat} {p rest : List Bool}
    (h : T.walk p = some (sym, rest)) : sym ∈ T.leaves := by
  induction T generalizing p with
  | leaf x =>
    cases h
    exact List.mem_singleton_self sym
  | node z o ihz iho =>
    cases p with
    | nil => cases h
    | cons b p =>
      cases b with
      | false => exact List.mem_append_left _ (ihz h)
      | true => exact List.mem_append_right _ (iho h)

/-- R99: in a tree with no symbol twice, the way to a leaf is its symbol's path. -/
theorem HuffTree.pathTo_of_walk {T : HuffTree} {sym : Nat} {p : List Bool} (nodup : T.leaves.Nodup)
    (h : T.walk p = some (sym, [])) : T.pathTo sym = some p := by
  induction T generalizing p with
  | leaf x =>
    cases h
    exact if_pos rfl
  | node z o ihz iho =>
    obtain ⟨nodupZ, nodupO, apart⟩ := List.nodup_append.mp nodup
    cases p with
    | nil => cases h
    | cons b p =>
      cases b with
      | false =>
        have path : z.pathTo sym = some p := ihz nodupZ h
        rw [HuffTree.pathTo, path]
      | true =>
        have path : o.pathTo sym = some p := iho nodupO h
        have notInZ : z.pathTo sym = none :=
          HuffTree.pathTo_eq_none_iff.mpr fun inZ => apart sym inZ sym (HuffTree.mem_leaves_of_walk h) rfl
        rw [HuffTree.pathTo, notInZ, path]
        rfl

/-- R173: bits after the leaf is met are left over. -/
theorem HuffTree.walk_append {T : HuffTree} {sym : Nat} {p rest : List Bool} (h : T.walk p = some (sym, rest))
    (more : List Bool) : T.walk (p ++ more) = some (sym, rest ++ more) := by
  induction T generalizing p with
  | leaf x =>
    cases h
    rfl
  | node z o ihz iho =>
    cases p with
    | nil => cases h
    | cons b p =>
      cases b with
      | false => exact ihz h
      | true => exact iho h

/-- R155: two codes of which one begins the other are the same symbol's. -/
theorem HuffTree.eq_of_pathTo_prefix {T : HuffTree} {x y : Nat} {p q : List Bool} (hx : T.pathTo x = some p)
    (hy : T.pathTo y = some q) (begins : p <+: q) : x = y := by
  obtain ⟨more, rfl⟩ := begins
  have first := HuffTree.walk_append (HuffTree.walk_of_pathTo hx) more
  rw [HuffTree.walk_of_pathTo hy] at first
  cases first
  rfl

/-- R155: every infinite bit sequence leads to a leaf, as each internal node has both children. -/
theorem HuffTree.exists_walk_range (T : HuffTree) (bits : Nat → Bool) :
    ∃ sym n, T.walk ((List.range n).map bits) = some (sym, []) := by
  induction T generalizing bits with
  | leaf x => exact ⟨x, 0, rfl⟩
  | node z o ihz iho =>
    have later (n : Nat) : (List.range (n + 1)).map bits = bits 0 :: (List.range n).map (bits ∘ Nat.succ) := by
      rw [List.range_succ_eq_map, List.map_cons, List.map_map]
    cases first : bits 0 with
    | false =>
      obtain ⟨sym, n, ends⟩ := ihz (bits ∘ Nat.succ)
      exact ⟨sym, n + 1, by rw [later, first]; exact ends⟩
    | true =>
      obtain ⟨sym, n, ends⟩ := iho (bits ∘ Nat.succ)
      exact ⟨sym, n + 1, by rw [later, first]; exact ends⟩

/-- R156: no way to a leaf is longer than the tree is deep. -/
theorem HuffTree.length_le_of_walk {T : HuffTree} {sym : Nat} {p : List Bool} (h : T.walk p = some (sym, [])) :
    p.length ≤ T.depth := by
  induction T generalizing p with
  | leaf x =>
    cases h
    exact Nat.zero_le _
  | node z o ihz iho =>
    cases p with
    | nil => cases h
    | cons b p =>
      rw [HuffTree.depth, List.length_cons]
      cases b with
      | false =>
        have := ihz h
        omega
      | true =>
        have := iho h
        omega

/-! ### The Code Table (R154, R155) -/

/-- Settles O27: the table HE.TABLE fills holds the paths of the tree's leaves, which are the symbols present. -/
theorem HuffmanEncoder.heTable : Obligations.HeTable := by
  intro T s denotes deep leaves empty
  obtain ⟨c, run, entries⟩ := heTable_ok denotes deep (leaves.nodup_iff.mpr (nodup_presentIn s.freqOf)) empty
  refine ⟨_, congrArg Res.finish run, fun sym => ?_, fun sym present => ?_, rfl⟩
  · change c.read sym = _
    rw [entries]
    split
    · next present => rw [HuffTree.pathTo_of_mem (leaves.mem_iff.mpr present)]; rfl
    · next absent => rw [HuffTree.pathTo_eq_none_iff.mpr (mt leaves.mem_iff.mp absent)]; rfl
  · exact HuffTree.walk_of_pathTo (HuffTree.pathTo_of_mem (leaves.mem_iff.mpr present))

/-- The first `m` of infinitely many bits begin the first `n`. -/
theorem map_range_prefix {m n : Nat} (h : m ≤ n) (bits : Nat → Bool) :
    (List.range m).map bits <+: (List.range n).map bits :=
  (List.prefix_iff_eq_take.mpr (by rw [List.take_range, List.length_range, Nat.min_eq_left h])).map bits

/-- Settles O28: codes are paths of one tree, and a path is the walk to its leaf. -/
theorem HuffmanEncoder.prefixFree : Obligations.PrefixFree := by
  intro T s t denotes deep nodup empty step
  obtain ⟨c, run, entries⟩ := heTable_ok denotes deep nodup empty
  obtain rfl : s.setHuf { s.huf with ctab := c, hstk := [], hpath := [] } = t :=
    Host.Outcome.next.inj ((congrArg Res.finish run).symm.trans step)
  have code {x : Nat} {e : CodeEntry} (h : c.read x = some e) :
      T.pathTo x = some e.bits ∧ e.len = e.bits.length := by
    rw [entries] at h
    obtain ⟨p, path, rfl⟩ := Option.map_eq_some_iff.mp h
    exact ⟨path, rfl⟩
  refine ⟨fun x y e f hx hy differ begins => ?_, fun bits => ?_, fun x e hx => ?_⟩
  · exact differ (HuffTree.eq_of_pathTo_prefix (code hx).1 (code hy).1 begins)
  · obtain ⟨x, n, ends⟩ := T.exists_walk_range bits
    refine ⟨x, ⟨codeEntry [] ((List.range n).map bits), ?_, ?_⟩, ?_⟩
    · change c.read x = _
      rw [entries, HuffTree.pathTo_of_walk nodup ends]
      rfl
    · simp [codeEntry]
    · rintro y ⟨e, hy, same⟩
      obtain ⟨pathY, -⟩ := code hy
      have pathX := HuffTree.pathTo_of_walk nodup ends
      rw [same] at pathY
      rcases Nat.le_total e.len n with shorter | longer
      · exact HuffTree.eq_of_pathTo_prefix pathY pathX (map_range_prefix shorter bits)
      · exact (HuffTree.eq_of_pathTo_prefix pathX pathY (map_range_prefix longer bits)).symm
  · obtain ⟨path, length⟩ := code hx
    rw [length]
    exact (HuffTree.length_le_of_walk (HuffTree.walk_of_pathTo path)).trans deep

/-! ### The second pass (R158, R159) -/

/-- Settles O29, by the two ends of R158. -/
theorem HuffmanEncoder.heRewind : Obligations.HeRewind := by
  intro s
  rcases heRewind_cases s with ⟨seekable, run⟩ | ⟨fixed, run⟩
  · exact ⟨fun _ => congrArg Res.finish run, fun fixed => by simp [seekable] at fixed⟩
  · exact ⟨fun seekable => by simp [fixed] at seekable, fun _ => congrArg Res.finish run⟩

/-- Settles O30: the loop over the bytes, then the last code. -/
theorem HuffmanEncoder.heEncode : Obligations.HeEncode := by
  intro s quiet clean start valid eos
  obtain ⟨t, run, sends⟩ := heEncode_sent quiet clean start valid eos
  exact ⟨t, congrArg Res.finish run, sends⟩

/-! ### The payload's length (R161) -/

/-- R65, R97: a leaf is sent as 17 bits and an internal node, one fewer than the leaves, as 1. -/
theorem HuffTree.length_ser (T : HuffTree) : T.ser.length + 1 = 18 * T.leaves.length := by
  induction T with
  | leaf x => rw [HuffTree.ser, List.length_cons, length_bitsOfNat]; rfl
  | node z o ihz iho =>
    simp only [HuffTree.ser, HuffTree.leaves, List.length_cons, List.length_append]
    omega

/-- R161: the payload's bits are the tree's and each symbol's code as often as the symbol is counted. -/
theorem length_huffmanBits {T : HuffTree} {bytes : List Byte} (leaves : T.leaves.Perm (presentIn (countOf bytes))) :
    (huffmanBits T bytes).length =
      18 * T.leaves.length - 1 + (T.leaves.map fun sym => countOf bytes sym * (T.code sym).length).sum := by
  have tree := T.length_ser
  have codes : (T.leaves.map fun sym => countOf bytes sym * (T.code sym).length).sum =
      (bytes.map fun b => (T.code b.toNat).length).sum + (T.code Config.eosValue).length :=
    calc (T.leaves.map fun sym => countOf bytes sym * (T.code sym).length).sum
        = ((presentIn (countOf bytes)).map fun sym => countOf bytes sym * (T.code sym).length).sum :=
          (leaves.map _).sum_eq
      _ = ((List.range Config.nSymbols).map fun sym => countOf bytes sym * (T.code sym).length).sum :=
          sum_presentIn _ _
      _ = _ := sum_countOf_mul bytes fun sym => (T.code sym).length
  rw [codes, huffmanBits, List.length_append, List.length_append, List.length_flatMap]
  omega

/-- Settles O31: both passes send the payload, and its tree has a leaf for each symbol counted. -/
theorem HuffmanEncoder.heCompress : Obligations.HeCompress := by
  intro s quiet seekable clean start noFreq noList noNodes noCodes T
  obtain ⟨t, run, cleanT, sent, only⟩ := heCompress_ok quiet seekable clean start noFreq noList noNodes noCodes
  have leaves := huffmanTree_leaves (List.ne_nil_of_mem (eos_mem_presentIn s.io.inp))
  exact ⟨t, congrArg Res.finish run, cleanT, sent, length_huffmanBits leaves, only⟩

end Sys2Proof.Machine
end

section
/-! PROOFS, DecoderReader. What the Huffman decoder reads with the default oracle, as bits: the mark and the symbol
field of a node (R97, R98), and the bits of a code (R99), whatever becomes of the Huffman data between two reads. -/

namespace Sys2Proof.Machine

/-! ### Reads leave the result (log entry 7) -/

theorem inFetch_result {s t : State} {b : Byte} (h : inFetch s = .ok b t) : t.result = s.result := by
  rcases inFetch_cases s with ⟨-, e⟩ | ⟨c, -, ⟨-, e⟩ | ⟨-, e⟩⟩ <;> rw [e] at h <;> cases h
  rfl

theorem getBit_result {s t : State} {r : Option Bool} (h : getBit s = .ok r t) : t.result = s.result := by
  unfold getBit at h
  split at h
  · split at h
    · cases h
      rfl
    · obtain ⟨b, u, fetch, taken⟩ := Res.bind_eq_ok.mp h
      cases taken
      exact inFetch_result (t := u) fetch
  · cases h
    rfl

theorem getByte_result {s t : State} {b : Byte} (h : getByte s = .ok b t) : t.result = s.result := by
  obtain ⟨c, u, fetch, joined⟩ := Res.bind_eq_ok.mp h
  have fetched := inFetch_result fetch
  split at joined <;> cases joined <;> exact fetched

theorem getByteRun_result {n : Nat} {s t : State} {bytes : List Byte} (h : getByteRun n s = .ok bytes t) :
    t.result = s.result := by
  induction n generalizing s t bytes with
  | zero =>
    cases h
    rfl
  | succ n ih =>
    obtain ⟨b, u, first, others⟩ := Res.bind_eq_ok.mp h
    obtain ⟨bs, v, run, ended⟩ := Res.bind_eq_ok.mp others
    cases ended
    exact (ih run).trans (getByte_result first)

/-! ### Bits consumed -/

/-- From `s` to `t` the reader consumed exactly `bits`, and nothing but the reader and the Huffman data changed. -/
structure Consumes (s t : State) (bits : List Bool) : Prop where
  between : t.readerBetween
  unread : s.unreadBits = bits ++ t.unreadBits
  frame : t = { s with
    io := { s.io with inPos := t.io.inPos }
    bc := { s.bc with rCur := t.bc.rCur, rCnt := t.bc.rCnt }
    huf := t.huf
    env := { s.env with accNo := t.env.accNo } }

theorem Consumes.refl {s : State} (between : s.readerBetween) : Consumes s s [] := ⟨between, rfl, rfl⟩

theorem Consumes.trans {s t u : State} {as bs : List Bool} (h : Consumes s t as) (h' : Consumes t u bs) :
    Consumes s u (as ++ bs) := by
  refine ⟨h'.between, by rw [h.unread, h'.unread, List.append_assoc], ?_⟩
  rw [h'.frame, h.frame]

/-- The Huffman data at either end are free. -/
theorem Consumes.setHuf {s t : State} {bits : List Bool} (h : Consumes s t bits) (x y : Huffman) :
    Consumes (s.setHuf x) (t.setHuf y) bits := by
  refine ⟨h.between, h.unread, ?_⟩
  rw [h.frame]
  rfl

theorem Consumes.noIoFault {s t : State} {bits : List Bool} (h : Consumes s t bits) (quiet : s.noIoFault) :
    t.noIoFault := by
  rw [h.frame]
  exact quiet

/-- What was before the reader, less the bits consumed, is what is left. -/
theorem Consumes.rest {s t : State} {bits rest : List Bool} (h : Consumes s t bits)
    (unread : s.unreadBits = bits ++ rest) : t.unreadBits = rest :=
  List.append_cancel_left (h.unread.symm.trans unread)

theorem Consumes.out {s t : State} {bits : List Bool} (h : Consumes s t bits) : t.io.out = s.io.out := by
  rw [h.frame]

theorem Consumes.lzw {s t : State} {bits : List Bool} (h : Consumes s t bits) : t.lzw = s.lzw := by
  rw [h.frame]

/-- A read that leaves the result consumes its bits and leaves the Huffman data. -/
theorem Takes.consumes {s t : State} {bits : List Bool} (h : Takes s t bits) (result : t.result = s.result) :
    Consumes s t bits ∧ t.huf = s.huf := by
  obtain ⟨only, between, unread⟩ := h
  rw [OnlyReader, result] at only
  have huf : t.huf = s.huf := by rw [only]
  exact ⟨⟨between, unread, by rw [huf]; exact only⟩, huf⟩

/-- Once the Huffman data are as they will be, only the reader is used. -/
theorem Consumes.takes {s t : State} {bits : List Bool} (h : Consumes s t bits) (r : UopResult) :
    Takes { s with huf := t.huf } (t.setResult r) bits :=
  ⟨congrArg (State.setResult · r) h.frame, h.between, h.unread⟩

/-! ### One bit (R125) -/

/-- R125: the first unread bit is read. -/
theorem getBit_of_cons {s : State} {b : Bool} {bits : List Bool} (quiet : s.noIoFault)
    (unread : s.unreadBits = b :: bits) : ∃ t, getBit s = .ok (some b) t ∧ Consumes s t [b] ∧ t.huf = s.huf := by
  have remain : s.remaining ≠ 0 := by
    rw [← length_unreadBits, unread]
    exact Nat.succ_ne_zero _
  obtain ⟨c, t, run, takes⟩ := getBit_takes remain (.inr (ioFails_of_noIoFault quiet))
  obtain ⟨rfl, -⟩ : c = b ∧ t.unreadBits = bits := by simpa [unread, eq_comm] using takes.unread
  exact ⟨t, run, takes.consumes (getBit_result run)⟩

/-- R126: with no bit unread there is none. -/
theorem getBit_of_nil {s : State} (unread : s.unreadBits = []) : getBit s = .ok none s :=
  getBit_exhausted (by rw [← length_unreadBits, unread]; rfl)

/-! ### A symbol field (R97, R98) -/

/-- R98: the two bytes of a field are the bytes the field was put together from. -/
theorem symBytes_symField (hi lo : Byte) : symBytes (symField hi lo).toNat = [hi, lo] := by
  have high : (hi ++ lo).extractLsb' 8 8 = hi := BitVec.extractLsb'_append_eq_left
  have low : (hi ++ lo).extractLsb' 0 8 = lo := BitVec.extractLsb'_append_eq_right
  calc symBytes (symField hi lo).toNat
      = [(hi ++ lo).extractLsb' 8 8, (hi ++ lo).extractLsb' 0 8] := rfl
    _ = [hi, lo] := by rw [high, low]

/-- R67: numbers that fit `n` bits are those bits. -/
theorem eq_of_bitsOfNat {n v w : Nat} (hv : v < 2 ^ n) (hw : w < 2 ^ n)
    (h : bitsOfNat n v = bitsOfNat n w) : v = w := by
  have value := congrArg natOfBits h
  rwa [natOfBits_bitsOfNat, natOfBits_bitsOfNat, Nat.mod_eq_of_lt hv, Nat.mod_eq_of_lt hw] at value

/-- R98, R170: the field's sixteen bits are read as two bytes. -/
theorem getNBytes_symField {s : State} (quiet : s.noIoFault) (between : s.readerBetween) (enough : 16 ≤ s.remaining) :
    ∃ hi lo t, getNBytes 2 s = .ok (some [hi, lo]) t ∧ Consumes s t (bitsOfNat 16 (symField hi lo).toNat) ∧
      t.huf = s.huf := by
  obtain ⟨bytes, t, run, length, takes, -, -⟩ := getByteRun_takes (n := 2) quiet between enough
  obtain ⟨hi, lo, rfl⟩ := List.length_eq_two.mp length
  have field : [hi, lo].flatMap byteBits = bitsOfNat 16 (symField hi lo).toNat := by
    rw [← symBytes_symField hi lo]
    exact flatMap_byteBits_bytesOfNat 2 _
  refine ⟨hi, lo, t, by rw [getNBytes_of_le enough, run, Res.bind_ok], ?_⟩
  rw [← field]
  exact takes.consumes (getByteRun_result run)

/-- R127: too few bits for a field. -/
theorem getNBytes_two_of_lt {s : State} (short : s.remaining < 16) : getNBytes 2 s = .ok none s :=
  if_pos (decide_eq_true short)

end Sys2Proof.Machine
end

section
/-! PROOFS, DecoderTree. The deserialiser (R170, R171, R179): one node at a time, then a tree wherever one starts,
and the rejection of every bit string that starts with none. -/

namespace Sys2Proof.Machine

/-! ### One node (R170) -/

/-- R107: no mark is left. -/
theorem deserNode_of_nil {s : State} (unread : s.unreadBits = []) : deserNode s = .raised .corruptStream s := by
  rw [deserNode, getBit_of_nil unread, Res.bind_ok]

/-- R171: the mark of one node too many. -/
theorem deserNode_full {s t : State} {mark : Bool} (bit : getBit s = .ok (some mark) t)
    (full : Config.nodeCap ≤ t.huf.nNodes) : deserNode s = .raised .corruptStream t.counted := by
  rw [deserNode, bit, Res.bind_ok]
  dsimp only
  rw [countNode_of_ge full, Res.bind_raised]

/-- R170: the mark of an internal node opens it. -/
theorem deserNode_internal {s t : State} (mark : getBit s = .ok (some false) t) (room : t.huf.nNodes < Config.nodeCap) :
    deserNode s = .ok false t.opened := by
  rw [deserNode, mark, Res.bind_ok]
  dsimp only
  rw [countNode_of_lt room, Res.bind_ok]
  rfl

/-- R107: the mark of a leaf without all of its field. -/
theorem deserNode_truncated {s t : State} (mark : getBit s = .ok (some true) t) (room : t.huf.nNodes < Config.nodeCap)
    (short : t.remaining < 16) : deserNode s = .raised .corruptStream t.counted := by
  rw [deserNode, mark, Res.bind_ok]
  dsimp only
  rw [countNode_of_lt room, Res.bind_ok, if_pos rfl, getNBytes_two_of_lt (by exact short), Res.bind_ok]

/-- R170: the mark of a leaf and its field. -/
theorem deserNode_leaf {s t u : State} {hi lo : Byte} (mark : getBit s = .ok (some true) t)
    (room : t.huf.nNodes < Config.nodeCap) (field : getNBytes 2 t.counted = .ok (some [hi, lo]) u) :
    deserNode s = takeLeaf t.huf.nNodes (symField hi lo) u := by
  rw [deserNode, mark, Res.bind_ok]
  dsimp only
  rw [countNode_of_lt room, Res.bind_ok, if_pos rfl, field, Res.bind_ok]

/-- R170's loop after a node: done with the whole tree, or on to the next node. -/
def afterNode (n : Nat) (whole : Bool) (s : State) : Res Nat := if whole then .ok s.huf.root s else deserLoop n s

theorem deserLoop_succ (n : Nat) (s : State) : deserLoop (n + 1) s = (deserNode s).bind (afterNode n) := rfl

/-- R170: after the mark of an internal node the loop goes on inside it. -/
theorem deserLoop_internal {n : Nat} {s t : State} (mark : getBit s = .ok (some false) t)
    (room : t.huf.nNodes < Config.nodeCap) : deserLoop (n + 1) s = deserLoop n t.opened := by
  rw [deserLoop_succ, deserNode_internal mark room]
  rfl

/-! ### A tree read (R97, R170) -/

/-- From `s` to `t` the bits of a tree were consumed and the tree was built on the entries from N_NODES on, and nothing
else changed: what the deserialiser does before the tree's root completes the innermost open node. -/
structure ReadsTree (T : HuffTree) (s t : State) : Prop where
  consumes : Consumes s t T.ser
  builds : BuildsTree T (t.setHuf s.huf) t
  above : ∀ j, s.huf.nNodes + T.size ≤ j → t.huf.node.read j = s.huf.node.read j

theorem ReadsTree.below {T : HuffTree} {s t : State} (h : ReadsTree T s t) (j : Nat) (hj : j < s.huf.nNodes) :
    t.huf.node.read j = s.huf.node.read j := h.builds.below j hj

theorem ReadsTree.huf {T : HuffTree} {s t : State} (h : ReadsTree T s t) :
    t.huf = { s.huf with node := t.huf.node, nNodes := s.huf.nNodes + T.size } := congrArg State.huf h.builds.frame

theorem ReadsTree.nNodes {T : HuffTree} {s t : State} (h : ReadsTree T s t) :
    t.huf.nNodes = s.huf.nNodes + T.size := by
  rw [h.huf]

/-- A tree is built by changes to the Huffman data alone, wherever the reader stands. -/
theorem BuildsTree.setHuf {T : HuffTree} {s t : State} (h : BuildsTree T s t) (r : State) :
    BuildsTree T (r.setHuf s.huf) (r.setHuf t.huf) :=
  ⟨h.built, h.below, congrArg r.setHuf (congrArg State.huf h.frame)⟩

/-- R97: a leaf is read from its mark and its field. -/
theorem ReadsTree.leaf {sym : Nat} {s t u : State} (mark : Consumes s t [true]) (huf : t.huf = s.huf)
    (field : Consumes t.counted u (bitsOfNat 16 sym)) (huf' : u.huf = t.counted.huf)
    (room : s.huf.nNodes < Config.nodeCap) :
    ReadsTree (.leaf sym) s (u.writeNode s.huf.nNodes (.leaf sym)) where
  consumes := mark.trans (field.setHuf t.huf _)
  builds := by
    refine ⟨.leaf room le_rfl (Nat.lt_succ_self _) (Memory.read_write_same ..), fun j hj => ?_, ?_⟩
    · rw [State.writeNode_huf_node, huf', ← huf]
      exact Memory.read_write_other _ _ (huf ▸ hj.ne)
    · have count : u.huf = { s.huf with nNodes := s.huf.nNodes + 1 } := by
        rw [huf', ← huf]
        rfl
      rw [State.writeNode, count]
      rfl
  above j hj := by
    rw [State.writeNode_huf_node, huf', ← huf]
    exact Memory.read_write_other _ _ (huf ▸ (Nat.lt_of_succ_le hj).ne')

/-- R97: an internal node is read from its mark and its two children's bits. -/
theorem ReadsTree.node {z o : HuffTree} {s t u v : State} (mark : Consumes s t [false]) (huf : t.huf = s.huf)
    (room : s.huf.nNodes < Config.nodeCap) (hz : ReadsTree z t.opened u)
    (ho : ReadsTree o (u.zeroDone s.huf.nNodes s.huf.dstk) v) :
    ReadsTree (.node z o) s (v.oneDone s.huf.nNodes (s.huf.nNodes + 1 + z.size) s.huf.dstk) where
  consumes := by
    have children := (hz.consumes.setHuf t.huf (u.zeroDone s.huf.nNodes s.huf.dstk).huf).trans ho.consumes
    exact mark.trans (children.setHuf t.huf _)
  builds := by
    have opened : t.opened.huf = s.opened.huf := by rw [State.opened, huf]; rfl
    have zero := hz.builds.setHuf v
    rw [State.setHuf_huf, opened] at zero
    exact BuildsTree.node (s := v.setHuf s.huf) room zero (ho.builds.setHuf v)
  above j hj := by
    have count : u.huf.nNodes = s.huf.nNodes + 1 + z.size := by rw [hz.nNodes, ← huf]; rfl
    have past : s.huf.nNodes + (1 + z.size + o.size) ≤ j := hj
    have notNew : j ≠ s.huf.nNodes := by omega
    calc (v.oneDone s.huf.nNodes (s.huf.nNodes + 1 + z.size) s.huf.dstk).huf.node.read j
        = v.huf.node.read j := Memory.read_write_other _ _ notNew
      _ = (u.zeroDone s.huf.nNodes s.huf.dstk).huf.node.read j :=
          ho.above j (show u.huf.nNodes + o.size ≤ j by omega)
      _ = u.huf.node.read j := Memory.read_write_other _ _ notNew
      _ = t.opened.huf.node.read j := hz.above j (show t.huf.nNodes + 1 + z.size ≤ j by rw [huf]; omega)
      _ = t.huf.node.read j := Memory.read_write_other _ _ (by rwa [huf])
      _ = s.huf.node.read j := by rw [huf]

/-- R36: a tree that is the zero-child of the node opened before it. -/
theorem completeNode_zeroDone {z : HuffTree} {s u : State} (room : s.huf.nNodes < Config.nodeCap)
    (hz : ReadsTree z s.opened u) :
    completeNode s.opened.huf.dstk s.opened.huf.nNodes u = .ok false (u.zeroDone s.huf.nNodes s.huf.dstk) := by
  have entry := (hz.below _ (Nat.lt_succ_self _)).trans (Memory.read_write_same ..)
  exact completeNode_zero (readNode_eq_ok.mpr ⟨rfl, room, entry⟩)

/-- R36: a tree that is the one-child of the node opened before its sibling. -/
theorem completeNode_oneDone {o : HuffTree} {s u v : State} {i : Nat} {d : List (Nat × Bool)}
    (room : i < Config.nodeCap) (older : i < u.huf.nNodes) (ho : ReadsTree o (u.zeroDone i d) v) :
    completeNode ((i, true) :: d) s.huf.nNodes v = completeNode d i (v.oneDone i s.huf.nNodes d) := by
  have entry := (ho.below _ older).trans (Memory.read_write_same ..)
  exact completeNode_one (readNode_eq_ok.mpr ⟨rfl, room, entry⟩)

/-- R170: wherever a legal tree starts, the loop reads it, and then its root completes the innermost open node,
whichever nodes are open. -/
theorem deserLoop_ser {T : HuffTree} {s : State} {rest : List Bool} (quiet : s.noIoFault) (between : s.readerBetween)
    (unread : s.unreadBits = T.ser ++ rest) (legal : T.legalAfter s.huf.nNodes) (n : Nat) :
    ∃ u, ReadsTree T s u ∧
      deserLoop (n + T.size) s = (completeNode s.huf.dstk s.huf.nNodes u).bind (afterNode n) := by
  induction T generalizing s rest n with
  | leaf sym =>
    obtain ⟨symbols, room⟩ := legal
    have small : sym ≤ Config.eosValue := symbols sym (List.mem_singleton_self sym)
    have room : s.huf.nNodes < Config.nodeCap := room
    obtain ⟨t, mark, consumes, huf⟩ := getBit_of_cons quiet unread
    have left : t.unreadBits = bitsOfNat 16 sym ++ rest := consumes.rest unread
    have enough : 16 ≤ t.remaining := by
      rw [← length_unreadBits, left, List.length_append, length_bitsOfNat]
      exact Nat.le_add_right ..
    obtain ⟨hi, lo, u, bytes, field, huf'⟩ :=
      getNBytes_symField (s := t.counted) (consumes.noIoFault quiet) consumes.between enough
    have value : (symField hi lo).toNat = sym :=
      eq_of_bitsOfNat (symField hi lo).isLt (Nat.lt_of_le_of_lt small (by decide))
        (List.append_inj (field.unread.symm.trans left) (by simp)).1
    rw [value] at field
    refine ⟨_, .leaf consumes huf field huf' room, ?_⟩
    have stack : u.huf.dstk = s.huf.dstk := by rw [huf', ← huf]; rfl
    have run := deserNode_leaf mark (huf ▸ room) bytes
    rw [takeLeaf_of_le (value ▸ small), value, huf, stack] at run
    exact congrArg (Res.bind · (afterNode n)) run
  | node z o ihz iho =>
    obtain ⟨symbols, room⟩ := legal
    simp only [HuffTree.size] at room
    simp only [HuffTree.leaves, List.mem_append] at symbols
    rw [HuffTree.ser, List.cons_append, List.append_assoc] at unread
    have cap : s.huf.nNodes < Config.nodeCap := by omega
    obtain ⟨t, mark, consumes, huf⟩ := getBit_of_cons quiet unread
    have quietT := consumes.noIoFault quiet
    have left : t.unreadBits = z.ser ++ (o.ser ++ rest) := consumes.rest unread
    obtain ⟨u, hz, runZ⟩ := ihz (s := t.opened) quietT consumes.between left
      ⟨fun x hx => symbols x (.inl hx), show t.huf.nNodes + 1 + z.size ≤ _ by rw [huf]; omega⟩ (n + o.size)
    have left' : u.unreadBits = o.ser ++ rest := hz.consumes.rest left
    have count : u.huf.nNodes = s.huf.nNodes + 1 + z.size := by rw [hz.nNodes, ← huf]; rfl
    obtain ⟨v, ho, runO⟩ := iho (s := u.zeroDone s.huf.nNodes s.huf.dstk) (hz.consumes.noIoFault quietT)
      hz.consumes.between left' ⟨fun x hx => symbols x (.inr hx), show u.huf.nNodes + o.size ≤ _ by omega⟩ n
    rw [completeNode_zeroDone (huf ▸ cap) hz, huf] at runZ
    have last := completeNode_oneDone (s := u) cap (by omega) ho
    refine ⟨_, .node consumes huf cap hz ho, ?_⟩
    have fuel : n + (HuffTree.node z o).size = n + o.size + z.size + 1 := by
      simp only [HuffTree.size]
      omega
    calc deserLoop (n + (HuffTree.node z o).size) s
        = deserLoop (n + o.size + z.size) t.opened := by rw [fuel, deserLoop_internal mark (huf ▸ cap)]
      _ = deserLoop (n + o.size) (u.zeroDone s.huf.nNodes s.huf.dstk) := runZ
      _ = _ := runO.trans (by rw [← count]; exact congrArg (Res.bind · (afterNode n)) last)

/-- R170: HD.DESER reads a legal tree, and its root, on no open node, is the root of the whole. -/
theorem hdDeser_ok {T : HuffTree} {s : State} {rest : List Bool} (quiet : s.noIoFault) (between : s.readerBetween)
    (unread : s.unreadBits = T.ser ++ rest) (legal : T.legalAfter s.huf.nNodes) :
    ∃ t, hdDeser s = .ok s.huf.nNodes t ∧ Consumes s t T.ser ∧ Denotes t.huf.node T s.huf.nNodes ∧
      (∀ i, i < s.huf.nNodes ∨ s.huf.nNodes + T.size ≤ i → t.huf.node.read i = s.huf.node.read i) ∧
      t.huf = { s.huf with
        node := t.huf.node, nNodes := s.huf.nNodes + T.size, root := s.huf.nNodes, dstk := [] } := by
  have fuel : Config.nodeCap + 1 - T.size + T.size = Config.nodeCap + 1 := by
    have := legal.2
    omega
  obtain ⟨u, reads, run⟩ := deserLoop_ser (s := s.setHuf { s.huf with dstk := [] }) quiet between unread legal
    (Config.nodeCap + 1 - T.size)
  rw [fuel] at run
  refine ⟨_, run, reads.consumes.setHuf s.huf _, reads.builds.built.denotes, fun i hi => ?_, ?_⟩
  · exact hi.elim (reads.below i) (reads.above i)
  · rw [State.setHuf_huf, reads.huf]
    rfl

/-- Settles O32: the tree is read from N_NODES on. -/
theorem HuffmanDecoder.hdDeser : Obligations.HdDeser := by
  intro T rest s quiet between unread legal
  obtain ⟨t, run, consumes, denotes, others, huf⟩ := hdDeser_ok quiet between unread legal
  have root : t.huf.root = s.huf.nNodes := by rw [huf]
  refine ⟨t.setResult (.tree s.huf.nNodes), congrArg (Res.finishWith · .tree) run, ?_, ?_, consumes.rest unread,
    consumes.between, others, ?_⟩
  · rw [State.setResult_huf, root]
    rfl
  · rw [State.setResult_huf, root]
    exact denotes
  · have frame := consumes.frame
    rw [huf] at frame
    rw [State.setResult_huf, root]
    exact congrArg (State.setResult · (.tree s.huf.nNodes)) frame

/-! ### No tree to read (R171, R179, R105) -/

/-- R98, R105, R171: the unread bits start with a tree that is legal after the nodes counted so far. -/
def State.StartsWithTree (s : State) : Prop :=
  ∃ (T : HuffTree) (rest : List Bool), s.unreadBits = T.ser ++ rest ∧ T.legalAfter s.huf.nNodes

/-- The operation raises CorruptStream, having changed nothing but the reader and the Huffman data. -/
def Res.Rejects {α : Type} (r : Res α) (s : State) : Prop :=
  ∃ t bits, r = .raised .corruptStream t ∧ Consumes s t bits

theorem Res.Rejects.after {α : Type} {r : Res α} {s t : State} {bits : List Bool} (h : r.Rejects t)
    (consumes : Consumes s t bits) : r.Rejects s := by
  obtain ⟨u, more, run, consumes'⟩ := h
  exact ⟨u, bits ++ more, run, consumes.trans consumes'⟩

/-- R107, R171, R179: a leaf's mark that starts no legal tree. -/
theorem deserNode_leaf_rejects {s t : State} (quiet : s.noIoFault) (mark : getBit s = .ok (some true) t)
    (consumes : Consumes s t [true]) (huf : t.huf = s.huf) (room : s.huf.nNodes < Config.nodeCap)
    (noTree : ¬ s.StartsWithTree) : (deserNode s).Rejects s := by
  have room' : t.huf.nNodes < Config.nodeCap := huf ▸ room
  by_cases enough : 16 ≤ t.remaining
  · obtain ⟨hi, lo, u, bytes, field, -⟩ :=
      getNBytes_symField (s := t.counted) (consumes.noIoFault quiet) consumes.between enough
    have both := consumes.trans (field.setHuf t.huf u.huf)
    have illegal : Config.eosValue < (symField hi lo).toNat := by
      by_contra legal
      refine noTree ⟨.leaf (symField hi lo).toNat, u.unreadBits, both.unread, fun x hx => ?_, room⟩
      rw [List.mem_singleton.mp hx]
      exact Nat.le_of_not_lt legal
    rw [deserNode_leaf mark room' bytes, takeLeaf_of_lt illegal]
    exact ⟨u, _, rfl, both⟩
  · rw [deserNode_truncated mark room' (Nat.lt_of_not_le enough)]
    exact ⟨_, _, rfl, consumes.setHuf s.huf _⟩

/-- R36: a legal tree that starts where a node was just opened is read as that node's zero-child. -/
theorem deserLoop_zeroChild {z : HuffTree} {s : State} {rest : List Bool} (quiet : s.noIoFault)
    (between : s.readerBetween) (room : s.huf.nNodes < Config.nodeCap) (unread : s.unreadBits = z.ser ++ rest)
    (legal : z.legalAfter (s.huf.nNodes + 1)) (n : Nat) :
    ∃ u, ReadsTree z s.opened u ∧
      deserLoop (n + z.size) s.opened = deserLoop n (u.zeroDone s.huf.nNodes s.huf.dstk) := by
  obtain ⟨u, hz, run⟩ := deserLoop_ser (s := s.opened) quiet between unread legal n
  rw [completeNode_zeroDone room hz] at run
  exact ⟨u, hz, run⟩

/-- R97: a mark and two trees, the second where the first has been read, are a tree. -/
theorem startsWithTree_node {z : HuffTree} {s t u : State} {d : List (Nat × Bool)} (mark : Consumes s t [false])
    (huf : t.huf = s.huf) (hz : ReadsTree z t.opened u) (symbolsZ : ∀ sym ∈ z.leaves, sym ≤ Config.eosValue)
    (one : (u.zeroDone t.huf.nNodes d).StartsWithTree) : s.StartsWithTree := by
  obtain ⟨o, rest, unread, symbolsO, room⟩ := one
  have unread : u.unreadBits = o.ser ++ rest := unread
  have children : t.unreadBits = z.ser ++ u.unreadBits := hz.consumes.unread
  have count : u.huf.nNodes = s.huf.nNodes + 1 + z.size := by rw [hz.nNodes, ← huf]; rfl
  have room : u.huf.nNodes + o.size ≤ Config.nodeCap := room
  refine ⟨.node z o, rest, ?_, fun x hx => ?_, ?_⟩
  · rw [mark.unread, children, unread, HuffTree.ser, List.singleton_append, List.cons_append, List.append_assoc]
  · exact (List.mem_append.mp hx).elim (symbolsZ x) (symbolsO x)
  · simp only [HuffTree.size]
    omega

/-- R170, R171: where no legal tree starts, the loop raises: at the node that breaks off, is one too many or has no
symbol, which stands in the first of the subtrees that is not legal itself. -/
theorem deserLoop_rejects {n : Nat} {s : State} (quiet : s.noIoFault) (between : s.readerBetween)
    (fuel : Config.nodeCap < n + s.huf.nNodes) (noTree : ¬ s.StartsWithTree) : (deserLoop n s).Rejects s := by
  induction n using Nat.strong_induction_on generalizing s with
  | h n ih =>
    cases n with
    | zero => exact ⟨s, [], rfl, .refl between⟩
    | succ n =>
      have first (h : (deserNode s).Rejects s) : (deserLoop (n + 1) s).Rejects s := by
        obtain ⟨t, bits, run, consumes⟩ := h
        exact ⟨t, bits, by rw [deserLoop_succ, run, Res.bind_raised], consumes⟩
      cases unread : s.unreadBits with
      | nil => exact first ⟨s, [], deserNode_of_nil unread, .refl between⟩
      | cons mark bits =>
        obtain ⟨t, bit, consumes, huf⟩ := getBit_of_cons quiet unread
        have quietT := consumes.noIoFault quiet
        rcases Nat.lt_or_ge s.huf.nNodes Config.nodeCap with room | full
        · cases mark with
          | true => exact first (deserNode_leaf_rejects quiet bit consumes huf room noTree)
          | false =>
            rw [deserLoop_internal bit (huf ▸ room)]
            refine Res.Rejects.after ?_ (consumes.setHuf s.huf t.opened.huf)
            have count : t.opened.huf.nNodes = s.huf.nNodes + 1 := by rw [← huf]; rfl
            by_cases zero : t.opened.StartsWithTree
            · obtain ⟨z, rest, left, symbolsZ, roomZ⟩ := zero
              rw [count] at roomZ
              have enough : n - z.size + z.size = n := by omega
              obtain ⟨u, hz, run⟩ := deserLoop_zeroChild quietT consumes.between (huf ▸ room) left
                ⟨symbolsZ, huf ▸ roomZ⟩ (n - z.size)
              rw [enough] at run
              have countU : u.huf.nNodes = s.huf.nNodes + 1 + z.size := by rw [hz.nNodes, count]
              have second := ih (n - z.size) (by omega) (s := u.zeroDone t.huf.nNodes t.huf.dstk)
                (hz.consumes.noIoFault quietT) hz.consumes.between
                (show Config.nodeCap < n - z.size + u.huf.nNodes by omega)
                fun one => noTree (startsWithTree_node consumes huf hz symbolsZ one)
              rw [run]
              exact second.after (hz.consumes.setHuf t.opened.huf _)
            · exact ih n (Nat.lt_succ_self n) (s := t.opened) quietT consumes.between (by omega) zero
        · exact first ⟨t.counted, [mark], deserNode_full bit (huf ▸ full), consumes.setHuf s.huf _⟩

/-- Settles O33: the loop from an empty DSTK with a round for each node of the limit. -/
theorem HuffmanDecoder.hdDeserRejects : Obligations.HdDeserRejects := by
  intro s quiet between noTree
  obtain ⟨t, bits, run, consumes⟩ := deserLoop_rejects (n := Config.nodeCap + 1)
    (s := s.setHuf { s.huf with dstk := [] }) quiet between
    (Nat.lt_of_lt_of_le (Nat.lt_succ_self _) (Nat.le_add_right ..)) fun ⟨T, rest, unread, legal⟩ =>
      noTree T rest unread legal
  have run : Machine.hdDeser s = .raised .corruptStream t := run
  exact ⟨t.abort .corruptStream, congrArg (Res.finishWith · .tree) run, ⟨rfl, rfl, rfl⟩, consumes.out, consumes.lzw⟩

end Sys2Proof.Machine
end

section
/-! PROOFS, DecoderText. The walk from ROOT for one symbol (R173, R174), and HD.DECOMPRESS as a run of such walks
(R175 to R177). -/

namespace Sys2Proof.Machine

/-! ### The walk (R173) -/

/-- R173: a round of the loop that goes on. -/
theorem walkLoop_step {n i : Nat} {b : Bool} {z o : Option Nat} {s t : State}
    (entry : readNode s.huf.walk s = .ok (.internal z o) s) (bit : getBit s = .ok (some b) t)
    (child : (if b then o else z) = some i) : walkLoop (n + 1) s = walkLoop n (t.setWalk i) := by
  rw [walkLoop, entry, Res.bind_ok]
  dsimp only
  rw [bit, Res.bind_ok]
  dsimp only
  rw [child]
  rfl

/-- R173: the loop stops on a leaf. -/
theorem walkLoop_leaf {n sym : Nat} {s : State} (leaf : Denotes s.huf.node (.leaf sym) s.huf.walk) :
    walkLoop (n + 1) s = .ok sym s := by
  rw [walkLoop, readNode_leaf leaf, Res.bind_ok]

/-- R107, R173: no bit is left inside the tree. -/
theorem walkLoop_exhausted {n : Nat} {z o : HuffTree} {s : State} (denotes : Denotes s.huf.node (.node z o) s.huf.walk)
    (unread : s.unreadBits = []) : walkLoop (n + 1) s = .raised .corruptStream s := by
  obtain ⟨a, b, entry, -, -⟩ := readNode_node denotes
  rw [walkLoop, entry, Res.bind_ok]
  dsimp only
  rw [getBit_of_nil unread, Res.bind_ok]

/-- From `s` to `t` exactly these bits were consumed and, beside the reader, only WALK was written. -/
structure Walks (s t : State) (bits : List Bool) : Prop where
  consumes : Consumes s t bits
  huf : t.huf = { s.huf with walk := t.huf.walk }

theorem Walks.refl {s : State} (between : s.readerBetween) : Walks s s [] := ⟨.refl between, rfl⟩

theorem Walks.trans {s t u : State} {as bs : List Bool} (h : Walks s t as) (h' : Walks t u bs) :
    Walks s u (as ++ bs) := by
  refine ⟨h.consumes.trans h'.consumes, h'.huf.trans ?_⟩
  rw [h.huf]

/-- R173: how a walk ends: on the leaf of a symbol with the rest of the bits unread, or without bits inside the tree. -/
def Res.EndsWalk (r : Res Nat) (s : State) : Option (Nat × List Bool) → Prop
  | some (sym, rest) =>
    ∃ t path, r = .ok sym t ∧ Walks s t path ∧ t.unreadBits = rest ∧ t.huf.node.read t.huf.walk = some (.leaf sym)
  | none => ∃ t path, r = .raised .corruptStream t ∧ Walks s t path ∧ t.unreadBits = []

theorem Res.EndsWalk.after {r : Res Nat} {s t : State} {bits : List Bool} {e : Option (Nat × List Bool)}
    (h : r.EndsWalk t e) (walks : Walks s t bits) : r.EndsWalk s e := by
  rcases e with _ | ⟨sym, rest⟩
  · obtain ⟨u, path, run, walks', unread⟩ := h
    exact ⟨u, bits ++ path, run, walks.trans walks', unread⟩
  · obtain ⟨u, path, run, walks', ends⟩ := h
    exact ⟨u, bits ++ path, run, walks.trans walks', ends⟩

/-- R173: with a bit left inside the tree the loop goes down to the child the bit selects. -/
theorem walkLoop_node {n : Nat} {z o : HuffTree} {b : Bool} {bits : List Bool} {s : State} (quiet : s.noIoFault)
    (denotes : Denotes s.huf.node (.node z o) s.huf.walk) (unread : s.unreadBits = b :: bits) :
    ∃ t, walkLoop (n + 1) s = walkLoop n t ∧ Walks s t [b] ∧ t.unreadBits = bits ∧
      Denotes t.huf.node (if b then o else z) t.huf.walk := by
  obtain ⟨i, j, entry, hz, ho⟩ := readNode_node denotes
  obtain ⟨t, bit, consumes, huf⟩ := getBit_of_cons quiet unread
  refine ⟨t.setWalk (if b then j else i), walkLoop_step entry bit (by cases b <;> rfl),
    ⟨consumes.setHuf s.huf _, by rw [State.setWalk, huf]; rfl⟩, consumes.rest unread, ?_⟩
  rw [State.setWalk_huf_node, State.setWalk_huf_walk, huf]
  cases b
  · exact hz
  · exact ho

/-- R173: the loop ends as the tree's walk along the unread bits does. -/
theorem walkLoop_endsWalk {T : HuffTree} {n : Nat} {s : State} (quiet : s.noIoFault) (between : s.readerBetween)
    (denotes : Denotes s.huf.node T s.huf.walk) (fuel : s.unreadBits.length < n) :
    (walkLoop n s).EndsWalk s (T.walk s.unreadBits) := by
  obtain ⟨n, rfl⟩ := Nat.exists_eq_add_one_of_ne_zero fuel.ne_bot
  induction T generalizing n s with
  | leaf sym => exact ⟨s, [], walkLoop_leaf denotes, .refl between, rfl, denotes.2⟩
  | node z o ihz iho =>
    cases unread : s.unreadBits with
    | nil => exact ⟨s, [], walkLoop_exhausted denotes unread, .refl between, unread⟩
    | cons b bits =>
      obtain ⟨t, run, walks, left, child⟩ := walkLoop_node (n := n) quiet denotes unread
      have quietT := walks.consumes.noIoFault quiet
      have betweenT := walks.consumes.between
      have fuelT : t.unreadBits.length < n := by
        rw [unread, List.length_cons] at fuel
        rw [left]
        omega
      obtain ⟨n, rfl⟩ := Nat.exists_eq_add_one_of_ne_zero fuelT.ne_bot
      rw [run, ← left]
      cases b with
      | false => exact (ihz quietT betweenT child n fuelT).after walks
      | true => exact (iho quietT betweenT child n fuelT).after walks

/-- R173: HD.SYMBOL is the walk from ROOT. -/
theorem hdSymbol_endsWalk {T : HuffTree} {s : State} (quiet : s.noIoFault) (between : s.readerBetween)
    (denotes : Denotes s.huf.node T s.huf.root) : (hdSymbol s).EndsWalk s (T.walk s.unreadBits) := by
  have fuel : (s.setWalk s.huf.root).unreadBits.length < s.remaining + 1 :=
    Nat.lt_succ_of_le (length_unreadBits s).le
  have ends := walkLoop_endsWalk (s := s.setWalk s.huf.root) quiet between denotes fuel
  exact ends.after (bits := []) ⟨(Consumes.refl between).setHuf s.huf _, rfl⟩

/-- Settles O34: the two ends of the walk. -/
theorem HuffmanDecoder.hdSymbol : Obligations.HdSymbol := by
  intro T s quiet between denotes
  have ends := hdSymbol_endsWalk quiet between denotes
  refine ⟨fun sym rest walk => ?_, fun walk => ?_⟩ <;> rw [walk] at ends
  · obtain ⟨t, path, run, ⟨consumes, huf⟩, unread, leaf⟩ := ends
    have takes := consumes.takes (.symbol sym)
    rw [huf] at takes
    exact ⟨t.setResult (.symbol sym), path, congrArg (Res.finishWith · .symbol) run, rfl, unread ▸ consumes.unread,
      takes, leaf⟩
  · obtain ⟨t, path, run, ⟨consumes, -⟩, unread⟩ := ends
    have noneLeft : t.remaining = 0 := by rw [← length_unreadBits, unread]; rfl
    exact ⟨t.abort .corruptStream, congrArg (Res.finishWith · .symbol) run, ⟨rfl, rfl, rfl⟩, noneLeft, consumes.out⟩

/-! ### A text (R175, R176) -/

/-- OUT with bytes at its end. -/
def State.appendOut (s : State) (bytes : List Byte) : State := { s with io := { s.io with out := s.io.out ++ bytes } }

/-- R62: the reader does not look at OUT, nor at what was appended before. -/
theorem Consumes.appendOut {s t : State} {bits : List Bool} (h : Consumes s t bits) (bytes : List Byte) :
    Consumes (s.appendOut bytes) (t.appendOut bytes) bits := by
  refine ⟨h.between, h.unread, ?_⟩
  rw [h.frame]
  rfl

theorem Consumes.setPhase {s t : State} {bits : List Bool} (h : Consumes s t bits) (p : Phase) :
    Consumes (s.setPhase p) (t.setPhase p) bits := by
  refine ⟨h.between, h.unread, ?_⟩
  rw [h.frame]
  rfl

theorem Walks.appendOut {s t : State} {bits : List Bool} (h : Walks s t bits) (bytes : List Byte) :
    Walks (s.appendOut bytes) (t.appendOut bytes) bits :=
  ⟨h.consumes.appendOut bytes, h.huf⟩

theorem State.appendOut_appendOut (s : State) (as bs : List Byte) :
    (s.appendOut as).appendOut bs = s.appendOut (as ++ bs) := by
  simp [State.appendOut]

/-- R175: after a symbol's walk its byte is appended. -/
theorem Walks.pushOut {s t : State} {bits : List Bool} (h : Walks s t bits) (b : Byte) :
    Walks (s.appendOut [b]) (t.countAccess.pushOut b) bits := by
  refine ⟨⟨h.consumes.between, h.consumes.unread, ?_⟩, h.huf⟩
  rw [h.consumes.frame]
  rfl

/-- R175: a round of the loop for a byte. -/
theorem symbolLoop_byte {n : Nat} {b : Byte} {s t : State} (run : hdSymbol s = .ok b.toNat t) (quiet : t.noIoFault) :
    symbolLoop (n + 1) s = symbolLoop n (t.countAccess.pushOut b) := by
  have notEos : b.toNat ≠ Config.eosValue := b.isLt.ne
  rw [symbolLoop, run, Res.bind_ok, if_neg notEos, outAppend_ok quiet, Res.bind_ok, BitVec.ofNat_toNat,
    BitVec.setWidth_eq]

/-- R176: the round in which EOS ends the loop. -/
theorem symbolLoop_eos {n : Nat} {s t : State} (run : hdSymbol s = .ok Config.eosValue t) :
    symbolLoop (n + 1) s = .ok () t := by
  rw [symbolLoop, run, Res.bind_ok, if_pos rfl]

/-- R176: the round in which the bits run out. -/
theorem symbolLoop_raised {n : Nat} {s t : State} (run : hdSymbol s = .raised .corruptStream t) :
    symbolLoop (n + 1) s = .raised .corruptStream t := by
  rw [symbolLoop, run, Res.bind_raised]

/-- R99, R173: where a symbol's code comes first, HD.SYMBOL reads it and no more. -/
theorem hdSymbol_code {T : HuffTree} {sym : Nat} {rest : List Bool} {s : State} (quiet : s.noIoFault)
    (between : s.readerBetween) (denotes : Denotes s.huf.node T s.huf.root) (leaf : sym ∈ T.leaves)
    (unread : s.unreadBits = T.code sym ++ rest) :
    ∃ t, hdSymbol s = .ok sym t ∧ Walks s t (T.code sym) ∧ t.unreadBits = rest := by
  have walk : T.walk s.unreadBits = some (sym, rest) := by
    rw [unread]
    exact HuffTree.walk_append (HuffTree.walk_of_pathTo (HuffTree.pathTo_of_mem leaf)) rest
  have ends := hdSymbol_endsWalk quiet between denotes
  rw [walk] at ends
  obtain ⟨t, path, run, walks, left, -⟩ := ends
  have same : path = T.code sym :=
    List.append_cancel_right (walks.consumes.unread.symm.trans (unread.trans (congrArg (_ ++ ·) left.symm)))
  exact ⟨t, run, same ▸ walks, left⟩

/-- R175: the codes of a text are read, and its bytes appended, in as many rounds. -/
theorem symbolLoop_codes {T : HuffTree} {text : List Byte} {rest : List Bool} {s : State} (quiet : s.noIoFault)
    (between : s.readerBetween) (denotes : Denotes s.huf.node T s.huf.root) (leaves : ∀ b ∈ text, b.toNat ∈ T.leaves)
    (unread : s.unreadBits = text.flatMap (fun b => T.code b.toNat) ++ rest) (n : Nat) :
    ∃ t, symbolLoop (n + text.length) s = symbolLoop n t ∧
      Walks (s.appendOut text) t (text.flatMap fun b => T.code b.toNat) ∧ t.unreadBits = rest := by
  induction text generalizing s with
  | nil => exact ⟨s.appendOut [], by simp [State.appendOut], .refl between, unread⟩
  | cons b text ih =>
    obtain ⟨leaf, leaves⟩ := List.forall_mem_cons.mp leaves
    rw [List.flatMap_cons, List.append_assoc] at unread
    obtain ⟨t, run, walks, left⟩ := hdSymbol_code quiet between denotes leaf unread
    have quietT := walks.consumes.noIoFault quiet
    have denotesT : Denotes t.huf.node T t.huf.root := by rw [walks.huf]; exact denotes
    obtain ⟨u, run', walks', left'⟩ := ih (s := t.countAccess.pushOut b) quietT walks.consumes.between denotesT
      leaves left
    have both := ((walks.pushOut b).appendOut text).trans walks'
    rw [State.appendOut_appendOut] at both
    exact ⟨u, (symbolLoop_byte run quietT).trans run', both, left'⟩

/-! ### The payload (R174, R175) -/

/-- R174: the tree is not one leaf of a byte. -/
def HuffTree.RootOk (T : HuffTree) : Prop := ∀ sym, T = .leaf sym → sym = Config.eosValue

/-- R174: in such a tree a byte's code has a bit. -/
theorem HuffTree.RootOk.code_ne_nil {T : HuffTree} (rootOk : T.RootOk) {b : Byte} (leaf : b.toNat ∈ T.leaves) :
    T.code b.toNat ≠ [] := by
  intro empty
  have walk := HuffTree.walk_of_pathTo (HuffTree.pathTo_of_mem leaf)
  rw [empty] at walk
  cases T with
  | leaf sym =>
    cases walk
    exact b.isLt.ne (rootOk _ rfl)
  | node z o => cases walk

/-- So a text has no more bytes than its codes have bits. -/
theorem HuffTree.RootOk.length_le {T : HuffTree} (rootOk : T.RootOk) {text : List Byte}
    (leaves : ∀ b ∈ text, b.toNat ∈ T.leaves) : text.length ≤ (text.flatMap fun b => T.code b.toNat).length := by
  induction text with
  | nil => exact le_rfl
  | cons b text ih =>
    obtain ⟨leaf, leaves⟩ := List.forall_mem_cons.mp leaves
    have first := List.length_pos_iff.mpr (rootOk.code_ne_nil leaf)
    have others := ih leaves
    rw [List.flatMap_cons, List.length_append, List.length_cons]
    omega

/-- R174: the test of the root. -/
theorem checkRoot_ok {T : HuffTree} {s : State} (denotes : Denotes s.huf.node T s.huf.root) (rootOk : T.RootOk) :
    checkRoot s = .ok () s := by
  cases T with
  | leaf sym => rw [checkRoot, readNode_leaf denotes, Res.bind_ok]; exact if_pos (rootOk sym rfl)
  | node z o =>
    obtain ⟨a, b, entry, -, -⟩ := readNode_node denotes
    rw [checkRoot, entry, Res.bind_ok]

theorem checkRoot_leaf {sym : Nat} {s : State} (denotes : Denotes s.huf.node (.leaf sym) s.huf.root)
    (notEos : sym ≠ Config.eosValue) : checkRoot s = .raised .corruptStream s := by
  rw [checkRoot, readNode_leaf denotes, Res.bind_ok]
  exact if_neg notEos

/-- R44, R170: the Huffman data once HD.DECOMPRESS has read its tree. -/
def DecodesBy (T : HuffTree) (s t : State) : Prop :=
  t.huf = { s.huf with
    node := t.huf.node, nNodes := T.size, root := t.huf.root, walk := t.huf.walk, dstk := [] }

theorem DecodesBy.walk {T : HuffTree} {s t u : State} {bits : List Bool} (h : DecodesBy T s t)
    (walks : Walks t u bits) : DecodesBy T s u := by
  rw [DecodesBy, walks.huf, h]

/-- R175: HD.DECOMPRESS on bits that start with a legal tree: the tree is read, its root tested, and then the symbols
come. -/
theorem hdDecompress_tree {T : HuffTree} {bits : List Bool} {s : State} (quiet : s.noIoFault)
    (between : s.readerBetween) (unread : s.unreadBits = T.ser ++ bits) (legal : T.legalAfter 0) :
    ∃ t, (hdDecompress s = (checkRoot t).bind fun _ u => symbolLoop (u.remaining + 1) (u.setPhase .hWalk)) ∧
      Consumes (s.setPhase .hDeser) t T.ser ∧ Denotes t.huf.node T t.huf.root ∧ DecodesBy T s t := by
  obtain ⟨t, run, consumes, denotes, -, huf⟩ :=
    hdDeser_ok (s := (s.setPhase .hDeser).setHuf { s.huf with nNodes := 0 }) quiet between unread legal
  have root : t.huf.root = 0 := by rw [huf]; rfl
  have walk : t.huf.walk = s.huf.walk := by rw [huf]; rfl
  refine ⟨t, ?_, consumes.setHuf s.huf t.huf, by rw [root]; exact denotes, ?_⟩
  · exact congrArg (Res.bind · fun _ u => (checkRoot u).bind _) run
  · rw [State.setHuf_huf, Nat.zero_add] at huf
    rw [DecodesBy, root, walk]
    exact huf

/-- R175: a payload up to the end of a text: its bytes stand in OUT, and the loop goes on with what follows. -/
theorem hdDecompress_text {T : HuffTree} {text : List Byte} {rest : List Bool} {s : State} (quiet : s.noIoFault)
    (between : s.readerBetween) (unread : s.unreadBits = T.ser ++ (text.flatMap (fun b => T.code b.toNat) ++ rest))
    (legal : T.legalAfter 0) (rootOk : T.RootOk) (leaves : ∀ b ∈ text, b.toNat ∈ T.leaves) :
    ∃ t n, hdDecompress s = symbolLoop (n + 1) t ∧
      Consumes ((s.setPhase .hWalk).appendOut text) t (T.ser ++ text.flatMap fun b => T.code b.toNat) ∧
      t.unreadBits = rest ∧ Denotes t.huf.node T t.huf.root ∧ DecodesBy T s t := by
  obtain ⟨t, run, tree, denotes, decodes⟩ := hdDecompress_tree quiet between unread legal
  have left : t.unreadBits = text.flatMap (fun b => T.code b.toNat) ++ rest := tree.rest unread
  have enough : text.length ≤ t.remaining := by
    rw [← length_unreadBits, left, List.length_append]
    exact (rootOk.length_le leaves).trans (Nat.le_add_right ..)
  have fuel : t.remaining - text.length + 1 + text.length = t.remaining + 1 := by omega
  obtain ⟨u, codes, walks, left'⟩ := symbolLoop_codes (s := t.setPhase .hWalk) (tree.noIoFault quiet) tree.between
    denotes leaves left (t.remaining - text.length + 1)
  rw [fuel] at codes
  refine ⟨u, t.remaining - text.length, ?_, ((tree.setPhase .hWalk).appendOut text).trans walks.consumes, left', ?_, ?_⟩
  · rw [run, checkRoot_ok denotes rootOk]
    exact codes
  · rw [walks.huf]
    exact denotes
  · exact DecodesBy.walk (t := (t.setPhase .hWalk).appendOut text) decodes walks

/-- R174: a tree with a leaf for EOS is not one leaf of a byte. -/
theorem HuffTree.rootOk_of_eos_mem {T : HuffTree} (eos : Config.eosValue ∈ T.leaves) : T.RootOk := by
  rintro sym rfl
  exact (List.mem_singleton.mp eos).symm

/-- What the item of the tag runs, where HD.DECOMPRESS ends well (R229). -/
theorem exec_tagHuffman_of_ok {s t : State} (run : hdDecompress s = .ok () t) : exec .tagHuffman s = .next t.callDone :=
  congrArg (fun r => (Res.bind r fun _ u => .ok () u.callDone).finish) run

/-- Settles O35: the text is decoded, and the round after it reads EOS. -/
theorem HuffmanDecoder.hdDecompress : Obligations.HdDecompress := by
  intro T text rest s quiet between unread legal eos leaves
  rw [huffmanBits, List.append_assoc, List.append_assoc] at unread
  obtain ⟨t, n, run, consumes, left, denotes, decodes⟩ :=
    hdDecompress_text quiet between unread legal (HuffTree.rootOk_of_eos_mem eos) leaves
  obtain ⟨u, last, walks, left'⟩ := hdSymbol_code (consumes.noIoFault quiet) consumes.between denotes eos left
  have ok : Machine.hdDecompress s = .ok () u := run.trans (symbolLoop_eos last)
  have whole := consumes.trans walks.consumes
  have huf : u.huf = _ := decodes.walk walks
  refine ⟨u, congrArg Res.finish ok, exec_tagHuffman_of_ok ok, whole.out, left', whole.between, ?_⟩
  have frame := whole.frame
  rw [huf] at frame
  rw [whole.out]
  exact frame

/-- Settles O36: a legal tree of one leaf is read whole and fails the root's test; after a text, the walk without an end
raises. -/
theorem HuffmanDecoder.hdDecompressRejects : Obligations.HdDecompressRejects := by
  refine fun s quiet between => ⟨fun v rest byte unread => ?_, fun z o text rest unread legal leaves noEnd => ?_⟩
  · have legal : (HuffTree.leaf v).legalAfter 0 :=
      ⟨fun sym h => List.mem_singleton.mp h ▸ byte.le, show 0 + 1 ≤ 513 by decide⟩
    obtain ⟨t, run, consumes, denotes, -⟩ := hdDecompress_tree quiet between unread legal
    rw [checkRoot_leaf denotes byte.ne, Res.bind_raised] at run
    exact ⟨t.abort .corruptStream, congrArg Res.finish run, ⟨rfl, rfl, rfl⟩, consumes.out⟩
  · rw [List.append_assoc] at unread
    obtain ⟨t, n, run, consumes, left, denotes, -⟩ := hdDecompress_text quiet between unread legal nofun leaves
    have ends := hdSymbol_endsWalk (consumes.noIoFault quiet) consumes.between denotes
    rw [left, noEnd] at ends
    obtain ⟨u, path, last, walks, -⟩ := ends
    rw [symbolLoop_raised last] at run
    exact ⟨u.abort .corruptStream, congrArg Res.finish run, ⟨rfl, rfl, rfl⟩, (consumes.trans walks.consumes).out⟩

end Sys2Proof.Machine
end

section
/-! PROOFS, EncoderSteps. The claims about the LZW encoder's single operations (R186 to R192): what each does to the
LZW registers, and the codes it sends. -/

namespace Sys2Proof.Machine

/-! ### The start (R186) -/

/-- R186: the LZW data before the first byte is looked for. -/
def Lzw.encoderStart (l : Lzw) : Lzw :=
  { l with width := Config.initWidth, maxCode := 1 <<< Config.initWidth, dSize := 0, eDict := [], haveCur := false }

theorem leInit_eq (s : State) : leInit s = leFirstByte (s.setLzw s.lzw.encoderStart) := rfl

/-- R186: with no byte left there is no phrase. -/
theorem leFirstByte_atEnd {s : State} (ended : s.inLen ≤ s.io.inPos) : leFirstByte s = .ok () s :=
  if_neg (Nat.not_lt.mpr ended)

theorem inPos_lt_of_readIn {s : State} {b : Byte} (byte : s.readIn s.io.inPos = some b) : s.io.inPos < s.inLen :=
  (List.getElem?_eq_some_iff.mp byte).1

/-- R186: the byte read is the current phrase, its own code. -/
theorem leFirstByte_ok {s : State} {b : Byte} (byte : s.readIn s.io.inPos = some b) (done : s.ioFails = false) :
    leFirstByte s =
      .ok () ((s.countAccess.setInPos (s.io.inPos + 1)).setLzw { s.lzw with cur := b.toNat, haveCur := true }) := by
  have fetch : inFetch s = .ok b (s.countAccess.setInPos (s.io.inPos + 1)) := by
    rw [inFetch, show s.io.inp[s.io.inPos]? = some b from byte]
    exact if_neg (Bool.eq_false_iff.mp done)
  rw [leFirstByte, if_pos (inPos_lt_of_readIn byte), fetch]
  rfl

/-- R186, R244: the byte that cannot be read stays unread. -/
theorem leFirstByte_fails {s : State} {b : Byte} (byte : s.readIn s.io.inPos = some b) (fails : s.ioFails = true) :
    leFirstByte s = .raised .ioFailure s.countAccess := by
  have fetch : inFetch s = .raised .ioFailure s.countAccess := by
    rw [inFetch, show s.io.inp[s.io.inPos]? = some b from byte]
    exact if_pos fails
  rw [leFirstByte, if_pos (inPos_lt_of_readIn byte), fetch, Res.bind_raised]

/-- Settles O39: the three ways the first byte is looked for, each from the start values. -/
theorem LzwEncoder.leInit : Obligations.LeInit := by
  refine fun s => ⟨fun ended => ?_, fun b byte done => ?_, fun b byte fails => ?_⟩
  · exact congrArg Res.finish (leFirstByte_atEnd (s := s.setLzw s.lzw.encoderStart) ended)
  · exact ⟨_, congrArg Res.finish (leFirstByte_ok (s := s.setLzw s.lzw.encoderStart) byte done), rfl⟩
  · exact ⟨_, congrArg Res.finish (leFirstByte_fails (s := s.setLzw s.lzw.encoderStart) byte fails), ⟨rfl, rfl, rfl⟩,
      rfl⟩

/-! ### Insertion and growth (R189, R190, R191, R196) -/

/-- R189: the LZW data with the next code assigned to a pair. -/
def Lzw.inserted (l : Lzw) (p : Nat) (b : Byte) : Lzw :=
  { l with eDict := l.eDict.write (pairKey p b) (Config.nLiterals + l.dSize), dSize := l.dSize + 1 }

/-- R190: the LZW data after the growth test for code `n`. -/
def Lzw.grown (l : Lzw) (n : Nat) : Lzw := { l with width := encoderWidth l n, maxCode := 2 ^ encoderWidth l n }

theorem leInsert_ok {s : State} (room : s.lzw.dSize ≠ s.env.dictCap) (p : Nat) (b : Byte) :
    leInsert p b s = .ok (Config.nLiterals + s.lzw.dSize) (s.setLzw (s.lzw.inserted p b)) := if_neg room

theorem leInsert_full {s : State} (full : s.lzw.dSize = s.env.dictCap) (p : Nat) (b : Byte) :
    leInsert p b s = .raised .codeSpaceExhausted s := if_pos full

theorem leGrow_other {s : State} {n : Nat} (other : n ≠ s.lzw.maxCode - 1) : leGrow n s = .ok () s := if_neg other

theorem leGrow_widens {s : State} {n : Nat} (last : n = s.lzw.maxCode - 1) (room : s.lzw.width ≠ s.env.maxWidth) :
    leGrow n s = .ok () s.widen := (if_pos last).trans (if_neg room)

theorem leGrow_ceiling {s : State} {n : Nat} (last : n = s.lzw.maxCode - 1) (ceiling : s.lzw.width = s.env.maxWidth) :
    leGrow n s = .raised .codeSpaceExhausted s := (if_pos last).trans (if_pos ceiling)

/-- R190, R37: both ends of the growth test that raise nothing, where MAXCODE fits WIDTH. -/
theorem leGrow_ok {s : State} {n : Nat} (wide : WidthOk s.lzw)
    (room : n = s.lzw.maxCode - 1 → s.lzw.width ≠ s.env.maxWidth) :
    leGrow n s = .ok () (s.setLzw (s.lzw.grown n)) := by
  by_cases last : n = s.lzw.maxCode - 1
  · rw [leGrow_widens last (room last), Lzw.grown, encoderWidth, if_pos last, ← Nat.one_shiftLeft]
    rfl
  · rw [leGrow_other last, Lzw.grown, encoderWidth, if_neg last, ← wide.2]
    rfl

/-- Settles O42: each test's two outcomes. -/
theorem LzwEncoder.leInsertGrow : Obligations.LeInsertGrow := by
  refine fun s => ⟨fun p b _ room => ?_, fun p b full => ?_, fun n other => ?_, fun n last room => ?_,
    fun n last ceiling => ?_⟩
  · exact congrArg (fun r => Res.finishWith r fun n => .code (some n)) (leInsert_ok room p b)
  · exact congrArg (fun r => Res.finishWith r fun n => .code (some n)) (leInsert_full full p b)
  · exact congrArg Res.finish (leGrow_other other)
  · exact congrArg Res.finish (leGrow_widens last room)
  · exact congrArg Res.finish (leGrow_ceiling last ceiling)

/-! ### Codes sent (R188, R192) -/

/-- R188: a code goes out at the width in force. -/
theorem leEmit_sent {s : State} (quiet : s.noIoFault) (clean : s.writerClean) (c : Nat) :
    (leEmit c s).Sent s (bitsOfNat s.lzw.width c) := putBits_sent quiet clean c s.lzw.width

/-- R192: the current phrase goes out at the end. -/
theorem leFinish_sent {s : State} (quiet : s.noIoFault) (clean : s.writerClean) (held : s.lzw.haveCur = true) :
    (leFinish s).Sent s (bitsOfNat s.lzw.width s.lzw.cur) := by
  rw [leFinish, if_pos held]
  exact leEmit_sent quiet clean s.lzw.cur

/-- R192: without one nothing happens. -/
theorem leFinish_none {s : State} (absent : s.lzw.haveCur = false) : leFinish s = .ok () s :=
  if_neg (Bool.eq_false_iff.mp absent)

/-- Settles O41: LE.FINISH is LE.EMIT of the phrase, or nothing. -/
theorem LzwEncoder.leEmitFinish : Obligations.LeEmitFinish := fun _ quiet clean =>
  ⟨fun c => exec_sends (leEmit_sent quiet clean c) rfl, fun held => exec_sends (leFinish_sent quiet clean held) rfl,
    fun absent => congrArg Res.finish (leFinish_none absent)⟩

/-! ### One byte (R187) -/

/-- R187: the LZW data after a miss on `b` that raises nothing. -/
def Lzw.restarted (l : Lzw) (b : Byte) : Lzw :=
  { (l.inserted l.cur b).grown (Config.nLiterals + l.dSize) with cur := b.toNat }

theorem Sends.lzw {s t : State} {bits : List Bool} (h : Sends s t bits) : t.lzw = s.lzw := by
  rw [h.1.1]

theorem Sends.dictCap {s t : State} {bits : List Bool} (h : Sends s t bits) : t.env.dictCap = s.env.dictCap := by
  rw [h.1.1]

theorem Sends.maxWidth {s t : State} {bits : List Bool} (h : Sends s t bits) : t.env.maxWidth = s.env.maxWidth := by
  rw [h.1.1]

/-- What was sent does not depend on the LZW data. -/
theorem Sends.setLzw {s t : State} {bits : List Bool} (h : Sends s t bits) (l : Lzw) :
    Sends (s.setLzw l) (t.setLzw l) bits := by
  obtain ⟨⟨frame, kept⟩, clean, sent⟩ := h
  refine ⟨⟨?_, kept⟩, clean, sent⟩
  rw [frame]
  rfl

section Miss

variable {b : Byte} {s : State} (miss : s.lzw.eDict.read (pairKey s.lzw.cur b) = none) (quiet : s.noIoFault)
  (clean : s.writerClean)

include miss quiet clean

/-- R187: on a miss the phrase is sent first, and what follows meets the dictionary as it was. -/
theorem leStep_miss_emitted :
    ∃ u, Sends s u (bitsOfNat s.lzw.width s.lzw.cur) ∧
      leStep b s =
        (leInsert s.lzw.cur b u).bind fun n v => (leGrow n v).bind fun _ w => .ok () (w.setCur b.toNat) := by
  obtain ⟨u, emit, sends⟩ := leEmit_sent quiet clean s.lzw.cur
  exact ⟨u, sends, by rw [leStep_miss miss, emit, Res.bind_ok]⟩

/-- R187, R189, R190: a miss with room for the pair and for the growth. -/
theorem leStep_miss_sent (wide : WidthOk s.lzw) (room : s.lzw.dSize ≠ s.env.dictCap)
    (below : Config.nLiterals + s.lzw.dSize = s.lzw.maxCode - 1 → s.lzw.width ≠ s.env.maxWidth) :
    (leStep b s).Sent (s.setLzw (s.lzw.restarted b)) (bitsOfNat s.lzw.width s.lzw.cur) := by
  obtain ⟨u, sends, run⟩ := leStep_miss_emitted miss quiet clean
  have insert := leInsert_ok (s := u) (by rwa [sends.lzw, sends.dictCap]) s.lzw.cur b
  have grow := leGrow_ok (s := u.setLzw (u.lzw.inserted s.lzw.cur b)) (n := Config.nLiterals + u.lzw.dSize)
    (by rw [sends.lzw]; exact wide) (by rw [sends.lzw]; exact sends.maxWidth ▸ below)
  rw [insert, Res.bind_ok, grow, Res.bind_ok, sends.lzw] at run
  exact ⟨_, run, sends.setLzw _⟩

/-- R196, R248: a full dictionary is met after the phrase was sent. -/
theorem leStep_full (full : s.lzw.dSize = s.env.dictCap) :
    ∃ u, leStep b s = .raised .codeSpaceExhausted u ∧ Sends s u (bitsOfNat s.lzw.width s.lzw.cur) := by
  obtain ⟨u, sends, run⟩ := leStep_miss_emitted miss quiet clean
  rw [leInsert_full (by rwa [sends.lzw, sends.dictCap]), Res.bind_raised] at run
  exact ⟨u, run, sends⟩

/-- R191, R248: the ceiling is met after the phrase was sent and the pair inserted. -/
theorem leStep_ceiling (room : s.lzw.dSize ≠ s.env.dictCap)
    (last : Config.nLiterals + s.lzw.dSize = s.lzw.maxCode - 1) (ceiling : s.lzw.width = s.env.maxWidth) :
    ∃ u, leStep b s = .raised .codeSpaceExhausted u ∧
      Sends (s.setLzw (s.lzw.inserted s.lzw.cur b)) u (bitsOfNat s.lzw.width s.lzw.cur) := by
  obtain ⟨u, sends, run⟩ := leStep_miss_emitted miss quiet clean
  have insert := leInsert_ok (s := u) (by rwa [sends.lzw, sends.dictCap]) s.lzw.cur b
  have grow := leGrow_ceiling (s := u.setLzw (u.lzw.inserted s.lzw.cur b)) (n := Config.nLiterals + u.lzw.dSize)
    (by rw [sends.lzw]; exact last) (by rw [sends.lzw]; exact ceiling.trans sends.maxWidth.symm)
  rw [insert, Res.bind_ok, grow, Res.bind_raised, sends.lzw] at run
  exact ⟨_, run, sends.setLzw _⟩

end Miss

/-- Settles O40: the hit, and the three ends of a miss in R248's order. -/
theorem LzwEncoder.leStep : Obligations.LeStep := by
  refine fun b s _ => ⟨fun c hit => congrArg Res.finish (leStep_hit hit), fun miss quiet clean wide =>
    ⟨fun room below => ?_, fun full => ?_, fun room last ceiling => ?_⟩⟩
  · obtain ⟨t, run, sends⟩ := leStep_miss_sent miss quiet clean wide room below
    exact ⟨t, congrArg Res.finish run, sends⟩
  · obtain ⟨u, run, sends⟩ := leStep_full miss quiet clean full
    exact ⟨_, congrArg Res.finish run, ⟨rfl, rfl, rfl⟩, sends.lzw, sends.sentBits_eq⟩
  · obtain ⟨u, run, sends⟩ := leStep_ceiling miss quiet clean room last ceiling
    exact ⟨_, congrArg Res.finish run, ⟨rfl, rfl, rfl⟩, (congrArg Lzw.dSize sends.lzw :),
      (congrArg Lzw.width sends.lzw :), sends.sentBits_eq⟩

end Sys2Proof.Machine
end

section
/-! PROOFS, GreedyParse. The reference's parse with its strings written out (R187, R193, R197): the phrases its table
knows, their codes, and that the codes sent spell the input again (R205, R213 to R217). -/

namespace Sys2Proof.Machine

/-! ### Phrases and their codes (R38) -/

/-- R186, R38: a phrase that has a code, a literal or an entry of the table. -/
def IsPhrase (table : List (List Byte)) (phrase : List Byte) : Prop := phrase.length = 1 ∨ phrase ∈ table

/-- R189: a table as the encoder grows it: an entry is a phrase of the table and one byte more. -/
structure PhraseTable (table : List (List Byte)) : Prop where
  long : ∀ phrase ∈ table, 2 ≤ phrase.length
  closed : ∀ phrase b, phrase ++ [b] ∈ table → IsPhrase table phrase

section Phrases

variable {table : List (List Byte)} {phrase : List Byte}

theorem PhraseTable.empty : PhraseTable [] := ⟨nofun, nofun⟩

theorem IsPhrase.literal (table : List (List Byte)) (b : Byte) : IsPhrase table [b] := .inl rfl

theorem IsPhrase.append (h : IsPhrase table phrase) (more : List (List Byte)) : IsPhrase (table ++ more) phrase :=
  h.imp_right (List.mem_append_left more)

/-- R189: a phrase of the grown table that is not the new entry was known before. -/
theorem IsPhrase.older {new : List Byte} (h : IsPhrase (table ++ [new]) phrase) (other : phrase ≠ new) :
    IsPhrase table phrase :=
  h.imp_right fun entry => (List.mem_append.mp entry).resolve_right fun last => other (List.mem_singleton.mp last)

theorem PhraseTable.ne_nil (h : PhraseTable table) (known : IsPhrase table phrase) : phrase ≠ [] := by
  rcases known with single | entry
  · exact List.ne_nil_of_length_eq_add_one single
  · exact List.ne_nil_of_length_pos (Nat.lt_of_lt_of_le Nat.zero_lt_two (h.long phrase entry))

/-- R187: a phrase and one byte more is no literal. -/
theorem PhraseTable.long_extension (h : PhraseTable table) (known : IsPhrase table phrase) (b : Byte) :
    2 ≤ (phrase ++ [b]).length := by
  have := List.length_pos_iff.mpr (h.ne_nil known)
  rw [List.length_append, List.length_singleton]
  omega

/-- R189: the table with a phrase extended by a byte. -/
theorem PhraseTable.extend (h : PhraseTable table) (known : IsPhrase table phrase) (b : Byte) :
    PhraseTable (table ++ [phrase ++ [b]]) where
  long x hx := by
    rcases List.mem_append.mp hx with old | new
    · exact h.long x old
    · exact List.mem_singleton.mp new ▸ h.long_extension known b
  closed x c hx := by
    rcases List.mem_append.mp hx with old | new
    · exact (h.closed x c old).append _
    · rw [(List.append_inj' (List.mem_singleton.mp new) rfl).1]
      exact known.append _

/-- R189: nothing in the table extends the entry made last. -/
theorem PhraseTable.extension_notMem (h : PhraseTable table) (long : 2 ≤ phrase.length) (new : phrase ∉ table)
    (b : Byte) : phrase ++ [b] ∉ table ++ [phrase] := fun entry => by
  rcases List.mem_append.mp entry with old | last
  · rcases h.closed phrase b old with single | there
    · omega
    · exact new there
  · simpa using congrArg List.length (List.mem_singleton.mp last)

theorem phraseCode_of_long (long : 2 ≤ phrase.length) :
    phraseCode table phrase = Config.nLiterals + table.idxOf phrase := by
  unfold phraseCode
  split
  · simp at long
  · rfl

/-- R38: a phrase is the literal of its byte, or an entry with the code of its place. -/
theorem PhraseTable.phraseCode_cases (h : PhraseTable table) (known : IsPhrase table phrase) :
    (∃ b, phrase = [b] ∧ phraseCode table phrase = b.toNat) ∨
      (phrase ∈ table ∧ phraseCode table phrase = Config.nLiterals + table.idxOf phrase) := by
  rcases known with single | entry
  · obtain ⟨b, rfl⟩ := List.length_eq_one_iff.mp single
    exact .inl ⟨b, rfl, rfl⟩
  · exact .inr ⟨entry, phraseCode_of_long (h.long phrase entry)⟩

/-- R37: every code in use is below the next one. -/
theorem PhraseTable.phraseCode_lt (h : PhraseTable table) (known : IsPhrase table phrase) :
    phraseCode table phrase < Config.nLiterals + table.length := by
  rcases h.phraseCode_cases known with ⟨b, -, code⟩ | ⟨entry, code⟩ <;> rw [code]
  · exact (literal_lt b).trans_le (Nat.le_add_right ..)
  · exact Nat.add_lt_add_left (List.idxOf_lt_length_of_mem entry) _

/-- R38: a code keeps its phrase as the table grows. -/
theorem PhraseTable.phraseCode_append (h : PhraseTable table) (known : IsPhrase table phrase)
    (more : List (List Byte)) : phraseCode (table ++ more) phrase = phraseCode table phrase := by
  rcases h.phraseCode_cases known with ⟨b, rfl, -⟩ | ⟨entry, code⟩
  · rfl
  · rw [code, phraseCode_of_long (h.long phrase entry), List.idxOf_append_of_mem entry]

/-- R189: a new entry has the next code. -/
theorem phraseCode_new (long : 2 ≤ phrase.length) (new : phrase ∉ table) :
    phraseCode (table ++ [phrase]) phrase = Config.nLiterals + table.length := by
  rw [phraseCode_of_long long, List.idxOf_append_of_notMem new, List.idxOf_cons_self, Nat.add_zero]

/-- R205: a phrase's code stands for the phrase. -/
theorem PhraseTable.lzwString_phraseCode (h : PhraseTable table) (known : IsPhrase table phrase) :
    lzwString table (phraseCode table phrase) = some phrase := by
  rcases h.phraseCode_cases known with ⟨b, rfl, code⟩ | ⟨entry, code⟩ <;> rw [code, lzwString]
  · rw [if_pos (literal_lt b), BitVec.ofNat_toNat, BitVec.setWidth_eq]
  · rw [if_neg (Nat.not_lt.mpr (Nat.le_add_right ..)), Nat.add_sub_cancel_left, List.getElem?_idxOf entry]

/-- R38: no two phrases share a code. -/
theorem PhraseTable.phraseCode_inj (h : PhraseTable table) {other : List Byte} (known : IsPhrase table phrase)
    (known' : IsPhrase table other) (same : phraseCode table phrase = phraseCode table other) : phrase = other := by
  have string := h.lzwString_phraseCode known
  rw [same, h.lzwString_phraseCode known'] at string
  exact (Option.some.inj string).symm

end Phrases

/-! ### The codes of a parse (R187, R192) -/

theorem lzwCodesFrom_nil (table : List (List Byte)) (cur : List Byte) :
    lzwCodesFrom table cur [] = [phraseCode table cur] := rfl

theorem lzwCodesFrom_hit {table : List (List Byte)} {cur : List Byte} {b : Byte} (hit : cur ++ [b] ∈ table)
    (bytes : List Byte) : lzwCodesFrom table cur (b :: bytes) = lzwCodesFrom table (cur ++ [b]) bytes := if_pos hit

theorem lzwCodesFrom_miss {table : List (List Byte)} {cur : List Byte} {b : Byte} (miss : cur ++ [b] ∉ table)
    (bytes : List Byte) :
    lzwCodesFrom table cur (b :: bytes) =
      phraseCode table cur :: lzwCodesFrom (table ++ [cur ++ [b]]) [b] bytes := if_neg miss

/-- R192: the last phrase is always sent. -/
theorem length_lzwCodesFrom_pos (table : List (List Byte)) (cur bytes : List Byte) :
    0 < (lzwCodesFrom table cur bytes).length := by
  induction bytes generalizing table cur with
  | nil => exact Nat.zero_lt_one
  | cons b bytes ih =>
    by_cases hit : cur ++ [b] ∈ table
    · rw [lzwCodesFrom_hit hit]
      exact ih ..
    · rw [lzwCodesFrom_miss hit]
      exact Nat.succ_pos _

/-- R193: a phrase has a byte of its own, so there is no more than one code for each. -/
theorem length_lzwCodesFrom_le (table : List (List Byte)) (cur bytes : List Byte) :
    (lzwCodesFrom table cur bytes).length ≤ bytes.length + 1 := by
  induction bytes generalizing table cur with
  | nil => exact Nat.le_refl 1
  | cons b bytes ih =>
    by_cases hit : cur ++ [b] ∈ table
    · rw [lzwCodesFrom_hit hit]
      exact (ih ..).trans (Nat.le_succ _)
    · rw [lzwCodesFrom_miss hit]
      exact Nat.succ_le_succ (ih ..)

theorem length_lzwCodes_le (bytes : List Byte) : (lzwCodes bytes).length ≤ bytes.length := by
  cases bytes with
  | nil => exact Nat.le_refl 0
  | cons b bytes => exact length_lzwCodesFrom_le [] [b] bytes

/-! ### The codes read again (R205, R213) -/

/-- R213, R214: the decoder is one entry behind. From the code of `phrase` and that of the next one, `cur`, it makes the
entry the encoder made of `phrase` and the first byte of `cur`; where `cur` is that entry itself, the first byte is the
one of `phrase`. -/
theorem lzwRest_phrase {table : List (List Byte)} {phrase cur : List Byte} {b : Byte} (h : PhraseTable table)
    (known : IsPhrase table phrase) (new : phrase ++ [b] ∉ table) (known' : IsPhrase (table ++ [phrase ++ [b]]) cur)
    (head : cur.head? = some b) (codes : List Nat) :
    lzwRest table (phraseCode table phrase) (phraseCode (table ++ [phrase ++ [b]]) cur :: codes) =
      (lzwRest (table ++ [phrase ++ [b]]) (phraseCode (table ++ [phrase ++ [b]]) cur) codes).map (phrase ++ ·) := by
  have string := h.lzwString_phraseCode known
  obtain ⟨rest, first⟩ : ∃ rest, lzwString table
      (if phraseCode (table ++ [phrase ++ [b]]) cur = Config.nLiterals + table.length then phraseCode table phrase
        else phraseCode (table ++ [phrase ++ [b]]) cur) = some (b :: rest) := by
    by_cases own : cur = phrase ++ [b]
    · rw [own, phraseCode_new (h.long_extension known b) new, if_pos rfl, string]
      rw [own, List.head?_append_of_ne_nil _ (h.ne_nil known)] at head
      exact ⟨_, congrArg some (List.eq_cons_of_mem_head? head)⟩
    · have older : IsPhrase table cur := known'.older own
      rw [h.phraseCode_append older, if_neg (h.phraseCode_lt older).ne, h.lzwString_phraseCode older]
      exact ⟨_, congrArg some (List.eq_cons_of_mem_head? head)⟩
  rw [lzwRest, string, first]

/-- R193, R213: what is sent after a phrase gives the phrase and the rest of the input. -/
theorem lzwRest_lzwCodesFrom {table : List (List Byte)} {phrase cur : List Byte} {b : Byte} (h : PhraseTable table)
    (known : IsPhrase table phrase) (new : phrase ++ [b] ∉ table) (known' : IsPhrase (table ++ [phrase ++ [b]]) cur)
    (head : cur.head? = some b) (bytes : List Byte) :
    lzwRest table (phraseCode table phrase) (lzwCodesFrom (table ++ [phrase ++ [b]]) cur bytes) =
      some (phrase ++ (cur ++ bytes)) := by
  have h' := h.extend known b
  induction bytes generalizing table phrase cur b with
  | nil =>
    rw [lzwCodesFrom_nil, lzwRest_phrase h known new known' head, lzwRest, h'.lzwString_phraseCode known',
      List.append_nil]
    rfl
  | cons c bytes ih =>
    by_cases hit : cur ++ [c] ∈ table ++ [phrase ++ [b]]
    · have head' : (cur ++ [c]).head? = some b := by rw [List.head?_append, head]; rfl
      rw [lzwCodesFrom_hit hit, ih h known new (.inr hit) head' h', List.append_assoc]
      rfl
    · rw [lzwCodesFrom_miss hit, lzwRest_phrase h known new known' head,
        ih h' known' hit (.literal _ c) rfl (h'.extend known' c)]
      rfl

/-- R193, R197: the codes of the greedy parse spell the input. -/
theorem lzwText_lzwCodes (bytes : List Byte) : lzwText (lzwCodes bytes) = some bytes := by
  match bytes with
  | [] => rfl
  | [b] => exact (if_pos (literal_lt b)).trans (PhraseTable.empty.lzwString_phraseCode (.literal [] b))
  | b :: c :: bytes =>
    have miss : [b] ++ [c] ∉ ([] : List (List Byte)) := nofun
    rw [lzwCodes, lzwCodesFrom_miss miss]
    exact (if_pos (literal_lt b)).trans
      (lzwRest_lzwCodesFrom PhraseTable.empty (.literal [] b) miss (.literal _ c) rfl bytes)

end Sys2Proof.Machine
end

section
/-! PROOFS, EncoderPayload. LE.COMPRESS follows the reference's parse (R194): the pair dictionary stands for the table
of strings, WIDTH is R102's for the next code, and each miss sends the reference's next code. -/

namespace Sys2Proof.Machine

/-! ### The widths (R102) -/

theorem codeWidth_mono {j k : Nat} (h : j ≤ k) : codeWidth j ≤ codeWidth k := Nat.size_le_size (Nat.add_le_add_left h _)

/-- R6, R102: the first code has the initial width. -/
theorem codeWidth_one : codeWidth 1 = Config.initWidth := rfl

/-- R7: a number's length grows exactly from the last number of that length to the next. -/
theorem size_succ (n : Nat) : (n + 1).size = if n = 2 ^ n.size - 1 then n.size + 1 else n.size := by
  have below : n < 2 ^ n.size := Nat.lt_size_self n
  have lower : n.size ≤ (n + 1).size := Nat.size_le_size n.le_succ
  split
  · next last =>
    have whole : n + 1 = 2 ^ n.size := by omega
    rw [whole, Nat.size_pow]
  · next other => exact le_antisymm (Nat.size_le.mpr (by omega)) lower

/-- R190, R102: growth at `MAXCODE - 1` gives the width of the stream's next code. -/
theorem encoderWidth_eq_codeWidth {l : Lzw} {k : Nat} (width : l.width = codeWidth (k + 1))
    (maxCode : l.maxCode = 2 ^ l.width) : encoderWidth l (Config.nLiterals + k) = codeWidth (k + 2) := by
  have size : codeWidth (k + 1) = (Config.nLiterals + k).size := by
    rw [codeWidth, Config.nLiterals]
    exact congrArg Nat.size (by omega)
  have next : codeWidth (k + 2) = (Config.nLiterals + k + 1).size := by
    rw [codeWidth, Config.nLiterals]
    exact congrArg Nat.size (by omega)
  rw [encoderWidth, maxCode, width, next, size_succ, size]

/-! ### The pair dictionary and the table of strings (R38) -/

/-- R38: no two pairs share a key. -/
theorem pairKey_inj {p q : Nat} {a b : Byte} : pairKey p a = pairKey q b ↔ p = q ∧ a = b := by
  have ha := a.isLt
  have hb := b.isLt
  rw [← BitVec.toNat_inj, pairKey, pairKey]
  omega

/-- The encoder's registers stand for the reference's table and current phrase. -/
structure Follows (l : Lzw) (table : List (List Byte)) (cur : List Byte) : Prop where
  phrases : PhraseTable table
  known : IsPhrase table cur
  lookup : ∀ phrase b, IsPhrase table phrase → l.eDict.read (pairKey (phraseCode table phrase) b) =
    if phrase ++ [b] ∈ table then some (phraseCode table (phrase ++ [b])) else none
  unused : ∀ p b, Config.nLiterals + table.length ≤ p → l.eDict.read (pairKey p b) = none
  cur : l.cur = phraseCode table cur
  haveCur : l.haveCur = true
  dSize : l.dSize = table.length
  width : l.width = codeWidth (table.length + 1)
  maxCode : l.maxCode = 2 ^ l.width

section Follows

variable {l : Lzw} {table : List (List Byte)} {cur : List Byte} {b : Byte}

/-- R186: after the first byte. -/
theorem Follows.first (l : Lzw) (b : Byte) :
    Follows { l.encoderStart with cur := b.toNat, haveCur := true } [] [b] where
  phrases := .empty
  known := .literal [] b
  lookup _ _ _ := rfl
  unused _ _ _ := rfl
  cur := rfl
  haveCur := rfl
  dSize := rfl
  width := codeWidth_one.symm
  maxCode := rfl

theorem Follows.widthOk (h : Follows l table cur) : WidthOk l := by
  refine ⟨?_, h.maxCode⟩
  rw [h.width, ← codeWidth_one]
  exact codeWidth_mono (Nat.le_add_left 1 _)

/-- R187: the pair is in the dictionary where the string is in the table. -/
theorem Follows.read_hit (h : Follows l table cur) (hit : cur ++ [b] ∈ table) :
    l.eDict.read (pairKey l.cur b) = some (phraseCode table (cur ++ [b])) := by
  rw [h.cur, h.lookup cur b h.known, if_pos hit]

theorem Follows.read_miss (h : Follows l table cur) (miss : cur ++ [b] ∉ table) :
    l.eDict.read (pairKey l.cur b) = none := by
  rw [h.cur, h.lookup cur b h.known, if_neg miss]

/-- R187: a hit extends the phrase. -/
theorem Follows.hit (h : Follows l table cur) (hit : cur ++ [b] ∈ table) :
    Follows { l with cur := phraseCode table (cur ++ [b]) } table (cur ++ [b]) :=
  { h with known := .inr hit, cur := rfl }

/-- R189: the lookup in the grown dictionary and the grown table, for the new pair, for an extension of the new entry
(there is none), and for a phrase known before. -/
theorem Follows.lookup_inserted (h : Follows l table cur) (miss : cur ++ [b] ∉ table) {phrase : List Byte} (c : Byte)
    (known : IsPhrase (table ++ [cur ++ [b]]) phrase) :
    (l.inserted l.cur b).eDict.read (pairKey (phraseCode (table ++ [cur ++ [b]]) phrase) c) =
      if phrase ++ [c] ∈ table ++ [cur ++ [b]] then some (phraseCode (table ++ [cur ++ [b]]) (phrase ++ [c]))
      else none := by
  have code := phraseCode_new (h.phrases.long_extension h.known b) miss
  have curBelow := h.phrases.phraseCode_lt h.known
  rw [Lzw.inserted, Memory.read_write, h.cur, h.dSize]
  simp only [pairKey_inj]
  by_cases entry : phrase ++ [c] = cur ++ [b]
  · obtain ⟨rfl, last⟩ := List.append_inj' entry rfl
    obtain rfl := List.singleton_inj.mp last
    rw [if_pos ⟨h.phrases.phraseCode_append h.known _, rfl⟩,
      if_pos (List.mem_append_right _ (List.mem_singleton_self _)), code]
  · by_cases own : phrase = cur ++ [b]
    · have long := h.phrases.long_extension h.known b
      rw [own, if_neg (h.phrases.extension_notMem long miss c), code, if_neg fun same => curBelow.ne' same.1,
        h.unused _ c (Nat.le_refl _)]
    · have older : IsPhrase table phrase := known.older own
      have other : ¬ (phraseCode table phrase = phraseCode table cur ∧ c = b) := fun same =>
        entry (by rw [h.phrases.phraseCode_inj older h.known same.1, same.2])
      have mem : phrase ++ [c] ∈ table ++ [cur ++ [b]] ↔ phrase ++ [c] ∈ table := by
        rw [List.mem_append, List.mem_singleton, or_iff_left entry]
      rw [h.phrases.phraseCode_append older, if_neg other, h.lookup phrase c older]
      by_cases there : phrase ++ [c] ∈ table
      · rw [if_pos there, if_pos (mem.mpr there), h.phrases.phraseCode_append (.inr there)]
      · rw [if_neg there, if_neg (mem.not.mpr there)]

/-- R187, R189, R190: a miss makes the entry and restarts with the byte. -/
theorem Follows.miss (h : Follows l table cur) (miss : cur ++ [b] ∉ table) :
    Follows (l.restarted b) (table ++ [cur ++ [b]]) [b] where
  phrases := h.phrases.extend h.known b
  known := .literal _ b
  lookup _ c known := h.lookup_inserted miss c known
  unused p c above := by
    rw [List.length_append, List.length_singleton] at above
    have curBelow := h.phrases.phraseCode_lt h.known
    have other : pairKey p c ≠ pairKey l.cur b := fun same => by
      have := (pairKey_inj.mp same).1
      rw [h.cur] at this
      omega
    exact (Memory.read_write_other _ _ other).trans (h.unused p c (by omega))
  cur := rfl
  haveCur := h.haveCur
  dSize := by
    rw [List.length_append]
    exact congrArg (· + 1) h.dSize
  width := by
    rw [List.length_append, List.length_singleton]
    change encoderWidth l (Config.nLiterals + l.dSize) = _
    rw [h.dSize, encoderWidth_eq_codeWidth h.width h.maxCode]
  maxCode := rfl

/-- R285: with room for one more code than the table has assigned, neither limit is met on a miss. -/
theorem Follows.room {e : Env} {k : Nat} (h : Follows l table cur) (room : RoomFor e k) (more : table.length + 2 ≤ k) :
    l.dSize ≠ e.dictCap ∧ (Config.nLiterals + l.dSize = l.maxCode - 1 → l.width ≠ e.maxWidth) := by
  obtain ⟨-, wide, capacity⟩ := room
  refine ⟨by rw [h.dSize]; omega, fun last => ?_⟩
  have grown := encoderWidth_eq_codeWidth h.width h.maxCode
  rw [encoderWidth, ← h.dSize, if_pos last, h.dSize] at grown
  have := codeWidth_mono more
  omega

end Follows

/-! ### The loop (R194) -/

/-- What LE.COMPRESS leaves of the LZW data: the decoder's registers (R39). -/
def KeepsDecoder (l m : Lzw) : Prop :=
  m = { m with
    dDict := l.dDict, c1 := l.c1, c2 := l.c2, c2Valid := l.c2Valid, xstk := l.xstk, c1Held := l.c1Held }

theorem KeepsDecoder.trans {l m n : Lzw} (h : KeepsDecoder l m) (h' : KeepsDecoder m n) : KeepsDecoder l n := by
  unfold KeepsDecoder at *
  rw [h', h]

/-- The rest of LE.COMPRESS from `s`, with `left` bytes of IN to go, ends with `codes` sent, the first of them the
stream's `k`-th, and one entry for each code of the stream but the last. -/
def SendsCodes (s : State) (left k : Nat) (codes : List Nat) : Prop :=
  ∃ l, KeepsDecoder s.lzw l ∧ l.dSize + 2 = k + codes.length ∧ l.width = codeWidth (l.dSize + 1) ∧
    ((leSteps left s).bind fun _ t => leFinish t).Sent ((s.setInPos (s.io.inPos + left)).setLzw l) (codeBits k codes)

/-- R192: at the end of IN the current phrase is sent. -/
theorem Follows.sendsCodes_nil {s : State} {table : List (List Byte)} {cur : List Byte} (h : Follows s.lzw table cur)
    (quiet : s.noIoFault) (clean : s.writerClean) : SendsCodes s 0 (table.length + 1) [phraseCode table cur] := by
  refine ⟨s.lzw, rfl, by rw [h.dSize]; rfl, by rw [h.width, h.dSize], ?_⟩
  rw [codeBits, codeBits, List.append_nil, ← h.width, ← h.cur]
  exact leFinish_sent quiet clean h.haveCur

/-- R194, R187: the loop over the bytes left and LE.FINISH send the reference's codes. -/
theorem Follows.sendsCodes {bytes : List Byte} {s : State} {table : List (List Byte)} {cur : List Byte}
    (h : Follows s.lzw table cur) (quiet : s.noIoFault) (clean : s.writerClean)
    (left : s.io.inp.drop s.io.inPos = bytes)
    (room : RoomFor s.env (table.length + (lzwCodesFrom table cur bytes).length)) :
    SendsCodes s bytes.length (table.length + 1) (lzwCodesFrom table cur bytes) := by
  induction bytes generalizing s table cur with
  | nil => exact h.sendsCodes_nil quiet clean
  | cons b bytes ih =>
    obtain ⟨fetch, left'⟩ := inFetch_of_drop quiet left
    have past : s.io.inPos + 1 + bytes.length = s.io.inPos + (bytes.length + 1) := by omega
    have read := Sends.countAccess clean
    rw [SendsCodes, List.length_cons, leSteps, fetch, Res.bind_ok]
    by_cases hit : cur ++ [b] ∈ table
    · rw [lzwCodesFrom_hit hit] at room ⊢
      have step := leStep_hit (s := s.countAccess.setInPos (s.io.inPos + 1)) (h.read_hit hit)
      obtain ⟨l, keeps, size, width, t, run, sends⟩ := ih
        (s := (s.countAccess.setInPos (s.io.inPos + 1)).setCur (phraseCode table (cur ++ [b])))
        (h.hit hit) quiet clean left' room
      rw [State.setCur_io, State.setInPos_io_inPos, past] at sends
      refine ⟨l, keeps, size, width, t, ?_, ((read.setInPos _).setLzw l).trans sends⟩
      rw [step, Res.bind_ok, run]
    · rw [lzwCodesFrom_miss hit] at room ⊢
      have pos := length_lzwCodesFrom_pos (table ++ [cur ++ [b]]) [b] bytes
      have length : (table ++ [cur ++ [b]]).length = table.length + 1 := List.length_append
      obtain ⟨capacity, ceiling⟩ := h.room room (by rw [List.length_cons]; omega)
      obtain ⟨u, step, sent⟩ := leStep_miss_sent (s := s.countAccess.setInPos (s.io.inPos + 1)) (h.read_miss hit)
        quiet clean h.widthOk capacity ceiling
      have lzw : u.lzw = s.lzw.restarted b := sent.lzw
      have same : u.io.inp = s.io.inp ∧ u.io.inPos = s.io.inPos + 1 ∧ u.env.maxWidth = s.env.maxWidth ∧
          u.env.dictCap = s.env.dictCap := by
        rw [sent.1.1]
        exact ⟨rfl, rfl, rfl, rfl⟩
      obtain ⟨inp, inPos, maxWidth, dictCap⟩ := same
      obtain ⟨l, keeps, size, width, t, run, sends⟩ := ih (s := u) (lzw ▸ h.miss hit) (sent.noIoFault quiet) sent.clean
        (by rw [inp, inPos, left'])
        (by
          rw [RoomFor, maxWidth, dictCap, length]
          rwa [List.length_cons, ← Nat.add_assoc, Nat.add_right_comm] at room)
      rw [inPos, past] at sends
      rw [length] at sends size
      refine ⟨l, KeepsDecoder.trans (l := s.lzw) (m := u.lzw) (lzw ▸ rfl) keeps, ?_, width, t, ?_, ?_⟩
      · rw [size, List.length_cons]
        omega
      · rw [step, Res.bind_ok, run]
      · rw [codeBits, ← h.width, ← h.cur]
        exact ((read.setInPos _).setLzw l).trans (((sent.setInPos _).setLzw l).trans sends)

/-! ### The payload (R194) -/

/-- R186, R194: where the loop of LE.COMPRESS starts, with the first byte read. -/
def State.firstRead (s : State) (b : Byte) : State :=
  ((s.setPhase .lEnc).countAccess.setInPos 1).setLzw { s.lzw.encoderStart with cur := b.toNat, haveCur := true }

theorem leCompress_of_init {s u : State} (init : leInit (s.setPhase .lEnc) = .ok () u) :
    leCompress s = (leSteps (u.inLen - u.io.inPos) u).bind fun _ t => leFinish t := by
  rw [leCompress, init, Res.bind_ok]

theorem leInit_firstRead {s : State} {b : Byte} {bytes : List Byte} (quiet : s.noIoFault) (start : s.io.inPos = 0)
    (input : s.io.inp = b :: bytes) : leInit (s.setPhase .lEnc) = .ok () (s.firstRead b) := by
  have byte : s.readIn s.io.inPos = some b := by rw [State.readIn, start, input]; rfl
  have read := leFirstByte_ok (s := (s.setPhase .lEnc).setLzw s.lzw.encoderStart) byte (ioFails_of_noIoFault quiet)
  rw [State.setLzw_io, State.setPhase_io, start] at read
  exact read

/-- What LE.COMPRESS is to do with the input `bytes`, the reference's codes sent and one entry for each but the last. -/
def SendsParse (s : State) (bytes : List Byte) : Prop :=
  ∃ l, KeepsDecoder s.lzw l ∧ l.dSize = (lzwCodes bytes).length - 1 ∧ l.width = codeWidth (l.dSize + 1) ∧
    (leCompress s).Sent (((s.setPhase .lEnc).setInPos s.inLen).setLzw l) (codeBits 1 (lzwCodes bytes))

/-- R194: an empty input gives no code. -/
theorem sendsParse_nil {s : State} (clean : s.writerClean) (start : s.io.inPos = 0) (input : s.io.inp = []) :
    SendsParse s [] := by
  have length : s.inLen = 0 := congrArg List.length input
  have init : leInit (s.setPhase .lEnc) = .ok () ((s.setPhase .lEnc).setLzw s.lzw.encoderStart) :=
    leFirstByte_atEnd (s := (s.setPhase .lEnc).setLzw s.lzw.encoderStart) (length.trans_le (Nat.zero_le _))
  have run : leCompress s = .ok () ((s.setPhase .lEnc).setLzw s.lzw.encoderStart) := by
    rw [leCompress_of_init init, State.setLzw_inLen, State.setPhase_inLen, length, Nat.zero_sub, leSteps, Res.bind_ok]
    exact leFinish_none rfl
  have stays : (s.setPhase .lEnc).setInPos s.inLen = s.setPhase .lEnc := by
    rw [length, ← start]
    rfl
  refine ⟨s.lzw.encoderStart, rfl, rfl, codeWidth_one.symm, _, run, ?_⟩
  rw [stays]
  exact .refl clean

/-- R194: after the first byte the loop and LE.FINISH send the codes. -/
theorem sendsParse_cons {s : State} {b : Byte} {bytes : List Byte} (quiet : s.noIoFault) (clean : s.writerClean)
    (start : s.io.inPos = 0) (input : s.io.inp = b :: bytes) (room : RoomFor s.env (lzwCodes (b :: bytes)).length) :
    SendsParse s (b :: bytes) := by
  have length : s.inLen = bytes.length + 1 := congrArg List.length input
  have left : (s.firstRead b).io.inp.drop (s.firstRead b).io.inPos = bytes := congrArg (List.drop 1) input
  have all : (s.firstRead b).inLen - (s.firstRead b).io.inPos = bytes.length := Nat.sub_eq_of_eq_add length
  have past : (s.firstRead b).io.inPos + bytes.length = s.inLen := (Nat.add_comm 1 _).trans length.symm
  obtain ⟨l, keeps, size, width, t, run, sends⟩ := (Follows.first s.lzw b).sendsCodes (s := s.firstRead b) quiet clean
    left (by rw [List.length_nil, Nat.zero_add]; exact room)
  rw [past] at sends
  refine ⟨l, keeps, ?_, width, t, ?_, ?_⟩
  · change l.dSize + 2 = 1 + (lzwCodes (b :: bytes)).length at size
    omega
  · rw [leCompress_of_init (leInit_firstRead quiet start input), all, run]
  · exact (((Sends.countAccess (s := s.setPhase .lEnc) clean).setInPos s.inLen).setLzw l).trans sends

/-- Settles O43: the codes sent are the reference's, which spell IN. -/
theorem LzwEncoder.leCompress : Obligations.LeCompress := by
  intro s quiet clean start room
  have parse : SendsParse s s.io.inp := by
    match input : s.io.inp with
    | [] => exact sendsParse_nil clean start input
    | b :: bytes => exact sendsParse_cons quiet clean start input (input ▸ room)
  obtain ⟨l, keeps, size, width, t, run, sends⟩ := parse
  have lzw : t.lzw = l := sends.lzw
  have bitlen : codeWidth (l.dSize + 1) = (256 + l.dSize).size := congrArg Nat.size (by omega)
  refine ⟨t, congrArg Res.finish run, sends.clean, sends.sentBits_eq, lzwText_lzwCodes s.io.inp,
    length_lzwCodes_le s.io.inp, ?_, ?_, ?_⟩
  · rw [lzw, size]
  · rw [lzw, width, bitlen]
  · rw [lzw, ← keeps]
    exact sends.1.1

end Sys2Proof.Machine
end

section
/-! PROOFS, LzwDecoderSteps. The claims about the LZW decoder's single operations (R206 to R216): what a read of a
code takes and where it stops, and LD.STEP as its effect on the table and OUT, then such a read. -/

namespace Sys2Proof.Machine

/-! ### The start and the growth (R206, R211) -/

/-- R206: the LZW data before the first code is read. -/
def Lzw.decoderStart (l : Lzw) : Lzw :=
  { l with
    width := Config.initWidth, maxCode := 1 <<< Config.initWidth, dSize := 0, dDict := [], c2Valid := false,
    c1Held := false }

theorem ldInit_eq (s : State) : ldInit s = .ok () (s.setLzw s.lzw.decoderStart) := rfl

theorem ldGrow_other {s : State} {n : Nat} (other : n ≠ s.lzw.maxCode - 2) : ldGrow n s = .ok () s := by
  rw [ldGrow_eq, if_neg other]

theorem ldGrow_widens {s : State} {n : Nat} (last : n = s.lzw.maxCode - 2) : ldGrow n s = .ok () s.widen := by
  rw [ldGrow_eq, if_pos last]

/-- Settles O44: the start values as they are set, and both outcomes of the growth test. -/
theorem LzwDecoder.ldInitGrow : Obligations.LdInitGrow := fun s =>
  ⟨⟨_, congrArg Res.finish (ldInit_eq s), rfl⟩, fun _ other => congrArg Res.finish (ldGrow_other other),
    fun _ last => congrArg Res.finish (ldGrow_widens last)⟩

/-! ### One code read (R207) -/

theorem getBitRun_result {n v : Nat} {s t : State} {r : Option Nat} (h : getBitRun n v s = .ok r t) :
    t.result = s.result := by
  induction n generalizing s v with
  | zero =>
    cases h
    rfl
  | succ n ih =>
    obtain ⟨b, u, first, others⟩ := Res.bind_eq_ok.mp h
    have firstResult := getBit_result first
    cases b with
    | none =>
      cases others
      exact firstResult
    | some b => exact (ih others).trans firstResult

theorem getBits_result {n : Nat} {s t : State} {r : Option Nat} (h : getBits n s = .ok r t) : t.result = s.result := by
  unfold getBits at h
  split at h
  · cases h
    rfl
  · exact getBitRun_result h

/-- R207: with less than a byte left the codes have ended. -/
theorem ldReadCode_ended {s : State} (ended : s.remaining < 8) : ldReadCode s = .ok none s := if_pos ended

/-- R207, R248: the ceiling is tested before the bits left are counted. -/
theorem ldReadCode_ceiling {s : State} (more : 8 ≤ s.remaining) (beyond : s.env.maxWidth < s.lzw.width) :
    ldReadCode s = .raised .codeSpaceExhausted s := by
  rw [ldReadCode, if_neg (Nat.not_lt.mpr more), if_pos beyond]

/-- R207: fewer bits left than WIDTH. -/
theorem ldReadCode_truncated {s : State} (more : 8 ≤ s.remaining) (ceiling : s.lzw.width ≤ s.env.maxWidth)
    (short : s.remaining < s.lzw.width) : ldReadCode s = .raised .corruptStream s := by
  rw [ldReadCode, if_neg (Nat.not_lt.mpr more), if_neg (Nat.not_lt.mpr ceiling), if_pos short]

/-- R207: past its three tests the read is GETBITS of WIDTH bits. -/
theorem ldReadCode_getBits {s : State} (more : 8 ≤ s.remaining) (ceiling : s.lzw.width ≤ s.env.maxWidth)
    (enough : s.lzw.width ≤ s.remaining) : ldReadCode s = getBits s.lzw.width s := by
  rw [ldReadCode, if_neg (Nat.not_lt.mpr more), if_neg (Nat.not_lt.mpr ceiling), if_neg (Nat.not_lt.mpr enough)]

/-- R207: the next WIDTH bits are the code, and the result stays as it was (log entry 7). -/
theorem ldReadCode_ok {s : State} (quiet : s.noIoFault) (between : s.readerBetween) (more : 8 ≤ s.remaining)
    (ceiling : s.lzw.width ≤ s.env.maxWidth) (enough : s.lzw.width ≤ s.remaining) :
    ∃ c t, ldReadCode s = .ok (some c) t ∧ c < 2 ^ s.lzw.width ∧ Takes s t (bitsOfNat s.lzw.width c) ∧
      t.result = s.result := by
  obtain ⟨bits, t, run, length, takes⟩ := getBits_takes quiet between enough
  refine ⟨natOfBits bits, t, (ldReadCode_getBits more ceiling enough).trans run, ?_, ?_, getBits_result run⟩
  · rw [← length]
    exact natOfBits_lt bits
  · rw [← length, bitsOfNat_natOfBits]
    exact takes

/-- Settles O45: the four tests, in order. -/
theorem LzwDecoder.ldReadCode : Obligations.LdReadCode := by
  refine fun s => ⟨fun ended => ?_, fun more beyond => ?_, fun more ceiling short => ?_,
    fun more ceiling enough quiet between => ?_⟩
  · exact congrArg (Res.finishWith · .code) (ldReadCode_ended ended)
  · exact congrArg (Res.finishWith · .code) (ldReadCode_ceiling more beyond)
  · exact congrArg (Res.finishWith · .code) (ldReadCode_truncated more ceiling short)
  · obtain ⟨c, t, run, fits, takes, -⟩ := ldReadCode_ok quiet between more ceiling enough
    exact ⟨c, t.setResult (.code (some c)), congrArg (Res.finishWith · .code) run, rfl, fits, takes.setResult _⟩

/-! ### The string of a code (R209, R210, R216) -/

/-- Settles O46: each code of the table spells a string short enough for the walks' bound. -/
theorem LzwDecoder.ldFirstExpandFlush : Obligations.LdFirstExpandFlush := by
  refine fun s ok => ⟨fun c inTable => ?_, fun quiet inTable => ?_⟩
  · obtain ⟨str, spells, length⟩ := ok.spells inTable
    obtain ⟨b, head⟩ := spells.exists_head
    refine ⟨str, b, spells, head, length, ?_, fun quiet => ?_⟩
    · exact congrArg (Res.finishWith · .byte) (ldFirst_of_spells spells length head)
    · obtain ⟨t, run, appends⟩ := ldExpand_of_spells quiet spells length
      exact ⟨t, congrArg Res.finish run, appends⟩
  · obtain ⟨str, spells, length⟩ := ok.spells inTable
    obtain ⟨t, run, appends⟩ := ldExpand_of_spells quiet spells length
    exact ⟨str, t, spells, congrArg Res.finish run, appends⟩

/-! ### LD.STEP (R213) -/

/-- R213's last line, where a code is read. -/
theorem readC2_some {s t : State} {c : Nat} (run : ldReadCode s = .ok (some c) t) :
    readC2 s = .ok () (t.setLzw { t.lzw with c2 := c, c2Valid := true }) := by
  rw [readC2, run, Res.bind_ok]
  rfl

/-- R213's last line, where the codes have ended. -/
theorem readC2_ended {s : State} (ended : s.remaining < 8) : readC2 s = .ok () s.loseC2 := by
  rw [readC2, ldReadCode_ended ended, Res.bind_ok]
  rfl

theorem readC2_raised {s t : State} {k : ErrKind} (run : ldReadCode s = .raised k t) : readC2 s = .raised k t := by
  rw [readC2, run, Res.bind_raised]

/-- R211: the width the next code is read at. -/
theorem StepEffect.width {s t : State} (h : StepEffect s t) :
    t.lzw.width = decoderWidth s.lzw (Config.nLiterals + s.lzw.dSize) := by
  obtain ⟨str1, strx, fb, -, -, -, -, -, -, -, width, -⟩ := h
  exact width

/-- R213: the step is its effect, then the read of the next code at the new width, with the reader where it was. -/
theorem ldStep_of_ready {s : State} (quiet : s.noIoFault) (ready : StepReady s) :
    ∃ u, ldStep s = readC2 u ∧ StepEffect s u ∧
      u = { s with
            io := { s.io with out := u.io.out }
            lzw := u.lzw
            env := { s.env with accNo := u.env.accNo } } := by
  obtain ⟨u, run, effect, frame⟩ := ldStepBody_ok quiet ready
  exact ⟨u, by rw [ldStep, run, Res.bind_ok], effect, frame⟩

/-- R213: the step ends where its first part does. -/
theorem ldStep_raised {s t : State} {k : ErrKind} (run : ldStepBody s = .raised k t) : ldStep s = .raised k t := by
  rw [ldStep, run, Res.bind_raised]

/-- Settles O47: the step's effect, then the four ends of the read at the new width. -/
theorem LzwDecoder.ldStep : Obligations.LdStep := by
  intro s ready _ quiet between w
  obtain ⟨u, run, effect, frame⟩ := ldStep_of_ready quiet ready
  have width := effect.width
  have same : u.noIoFault ∧ u.readerBetween ∧ u.remaining = s.remaining ∧ u.unreadBits = s.unreadBits ∧
      u.env.maxWidth = s.env.maxWidth := by
    rw [frame]
    exact ⟨quiet, between, rfl, rfl, rfl⟩
  obtain ⟨quietU, betweenU, remaining, unread, maxWidth⟩ := same
  refine ⟨fun ended => ?_, fun more beyond => ?_, fun more ceiling short => ?_, fun more ceiling enough => ?_⟩
  · refine ⟨u.loseC2, ?_, effect, rfl, ?_⟩
    · exact congrArg Res.finish (run.trans (readC2_ended (remaining ▸ ended)))
    · rw [frame]
      rfl
  · have read := ldReadCode_ceiling (s := u) (by omega) (by omega)
    exact ⟨_, congrArg Res.finish (run.trans (readC2_raised read)), effect, rfl, rfl, rfl⟩
  · have read := ldReadCode_truncated (s := u) (by omega) (by omega) (by omega)
    exact ⟨_, congrArg Res.finish (run.trans (readC2_raised read)), effect, rfl, rfl, rfl⟩
  · obtain ⟨c, t, read, fits, ⟨only, betweenT, took⟩, result⟩ :=
      ldReadCode_ok quietU betweenU (by omega) (by omega) (by omega)
    rw [OnlyReader, result] at only
    rw [unread, width] at took
    rw [width] at fits
    refine ⟨t.setLzw { t.lzw with c2 := c, c2Valid := true }, c,
      congrArg Res.finish (run.trans (readC2_some read)), ?_, rfl, rfl, fits, took, betweenT, ?_⟩
    · rw [only]
      exact effect
    · rw [only, frame]
      rfl

/-! ### Codes with no meaning (R215, R196) -/

/-- R67: where a code's bits come first, it is the code that is read. -/
theorem ldReadCode_of_unread {s : State} {c : Nat} {rest : List Bool} (quiet : s.noIoFault) (between : s.readerBetween)
    (wide : 8 ≤ s.lzw.width) (ceiling : s.lzw.width ≤ s.env.maxWidth) (fits : c < 2 ^ s.lzw.width)
    (unread : s.unreadBits = bitsOfNat s.lzw.width c ++ rest) :
    ∃ t, ldReadCode s = .ok (some c) t ∧ Takes s t (bitsOfNat s.lzw.width c) ∧ t.result = s.result ∧
      t.unreadBits = rest := by
  have enough : s.lzw.width ≤ s.remaining := by
    rw [← length_unreadBits, unread, List.length_append, length_bitsOfNat]
    exact Nat.le_add_right ..
  obtain ⟨c', t, run, fits', takes, result⟩ := ldReadCode_ok quiet between (wide.trans enough) ceiling enough
  obtain ⟨same, left⟩ := List.append_inj (takes.unread.symm.trans unread) (by rw [length_bitsOfNat, length_bitsOfNat])
  obtain rfl := eq_of_bitsOfNat fits' fits same
  exact ⟨t, run, takes, result, left⟩

/-- R217: where LD.DECOMPRESS looks for its first code. -/
def State.decoderStart (s : State) : State := (s.setPhase .lDec).setLzw s.lzw.decoderStart

/-- R217: what follows the read of the first code. -/
theorem ldDecompress_first {s t : State} {c : Nat} (run : ldReadCode s.decoderStart = .ok (some c) t) :
    ldDecompress s = (takeFirstCode c t).bind fun _ u =>
      (readC2 u).bind fun _ v => (ldSteps (v.remaining + 1) v).bind fun _ w => ldFlush w := by
  rw [ldDecompress, ldInit_eq, Res.bind_ok]
  exact congrArg (Res.bind · _) run

/-- Settles O48: the step's two failures, and the first code of a stream read and refused. -/
theorem LzwDecoder.ldRejects : Obligations.LdRejects := by
  refine fun s => ⟨fun above => ?_, fun ok h1 h2 full quiet => ?_,
    fun c rest quiet between ceiling notLiteral fits unread => ?_⟩
  · exact congrArg Res.finish (ldStep_raised (ldStepBody_above above))
  · obtain ⟨str, t, spells, run, out, frame⟩ := ldStepBody_full quiet ok h1 h2 full
    refine ⟨str, _, spells, congrArg Res.finish (ldStep_raised run), ⟨rfl, rfl, rfl⟩, out, ?_, ?_⟩ <;>
      rw [State.abort_lzw, frame] <;> rfl
  · obtain ⟨t, run, takes, -, -⟩ := ldReadCode_of_unread (s := s.decoderStart) quiet between
      (show 8 ≤ 9 by decide) ceiling fits unread
    have whole := ldDecompress_first run
    rw [takeFirstCode, if_pos notLiteral, Res.bind_raised] at whole
    refine ⟨_, congrArg Res.finish whole, ⟨rfl, rfl, rfl⟩, ?_⟩
    rw [State.abort_io, State.setLzw_io, takes.1]
    rfl

end Sys2Proof.Machine
end

section
/-! PROOFS, LzwDecoderPayload. LD.DECOMPRESS follows the reference's table (R205, R217): D_DICT stands for the table
of strings, WIDTH is R102's for the next code, and each step puts the reference's next string in OUT. -/

namespace Sys2Proof.Machine

/-! ### The widths (R102) -/

/-- R102: every code has at least a byte's bits. -/
theorem eight_le_codeWidth (k : Nat) : 8 ≤ codeWidth k := codeWidth_mono (Nat.zero_le k)

/-- R211, R102: growth at `MAXCODE - 2` gives the width of the stream's next code, as the decoder's table is one entry
behind the encoder's. -/
theorem decoderWidth_eq_codeWidth {l : Lzw} {k : Nat} (width : l.width = codeWidth (k + 2))
    (maxCode : l.maxCode = 2 ^ l.width) : decoderWidth l (Config.nLiterals + k) = codeWidth (k + 3) := by
  have size : codeWidth (k + 2) = (Config.nLiterals + k + 1).size := by
    rw [codeWidth, Config.nLiterals]
    exact congrArg Nat.size (by omega)
  have next : codeWidth (k + 3) = (Config.nLiterals + k + 1 + 1).size := by
    rw [codeWidth, Config.nLiterals]
    exact congrArg Nat.size (by omega)
  have below := Nat.lt_size_self (Config.nLiterals + k + 1)
  have last : Config.nLiterals + k = 2 ^ (Config.nLiterals + k + 1).size - 2 ↔
      Config.nLiterals + k + 1 = 2 ^ (Config.nLiterals + k + 1).size - 1 := by omega
  rw [decoderWidth, maxCode, width, next, size_succ, size]
  simp only [last]

/-- R100: a stream has no more codes than bits. -/
theorem length_le_length_codeBits (k : Nat) (codes : List Nat) : codes.length ≤ (codeBits k codes).length := by
  induction codes generalizing k with
  | nil => exact Nat.zero_le _
  | cons c codes ih =>
    have first := eight_le_codeWidth k
    have others := ih (k + 1)
    rw [codeBits, List.length_append, length_bitsOfNat, List.length_cons]
    omega

/-! ### Strings of codes (R210) -/

/-- R210: a code spells one string. -/
theorem Spells.unique {d : Memory DictEntry} {c : Nat} {as bs : List Byte} (h : Spells d c as) (h' : Spells d c bs) :
    as = bs := by
  induction h generalizing bs with
  | literal b =>
    generalize code : b.toNat = c at h'
    cases h' with
    | literal b' => rw [BitVec.eq_of_toNat_eq code]
    | entry i => exact absurd (literal_lt b) (by omega)
  | entry i e as entry _ ih =>
    generalize code : Config.nLiterals + i = c at h'
    cases h' with
    | literal b' => exact absurd (literal_lt b') (by omega)
    | entry j e' bs entry' spells' =>
      obtain rfl : i = j := Nat.add_left_cancel code
      obtain rfl : e = e' := Option.some.inj (entry.symm.trans entry')
      rw [ih spells']

/-- R39: a code keeps its string when an entry is appended. -/
theorem Spells.write {d : Memory DictEntry} {c k : Nat} {str : List Byte} (h : Spells d c str)
    (unused : d.read k = none) (e : DictEntry) : Spells (d.write k e) c str := by
  induction h with
  | literal b => exact .literal b
  | entry i e' str entry _ ih =>
    have other : i ≠ k := by
      rintro rfl
      rw [unused] at entry
      cases entry
    exact .entry i e' str ((Memory.read_write_other d e other).trans entry) ih

/-! ### D_DICT and the table of strings (R39, R205) -/

/-- The decoder's registers stand for the reference's table, with the stream's next code to be read. -/
structure TableFor (l : Lzw) (table : List (List Byte)) : Prop where
  spells : ∀ i str, table[i]? = some str → Spells l.dDict (Config.nLiterals + i) str
  earlier : ∀ i, i < table.length → ∃ e, l.dDict.read i = some e ∧ e.pred < Config.nLiterals + i
  unused : ∀ i, table.length ≤ i → l.dDict.read i = none
  dSize : l.dSize = table.length
  width : l.width = codeWidth (table.length + 2)
  maxCode : l.maxCode = 2 ^ l.width

section TableFor

variable {l : Lzw} {table : List (List Byte)}

/-- R206: after the start no code has a string but the literals. -/
theorem TableFor.start (l : Lzw) : TableFor l.decoderStart [] where
  spells _ _ h := by cases h
  earlier _ h := by cases h
  unused _ _ := rfl
  dSize := rfl
  width := rfl
  maxCode := rfl

/-- R39: the code registers are no part of the table. -/
theorem TableFor.codeRegs (h : TableFor l table) (c1 c2 : Nat) (c2Valid c1Held : Bool) :
    TableFor { l with c1 := c1, c2 := c2, c2Valid := c2Valid, c1Held := c1Held } table :=
  ⟨h.spells, h.earlier, h.unused, h.dSize, h.width, h.maxCode⟩

theorem TableFor.widthOk (h : TableFor l table) : WidthOk l := by
  refine ⟨?_, h.maxCode⟩
  rw [h.width, ← codeWidth_one]
  exact codeWidth_mono (Nat.le_add_left 1 _)

/-- R37: a code up to the next one fits the width it is sent at. -/
theorem TableFor.fits (h : TableFor l table) {c : Nat} (le : c ≤ Config.nLiterals + table.length) :
    c < 2 ^ l.width := by
  rw [h.width]
  refine lt_trans ?_ (Nat.lt_size_self _)
  rw [Config.nLiterals] at le
  omega

/-- R210: a code with a string in the reference is in the table, and spells it. -/
theorem TableFor.of_lzwString (h : TableFor l table) {c : Nat} {str : List Byte} (string : lzwString table c = some str) :
    c < Config.nLiterals + table.length ∧ Spells l.dDict c str := by
  unfold lzwString at string
  split at string
  · next literal =>
    obtain rfl := Option.some.inj string
    exact ⟨literal.trans_le (Nat.le_add_right ..), spells_literal _ literal⟩
  · next later =>
    obtain ⟨i, rfl⟩ := Nat.exists_eq_add_of_le (Nat.not_lt.mp later)
    rw [Nat.add_sub_cancel_left] at string
    obtain ⟨inTable, -⟩ := List.getElem?_eq_some_iff.mp string
    exact ⟨Nat.add_lt_add_left inTable _, h.spells i str string⟩

/-- R215: a second code with a string in the reference is not above the next code. -/
theorem TableFor.le_of_lzwString (h : TableFor l table) {c1 c2 : Nat} {str : List Byte}
    (string : lzwString table (if c2 = Config.nLiterals + table.length then c1 else c2) = some str) :
    c2 ≤ Config.nLiterals + table.length := by
  split at string
  · next miss => exact miss.le
  · exact (h.of_lzwString string).1.le

/-- R213: the entry (C1, first byte) stands for the reference's new string. -/
theorem TableFor.spells_appended (h : TableFor l table) {c1 : Nat} {str : List Byte} (spells1 : Spells l.dDict c1 str)
    (fb : Byte) (i : Nat) (new : List Byte) (there : (table ++ [str ++ [fb]])[i]? = some new) :
    Spells (l.dDict.write table.length ⟨c1, fb⟩) (Config.nLiterals + i) new := by
  have unused := h.unused _ (Nat.le_refl table.length)
  rcases Nat.lt_trichotomy i table.length with old | rfl | beyond
  · rw [List.getElem?_append_left old] at there
    exact (h.spells i new there).write unused _
  · rw [List.getElem?_concat_length] at there
    obtain rfl := Option.some.inj there
    exact .entry _ _ str (Memory.read_write_same ..) (spells1.write unused _)
  · rw [List.getElem?_eq_none (by rw [List.length_append, List.length_singleton]; omega)] at there
    cases there

/-- R39: the appended entry names an earlier code, as the others do. -/
theorem TableFor.earlier_appended (h : TableFor l table) {c1 : Nat} (inTable : c1 < Config.nLiterals + table.length)
    (fb : Byte) (i : Nat) (le : i < table.length + 1) :
    ∃ e, (l.dDict.write table.length ⟨c1, fb⟩).read i = some e ∧ e.pred < Config.nLiterals + i := by
  rw [Memory.read_write]
  by_cases last : i = table.length
  · rw [if_pos last, last]
    exact ⟨_, rfl, inTable⟩
  · rw [if_neg last]
    exact h.earlier i (by omega)

end TableFor

/-- R205, R213: the step's effect, where the reference has both strings. -/
theorem TableFor.step {s t : State} {table : List (List Byte)} {str more : List Byte} {fb : Byte}
    (h : TableFor s.lzw table) (effect : StepEffect s t) (string : lzwString table s.lzw.c1 = some str)
    (first : lzwString table (if s.lzw.c2 = Config.nLiterals + table.length then s.lzw.c1 else s.lzw.c2) =
      some (fb :: more)) :
    TableFor t.lzw (table ++ [str ++ [fb]]) ∧ t.io.out = s.io.out ++ str ∧ t.lzw.c1 = s.lzw.c2 := by
  obtain ⟨str1, strx, fb', spells1, spellsx, head, out, dDict, dSize, c1, width, widthOk, -⟩ := effect
  obtain ⟨inTable, spells⟩ := h.of_lzwString string
  obtain ⟨-, spellsFirst⟩ := h.of_lzwString first
  rw [h.dSize] at spellsx dDict dSize width
  obtain rfl := spells.unique spells1
  obtain rfl := spellsFirst.unique spellsx
  obtain rfl := Option.some.inj head
  have length : (table ++ [str ++ [fb]]).length = table.length + 1 := List.length_append
  refine ⟨⟨?_, ?_, fun i beyond => ?_, ?_, ?_, (widthOk h.widthOk).2⟩, out, c1⟩
  · rw [dDict]
    exact h.spells_appended spells fb
  · rw [dDict, length]
    exact h.earlier_appended inTable fb
  · rw [length] at beyond
    rw [dDict, Memory.read_write_other _ _ (by omega), h.unused i (by omega)]
  · rw [dSize, length]
  · rw [width, length, decoderWidth_eq_codeWidth h.width h.maxCode]

/-- R214, R216: what the reference's text of a code and the codes after it is made of. -/
theorem lzwRest_cons {table : List (List Byte)} {c1 c2 : Nat} {codes : List Nat} {text : List Byte}
    (h : lzwRest table c1 (c2 :: codes) = some text) :
    ∃ str fb more rest, lzwString table c1 = some str ∧
      lzwString table (if c2 = Config.nLiterals + table.length then c1 else c2) = some (fb :: more) ∧
      lzwRest (table ++ [str ++ [fb]]) c2 codes = some rest ∧ str ++ rest = text := by
  rw [lzwRest] at h
  split at h
  · next str fb more string first =>
    obtain ⟨rest, others, whole⟩ := Option.map_eq_some_iff.mp h
    exact ⟨str, fb, more, rest, string, first, others, whole⟩
  · cases h

/-! ### Bits read and bytes appended -/

/-- From `s` to `t` the decoder read exactly `bits` and appended `text` to OUT, and nothing changed but the reader,
OUT, the decoder's registers (R37, R39) and the free values drawn. -/
structure Decodes (s t : State) (bits : List Bool) (text : List Byte) : Prop where
  between : t.readerBetween
  unread : s.unreadBits = bits ++ t.unreadBits
  out : t.io.out = s.io.out ++ text
  frame : t = { s with
    io := { s.io with inPos := t.io.inPos, out := t.io.out }
    bc := { s.bc with rCur := t.bc.rCur, rCnt := t.bc.rCnt }
    lzw := { t.lzw with eDict := s.lzw.eDict, cur := s.lzw.cur, haveCur := s.lzw.haveCur }
    env := { s.env with accNo := t.env.accNo }
    free := t.free }

theorem Decodes.trans {s t u : State} {as bs : List Bool} {xs ys : List Byte} (h : Decodes s t as xs)
    (h' : Decodes t u bs ys) : Decodes s u (as ++ bs) (xs ++ ys) := by
  refine ⟨h'.between, by rw [h.unread, h'.unread, List.append_assoc], by rw [h'.out, h.out, List.append_assoc], ?_⟩
  rw [h'.frame, h.frame]

theorem Decodes.env {s t : State} {bits : List Bool} {text : List Byte} (h : Decodes s t bits text) :
    t.env = { s.env with accNo := t.env.accNo } := by
  rw [h.frame]

theorem Decodes.noIoFault {s t : State} {bits : List Bool} {text : List Byte} (h : Decodes s t bits text)
    (quiet : s.noIoFault) : t.noIoFault := by
  rw [State.noIoFault, h.env]
  exact quiet

/-- R207: the read of a code. -/
theorem Takes.decodes {s t : State} {bits : List Bool} (h : Takes s t bits) (result : t.result = s.result) :
    Decodes s t bits [] := by
  obtain ⟨only, between, unread⟩ := h
  rw [OnlyReader, result] at only
  refine ⟨between, unread, ?_, ?_⟩ <;> rw [only]
  exact (List.append_nil _).symm

/-- R39: the code registers are the decoder's own. -/
theorem Decodes.codeRegs {s t : State} {bits : List Bool} {text : List Byte} (h : Decodes s t bits text)
    (c1 c2 : Nat) (c2Valid c1Held : Bool) :
    Decodes s (t.setLzw { t.lzw with c1 := c1, c2 := c2, c2Valid := c2Valid, c1Held := c1Held }) bits text := by
  refine ⟨h.between, h.unread, h.out, ?_⟩
  rw [h.frame]
  rfl

/-- R217: a read that gave no code. -/
theorem Decodes.loseC2 {s : State} (between : s.readerBetween) : Decodes s s.loseC2 [] [] :=
  ⟨between, rfl, (List.append_nil _).symm, rfl⟩

theorem Decodes.loseC1 {s : State} (between : s.readerBetween) : Decodes s s.loseC1 [] [] :=
  ⟨between, rfl, (List.append_nil _).symm, rfl⟩

/-- R213: the step but for its last line. -/
theorem StepEffect.decodes {s t : State} {text : List Byte} (h : StepEffect s t) (between : s.readerBetween)
    (out : t.io.out = s.io.out ++ text)
    (frame : t = { s with
      io := { s.io with out := t.io.out }
      lzw := t.lzw
      env := { s.env with accNo := t.env.accNo } }) : Decodes s t [] text := by
  obtain ⟨_, _, _, -, -, -, -, -, -, -, -, -, eDict, cur, haveCur, -⟩ := h
  refine ⟨?_, ?_, out, ?_⟩
  · rw [frame]
    exact between
  · rw [frame]
    rfl
  · rw [← eDict, ← cur, ← haveCur]
    rw [frame]

/-! ### The loop (R217) -/

theorem TableFor.dictOk {s : State} {table : List (List Byte)} (h : TableFor s.lzw table) : DictOk s := by
  rw [DictOk, h.dSize]
  exact h.earlier

/-- R216: C1's string goes to OUT. -/
theorem TableFor.flushes {s : State} {table : List (List Byte)} {str : List Byte} (h : TableFor s.lzw table)
    (quiet : s.noIoFault) (between : s.readerBetween) (string : lzwString table s.lzw.c1 = some str) :
    ∃ t, ldFlush s = .ok () t ∧ Decodes s t [] str ∧ t.lzw.dSize = table.length := by
  obtain ⟨inTable, spells⟩ := h.of_lzwString string
  obtain ⟨str', spells', length⟩ := h.dictOk.spells (by rwa [h.dSize])
  obtain rfl := spells.unique spells'
  obtain ⟨t, run, out, frame⟩ := ldExpand_of_spells quiet spells length
  refine ⟨t, run, ⟨?_, ?_, out, ?_⟩, ?_⟩ <;> rw [frame]
  · exact between
  · rfl
  · rfl
  · exact h.dSize

/-- R213: where the reference has both strings and the table room, the step puts C1's in OUT and appends the
reference's new one. -/
theorem TableFor.ldStep_decodes {s : State} {table : List (List Byte)} {str more : List Byte} {fb : Byte}
    (h : TableFor s.lzw table) (quiet : s.noIoFault) (between : s.readerBetween)
    (string : lzwString table s.lzw.c1 = some str)
    (first : lzwString table (if s.lzw.c2 = Config.nLiterals + table.length then s.lzw.c1 else s.lzw.c2) =
      some (fb :: more))
    (room : table.length < s.env.dictCap) :
    ∃ t, ldStep s = readC2 t ∧ Decodes s t [] str ∧ TableFor t.lzw (table ++ [str ++ [fb]]) ∧
      t.lzw.c1 = s.lzw.c2 := by
  have ready : StepReady s := by
    rw [StepReady, h.dSize]
    exact ⟨h.dictOk, (h.of_lzwString string).1, h.le_of_lzwString first, room.ne⟩
  obtain ⟨t, run, effect, frame⟩ := ldStep_of_ready quiet ready
  obtain ⟨tableT, out, c1⟩ := h.step effect string first
  exact ⟨t, run, effect.decodes between out frame, tableT, c1⟩

/-- R213's last line, where a code's bits come first. -/
theorem readC2_decodes {s : State} {c : Nat} {rest : List Bool} (quiet : s.noIoFault) (between : s.readerBetween)
    (wide : 8 ≤ s.lzw.width) (ceiling : s.lzw.width ≤ s.env.maxWidth) (fits : c < 2 ^ s.lzw.width)
    (unread : s.unreadBits = bitsOfNat s.lzw.width c ++ rest) :
    ∃ t, readC2 s = .ok () t ∧ Decodes s t (bitsOfNat s.lzw.width c) [] ∧ t.unreadBits = rest ∧
      t.lzw = { s.lzw with c2 := c, c2Valid := true } := by
  obtain ⟨t, run, takes, result, left⟩ := ldReadCode_of_unread quiet between wide ceiling fits unread
  have lzw : t.lzw = s.lzw := by rw [takes.1]
  refine ⟨_, readC2_some run, (takes.decodes result).codeRegs .., left, ?_⟩
  rw [State.setLzw_lzw, lzw]

/-- R217: where the codes have ended, the loop does nothing more. -/
theorem ldSteps_ended {s : State} (ended : s.lzw.c2Valid = false) (n : Nat) : ldSteps n s = .ok () s := by
  cases n with
  | zero => rfl
  | succ n => exact if_neg (Bool.eq_false_iff.mp ended)

/-- R217: a round of the loop, its step taken apart at the read of the next code. -/
theorem ldSteps_round {s t u : State} (valid : s.lzw.c2Valid = true) (step : ldStep s = readC2 t)
    (read : readC2 t = .ok () u) (n : Nat) : ldSteps (n + 1) s = ldSteps n u := by
  rw [ldSteps, if_pos valid, step, read, Res.bind_ok]

/-- The rest of LD.DECOMPRESS from `s`, with C1 held and `count` codes to come, decodes `bits` to `text` and ends with
`size` entries: the next code is read, and `count` rounds of the loop, which R217's bound allows, and LD.FLUSH do it. -/
def DecodesRest (s : State) (count : Nat) (bits : List Bool) (text : List Byte) (size : Nat) : Prop :=
  ∃ u t, readC2 s = .ok () u ∧ count ≤ u.remaining + 1 ∧
    (∀ n, count ≤ n → ((ldSteps n u).bind fun _ v => ldFlush v) = .ok () t) ∧
    Decodes s t bits text ∧ t.lzw.dSize = size

/-- R212, R217: with less than a byte left the loop does not start. -/
theorem TableFor.decodesRest_nil {s : State} {table : List (List Byte)} {text : List Byte} (h : TableFor s.lzw table)
    (quiet : s.noIoFault) (between : s.readerBetween) (ended : s.remaining < 8)
    (string : lzwString table s.lzw.c1 = some text) : DecodesRest s 0 [] text table.length := by
  have lost : TableFor s.loseC2.lzw table := h.codeRegs s.lzw.c1 s.unstatedCode false s.lzw.c1Held
  obtain ⟨t, flush, decodes, dSize⟩ := lost.flushes quiet between string
  refine ⟨s.loseC2, t, readC2_ended ended, Nat.zero_le _, fun n _ => ?_, (Decodes.loseC2 between).trans decodes, dSize⟩
  rw [ldSteps_ended rfl, Res.bind_ok, flush]

/-- R217: one code more, its step taken apart at the read of the next. -/
theorem DecodesRest.cons {s u v : State} {count size : Nat} {bits bits' : List Bool} {str text : List Byte}
    (h : DecodesRest v count bits' text size) (read : readC2 s = .ok () u) (valid : u.lzw.c2Valid = true)
    (step : ldStep u = readC2 v) (decodes : Decodes s v bits str) (enough : count ≤ u.remaining) :
    DecodesRest s (count + 1) (bits ++ bits') (str ++ text) size := by
  obtain ⟨w, t, read', -, run, decodes', dSize⟩ := h
  refine ⟨u, t, read, Nat.succ_le_succ enough, fun n le => ?_, decodes.trans decodes', dSize⟩
  obtain ⟨m, rfl⟩ := Nat.exists_eq_add_of_le' (Nat.le_of_add_left_le le)
  rw [ldSteps_round valid step read', run m (Nat.le_of_succ_le_succ le)]

/-- R217: the codes that follow a held C1 decode to what the reference makes of them. -/
theorem TableFor.decodesRest {codes : List Nat} {s : State} {table : List (List Byte)} {text : List Byte}
    {pad : List Bool} (h : TableFor s.lzw table) (quiet : s.noIoFault) (between : s.readerBetween)
    (unread : s.unreadBits = codeBits (table.length + 2) codes ++ pad) (ended : pad.length < 8)
    (string : lzwRest table s.lzw.c1 codes = some text)
    (ceiling : codeWidth (table.length + 1 + codes.length) ≤ s.env.maxWidth)
    (room : table.length + codes.length ≤ s.env.dictCap) :
    DecodesRest s codes.length (codeBits (table.length + 2) codes) text (table.length + codes.length) := by
  induction codes generalizing s table text with
  | nil =>
    have short : s.remaining < 8 := by rwa [← length_unreadBits, unread]
    exact h.decodesRest_nil quiet between short string
  | cons c codes ih =>
    obtain ⟨str, fb, more, rest, string1, first, others, rfl⟩ := lzwRest_cons string
    have le := h.le_of_lzwString first
    rw [List.length_cons] at ceiling room
    rw [codeBits, ← h.width, List.append_assoc] at unread
    have inCeiling : s.lzw.width ≤ s.env.maxWidth := by
      rw [h.width]
      exact (codeWidth_mono (by omega)).trans ceiling
    obtain ⟨u, read, reads, left, lzw⟩ := readC2_decodes quiet between (h.width ▸ eight_le_codeWidth _) inCeiling
      (h.fits le) unread
    have tableU : TableFor u.lzw table := by
      rw [lzw]
      exact h.codeRegs s.lzw.c1 c true s.lzw.c1Held
    have c1 : u.lzw.c1 = s.lzw.c1 := by rw [lzw]
    have c2 : u.lzw.c2 = c := by rw [lzw]
    obtain ⟨v, step, stepped, tableV, c1V⟩ := tableU.ldStep_decodes (reads.noIoFault quiet) reads.between
      (c1 ▸ string1) (by rw [c1, c2]; exact first) (by rw [reads.env]; change table.length < s.env.dictCap; omega)
    have length : (table ++ [str ++ [fb]]).length = table.length + 1 := List.length_append
    have both := reads.trans stepped
    have rest := ih (s := v) tableV (both.noIoFault quiet) stepped.between
      (by rw [length, ← left]; exact stepped.unread.symm) (by rw [c1V, c2]; exact others)
      (by rw [length, both.env, Nat.add_right_comm _ 1 codes.length]; exact ceiling)
      (by rw [length, both.env, Nat.add_right_comm]; exact room)
    have enough : codes.length ≤ u.remaining := by
      rw [← length_unreadBits, left, List.length_append]
      exact (length_le_length_codeBits _ codes).trans (Nat.le_add_right ..)
    have whole := rest.cons read (by rw [lzw]) step both enough
    have size : table.length + 1 + codes.length = table.length + (codes.length + 1) := by omega
    rw [length, List.append_nil, List.nil_append, Nat.add_right_comm, size] at whole
    rw [codeBits, ← h.width]
    exact whole

/-! ### The payload (R217) -/

/-- R206, R217: the start changes PHASE and the decoder's registers. -/
theorem Decodes.ofStart {s t : State} {bits : List Bool} {text : List Byte} (h : Decodes s.decoderStart t bits text) :
    Decodes (s.setPhase .lDec) t bits text :=
  ⟨h.between, h.unread, h.out, h.frame⟩

/-- R218: a stream without a code gives no text. -/
theorem ldDecompress_empty {s : State} (between : s.readerBetween) (ended : s.remaining < 8) :
    ∃ t, ldDecompress s = .ok () t ∧ Decodes (s.setPhase .lDec) t [] [] ∧ t.lzw.dSize = 0 := by
  have read : ldReadCode s.decoderStart = .ok none s.decoderStart := ldReadCode_ended ended
  refine ⟨s.decoderStart.loseC1, ?_, (Decodes.loseC1 (s := s.decoderStart) between).ofStart, rfl⟩
  rw [ldDecompress, ldInit_eq, Res.bind_ok]
  exact congrArg (Res.bind · _) read

/-- R217: the first code is held in C1 and the codes after it decode to the rest. -/
theorem ldDecompress_codes {s : State} {c : Nat} {codes : List Nat} {text : List Byte} {pad : List Bool}
    (quiet : s.noIoFault) (between : s.readerBetween) (unread : s.unreadBits = codeBits 1 (c :: codes) ++ pad)
    (ended : pad.length < 8) (literal : c < Config.nLiterals) (string : lzwRest [] c codes = some text)
    (ceiling : codeWidth (codes.length + 1) ≤ s.env.maxWidth) (room : codes.length ≤ s.env.dictCap) :
    ∃ t, ldDecompress s = .ok () t ∧ Decodes (s.setPhase .lDec) t (codeBits 1 (c :: codes)) text ∧
      t.lzw.dSize = codes.length := by
  have start := TableFor.start s.lzw
  rw [codeBits, List.append_assoc] at unread
  obtain ⟨u, read, takes, result, left⟩ := ldReadCode_of_unread (s := s.decoderStart) quiet between
    (show 8 ≤ 9 by decide) ((codeWidth_mono (Nat.le_add_left 1 _)).trans ceiling) (start.fits literal.le) unread
  have lzw : u.lzw = s.lzw.decoderStart := by rw [takes.1]; rfl
  have held := (takes.decodes result).codeRegs c u.lzw.c2 u.lzw.c2Valid true
  have table : TableFor { u.lzw with c1 := c, c1Held := true } [] := by
    rw [lzw]
    exact start.codeRegs c s.lzw.c2 false true
  obtain ⟨v, t, read', bound, run, decodes, dSize⟩ := table.decodesRest
    (s := u.setLzw { u.lzw with c1 := c, c1Held := true }) (held.noIoFault quiet) held.between left ended string
    (by rw [held.env, List.length_nil, Nat.zero_add, Nat.add_comm]; exact ceiling)
    (by rw [held.env, List.length_nil, Nat.zero_add]; exact room)
  refine ⟨t, ?_, (held.trans decodes).ofStart, by rw [dSize, List.length_nil, Nat.zero_add]⟩
  rw [ldDecompress_first read, takeFirstCode, if_neg (Nat.not_le.mpr literal), Res.bind_ok, read', Res.bind_ok,
    run _ bound]

/-- What the item of the tag runs, where LD.DECOMPRESS ends well (R229). -/
theorem exec_tagLzw_of_ok {s t : State} (run : ldDecompress s = .ok () t) : exec .tagLzw s = .next t.callDone :=
  congrArg (fun r => (Res.bind r fun _ u => .ok () u.callDone).finish) run

/-- Settles O49: the empty stream, or a first code and those after it. -/
theorem LzwDecoder.ldDecompress : Obligations.LdDecompress := by
  intro codes text pad s quiet between unread ended string ceiling room
  have decoded : ∃ t, Machine.ldDecompress s = .ok () t ∧ Decodes (s.setPhase .lDec) t (codeBits 1 codes) text ∧
      t.lzw.dSize = codes.length - 1 := by
    match codes with
    | [] =>
      obtain rfl := Option.some.inj string
      exact ldDecompress_empty between (by rwa [← length_unreadBits, unread])
    | c :: codes =>
      rw [lzwText] at string
      split at string
      · next literal =>
        exact ldDecompress_codes quiet between unread ended literal string ceiling (Nat.le_of_succ_le_succ room)
      · cases string
  obtain ⟨t, run, decodes, dSize⟩ := decoded
  refine ⟨t, congrArg Res.finish run, exec_tagLzw_of_ok run, decodes.out, ?_, dSize, decodes.frame⟩
  exact List.append_cancel_left (decodes.unread.symm.trans unread)

end Sys2Proof.Machine
end

section
/-! PROOFS, Calls. The two commands from call start (R225 to R231): a call's first lines up to its codec, and the calls
that fail before a codec runs. -/

namespace Sys2Proof.Machine

/-! ### COMPRESS up to its codec (R226, R228) -/

/-- R225: an accepted COMPRESS is its call, from call start. -/
theorem exec_compress {s : State} (idle : s.regs.status ≠ .busy) (m : Byte) :
    exec (.compress m) s = (compressCall (s.setCmd (cmdWordOf m 1)).callStart).finish :=
  hostWrite_compress idle (opField_cmdWordOf m 1)

/-- R226: METHOD of a call is the one its command word was put together from. -/
theorem method_callStart (s : State) (m op : Byte) : (s.setCmd (cmdWordOf m op)).callStart.method = m :=
  methodField_cmdWordOf m op

/-- R228: with a method of no codec the call raises before its writer is opened. -/
theorem compressCall_unknown {s : State} (notHuffman : s.method ≠ Config.tagHuffman)
    (notLzw : s.method ≠ Config.tagLzw) : compressCall s = .raised .unknownAlgorithm (s.setPhase .tag) :=
  if_pos ⟨notHuffman, notLzw⟩

/-- R226, R227: a COMPRESS call where its codec starts: the writer is open and the tag byte stands in OUT. -/
def State.tagWritten (s : State) (m : Byte) : State :=
  (((s.setCmd (cmdWordOf m 1)).callStart.setPhase .tag).setWriter 0 0).countAccess.pushOut m

/-- R27, R120: the writer is aligned there, with nothing pending. -/
theorem State.tagWritten_writerClean (s : State) (m : Byte) : (s.tagWritten m).writerClean :=
  writerClean_setWriter_zero s

theorem State.tagWritten_sentBits (s : State) (m : Byte) : (s.tagWritten m).sentBits = byteBits m :=
  (List.append_nil _).trans (List.append_nil _)

/-- R226: with a method of a codec the call writes the tag, runs the codec and closes. -/
theorem compressCall_known {s : State} {m : Byte} (quiet : s.noIoFault)
    (known : m = Config.tagHuffman ∨ m = Config.tagLzw) :
    compressCall (s.setCmd (cmdWordOf m 1)).callStart =
      (encodeWith m (s.tagWritten m)).bind fun _ t =>
        (closeWriter (t.setPhase .close)).bind fun _ u => .ok () u.callDone := by
  let start := (s.setCmd (cmdWordOf m 1)).callStart.setPhase .tag
  have method : start.method = m := method_callStart s m 1
  have accepted : ¬ (start.method ≠ Config.tagHuffman ∧ start.method ≠ Config.tagLzw) := by
    rw [method]
    exact fun none => known.elim none.1 none.2
  have tag : putNBytes [m] (start.setWriter 0 0) = .ok () (s.tagWritten m) :=
    putTag_ok (s := start.setWriter 0 0) quiet rfl m
  refine (if_neg accepted).trans ?_
  change ((putNBytes [start.method] (start.setWriter 0 0)).bind fun _ t => (encodeWith start.method t).bind _) = _
  rw [method, tag, Res.bind_ok]

/-! ### DECOMPRESS up to its codec (R229 to R231) -/

/-- R225: a word with DECOMPRESS in its OP field starts the call. -/
theorem hostWrite_decompress {s : State} (idle : s.regs.status ≠ .busy) {w : BitVec 16} (op : opField w = 2) :
    hostWrite w s = (decompressCall (s.setCmd w).callStart).finish := by
  have notCompress : opField w ≠ 1 := op ▸ by decide
  rw [hostWrite, if_neg idle, if_neg notCompress, if_pos op]

/-- R225: an accepted DECOMPRESS is its call, from call start. -/
theorem exec_decompress {s : State} (idle : s.regs.status ≠ .busy) (m : Byte) :
    exec (.decompress m) s = (decompressCall (s.setCmd (cmdWordOf m 2)).callStart).finish :=
  hostWrite_decompress idle (opField_cmdWordOf m 2)

/-- R121, R229: a DECOMPRESS call where it reads the tag: the reader is open. -/
def State.readerOpened (s : State) (m : Byte) : State :=
  (((s.setCmd (cmdWordOf m 2)).callStart.setPhase .tag).setReader 0 0).setInPos 0

/-- R121, R132: all of IN is before it. -/
theorem State.readerOpened_remaining (s : State) (m : Byte) : (s.readerOpened m).remaining = 8 * s.inLen := rfl

/-- R229: a DECOMPRESS call where its codec starts: the tag byte is read. -/
def State.tagRead (s : State) (m : Byte) : State := (s.readerOpened m).countAccess.setInPos 1

/-- R230: a container of no bytes fails where its tag is read. -/
theorem decompressCall_empty {s : State} (input : s.io.inp = []) (m : Byte) :
    decompressCall (s.setCmd (cmdWordOf m 2)).callStart = .raised .corruptStream (s.readerOpened m) := by
  have short : (s.readerOpened m).exhaustedFor (8 * 1) = true := by
    rw [State.exhaustedFor, State.readerOpened_remaining, State.inLen, input]
    rfl
  change ((getNBytes 1 (s.readerOpened m)).bind _) = _
  rw [getNBytes, if_pos short, Res.bind_ok]

/-- R229: the first byte of a container is the tag, and the call goes on by it. -/
theorem decompressCall_tag {s : State} {tag : Byte} {payload : List Byte} (quiet : s.noIoFault)
    (input : s.io.inp = tag :: payload) (m : Byte) :
    decompressCall (s.setCmd (cmdWordOf m 2)).callStart = afterTag tag (s.tagRead m) := by
  have first : (s.readerOpened m).io.inp[(s.readerOpened m).io.inPos]? = some tag := congrArg (·[0]?) input
  have fetch : inFetch (s.readerOpened m) = .ok tag (s.tagRead m) := inFetch_ok (s := s.readerOpened m) quiet first
  have read : getByte (s.readerOpened m) = .ok tag (s.tagRead m) := by
    rw [getByte, fetch, Res.bind_ok]
    exact if_pos rfl
  have enough : 8 ≤ (s.readerOpened m).remaining := by
    rw [State.readerOpened_remaining, State.inLen, input, List.length_cons]
    omega
  change ((getNBytes 1 (s.readerOpened m)).bind _) = _
  rw [getNBytes_one enough read, Res.bind_ok]

/-- R229: before the codec then is the payload. -/
theorem State.tagRead_unreadBits {s : State} {tag : Byte} {payload : List Byte} (input : s.io.inp = tag :: payload)
    (m : Byte) : (s.tagRead m).unreadBits = payload.flatMap byteBits :=
  congrArg (fun bytes => (List.drop 1 bytes).flatMap byteBits) input

/-- R231: a tag of no codec raises as soon as it is read. -/
theorem afterTag_unknown {tag : Byte} (notHuffman : tag ≠ Config.tagHuffman) (notLzw : tag ≠ Config.tagLzw)
    (s : State) : afterTag tag s = .raised .corruptStream s := by
  rw [afterTag, routeTag, if_neg notHuffman, if_neg notLzw, Res.bind_raised]

/-! ### Calls that fail before a codec runs -/

/-- Settles O52: nothing but PHASE is written between call start and the abort. -/
theorem unknownMethod : Obligations.UnknownMethod := by
  intro s m idle notHuffman notLzw
  have method := method_callStart s m 1
  have run : exec (.compress m) s =
      .next (((s.setCmd (cmdWordOf m 1)).callStart.setPhase .tag).abort .unknownAlgorithm) := by
    rw [exec_compress idle, compressCall_unknown (method.trans_ne notHuffman) (method.trans_ne notLzw),
      Res.finish_raised]
  exact ⟨_, run, ⟨rfl, rfl, rfl⟩, rfl, rfl, rfl, rfl⟩

/-- Settles O53: no tag to read, a tag that is read and then rejected, and the item of such a tag. -/
theorem missingOrUnknownTag : Obligations.MissingOrUnknownTag := by
  refine ⟨fun s m idle => ⟨fun input => ?_, fun tag rest input quiet notHuffman notLzw => ?_⟩,
    fun s tag notHuffman notLzw => ?_⟩
  · have run : exec (.decompress m) s = .next ((s.readerOpened m).abort .corruptStream) := by
      rw [exec_decompress idle, decompressCall_empty input, Res.finish_raised]
    exact ⟨_, run, ⟨rfl, rfl, rfl⟩, rfl, rfl⟩
  · have run : exec (.decompress m) s = .next ((s.tagRead m).abort .corruptStream) := by
      rw [exec_decompress idle, decompressCall_tag quiet input, afterTag_unknown notHuffman notLzw, Res.finish_raised]
    exact ⟨_, run, ⟨rfl, rfl, rfl⟩, rfl, rfl, rfl, rfl, rfl⟩
  · exact congrArg Res.finish (afterTag_unknown notHuffman notLzw s)

end Sys2Proof.Machine
end

section
/-! PROOFS, Containers. What a call with a codec makes of a container (R226, R229): COMPRESS puts the tag, the codec's
bits and the padding in OUT, DECOMPRESS gives the payload to the tag's codec, and so the one undoes the other (R233). -/

namespace Sys2Proof.Machine

/-! ### Writing a container (R226, R227) -/

/-- R250: a `raise` leaves PHASE idle, so an operation that ends in another phase ended well. -/
theorem Res.eq_ok_of_finish {r : Res Unit} {t : State} (h : r.finish = .next t) (running : t.regs.phase ≠ .idle) :
    r = .ok () t := by
  rcases Res.finish_eq_next.mp h with ok | ⟨k, u, -, rfl⟩
  · exact ok
  · exact absurd rfl running

/-- R226: what a codec sends after the tag, the call closes and pads, and it ends DONE. -/
theorem compress_container {s t : State} {m : Byte} {bits : List Bool} (idle : s.regs.status ≠ .busy)
    (quiet : s.noIoFault) (known : m = Config.tagHuffman ∨ m = Config.tagLzw)
    (payload : encodeWith m (s.tagWritten m) = .ok () t) (quietT : t.noIoFault) (clean : t.writerClean)
    (sent : t.sentBits = (s.tagWritten m).sentBits ++ bits)
    (regs : t.regs = { (s.tagWritten m).regs with phase := t.regs.phase }) :
    ∃ u, exec (.compress m) s = .next u ∧ u.completed ∧ u.regs.cmd = cmdWordOf m 1 ∧
      u.io.out.flatMap byteBits = byteBits m ++ bits ++ padding bits.length ∧ u.bc.wCnt = 0 := by
  obtain ⟨u, close, onlyU, aligned, out⟩ := closeWriter_ok (s := t.setPhase .close) quietT clean
  have run : exec (.compress m) s = .next u.callDone := by
    rw [exec_compress idle, compressCall_known quiet known, payload, Res.bind_ok, close, Res.bind_ok, Res.finish_ok]
  have kept : u.regs = { (s.tagWritten m).regs with phase := .close } := by
    rw [onlyU.1]
    change { t.regs with phase := .close } = _
    rw [regs]
  have length : (byteBits m ++ bits).length = 8 * 1 + bits.length := by rw [List.length_append, length_byteBits]
  refine ⟨u.callDone, run, ⟨rfl, ?_, rfl⟩, ?_, ?_, aligned⟩
  · rw [State.callDone_regs_err, kept]
    rfl
  · rw [State.callDone_regs_cmd, kept]
    rfl
  · rw [State.callDone_io, out, State.setPhase_sentBits, sent, State.tagWritten_sentBits, length, padding_add_mul]

/-- R65, R94: bytes whose bits start with those of a byte are that byte and a payload. -/
theorem exists_payload {out : List Byte} {tag : Byte} {bits : List Bool}
    (h : out.flatMap byteBits = byteBits tag ++ bits) :
    ∃ payload, out = tag :: payload ∧ payload.flatMap byteBits = bits := by
  cases out with
  | nil =>
    have length := congrArg List.length h
    rw [List.length_append, length_byteBits] at length
    exact absurd length (Nat.ne_of_lt (Nat.add_pos_left (by decide) _))
  | cons b payload =>
    rw [List.flatMap_cons] at h
    obtain ⟨first, rest⟩ := List.append_inj h (by rw [length_byteBits, length_byteBits])
    exact ⟨payload, by rw [byteBits_injective first], rest⟩

/-- Settles O55: LE.COMPRESS sends the codes after the tag. -/
theorem compressLzw : Obligations.CompressLzw := by
  intro s idle quiet room bits
  obtain ⟨t, run, clean, sent, -, -, -, -, frame⟩ := LzwEncoder.leCompress (s.tagWritten Config.tagLzw) quiet
    (s.tagWritten_writerClean _) rfl room
  have phase : t.regs.phase = .lEnc := by rw [frame]
  have regs : t.regs = { (s.tagWritten Config.tagLzw).regs with phase := t.regs.phase } := by rw [frame]
  have quietT : t.noIoFault := by
    rw [frame]
    exact quiet
  have payload : leCompress (s.tagWritten Config.tagLzw) = .ok () t := Res.eq_ok_of_finish run (by rw [phase]; decide)
  obtain ⟨u, run, done, cmd, out, aligned⟩ := compress_container idle quiet (.inr rfl) payload quietT clean sent regs
  obtain ⟨rest, container, -⟩ := exists_payload (out.trans (List.append_assoc ..))
  exact ⟨u, run, done, cmd, congrArg (·[0]?) container, out, aligned⟩

/-! ### Reading a container (R229, R230) -/

/-- R229: what the tag's codec does with the payload, the call does, and it ends DONE. -/
theorem decompress_container {s t : State} {tag : Byte} {payload : List Byte} {m : Byte}
    (idle : s.regs.status ≠ .busy) (quiet : s.noIoFault) (input : s.io.inp = tag :: payload)
    (codec : (afterTag tag (s.tagRead m)).finish = .next t.callDone)
    (regs : t.regs = { (s.tagRead m).regs with phase := t.regs.phase }) :
    exec (.decompress m) s = .next t.callDone ∧ t.callDone.completed ∧ t.callDone.regs.cmd = cmdWordOf m 2 := by
  refine ⟨?_, ⟨rfl, ?_, rfl⟩, ?_⟩
  · rw [exec_decompress idle, decompressCall_tag quiet input, codec]
  · rw [State.callDone_regs_err, regs]
    rfl
  · rw [State.callDone_regs_cmd, regs]
    rfl

/-- Settles O56: the payload is before the codec of the tag, which appends its text to an empty OUT. -/
theorem decompressContainer : Obligations.DecompressContainer := by
  refine fun s m payload text idle quiet => ⟨fun T rest input bits legal eos leaves => ?_,
    fun codes pad input bits ended string ceiling room => ?_⟩
  · obtain ⟨t, -, codec, out, -, -, frame⟩ := HuffmanDecoder.hdDecompress T text rest (s.tagRead m) quiet
      (Nat.zero_le _) ((State.tagRead_unreadBits input m).trans bits) legal eos leaves
    obtain ⟨run, done, cmd⟩ := decompress_container idle quiet input codec (by rw [frame])
    exact ⟨t.callDone, run, done, out, cmd⟩
  · obtain ⟨t, -, codec, out, -, -, frame⟩ := LzwDecoder.ldDecompress codes text pad (s.tagRead m) quiet
      (Nat.zero_le _) ((State.tagRead_unreadBits input m).trans bits) ended string ceiling room
    obtain ⟨run, done, cmd⟩ := decompress_container idle quiet input codec (by rw [frame])
    exact ⟨t.callDone, run, done, out, cmd⟩

/-! ### There and back (R233) -/

/-- R94: the padding is less than a byte. -/
theorem length_padding_lt (n : Nat) : (padding n).length < 8 := by
  rw [padding, List.length_replicate]
  exact Nat.mod_lt _ (by decide)

/-- R140, R147: the tree of an input has one leaf for each symbol counted. -/
theorem huffmanTree_countOf_leaves (bytes : List Byte) :
    (huffmanTree (countOf bytes)).leaves.Perm (presentIn (countOf bytes)) :=
  huffmanTree_leaves (List.ne_nil_of_mem (eos_mem_presentIn bytes))

/-- R98, R149: the tree of an input is one the deserialiser accepts. -/
theorem huffmanTree_legal (bytes : List Byte) : (huffmanTree (countOf bytes)).legalAfter 0 := by
  have leaves := huffmanTree_countOf_leaves bytes
  refine ⟨fun sym leaf => ?_, ?_⟩
  · obtain ⟨symbol, -⟩ := mem_presentIn.mp (leaves.mem_iff.mp leaf)
    exact Nat.le_of_lt_succ symbol
  · have size := (huffmanTree (countOf bytes)).size_add_one
    have few : (presentIn (countOf bytes)).length ≤ 257 := length_presentIn _
    rw [leaves.length_eq] at size
    rw [Config.nodeCap]
    omega

/-- Settles O57: the container COMPRESS wrote holds the bits DECOMPRESS reads the input back from. -/
theorem roundTrip : Obligations.RoundTrip := by
  rintro m s idle quiet (⟨rfl, seekable⟩ | ⟨rfl, room⟩)
  · obtain ⟨t, run, done, -, first, out, -⟩ := compressHuffman s idle quiet seekable
    obtain ⟨payload, container, bits⟩ := exists_payload (out.trans (List.append_assoc ..))
    have leaves := huffmanTree_countOf_leaves s.io.inp
    refine ⟨t, run, done, first, fun u m' idleU quietU input _ => ?_⟩
    obtain ⟨v, run, done, text, -⟩ := (decompressContainer u m' payload s.io.inp idleU quietU).1 _ _
      (input.trans container) bits (huffmanTree_legal s.io.inp) (leaves.mem_iff.mpr (eos_mem_presentIn _))
      fun b hb => leaves.mem_iff.mpr (byte_mem_presentIn hb)
    exact ⟨v, run, done, text⟩
  · obtain ⟨t, run, done, -, first, out, -⟩ := compressLzw s idle quiet room
    obtain ⟨payload, container, bits⟩ := exists_payload (out.trans (List.append_assoc ..))
    refine ⟨t, run, done, first, fun u m' idleU quietU input roomU => ?_⟩
    obtain ⟨-, ceiling, capacity⟩ := roomU rfl
    obtain ⟨v, run, done, text, -⟩ := (decompressContainer u m' payload s.io.inp idleU quietU).2 _ _
      (input.trans container) bits (length_padding_lt _) (lzwText_lzwCodes s.io.inp) ceiling capacity
    exact ⟨v, run, done, text⟩

end Sys2Proof.Machine
end

section
/-! PROOFS, ErrorKinds. Which kinds each operation raises (R245), and what the operations leave of ERR and STATUS:
only the end of a call (R232) and the abort (R250) write them. -/

namespace Sys2Proof.Machine

/-! ### The kinds raised and the end reached -/

/-- ERR and STATUS stay (R22, R24). -/
def SameEnd (s t : State) : Prop := t.regs.err = s.regs.err ∧ t.regs.status = s.regs.status

/-- R232: the call ends, and ERR stays. -/
def EndsCall (s t : State) : Prop := t.regs.status = .done ∧ t.regs.phase = .idle ∧ t.regs.err = s.regs.err

theorem SameEnd.trans {s t u : State} (h : SameEnd s t) (h' : SameEnd t u) : SameEnd s u :=
  ⟨h'.1.trans h.1, h'.2.trans h.2⟩

/-- A run that leaves the host registers leaves ERR and STATUS. -/
theorem SameEnd.of_regs {s t : State} (h : t.regs = s.regs) : SameEnd s t := ⟨by rw [h], by rw [h]⟩

theorem SameEnd.endsCall {s t u : State} (h : SameEnd s t) (h' : EndsCall t u) : EndsCall s u :=
  ⟨h'.1, h'.2.1, h'.2.2.trans h.1⟩

/-- The operation raises only the kinds listed, and where it ends well its last state meets `P`. -/
def Res.Meets {α : Type} (r : Res α) (kinds : List ErrKind) (P : State → Prop) : Prop :=
  (∀ a t, r = .ok a t → P t) ∧ ∀ k t, r = .raised k t → k ∈ kinds

/-- The operation raises only the kinds listed, and where it ends well ERR and STATUS are as in `s`. -/
abbrev Res.RaisesOnly {α : Type} (r : Res α) (kinds : List ErrKind) (s : State) : Prop := r.Meets kinds (SameEnd s)

section Rules

variable {α β : Type} {kinds : List ErrKind} {P Q : State → Prop} {s t : State}

theorem Res.meets_ok {a : α} (h : P t) : (Res.ok a t).Meets kinds P :=
  ⟨fun _ _ e => (by cases e; exact h), fun _ _ e => by cases e⟩

theorem Res.meets_raised {k : ErrKind} (h : k ∈ kinds) : (Res.raised k t : Res α).Meets kinds P :=
  ⟨fun _ _ e => (by cases e), fun _ _ e => by cases e; exact h⟩

theorem Res.meets_stuck (f : Fault) : (Res.stuck f : Res α).Meets kinds P :=
  ⟨fun _ _ e => (by cases e), fun _ _ e => by cases e⟩

theorem Res.Meets.imp {r : Res α} (h : r.Meets kinds P) (hPQ : ∀ t, P t → Q t) : r.Meets kinds Q :=
  ⟨fun a t e => hPQ t (h.1 a t e), h.2⟩

theorem Res.Meets.bind {r : Res α} {f : α → State → Res β} (h : r.Meets kinds P)
    (hf : ∀ a t, P t → (f a t).Meets kinds Q) : (r.bind f).Meets kinds Q := by
  cases r with
  | ok a t => exact hf a t (h.1 a t rfl)
  | raised k t => exact meets_raised (h.2 k t rfl)
  | stuck e => exact meets_stuck e

/-- An operation that leaves the host registers and ends well. -/
theorem Res.raisesOnly_ok {a : α} (h : t.regs = s.regs) : (Res.ok a t).RaisesOnly kinds s := meets_ok (.of_regs h)

/-- An operation run after others that left ERR and STATUS. -/
theorem Res.RaisesOnly.after {r : Res α} (h : r.RaisesOnly kinds t) (hst : SameEnd s t) : r.RaisesOnly kinds s :=
  h.imp fun _ => hst.trans

/-- An operation run in a phase of its own (R23). -/
theorem Res.RaisesOnly.inPhase {r : Res α} {p : Phase} (h : r.RaisesOnly kinds (s.setPhase p)) :
    r.RaisesOnly kinds s := h.after ⟨rfl, rfl⟩

/-- A sequence of two operations, each from where it starts. -/
theorem Res.RaisesOnly.bind {r : Res α} {f : α → State → Res β} (h : r.RaisesOnly kinds s)
    (hf : ∀ a t, (f a t).RaisesOnly kinds t) : (r.bind f).RaisesOnly kinds s :=
  Meets.bind h fun a t hst => RaisesOnly.after (hf a t) hst

/-- A sequence whose second part leaves the host registers and ends well. -/
theorem Res.RaisesOnly.bind_ok {r : Res α} {b : α → State → β} {g : α → State → State}
    (h : r.RaisesOnly kinds s) (hg : ∀ a t, (g a t).regs = t.regs) :
    (r.bind fun a t => .ok (b a t) (g a t)).RaisesOnly kinds s :=
  h.bind fun a t => raisesOnly_ok (hg a t)

end Rules

variable {kinds : List ErrKind}

/-! ### Operations that raise nothing -/

theorem readNode_raises (i : Nat) (s : State) : (readNode i s).RaisesOnly kinds s :=
  ⟨fun _ _ e => .of_regs (by rw [(readNode_eq_ok.mp e).1]), fun k t e => absurd e (readNode_ne_raised i s t k)⟩

theorem childIndex_raises (c : Option Nat) (s : State) : (childIndex c s).RaisesOnly kinds s :=
  ⟨fun _ _ e => .of_regs (by rw [(childIndex_eq_ok.mp e).1]), fun k t e => absurd e (childIndex_ne_raised c s t k)⟩

/-- R142. -/
theorem heInsert_raises (i w : Nat) (s : State) : (heInsert i w s).RaisesOnly kinds s :=
  ⟨fun _ _ e => .of_regs (by rw [(heInsert_eq_ok.mp e).2]; rfl),
    fun k t e => absurd e (heInsert_ne_raised i w s t k)⟩

/-- R151. -/
theorem allocNode_raises (e : NodeEntry) (s : State) : (allocNode e s).RaisesOnly kinds s :=
  ⟨fun _ _ r => .of_regs (by rw [(allocNode_eq_ok.mp r).2.2]; rfl),
    fun k t r => absurd r (allocNode_ne_raised e s t k)⟩

/-- R143, one symbol. -/
theorem leafFor_raises (sym : Nat) (s : State) : (leafFor sym s).RaisesOnly kinds s := by
  unfold leafFor
  split
  · exact (allocNode_raises _ s).bind fun i => heInsert_raises i _
  · exact Res.raisesOnly_ok rfl

/-- R143's loop. -/
theorem leavesFor_raises (syms : List Nat) (s : State) : (leavesFor syms s).RaisesOnly kinds s := by
  induction syms generalizing s with
  | nil => exact Res.raisesOnly_ok rfl
  | cons sym rest ih => exact (leafFor_raises sym s).bind fun _ => ih

/-- R144. -/
theorem heCombine_raises (s : State) : (heCombine s).RaisesOnly kinds s := by
  unfold heCombine
  split
  · exact ((allocNode_raises _ _).bind fun i => heInsert_raises i _).after (.of_regs rfl)
  · exact Res.meets_stuck _

/-- R145's loop. -/
theorem combineAll_raises (n : Nat) (s : State) : (combineAll n s).RaisesOnly kinds s := by
  induction n generalizing s with
  | zero => exact Res.raisesOnly_ok rfl
  | succ n ih =>
    unfold combineAll
    split
    · exact (heCombine_raises s).bind fun _ => ih
    · exact Res.raisesOnly_ok rfl

/-- R145's last line. -/
theorem takeRoot_raises (s : State) : (takeRoot s).RaisesOnly kinds s := by
  unfold takeRoot
  split
  · exact Res.meets_stuck _
  · exact Res.raisesOnly_ok rfl

/-- R145. -/
theorem heBuild_raises (s : State) : (heBuild s).RaisesOnly kinds s :=
  (leavesFor_raises _ s).bind fun _ t => (combineAll_raises _ t).bind fun _ => takeRoot_raises

/-- R154, `WALKT`. -/
theorem tableNode_raises (d i : Nat) (s : State) : (tableNode d i s).RaisesOnly kinds s := by
  induction d generalizing i s with
  | zero => exact Res.meets_stuck _
  | succ d ih =>
    refine Res.RaisesOnly.after (t := s.enterNode i) ?_ (.of_regs rfl)
    refine (readNode_raises i _).bind fun e t => Res.RaisesOnly.bind_ok ?_ fun _ _ => rfl
    cases e with
    | leaf sym => exact Res.raisesOnly_ok rfl
    | internal z o =>
      exact (childIndex_raises z t).bind fun zi u => ((ih zi _).after (.of_regs rfl)).bind fun _ u =>
        (childIndex_raises o u).bind fun oi u => (ih oi _).after (.of_regs rfl)

/-- R154. -/
theorem heTable_raises (s : State) : (heTable s).RaisesOnly kinds s := (tableNode_raises _ _ _).after (.of_regs rfl)

/-- R36, one child of an open node. -/
theorem setZeroChild_raises (j i : Nat) (s : State) : (setZeroChild j i s).RaisesOnly kinds s :=
  (readNode_raises j s).bind fun e _ => by
    cases e with
    | leaf _ => exact Res.meets_stuck _
    | internal z o => exact Res.raisesOnly_ok rfl

theorem setOneChild_raises (j i : Nat) (s : State) : (setOneChild j i s).RaisesOnly kinds s :=
  (readNode_raises j s).bind fun e _ => by
    cases e with
    | leaf _ => exact Res.meets_stuck _
    | internal z o => exact Res.raisesOnly_ok rfl

/-- R170: a completed node. -/
theorem completeNode_raises (d : List (Nat × Bool)) (i : Nat) (s : State) :
    (completeNode d i s).RaisesOnly kinds s := by
  induction d, i, s using completeNode.induct with
  | case1 i s => exact Res.raisesOnly_ok rfl
  | case2 j rest i s => exact (setZeroChild_raises j i s).bind_ok fun _ _ => rfl
  | case3 j rest i s ih => exact (setOneChild_raises j i s).bind fun _ t => (ih t).after (.of_regs rfl)

/-- R36, R170. -/
theorem takeInternal_raises (i : Nat) (s : State) : (takeInternal i s).RaisesOnly kinds s := Res.raisesOnly_ok rfl

/-- R39. -/
theorem readDict_raises (c : Nat) (s : State) : (readDict c s).RaisesOnly kinds s := by
  unfold readDict
  split
  · exact Res.meets_stuck _
  · exact Res.raisesOnly_ok rfl

/-- R209's loop. -/
theorem firstLoop_raises (n c : Nat) (s : State) : (firstLoop n c s).RaisesOnly kinds s := by
  induction n generalizing c s with
  | zero => exact Res.meets_stuck _
  | succ n ih =>
    unfold firstLoop
    split
    · exact Res.raisesOnly_ok rfl
    · exact (readDict_raises c s).bind fun e => ih e.pred

/-- R210's walk. -/
theorem pushChain_raises (n c : Nat) (s : State) : (pushChain n c s).RaisesOnly kinds s := by
  induction n generalizing c s with
  | zero => exact Res.meets_stuck _
  | succ n ih =>
    unfold pushChain
    split
    · exact Res.raisesOnly_ok rfl
    · exact (readDict_raises c s).bind fun e _ => (ih e.pred _).after (.of_regs rfl)

/-- R206. -/
theorem ldInit_raises (s : State) : (ldInit s).RaisesOnly kinds s := Res.raisesOnly_ok rfl

/-- R211. -/
theorem ldGrow_raises (n : Nat) (s : State) : (ldGrow n s).RaisesOnly kinds s :=
  Res.raisesOnly_ok (by split <;> rfl)

/-! ### Operations that raise IOFailure alone (R244) -/

section IoFailure

variable (io : .ioFailure ∈ kinds)
include io

theorem outAppend_raises (b : Byte) (s : State) : (outAppend b s).RaisesOnly kinds s := by
  rcases outAppend_cases b s with ⟨-, e⟩ | ⟨-, e⟩ <;> rw [e]
  · exact Res.raisesOnly_ok rfl
  · exact Res.meets_raised io

theorem inFetch_raises (s : State) : (inFetch s).RaisesOnly kinds s := by
  rcases inFetch_cases s with ⟨-, e⟩ | ⟨b, -, ⟨-, e⟩ | ⟨-, e⟩⟩ <;> rw [e]
  · exact Res.meets_stuck _
  · exact Res.raisesOnly_ok rfl
  · exact Res.meets_raised io

/-- R122. -/
theorem putBit_raises (b : Bool) (s : State) : (putBit b s).RaisesOnly kinds s := by
  rw [putBit_eq]
  split
  · exact Res.RaisesOnly.after ((outAppend_raises io _ (s.setWriter ..)).bind_ok fun _ _ => rfl) (.of_regs rfl)
  · exact Res.raisesOnly_ok rfl

/-- R159's loop. -/
theorem putList_raises (bits : List Bool) (s : State) : (putList bits s).RaisesOnly kinds s := by
  induction bits generalizing s with
  | nil => exact Res.raisesOnly_ok rfl
  | cons b bits ih => exact (putBit_raises io b s).bind fun _ => ih

/-- R128. -/
theorem putBits_raises (v n : Nat) (s : State) : (putBits v n s).RaisesOnly kinds s :=
  putBits_eq_putList v n s ▸ putList_raises io _ s

/-- R123, one byte. -/
theorem putByte_raises (b : Byte) (s : State) : (putByte b s).RaisesOnly kinds s := by
  unfold putByte
  split
  · exact outAppend_raises io b s
  · exact (outAppend_raises io _ s).bind_ok fun _ _ => rfl

/-- R123. -/
theorem putNBytes_raises (bytes : List Byte) (s : State) : (putNBytes bytes s).RaisesOnly kinds s := by
  induction bytes generalizing s with
  | nil => exact Res.raisesOnly_ok rfl
  | cons b bytes ih => exact (putByte_raises io b s).bind fun _ => ih

/-- R124. -/
theorem closeWriter_raises (s : State) : (closeWriter s).RaisesOnly kinds s := by
  unfold closeWriter
  split
  · exact Res.raisesOnly_ok rfl
  · exact (outAppend_raises io _ s).bind_ok fun _ _ => rfl

/-- R125. -/
theorem getBit_raises (s : State) : (getBit s).RaisesOnly kinds s := by
  unfold getBit
  split
  · split
    · exact Res.raisesOnly_ok rfl
    · exact (inFetch_raises io s).bind_ok fun _ _ => rfl
  · exact Res.raisesOnly_ok rfl

/-- R127, one byte. -/
theorem getByte_raises (s : State) : (getByte s).RaisesOnly kinds s :=
  (inFetch_raises io s).bind fun b t => by split <;> exact Res.raisesOnly_ok rfl

/-- R127's loop. -/
theorem getByteRun_raises (n : Nat) (s : State) : (getByteRun n s).RaisesOnly kinds s := by
  induction n generalizing s with
  | zero => exact Res.raisesOnly_ok rfl
  | succ n ih => exact (getByte_raises io s).bind fun _ t => (ih t).bind_ok fun _ _ => rfl

/-- R127. -/
theorem getNBytes_raises (n : Nat) (s : State) : (getNBytes n s).RaisesOnly kinds s := by
  unfold getNBytes
  split
  · exact Res.raisesOnly_ok rfl
  · exact (getByteRun_raises io n s).bind_ok fun _ _ => rfl

/-- R130's loop. -/
theorem getBitRun_raises (n v : Nat) (s : State) : (getBitRun n v s).RaisesOnly kinds s := by
  induction n generalizing v s with
  | zero => exact Res.raisesOnly_ok rfl
  | succ n ih =>
    refine (getBit_raises io s).bind fun b t => ?_
    cases b with
    | none => exact Res.raisesOnly_ok rfl
    | some b => exact ih _ t

/-- R130. -/
theorem getBits_raises (n : Nat) (s : State) : (getBits n s).RaisesOnly kinds s := by
  unfold getBits
  split
  · exact Res.raisesOnly_ok rfl
  · exact getBitRun_raises io n 0 s

/-- R140's loop. -/
theorem countBytes_raises (n : Nat) (s : State) : (countBytes n s).RaisesOnly kinds s := by
  induction n generalizing s with
  | zero => exact Res.raisesOnly_ok rfl
  | succ n ih => exact (inFetch_raises io s).bind fun b t => (ih _).after (.of_regs rfl)

/-- R140. -/
theorem heFreq_raises (s : State) : (heFreq s).RaisesOnly kinds s := (countBytes_raises io _ s).bind_ok fun _ _ => rfl

/-- R152. -/
theorem serNode_raises (d i : Nat) (s : State) : (serNode d i s).RaisesOnly kinds s := by
  induction d generalizing i s with
  | zero => exact Res.meets_stuck _
  | succ d ih =>
    refine Res.RaisesOnly.after (t := s.enterNode i) ?_ (.of_regs rfl)
    refine (readNode_raises i _).bind fun e t => Res.RaisesOnly.bind_ok ?_ fun _ _ => rfl
    cases e with
    | leaf sym => exact (putBit_raises io true t).bind fun _ => putNBytes_raises io _
    | internal z o =>
      exact (putBit_raises io false t).bind fun _ u => (childIndex_raises z u).bind fun zi u =>
        (ih zi u).bind fun _ u => (childIndex_raises o u).bind ih

/-- R152. -/
theorem heSer_raises (i : Nat) (s : State) : (heSer i s).RaisesOnly kinds s :=
  (serNode_raises io _ i _).after (.of_regs rfl)

/-- R158, R275. -/
theorem heRewind_raises (s : State) : (heRewind s).RaisesOnly kinds s := by
  rcases heRewind_cases s with ⟨-, e⟩ | ⟨-, e⟩ <;> rw [e]
  · exact Res.raisesOnly_ok rfl
  · exact Res.meets_raised io

/-- R159, one symbol. -/
theorem putCode_raises (sym : Nat) (s : State) : (putCode sym s).RaisesOnly kinds s := by
  unfold putCode
  split
  · exact Res.meets_stuck _
  · exact putList_raises io _ s

/-- R159's loop. -/
theorem encodeBytes_raises (n : Nat) (s : State) : (encodeBytes n s).RaisesOnly kinds s := by
  induction n generalizing s with
  | zero => exact Res.raisesOnly_ok rfl
  | succ n ih => exact (inFetch_raises io s).bind fun b t => (putCode_raises io _ t).bind fun _ => ih

/-- R159. -/
theorem heEncode_raises (s : State) : (heEncode s).RaisesOnly kinds s :=
  (encodeBytes_raises io _ s).bind fun _ => putCode_raises io _

/-- R160. -/
theorem heCompress_raises (s : State) : (heCompress s).RaisesOnly kinds s :=
  (heFreq_raises io _).inPhase.bind fun _ _ => (heBuild_raises _).inPhase.bind fun _ _ =>
    (heSer_raises io _ _).inPhase.bind fun _ _ => (heTable_raises _).inPhase.bind fun _ _ =>
      (heRewind_raises io _).inPhase.bind fun _ => heEncode_raises io

/-- R186. -/
theorem leInit_raises (s : State) : (leInit s).RaisesOnly kinds s := by
  unfold leInit leFirstByte
  split
  · exact Res.RaisesOnly.after ((inFetch_raises io (s.setLzw _)).bind_ok fun _ _ => rfl) (.of_regs rfl)
  · exact Res.raisesOnly_ok rfl

/-- R188. -/
theorem leEmit_raises (c : Nat) (s : State) : (leEmit c s).RaisesOnly kinds s := putBits_raises io c _ s

/-- R192. -/
theorem leFinish_raises (s : State) : (leFinish s).RaisesOnly kinds s := by
  unfold leFinish
  split
  · exact leEmit_raises io _ s
  · exact Res.raisesOnly_ok rfl

/-- R210's pops. -/
theorem popStack_raises (bytes : List Byte) (s : State) : (popStack bytes s).RaisesOnly kinds s := by
  induction bytes generalizing s with
  | nil => exact Res.raisesOnly_ok rfl
  | cons b bytes ih => exact (outAppend_raises io b s).bind fun _ _ => (ih _).after (.of_regs rfl)

/-- R210. -/
theorem ldExpand_raises (c : Nat) (s : State) : (ldExpand c s).RaisesOnly kinds s :=
  ((pushChain_raises _ c _).after (.of_regs rfl)).bind fun _ _ => popStack_raises io _ _

end IoFailure

/-! ### The Huffman decoder: CorruptStream and IOFailure (R242) -/

section HuffmanDecoder

variable (corrupt : .corruptStream ∈ kinds)

section Corrupt

include corrupt

/-- R171. -/
theorem countNode_raises (s : State) : (countNode s).RaisesOnly kinds s := by
  rcases countNode_cases s with ⟨-, e⟩ | ⟨-, e⟩ <;> rw [e]
  · exact Res.raisesOnly_ok rfl
  · exact Res.meets_raised corrupt

/-- R170, R179. -/
theorem takeLeaf_raises (i : Nat) (field : BitVec 16) (s : State) : (takeLeaf i field s).RaisesOnly kinds s := by
  unfold takeLeaf
  split
  · exact (completeNode_raises _ i _).after (.of_regs rfl)
  · exact Res.meets_raised corrupt

/-- R174, R175. -/
theorem checkRoot_raises (s : State) : (checkRoot s).RaisesOnly kinds s := by
  refine (readNode_raises _ s).bind fun e t => ?_
  cases e with
  | internal z o => exact Res.raisesOnly_ok rfl
  | leaf sym =>
    dsimp only
    split
    · exact Res.raisesOnly_ok rfl
    · exact Res.meets_raised corrupt

/-- R99, R173. -/
theorem walkCode_raises (path : List Bool) (s : State) : (walkCode path s).RaisesOnly kinds s := by
  induction path generalizing s with
  | nil =>
    refine (readNode_raises _ s).bind fun e t => ?_
    cases e with
    | leaf sym => exact Res.raisesOnly_ok rfl
    | internal z o => exact Res.meets_raised corrupt
  | cons b bs ih =>
    refine (readNode_raises _ s).bind fun e t => ?_
    cases e with
    | leaf sym => exact Res.raisesOnly_ok rfl
    | internal z o => exact (childIndex_raises _ t).bind fun i u => (ih _).after (.of_regs rfl)

/-- R215, R217. -/
theorem takeFirstCode_raises (c : Nat) (s : State) : (takeFirstCode c s).RaisesOnly kinds s := by
  unfold takeFirstCode
  dsimp only
  split
  · exact Res.meets_raised corrupt
  · exact Res.raisesOnly_ok rfl

end Corrupt

variable (io : .ioFailure ∈ kinds)
include corrupt io

/-- R170, one node. -/
theorem deserNode_raises (s : State) : (deserNode s).RaisesOnly kinds s := by
  refine (getBit_raises io s).bind fun m t => ?_
  cases m with
  | none => exact Res.meets_raised corrupt
  | some mark =>
    refine (countNode_raises corrupt t).bind fun i u => ?_
    cases mark with
    | false => exact takeInternal_raises i u
    | true =>
      refine (getNBytes_raises io 2 u).bind fun bs v => ?_
      split
      · exact takeLeaf_raises corrupt i _ v
      · exact Res.meets_raised corrupt

/-- R170's loop. -/
theorem deserLoop_raises (n : Nat) (s : State) : (deserLoop n s).RaisesOnly kinds s := by
  induction n generalizing s with
  | zero => exact Res.meets_raised corrupt
  | succ n ih =>
    refine (deserNode_raises corrupt io s).bind fun whole t => ?_
    split
    · exact Res.raisesOnly_ok rfl
    · exact ih t

/-- R170. -/
theorem hdDeser_raises (s : State) : (hdDeser s).RaisesOnly kinds s :=
  (deserLoop_raises corrupt io _ _).after (.of_regs rfl)

/-- R173's loop. -/
theorem walkLoop_raises (n : Nat) (s : State) : (walkLoop n s).RaisesOnly kinds s := by
  induction n generalizing s with
  | zero => exact Res.meets_raised corrupt
  | succ n ih =>
    refine (readNode_raises _ s).bind fun e t => ?_
    cases e with
    | leaf sym => exact Res.raisesOnly_ok rfl
    | internal z o =>
      refine (getBit_raises io t).bind fun b u => ?_
      cases b with
      | none => exact Res.meets_raised corrupt
      | some b => exact (childIndex_raises _ u).bind fun i v => (ih _).after (.of_regs rfl)

/-- R173. -/
theorem hdSymbol_raises (s : State) : (hdSymbol s).RaisesOnly kinds s :=
  (walkLoop_raises corrupt io _ _).after (.of_regs rfl)

/-- R175's loop. -/
theorem symbolLoop_raises (n : Nat) (s : State) : (symbolLoop n s).RaisesOnly kinds s := by
  induction n generalizing s with
  | zero => exact Res.meets_raised corrupt
  | succ n ih =>
    refine (hdSymbol_raises corrupt io s).bind fun sym t => ?_
    split
    · exact Res.raisesOnly_ok rfl
    · exact (outAppend_raises io _ t).bind fun _ => ih

/-- R175. -/
theorem hdDecompress_raises (s : State) : (hdDecompress s).RaisesOnly kinds s :=
  Res.RaisesOnly.bind ((hdDeser_raises corrupt io _).after ⟨rfl, rfl⟩) fun _ t =>
    (checkRoot_raises corrupt t).bind fun _ _ => (symbolLoop_raises corrupt io _ _).inPhase

end HuffmanDecoder

/-! ### The LZW units: CodeSpaceExhausted too (R243) -/

section Lzw

variable (full : .codeSpaceExhausted ∈ kinds)

section Full

include full

/-- R189, R196. -/
theorem leInsert_raises (p : Nat) (b : Byte) (s : State) : (leInsert p b s).RaisesOnly kinds s := by
  rcases leInsert_cases p b s with ⟨-, e⟩ | ⟨-, e⟩ <;> rw [e]
  · exact Res.meets_raised full
  · exact Res.raisesOnly_ok rfl

/-- R190, R191. -/
theorem leGrow_raises (n : Nat) (s : State) : (leGrow n s).RaisesOnly kinds s := by
  rcases leGrow_cases n s with ⟨-, e⟩ | ⟨-, -, e⟩ | ⟨-, -, e⟩ <;> rw [e]
  · exact Res.raisesOnly_ok rfl
  · exact Res.meets_raised full
  · exact Res.raisesOnly_ok rfl

/-- R213, R196. -/
theorem ldAppend_raises (fb : Byte) (s : State) : (ldAppend fb s).RaisesOnly kinds s := by
  rcases ldAppend_cases fb s with ⟨-, e⟩ | ⟨-, e⟩ <;> rw [e]
  · exact Res.meets_raised full
  · exact Res.raisesOnly_ok rfl

end Full

section Encoder

variable (io : .ioFailure ∈ kinds)

include full io

/-- R187. -/
theorem leStep_raises (b : Byte) (s : State) : (leStep b s).RaisesOnly kinds s := by
  unfold leStep
  split
  · exact Res.raisesOnly_ok rfl
  · exact (leEmit_raises io _ s).bind fun _ t => (leInsert_raises full _ b t).bind fun n u =>
      (leGrow_raises full n u).bind_ok fun _ _ => rfl

/-- R194's loop. -/
theorem leSteps_raises (n : Nat) (s : State) : (leSteps n s).RaisesOnly kinds s := by
  induction n generalizing s with
  | zero => exact Res.raisesOnly_ok rfl
  | succ n ih => exact (inFetch_raises io s).bind fun b t => (leStep_raises full io b t).bind fun _ => ih

/-- R194. -/
theorem leCompress_raises (s : State) : (leCompress s).RaisesOnly kinds s :=
  (leInit_raises io _).inPhase.bind fun _ t => (leSteps_raises full io _ t).bind fun _ => leFinish_raises io

/-- R226: the selected codec. -/
theorem encodeWith_raises (m : Byte) (s : State) : (encodeWith m s).RaisesOnly kinds s := by
  unfold encodeWith
  split
  · exact heCompress_raises io s
  · exact leCompress_raises full io s

end Encoder

variable (corrupt : .corruptStream ∈ kinds)
include full corrupt

/-- R207 on an item's own bits. -/
theorem itemCode_raises (w c : Nat) (s : State) : (itemCode w c s).RaisesOnly kinds s := by
  unfold itemCode
  split
  · exact Res.raisesOnly_ok rfl
  · split
    · exact Res.meets_raised full
    · split
      · exact Res.meets_raised corrupt
      · exact Res.raisesOnly_ok rfl

variable (io : .ioFailure ∈ kinds)
include io

/-- R207. -/
theorem ldReadCode_raises (s : State) : (ldReadCode s).RaisesOnly kinds s := by
  rcases ldReadCode_cases s with ⟨-, e⟩ | ⟨-, -, e⟩ | ⟨-, -, -, e⟩ | ⟨-, -, -, e⟩ <;> rw [e]
  · exact Res.raisesOnly_ok rfl
  · exact Res.meets_raised full
  · exact Res.meets_raised corrupt
  · exact getBits_raises io _ s

/-- R213 but for its last line. -/
theorem ldStepBody_raises (s : State) : (ldStepBody s).RaisesOnly kinds s := by
  unfold ldStepBody
  dsimp only
  split
  · exact Res.meets_raised corrupt
  · exact (firstLoop_raises _ _ s).bind fun fb t => (ldExpand_raises io _ t).bind fun _ u =>
      (ldAppend_raises full fb u).bind fun _ _ => (ldGrow_raises _ _).after (.of_regs rfl)

/-- R213's last line. -/
theorem readC2_raises (s : State) : (readC2 s).RaisesOnly kinds s :=
  (ldReadCode_raises full corrupt io s).bind_ok fun c _ => by cases c <;> rfl

/-- R213. -/
theorem ldStep_raises (s : State) : (ldStep s).RaisesOnly kinds s :=
  (ldStepBody_raises full corrupt io s).bind fun _ => readC2_raises full corrupt io

/-- R217's loop. -/
theorem ldSteps_raises (n : Nat) (s : State) : (ldSteps n s).RaisesOnly kinds s := by
  induction n generalizing s with
  | zero => exact Res.raisesOnly_ok rfl
  | succ n ih =>
    unfold ldSteps
    split
    · exact (ldStep_raises full corrupt io s).bind fun _ => ih
    · exact Res.raisesOnly_ok rfl

/-- R217. -/
theorem ldDecompress_raises (s : State) : (ldDecompress s).RaisesOnly kinds s := by
  refine Res.RaisesOnly.bind (ldInit_raises _).inPhase fun _ t =>
    (ldReadCode_raises full corrupt io t).bind fun c u => ?_
  cases c with
  | none => exact Res.raisesOnly_ok rfl
  | some c =>
    exact (takeFirstCode_raises corrupt c u).bind fun _ v => (readC2_raises full corrupt io v).bind fun _ w =>
      (ldSteps_raises full corrupt io _ w).bind fun _ _ => ldExpand_raises io _ _

/-- R217 on one code read. -/
theorem takeCode_raises (c : Option Nat) (s : State) : (takeCode c s).RaisesOnly kinds s := by
  cases c with
  | none => exact Res.raisesOnly_ok (by split <;> rfl)
  | some c =>
    unfold takeCode
    dsimp only
    split
    · exact (ldStepBody_raises full corrupt io _).after (.of_regs rfl)
    · exact takeFirstCode_raises corrupt c s

end Lzw

/-! ### The two commands and the items (R226, R229, R245) -/

/-- R226, R228: COMPRESS from call start on. -/
theorem compressCall_ends (s : State) :
    (compressCall s).Meets [.unknownAlgorithm, .codeSpaceExhausted, .ioFailure] (EndsCall s) := by
  have full : ErrKind.codeSpaceExhausted ∈ [ErrKind.unknownAlgorithm, .codeSpaceExhausted, .ioFailure] := by decide
  have io : ErrKind.ioFailure ∈ [ErrKind.unknownAlgorithm, .codeSpaceExhausted, .ioFailure] := by decide
  unfold compressCall
  dsimp only
  split
  · exact Res.meets_raised (.head _)
  · refine Res.Meets.bind (P := SameEnd s) (Res.meets_ok ⟨rfl, rfl⟩) fun _ t ht => ?_
    refine Res.Meets.bind ((putNBytes_raises io _ t).after ht) fun _ u hu => ?_
    refine Res.Meets.bind ((encodeWith_raises full io _ u).after hu) fun _ v hv => ?_
    refine Res.Meets.bind ((closeWriter_raises io _).inPhase.after hv) fun _ w hw => ?_
    exact Res.meets_ok (hw.endsCall ⟨rfl, rfl, rfl⟩)

section AfterTag

variable (corrupt : .corruptStream ∈ kinds)
include corrupt

/-- R229 from a tag of the Huffman codec on. -/
theorem afterTag_huffman_ends (io : .ioFailure ∈ kinds) (s : State) :
    (afterTag Config.tagHuffman s).Meets kinds (EndsCall s) :=
  Res.Meets.bind (hdDecompress_raises corrupt io s) fun _ _ ht => Res.meets_ok (ht.endsCall ⟨rfl, rfl, rfl⟩)

/-- R229 from a tag of the LZW codec on. -/
theorem afterTag_lzw_ends (io : .ioFailure ∈ kinds) (full : .codeSpaceExhausted ∈ kinds) (s : State) :
    (afterTag Config.tagLzw s).Meets kinds (EndsCall s) :=
  Res.Meets.bind (ldDecompress_raises full corrupt io s) fun _ _ ht => Res.meets_ok (ht.endsCall ⟨rfl, rfl, rfl⟩)

/-- R231: a tag of no codec. -/
theorem afterTag_unknown_ends {P : State → Prop} {tag : Byte} (notHuffman : tag ≠ Config.tagHuffman)
    (notLzw : tag ≠ Config.tagLzw) (s : State) : (afterTag tag s).Meets kinds P := by
  rw [afterTag_unknown notHuffman notLzw]
  exact Res.meets_raised corrupt

/-- R229, R231: whatever the tag is. -/
theorem afterTag_ends (io : .ioFailure ∈ kinds) (full : .codeSpaceExhausted ∈ kinds) (tag : Byte) (s : State) :
    (afterTag tag s).Meets kinds (EndsCall s) := by
  by_cases huffman : tag = Config.tagHuffman
  · exact huffman ▸ afterTag_huffman_ends corrupt io s
  · by_cases lzw : tag = Config.tagLzw
    · exact lzw ▸ afterTag_lzw_ends corrupt io full s
    · exact afterTag_unknown_ends corrupt huffman lzw s

end AfterTag

/-- R229, R230: DECOMPRESS from call start on. -/
theorem decompressCall_ends (s : State) :
    (decompressCall s).Meets [.corruptStream, .codeSpaceExhausted, .ioFailure] (EndsCall s) := by
  have io : ErrKind.ioFailure ∈ [ErrKind.corruptStream, .codeSpaceExhausted, .ioFailure] := by decide
  refine Res.Meets.bind (P := SameEnd s) (Res.meets_ok ⟨rfl, rfl⟩) fun _ t ht => ?_
  refine Res.Meets.bind ((getNBytes_raises io 1 t).after ht) fun bytes u hu => ?_
  split
  · exact (afterTag_ends (.head _) io (by decide) _ u).imp fun _ => hu.endsCall
  · exact Res.meets_raised (.head _)

/-- R173, R175: one code, whose symbol ends the call or goes to OUT. -/
theorem hcode_ends (path : List Bool) (s : State) :
    ((walkCode path (s.setWalk s.huf.root)).bind takeSymbol).Meets [.corruptStream, .ioFailure]
      fun t => SameEnd s t ∨ EndsCall s t := by
  refine Res.Meets.bind (P := SameEnd s) ((walkCode_raises (.head _) path _).after (.of_regs rfl)) fun sym t ht => ?_
  rcases takeSymbol_cases sym t with ⟨-, e⟩ | ⟨-, e⟩ <;> rw [e]
  · exact Res.meets_ok (.inr (ht.endsCall ⟨rfl, rfl, rfl⟩))
  · exact ((outAppend_raises (.tail _ (.head _)) _ t).after ht).imp fun _ => .inl

/-! ### Each operation by its row (R245) -/

/-- R249, R250: the outcome of an operation is its own end or the abort with a kind it lists. -/
theorem Res.Meets.finish {P : State → Prop} {r : Res Unit} {t : State} (h : r.Meets kinds P)
    (ht : r.finish = .next t) : P t ∨ ∃ k ∈ kinds, t.failedWith k := by
  rcases Res.finish_eq_next.mp ht with e | ⟨k, u, e, rfl⟩
  · exact .inl (h.1 () t e)
  · exact .inr ⟨k, h.2 k u e, rfl, rfl, rfl⟩

/-- R245: the ends an operation that is no accepted command can have. -/
def EndsByRow (i : Instr) (s t : State) : Prop :=
  SameEnd s t ∨ (endsCall i = true ∧ EndsCall s t) ∨ ∃ k ∈ raisable i, t.failedWith k

section Rows

variable {i : Instr} {s t : State}

theorem Res.RaisesOnly.endsByRow {r : Res Unit} (h : r.RaisesOnly (raisable i) s) (ht : r.finish = .next t) :
    EndsByRow i s t := (Res.Meets.finish h ht).imp id .inr

/-- The same for an operation that returns a value. -/
theorem Res.RaisesOnly.endsByRowWith {α : Type} {r : Res α} {f : α → UopResult} (h : r.RaisesOnly (raisable i) s)
    (ht : r.finishWith f = .next t) : EndsByRow i s t := 
  Res.RaisesOnly.endsByRow (h.bind_ok fun a u => u.setResult_regs (f a)) ht

/-- The same for an item that ends its call (log entry 5). -/
theorem Res.Meets.endsByRow {r : Res Unit} (h : r.Meets (raisable i) (EndsCall s)) (item : endsCall i = true)
    (ht : r.finish = .next t) : EndsByRow i s t := .inr ((h.finish ht).imp (⟨item, ·⟩) id)

end Rows

/-- R92: a reserved word writes CMD or nothing. -/
theorem execCmdReserved_sameEnd {m op : Byte} {s t : State} (notCompress : op ≠ 1) (notDecompress : op ≠ 2)
    (h : execCmdReserved m op s = .next t) : SameEnd s t := by
  unfold execCmdReserved at h
  by_cases busy : s.regs.status = .busy
  · rw [hostWrite_busy busy] at h
    cases h
    exact ⟨rfl, rfl⟩
  · rw [hostWrite_reserved busy (by rwa [opField_cmdWordOf]) (by rwa [opField_cmdWordOf])] at h
    cases h
    exact ⟨rfl, rfl⟩

/-- R245, for every operation but the two commands. -/
theorem exec_endsByRow {i : Instr} {s t : State} (single : isCallOp i = false) (wf : i.wellFormed = true)
    (h : exec i s = .next t) : EndsByRow i s t := by
  cases i with
  | compress m => cases single
  | decompress m => cases single
  | cmdReserved m op =>
    simp only [Instr.wellFormed, Bool.and_eq_true, bne_iff_ne] at wf
    exact .inl (execCmdReserved_sameEnd wf.1 wf.2 h)
  | tagHuffman => exact (afterTag_huffman_ends (.head _) (.tail _ (.head _)) s).endsByRow rfl h
  | tagLzw =>
    exact (afterTag_lzw_ends (.head _) (.tail _ (.tail _ (.head _))) (.tail _ (.head _)) s).endsByRow rfl h
  | tagReserved tag =>
    simp only [Instr.wellFormed, Bool.and_eq_true, bne_iff_ne] at wf
    exact Res.RaisesOnly.endsByRow (afterTag_unknown_ends (.head _) wf.1 wf.2 s) h
  | hnodeLeaf sym =>
    exact ((countNode_raises (.head _) s).bind fun i u =>
      (takeLeaf_raises (.head _) i sym u).bind fun _ _ => Res.raisesOnly_ok rfl).endsByRow h
  | hnodeInternal =>
    exact ((countNode_raises (.head _) s).bind fun i u =>
      (takeInternal_raises i u).bind fun _ _ => Res.raisesOnly_ok rfl).endsByRow h
  | hcode path =>
    rcases (hcode_ends path s).finish h with (same | ends) | raised
    · exact .inl same
    · exact .inr (.inl ⟨rfl, ends⟩)
    · exact .inr (.inr raised)
  | lcode w c =>
    exact ((itemCode_raises (.tail _ (.head _)) (.head _) w c s).bind
      (takeCode_raises (.tail _ (.head _)) (.head _) (.tail _ (.tail _ (.head _))))).endsByRow h
  | bcOpenW => cases h; exact .inl (.of_regs rfl)
  | bcOpenR => cases h; exact .inl (.of_regs rfl)
  | bcPutBit b => exact (putBit_raises (.head _) b s).endsByRow h
  | bcPutNBytes bytes => exact (putNBytes_raises (.head _) bytes s).endsByRow h
  | bcClose => exact (closeWriter_raises (.head _) s).endsByRow h
  | bcGetBit => exact (getBit_raises (.head _) s).endsByRowWith h
  | bcGetNBytes n => exact (getNBytes_raises (.head _) n s).endsByRowWith h
  | bcPutBits v n => exact (putBits_raises (.head _) v n s).endsByRow h
  | bcEof => cases h; exact .inl (.of_regs rfl)
  | bcGetBits n => exact (getBits_raises (.head _) n s).endsByRowWith h
  | heFreq => exact (heFreq_raises (.head _) s).endsByRow h
  | heInsert n w => exact (heInsert_raises n w s).endsByRow h
  | heLeaves => exact (leavesFor_raises _ s).endsByRow h
  | heCombine => exact (heCombine_raises s).endsByRow h
  | heBuild => exact (heBuild_raises s).endsByRow h
  | heSer n => exact (heSer_raises (.head _) n s).endsByRow h
  | heTable => exact (heTable_raises s).endsByRow h
  | heRewind => exact (heRewind_raises (.head _) s).endsByRow h
  | heEncode => exact (heEncode_raises (.head _) s).endsByRow h
  | heCompress => exact (heCompress_raises (.head _) s).endsByRow h
  | hdDeser => exact (hdDeser_raises (.head _) (.tail _ (.head _)) s).endsByRowWith h
  | hdSymbol => exact (hdSymbol_raises (.head _) (.tail _ (.head _)) s).endsByRowWith h
  | hdDecompress => exact (hdDecompress_raises (.head _) (.tail _ (.head _)) s).endsByRow h
  | leInit => exact (leInit_raises (.head _) s).endsByRow h
  | leStep b => exact (leStep_raises (.head _) (.tail _ (.head _)) b s).endsByRow h
  | leEmit c => exact (leEmit_raises (.head _) c s).endsByRow h
  | leInsert p b => exact (leInsert_raises (.head _) p b s).endsByRowWith h
  | leGrow n => exact (leGrow_raises (.head _) n s).endsByRow h
  | leFinish => exact (leFinish_raises (.head _) s).endsByRow h
  | leCompress => exact (leCompress_raises (.head _) (.tail _ (.head _)) s).endsByRow h
  | ldInit => exact (ldInit_raises s).endsByRow h
  | ldReadCode =>
    exact (ldReadCode_raises (.tail _ (.head _)) (.head _) (.tail _ (.tail _ (.head _))) s).endsByRowWith h
  | ldFirst c => exact (firstLoop_raises _ c s).endsByRowWith h
  | ldExpand c => exact (ldExpand_raises (.head _) c s).endsByRow h
  | ldGrow n => exact (ldGrow_raises n s).endsByRow h
  | ldStep => exact (ldStep_raises (.tail _ (.head _)) (.head _) (.tail _ (.tail _ (.head _))) s).endsByRow h
  | ldFlush => exact (ldExpand_raises (.head _) _ s).endsByRow h
  | ldDecompress =>
    exact (ldDecompress_raises (.tail _ (.head _)) (.head _) (.tail _ (.tail _ (.head _))) s).endsByRow h

/-- R232, R289: from call start, where ERR is NONE, a call that ends leaves it there. -/
theorem EndsCall.completed {s t : State} (h : EndsCall s t) (fresh : s.regs.err = none) : t.completed :=
  ⟨h.1, h.2.2.trans fresh, h.2.1⟩

/-- R245, for the two commands. -/
theorem exec_call_ends {i : Instr} {s t : State} (call : isCallOp i = true) (idle : s.regs.status ≠ .busy)
    (h : exec i s = .next t) : t.completed ∨ ∃ k ∈ raisable i, t.failedWith k := by
  cases i with
  | compress m =>
    rw [exec_compress idle] at h
    exact ((compressCall_ends _).finish h).imp (·.completed rfl) id
  | decompress m =>
    rw [exec_decompress idle] at h
    exact ((decompressCall_ends _).finish h).imp (·.completed rfl) id
  | _ => cases call

/-- R225: while BUSY a command does nothing. -/
theorem exec_call_busy {i : Instr} {s : State} (call : isCallOp i = true) (busy : s.regs.status = .busy) :
    exec i s = .next s := by
  cases i with
  | compress m => exact hostWrite_busy busy _
  | decompress m => exact hostWrite_busy busy _
  | _ => cases call

/-- Settles O8: an accepted command by its call; while BUSY a command does nothing (R225); any other operation by
its row. -/
theorem errorTable : Obligations.ErrorTable := by
  intro i s t wf h
  refine ⟨fun call idle => exec_call_ends call idle h, fun single => ?_⟩
  cases call : isCallOp i with
  | false => exact exec_endsByRow call wf h
  | true =>
    have busy : s.regs.status = .busy := single.resolve_left (by simp [call])
    rw [exec_call_busy call busy] at h
    cases h
    exact .inl ⟨rfl, rfl⟩

end Sys2Proof.Machine
end

section
/-! PROOFS, IoFaults. A first access that the oracle fails (R244): the access does not happen, and the operation that
starts with it raises IOFailure there. -/

namespace Sys2Proof.Machine

theorem outAppend_fails {s : State} (fails : s.ioFails = true) (b : Byte) :
    outAppend b s = .raised .ioFailure s.countAccess := if_pos fails

/-- R61, R237, R244: inside IN there is a byte to read, and the read fails. -/
theorem inFetch_fails {s : State} (fails : s.ioFails = true) (left : s.io.inPos < s.inLen) :
    inFetch s = .raised .ioFailure s.countAccess := by
  rw [inFetch, List.getElem?_eq_getElem left]
  exact if_pos fails

/-- R123: either path of the first byte starts with its append. -/
theorem putNBytes_fails {s : State} (fails : s.ioFails = true) (b : Byte) (bytes : List Byte) :
    putNBytes (b :: bytes) s = .raised .ioFailure s.countAccess := by
  have first : putByte b s = .raised .ioFailure s.countAccess := by
    rw [putByte, outAppend_fails fails, outAppend_fails fails, Res.bind_raised, ite_self]
  rw [putNBytes, first, Res.bind_raised]

/-- R124: a partial byte is appended first. -/
theorem closeWriter_fails {s : State} (fails : s.ioFails = true) (pending : s.bc.wCnt ≠ 0) :
    closeWriter s = .raised .ioFailure s.countAccess := by
  rw [closeWriter, if_neg pending, outAppend_fails fails, Res.bind_raised]

/-- R127: R_CNT gives less than a byte, so a byte delivered starts with one read from IN. -/
theorem getNBytes_fails {s : State} (fails : s.ioFails = true) (between : s.readerBetween) {n : Nat}
    (enough : 8 * (n + 1) ≤ s.remaining) : getNBytes (n + 1) s = .raised .ioFailure s.countAccess := by
  have available : ¬ s.exhaustedFor (8 * (n + 1)) = true := by simpa [State.exhaustedFor] using enough
  have left : s.io.inPos < s.inLen := by
    simp only [State.readerBetween, State.remaining] at between enough
    omega
  rw [getNBytes, if_neg available, getByteRun, getByte, inFetch_fails fails left]
  rfl

/-- R140: the pass over IN starts with a read. -/
theorem heFreq_fails {s : State} (fails : s.ioFails = true) (left : s.io.inPos < s.inLen) :
    heFreq s = .raised .ioFailure s.countAccess := by
  obtain ⟨n, bytes⟩ := Nat.exists_eq_succ_of_ne_zero (Nat.sub_ne_zero_of_lt left)
  rw [heFreq, bytes, countBytes, inFetch_fails fails left]
  rfl

/-- R210: a literal is pushed on XSTK and popped to OUT. -/
theorem ldExpand_literal_fails {s : State} (fails : s.ioFails = true) {c : Nat} (literal : c < Config.nLiterals) :
    ldExpand c s = .raised .ioFailure ((s.setXstk []).setXstk [BitVec.ofNat 8 c]).countAccess := by
  rw [ldExpand, pushChain, if_pos literal, Res.bind_ok]
  exact congrArg (Res.bind · _) (outAppend_fails (s := (s.setXstk []).setXstk [BitVec.ofNat 8 c]) fails _)

/-- R250: an operation that raises ends in the abort. -/
theorem Res.finish_of_raised {r : Res Unit} {k : ErrKind} {s : State} (h : r = .raised k s) :
    r.finish = .next (s.abort k) := by
  rw [h, finish_raised]

/-- Settles O20, each operation by its first access; what the abort leaves is what the access left. -/
theorem ioFault : Obligations.IoFault := by
  intro s fails
  refine ⟨fun b bytes => ?_, fun pending => ?_, fun n between enough => ?_, fun left => ⟨?_, ?_⟩,
    fun c literal => ?_⟩
  · exact ⟨_, Res.finish_of_raised (putNBytes_fails fails b bytes), ⟨rfl, rfl, rfl⟩, rfl⟩
  · exact ⟨_, Res.finish_of_raised (closeWriter_fails fails pending), ⟨rfl, rfl, rfl⟩, rfl, rfl⟩
  · exact ⟨_, congrArg (Res.finishWith · .bytes) (getNBytes_fails fails between enough), ⟨rfl, rfl, rfl⟩, rfl,
      rfl⟩
  · exact ⟨_, Res.finish_of_raised (heFreq_fails fails left), ⟨rfl, rfl, rfl⟩, rfl, rfl⟩
  · exact ⟨_, Res.finish_of_raised (leFirstByte_fails (s := s.setLzw s.lzw.encoderStart)
      (List.getElem?_eq_getElem left) fails), ⟨rfl, rfl, rfl⟩, rfl⟩
  · exact ⟨_, Res.finish_of_raised (ldExpand_literal_fails fails literal), ⟨rfl, rfl, rfl⟩, rfl⟩

end Sys2Proof.Machine
end

section
/-! PROOFS, FaultCuts. A failing access at any place (R244, R249): an operation is compared with its run without
faults, and the first access that fails cuts it off there. So it is for every instruction a format can hold; stated
for every term it is refuted. -/

namespace Sys2Proof.Machine

/-! ### A run and the same run cut off -/

/-- A run without faults from `s` to `t`: OUT has grown, and each access has moved one byte, but for a rewind. -/
structure Moves (rewound : Bool) (s t : State) : Prop where
  quiet : t.noIoFault
  callNo : t.env.callNo = s.env.callNo
  accesses : s.env.accNo ≤ t.env.accNo
  out : s.io.out <+: t.io.out
  bytes : rewound = false → t.io.inPos + t.outLen + s.env.accNo = s.io.inPos + s.outLen + t.env.accNo

/-- None of the accesses from `s` on, up to the one numbered `n`, is one of the failing ones. -/
def Unfailed (faults : List (Nat × Nat)) (s : State) (n : Nat) : Prop :=
  ∀ a, s.env.accNo ≤ a → a < n → (s.env.callNo, a) ∉ faults

/-- The same end with another oracle. -/
def Res.withOracle {α : Type} (faults : List (Nat × Nat)) : Res α → Res α
  | .ok a t => .ok a (t.withOracle faults)
  | .raised k t => .raised k (t.withOracle faults)
  | .stuck f => .stuck f

/-- R244: `r` is the run `free`, made from `s` without faults, with the oracle that fails `faults`: it is that run
where none of its accesses fails, and else it stops at the first that does, in a state that run passes through. -/
structure Res.CutBy {α : Type} (faults : List (Nat × Nat)) (rewound : Bool) (s : State) (free r : Res α) : Prop where
  moves : ∀ u, free.endsAt u → Moves rewound s u
  unfailed : ∀ u, free.endsAt u → Unfailed faults s u.env.accNo → r = free.withOracle faults
  cut : ∀ u, free.endsAt u → ∀ a, s.env.accNo ≤ a → a < u.env.accNo → (s.env.callNo, a) ∈ faults →
    Unfailed faults s a →
    ∃ v, r = .raised .ioFailure (v.withOracle faults).countAccess ∧ Moves rewound s v ∧ v.env.accNo = a ∧
      v.io.out <+: u.io.out

section Rules

variable {α β : Type} {faults : List (Nat × Nat)} {rewound : Bool} {s t u : State}

/-- A change that makes no access. -/
theorem Moves.of_eq (quiet : s.noIoFault) (io : t.io = s.io) (env : t.env = s.env) : Moves rewound s t where
  quiet := by rw [State.noIoFault, env]; exact quiet
  callNo := by rw [env]
  accesses := by rw [env]
  out := by rw [io]
  bytes _ := by rw [State.outLen, State.outLen, io, env]

theorem Moves.trans (h : Moves rewound s t) (h' : Moves rewound t u) : Moves rewound s u where
  quiet := h'.quiet
  callNo := h'.callNo.trans h.callNo
  accesses := h.accesses.trans h'.accesses
  out := h.out.trans h'.out
  bytes same := by have := h.bytes same; have := h'.bytes same; omega

theorem Unfailed.mono {m n : Nat} (h : Unfailed faults s n) (le : m ≤ n) : Unfailed faults s m :=
  fun a from_s below => h a from_s (below.trans_le le)

/-- Later in the same run there are fewer accesses to look at. -/
theorem Moves.unfailed {n : Nat} (h : Moves rewound s t) (hs : Unfailed faults s n) : Unfailed faults t n :=
  fun a from_t below => by rw [h.callNo]; exact hs a (h.accesses.trans from_t) below

theorem Res.endsAt_ok {a : α} : (Res.ok a t).endsAt u ↔ u = t := by simp [Res.endsAt, eq_comm]

theorem Res.endsAt_raised {k : ErrKind} : (Res.raised k t : Res α).endsAt u ↔ u = t := by simp [Res.endsAt, eq_comm]

theorem Res.not_endsAt_stuck (f : Fault) : ¬ (Res.stuck f : Res α).endsAt u := by simp [Res.endsAt]

/-- Nothing is said of a run that stops without a next state. -/
theorem Res.cutBy_stuck (f : Fault) (r : Res α) : (Res.stuck f : Res α).CutBy faults rewound s r :=
  ⟨fun _ ends => absurd ends (not_endsAt_stuck f), fun _ ends => absurd ends (not_endsAt_stuck f),
    fun _ ends => absurd ends (not_endsAt_stuck f)⟩

/-- A run that ends at `t` without an access. -/
theorem Res.cutBy_of_eq {r : Res α} (ends : ∀ u, r.endsAt u → u = t) (quiet : s.noIoFault) (io : t.io = s.io)
    (env : t.env = s.env) : r.CutBy faults rewound s (r.withOracle faults) where
  moves u hu := ends u hu ▸ .of_eq quiet io env
  unfailed _ _ _ := rfl
  cut u hu a from_s below _ _ := by
    rw [ends u hu, env] at below
    omega

theorem Res.cutBy_ok {a : α} (quiet : s.noIoFault) (io : t.io = s.io) (env : t.env = s.env) :
    (Res.ok a t).CutBy faults rewound s (.ok a (t.withOracle faults)) :=
  cutBy_of_eq (r := .ok a t) (fun _ => endsAt_ok.mp) quiet io env

theorem Res.cutBy_raised {k : ErrKind} (quiet : s.noIoFault) (io : t.io = s.io) (env : t.env = s.env) :
    (Res.raised k t : Res α).CutBy faults rewound s (.raised k (t.withOracle faults)) :=
  cutBy_of_eq (r := .raised k t) (fun _ => endsAt_raised.mp) quiet io env

/-- A run of one access, done or failed. -/
theorem Res.cutBy_access {a : α} {r : Res α} (quiet : s.noIoFault) (moves : Moves rewound s t)
    (one : t.env.accNo = s.env.accNo + 1)
    (done : (s.env.callNo, s.env.accNo) ∉ faults → r = .ok a (t.withOracle faults))
    (fails : (s.env.callNo, s.env.accNo) ∈ faults → r = .raised .ioFailure (s.withOracle faults).countAccess) :
    (Res.ok a t).CutBy faults rewound s r where
  moves u hu := endsAt_ok.mp hu ▸ moves
  unfailed u hu free := by
    rw [endsAt_ok.mp hu, one] at free
    exact done (free _ le_rfl (Nat.lt_succ_self _))
  cut u hu a from_s below hit _ := by
    rw [endsAt_ok.mp hu] at below ⊢
    have first : a = s.env.accNo := by omega
    exact ⟨s, fails (first ▸ hit), .of_eq quiet rfl rfl, first.symm, moves.out⟩

/-- A sequence is cut off in its first part or in its second. -/
theorem Res.CutBy.bind {free r : Res α} {f g : α → State → Res β} (h : free.CutBy faults rewound s r)
    (hf : ∀ a v, v.noIoFault → (f a v).CutBy faults rewound v (g a (v.withOracle faults))) :
    (free.bind f).CutBy faults rewound s (r.bind g) := by
  obtain ⟨moves, unfailed, cut⟩ := h
  cases free with
  | stuck e => exact cutBy_stuck e _
  | raised k v =>
    have ends : (raised k v : Res α).endsAt v := endsAt_raised.mpr rfl
    refine ⟨fun u hu => ?_, fun u hu free => ?_, fun u hu a from_s below hit free => ?_⟩ <;>
      obtain rfl := endsAt_raised.mp hu
    · exact moves u ends
    · rw [unfailed u ends free]
      rfl
    · obtain ⟨w, run, rest⟩ := cut u ends a from_s below hit free
      exact ⟨w, by rw [run, bind_raised], rest⟩
  | ok x v =>
    have ends : (ok x v).endsAt v := endsAt_ok.mpr rfl
    have first := moves v ends
    have second := hf x v first.quiet
    refine ⟨fun u hu => first.trans (second.moves u hu), fun u hu free => ?_,
      fun u hu a from_s below hit free => ?_⟩
    · rw [unfailed v ends (free.mono (second.moves u hu).accesses)]
      exact second.unfailed u hu (first.unfailed free)
    · by_cases early : a < v.env.accNo
      · obtain ⟨w, run, reached, at_a, out⟩ := cut v ends a from_s early hit free
        exact ⟨w, by rw [run, bind_raised], reached, at_a, out.trans (second.moves u hu).out⟩
      · have from_v := Nat.not_lt.mp early
        obtain ⟨w, run, reached, at_a, out⟩ :=
          second.cut u hu a from_v below (by rwa [first.callNo]) (first.unfailed free)
        refine ⟨w, ?_, first.trans reached, at_a, out⟩
        rw [unfailed v ends (free.mono from_v)]
        exact run

/-- A run made after a change that makes no access. -/
theorem Res.CutBy.after {free r : Res α} (h : free.CutBy faults rewound t r) (quiet : s.noIoFault) (io : t.io = s.io)
    (env : t.env = s.env) : free.CutBy faults rewound s r := by
  have start : Moves rewound s t := .of_eq quiet io env
  refine ⟨fun u hu => start.trans (h.moves u hu), fun u hu free => h.unfailed u hu (start.unfailed free),
    fun u hu a from_s below hit free => ?_⟩
  obtain ⟨v, run, reached, rest⟩ :=
    h.cut u hu a (by rwa [env]) below (by rwa [env]) (start.unfailed free)
  exact ⟨v, run, start.trans reached, rest⟩

/-- A test of what the oracle is no part of. -/
theorem Res.CutBy.ite {p : Prop} [Decidable p] {x y x' y' : Res α} (pos : p → x.CutBy faults rewound s x')
    (neg : ¬ p → y.CutBy faults rewound s y') :
    (if p then x else y).CutBy faults rewound s (if p then x' else y') := by
  split
  · next h => exact pos h
  · next h => exact neg h

end Rules

/-- An operation with the oracle that fails `faults`, run from a state without faults, is its own run cut off. -/
abbrev Cuts {α : Type} (faults : List (Nat × Nat)) (rewound : Bool) (op : State → Res α) (s : State) : Prop :=
  (op s).CutBy faults rewound s (op (s.withOracle faults))

variable {faults : List (Nat × Nat)} {rewound : Bool} {s : State}

/-! ### The accesses (R61, R62) -/

/-- R244: the oracle's answer for the next access. -/
theorem ioFails_withOracle : (s.withOracle faults).ioFails = true ↔ (s.env.callNo, s.env.accNo) ∈ faults :=
  List.contains_iff_mem

/-- R62: an append that is done adds one byte. -/
theorem Moves.append (quiet : s.noIoFault) (b : Byte) : Moves rewound s (s.countAccess.pushOut b) := by
  refine ⟨quiet, rfl, Nat.le_succ _, ⟨[b], rfl⟩, fun _ => ?_⟩
  simp only [State.outLen, State.pushOut_io_inPos, State.countAccess_io, State.pushOut_io_out, State.pushOut_env,
    State.countAccess_env_accNo, List.length_append, List.length_singleton]
  omega

/-- R61: a read that is done takes one byte. -/
theorem Moves.fetch (quiet : s.noIoFault) : Moves rewound s (s.countAccess.setInPos (s.io.inPos + 1)) := by
  refine ⟨quiet, rfl, Nat.le_succ _, List.prefix_rfl, fun _ => ?_⟩
  simp only [State.outLen, State.setInPos_io_inPos, State.setInPos_io_out, State.countAccess_io, State.setInPos_env,
    State.countAccess_env_accNo]
  omega

theorem outAppend_cut (quiet : s.noIoFault) (b : Byte) : Cuts faults rewound (outAppend b) s := by
  rw [Cuts, outAppend_ok quiet]
  refine Res.cutBy_access quiet (.append quiet b) rfl (fun done => ?_) fun fails => ?_
  · exact if_neg (ioFails_withOracle.not.mpr done)
  · exact if_pos (ioFails_withOracle.mpr fails)

theorem inFetch_cut (quiet : s.noIoFault) : Cuts faults rewound inFetch s := by
  cases byte : s.io.inp[s.io.inPos]? with
  | none =>
    rw [Cuts, inFetch, byte]
    exact Res.cutBy_stuck _ _
  | some b =>
    have byte' : (s.withOracle faults).io.inp[(s.withOracle faults).io.inPos]? = some b := byte
    rw [Cuts, inFetch_ok quiet byte, inFetch, byte']
    refine Res.cutBy_access quiet (.fetch quiet) rfl (fun done => ?_) fun fails => ?_
    · exact if_neg (ioFails_withOracle.not.mpr done)
    · exact if_pos (ioFails_withOracle.mpr fails)

/-! ### The Bit Channel -/

/-- R122. -/
theorem putBit_cut (quiet : s.noIoFault) (b : Bool) : Cuts faults rewound (putBit b) s := by
  rw [Cuts, putBit_eq, putBit_eq]
  refine .ite (fun _ => ?_) fun _ => Res.cutBy_ok quiet rfl rfl
  let full := s.setWriter (s.accWith b) s.bc.wCnt
  refine Res.CutBy.after (t := full) ?_ quiet rfl rfl
  exact (outAppend_cut (s := full) quiet _).bind fun _ _ quiet => Res.cutBy_ok quiet rfl rfl

/-- R159's loop. -/
theorem putList_cut (quiet : s.noIoFault) (bits : List Bool) : Cuts faults rewound (putList bits) s := by
  induction bits generalizing s with
  | nil => exact Res.cutBy_ok quiet rfl rfl
  | cons b bits ih => exact (putBit_cut quiet b).bind fun _ _ => ih

/-- R128. -/
theorem putBits_cut (quiet : s.noIoFault) (v n : Nat) : Cuts faults rewound (putBits v n) s := by
  rw [Cuts, putBits_eq_putList, putBits_eq_putList]
  exact putList_cut quiet _

/-- R123, one byte. -/
theorem putByte_cut (quiet : s.noIoFault) (b : Byte) : Cuts faults rewound (putByte b) s :=
  .ite (fun _ => outAppend_cut quiet b) fun _ =>
    (outAppend_cut quiet _).bind fun _ _ quiet => Res.cutBy_ok quiet rfl rfl

/-- R123. -/
theorem putNBytes_cut (quiet : s.noIoFault) (bytes : List Byte) : Cuts faults rewound (putNBytes bytes) s := by
  induction bytes generalizing s with
  | nil => exact Res.cutBy_ok quiet rfl rfl
  | cons b bytes ih => exact (putByte_cut quiet b).bind fun _ _ => ih

/-- R124. -/
theorem closeWriter_cut (quiet : s.noIoFault) : Cuts faults rewound closeWriter s :=
  .ite (fun _ => Res.cutBy_ok quiet rfl rfl) fun _ =>
    (outAppend_cut quiet _).bind fun _ _ quiet => Res.cutBy_ok quiet rfl rfl

/-- R125. -/
theorem getBit_cut (quiet : s.noIoFault) : Cuts faults rewound getBit s :=
  .ite
    (fun _ => .ite (fun _ => Res.cutBy_ok quiet rfl rfl) fun _ =>
      (inFetch_cut quiet).bind fun _ _ quiet => Res.cutBy_ok quiet rfl rfl)
    fun _ => Res.cutBy_ok quiet rfl rfl

/-- R127, one byte: what R_CNT was before the read decides how it is put together. -/
theorem getByte_cut (quiet : s.noIoFault) : Cuts faults rewound getByte s :=
  (inFetch_cut quiet).bind fun _ _ quiet =>
    .ite (fun _ => Res.cutBy_ok quiet rfl rfl) fun _ => Res.cutBy_ok quiet rfl rfl

/-- R127's loop. -/
theorem getByteRun_cut (quiet : s.noIoFault) (n : Nat) : Cuts faults rewound (getByteRun n) s := by
  induction n generalizing s with
  | zero => exact Res.cutBy_ok quiet rfl rfl
  | succ n ih =>
    exact (getByte_cut quiet).bind fun _ _ quiet => (ih quiet).bind fun _ _ quiet => Res.cutBy_ok quiet rfl rfl

/-- R127. -/
theorem getNBytes_cut (quiet : s.noIoFault) (n : Nat) : Cuts faults rewound (getNBytes n) s :=
  .ite (fun _ => Res.cutBy_ok quiet rfl rfl) fun _ =>
    (getByteRun_cut quiet n).bind fun _ _ quiet => Res.cutBy_ok quiet rfl rfl

/-- R130's loop. -/
theorem getBitRun_cut (quiet : s.noIoFault) (n v : Nat) : Cuts faults rewound (getBitRun n v) s := by
  induction n generalizing v s with
  | zero => exact Res.cutBy_ok quiet rfl rfl
  | succ n ih =>
    refine (getBit_cut quiet).bind fun b _ quiet => ?_
    cases b with
    | none => exact Res.cutBy_ok quiet rfl rfl
    | some b => exact ih quiet _

/-- R130. -/
theorem getBits_cut (quiet : s.noIoFault) (n : Nat) : Cuts faults rewound (getBits n) s :=
  .ite (fun _ => Res.cutBy_ok quiet rfl rfl) fun _ => getBitRun_cut quiet n 0

/-! ### The Huffman encoder -/

theorem readNode_cut (quiet : s.noIoFault) (i : Nat) : Cuts faults rewound (readNode i) s := by
  refine .ite (fun _ => Res.cutBy_stuck _ _) fun _ => ?_
  rw [State.withOracle_huf]
  cases s.huf.node.read i with
  | none => exact Res.cutBy_stuck _ _
  | some e => exact Res.cutBy_ok quiet rfl rfl

theorem childIndex_cut (quiet : s.noIoFault) (c : Option Nat) : Cuts faults rewound (childIndex c) s := by
  cases c with
  | none => exact Res.cutBy_stuck _ _
  | some i => exact Res.cutBy_ok quiet rfl rfl

/-- R140's loop. -/
theorem countBytes_cut (quiet : s.noIoFault) (n : Nat) : Cuts faults rewound (countBytes n) s := by
  induction n generalizing s with
  | zero => exact Res.cutBy_ok quiet rfl rfl
  | succ n ih =>
    exact (inFetch_cut quiet).bind fun b v quiet => (ih (s := v.bumpFreq b.toNat) quiet).after quiet rfl rfl

/-- R140. -/
theorem heFreq_cut (quiet : s.noIoFault) : Cuts faults rewound heFreq s :=
  (countBytes_cut quiet _).bind fun _ _ quiet => Res.cutBy_ok quiet rfl rfl

/-- R142. -/
theorem heInsert_cut (quiet : s.noIoFault) (i w : Nat) : Cuts faults rewound (heInsert i w) s :=
  .ite (fun _ => Res.cutBy_stuck _ _) fun _ => Res.cutBy_ok quiet rfl rfl

/-- R151. -/
theorem allocNode_cut (quiet : s.noIoFault) (e : NodeEntry) : Cuts faults rewound (allocNode e) s :=
  .ite (fun _ => Res.cutBy_stuck _ _) fun _ => Res.cutBy_ok quiet rfl rfl

/-- R143, one symbol. -/
theorem leafFor_cut (quiet : s.noIoFault) (sym : Nat) : Cuts faults rewound (leafFor sym) s :=
  .ite (fun _ => (allocNode_cut quiet _).bind fun i _ quiet => heInsert_cut quiet i _) fun _ =>
    Res.cutBy_ok quiet rfl rfl

/-- R143's loop. -/
theorem leavesFor_cut (quiet : s.noIoFault) (syms : List Nat) : Cuts faults rewound (leavesFor syms) s := by
  induction syms generalizing s with
  | nil => exact Res.cutBy_ok quiet rfl rfl
  | cons sym rest ih => exact (leafFor_cut quiet sym).bind fun _ _ => ih

/-- R144. -/
theorem heCombine_cut (quiet : s.noIoFault) : Cuts faults rewound heCombine s := by
  unfold Cuts heCombine
  rw [State.withOracle_huf]
  split
  · next a b rest _ =>
    let taken := s.setHuf { s.huf with list := rest.reverse }
    refine Res.CutBy.after (t := taken) ?_ quiet rfl rfl
    exact (allocNode_cut (s := taken) quiet _).bind fun i _ quiet => heInsert_cut quiet i _
  · exact Res.cutBy_stuck _ _

/-- R145's loop. -/
theorem combineAll_cut (quiet : s.noIoFault) (n : Nat) : Cuts faults rewound (combineAll n) s := by
  induction n generalizing s with
  | zero => exact Res.cutBy_ok quiet rfl rfl
  | succ n ih =>
    exact .ite (fun _ => (heCombine_cut quiet).bind fun _ _ => ih) fun _ => Res.cutBy_ok quiet rfl rfl

/-- R145's last line. -/
theorem takeRoot_cut (quiet : s.noIoFault) : Cuts faults rewound takeRoot s := by
  unfold Cuts takeRoot
  rw [State.withOracle_huf]
  split
  · exact Res.cutBy_stuck _ _
  · exact Res.cutBy_ok quiet rfl rfl

/-- R145. -/
theorem heBuild_cut (quiet : s.noIoFault) : Cuts faults rewound heBuild s :=
  (leavesFor_cut quiet _).bind fun _ _ quiet => (combineAll_cut quiet _).bind fun _ _ => takeRoot_cut

/-- R152. -/
theorem serNode_cut (quiet : s.noIoFault) (d i : Nat) : Cuts faults rewound (serNode d i) s := by
  induction d generalizing i s with
  | zero => exact Res.cutBy_stuck _ _
  | succ d ih =>
    refine Res.CutBy.after (t := s.enterNode i) ?_ quiet rfl rfl
    refine Res.CutBy.bind (readNode_cut (s := s.enterNode i) quiet i) fun e t quiet => ?_
    refine Res.CutBy.bind ?_ fun _ _ quiet => Res.cutBy_ok quiet rfl rfl
    cases e with
    | leaf sym => exact (putBit_cut quiet true).bind fun _ _ quiet => putNBytes_cut quiet _
    | internal z o =>
      exact (putBit_cut quiet false).bind fun _ _ quiet => (childIndex_cut quiet z).bind fun zi _ quiet =>
        (ih quiet zi).bind fun _ _ quiet => (childIndex_cut quiet o).bind fun oi _ quiet => ih quiet oi

/-- R152. -/
theorem heSer_cut (quiet : s.noIoFault) (i : Nat) : Cuts faults rewound (heSer i) s :=
  (serNode_cut (s := s.setHuf { s.huf with hstk := [] }) quiet _ i).after quiet rfl rfl

/-- R154, `WALKT`. -/
theorem tableNode_cut (quiet : s.noIoFault) (d i : Nat) : Cuts faults rewound (tableNode d i) s := by
  induction d generalizing i s with
  | zero => exact Res.cutBy_stuck _ _
  | succ d ih =>
    refine Res.CutBy.after (t := s.enterNode i) ?_ quiet rfl rfl
    refine Res.CutBy.bind (readNode_cut (s := s.enterNode i) quiet i) fun e t quiet => ?_
    refine Res.CutBy.bind ?_ fun _ _ quiet => Res.cutBy_ok quiet rfl rfl
    cases e with
    | leaf sym => exact Res.cutBy_ok quiet rfl rfl
    | internal z o =>
      refine (childIndex_cut quiet z).bind fun zi u quiet => ?_
      let left := u.setPath (s.huf.hpath ++ [false])
      refine Res.CutBy.bind ((ih (s := left) quiet zi).after quiet rfl rfl) fun _ u quiet => ?_
      exact (childIndex_cut quiet o).bind fun oi u quiet =>
        (ih (s := u.setPath (s.huf.hpath ++ [true])) quiet oi).after quiet rfl rfl

/-- R154. -/
theorem heTable_cut (quiet : s.noIoFault) : Cuts faults rewound heTable s :=
  (tableNode_cut (s := s.setHuf { s.huf with hstk := [], hpath := [] }) quiet _ _).after quiet rfl rfl

/-- R158, R275: the one change of IN_POS that is no access. -/
theorem heRewind_cut (quiet : s.noIoFault) : Cuts faults true heRewind s := by
  refine .ite (fun _ => ?_) fun _ => Res.cutBy_raised quiet rfl rfl
  refine ⟨fun u hu => ?_, fun _ _ _ => rfl, fun u hu a from_s below => ?_⟩ <;> rw [Res.endsAt_ok.mp hu] at *
  · exact ⟨quiet, rfl, le_rfl, List.prefix_rfl, nofun⟩
  · exact absurd below (Nat.not_lt.mpr from_s)

/-- R159, one symbol. -/
theorem putCode_cut (quiet : s.noIoFault) (sym : Nat) : Cuts faults rewound (putCode sym) s := by
  unfold Cuts putCode
  rw [State.withOracle_huf]
  split
  · exact Res.cutBy_stuck _ _
  · exact putList_cut quiet _

/-- R159's loop. -/
theorem encodeBytes_cut (quiet : s.noIoFault) (n : Nat) : Cuts faults rewound (encodeBytes n) s := by
  induction n generalizing s with
  | zero => exact Res.cutBy_ok quiet rfl rfl
  | succ n ih =>
    exact (inFetch_cut quiet).bind fun b _ quiet => (putCode_cut quiet _).bind fun _ _ => ih

/-- R159. -/
theorem heEncode_cut (quiet : s.noIoFault) : Cuts faults rewound heEncode s :=
  (encodeBytes_cut quiet _).bind fun _ _ quiet => putCode_cut quiet _

/-- An operation run in a phase of its own (R23). -/
theorem Res.CutBy.inPhase {α : Type} {free r : Res α} {p : Phase} (h : free.CutBy faults rewound (s.setPhase p) r)
    (quiet : s.noIoFault) : free.CutBy faults rewound s r := h.after quiet rfl rfl

/-- R160. -/
theorem heCompress_cut (quiet : s.noIoFault) : Cuts faults true heCompress s := by
  refine Res.CutBy.bind ((heFreq_cut (s := s.setPhase .hFreq) quiet).inPhase quiet) fun _ t quiet => ?_
  refine Res.CutBy.bind ((heBuild_cut (s := t.setPhase .hBuild) quiet).inPhase quiet) fun _ t quiet => ?_
  refine Res.CutBy.bind ((heSer_cut (s := t.setPhase .hSer) quiet _).inPhase quiet) fun _ t quiet => ?_
  refine Res.CutBy.bind ((heTable_cut (s := t.setPhase .hTable) quiet).inPhase quiet) fun _ t quiet => ?_
  refine Res.CutBy.bind ((heRewind_cut (s := t.setPhase .hEnc) quiet).inPhase quiet) fun _ t quiet => ?_
  exact heEncode_cut quiet

/-! ### The Huffman decoder -/

/-- R171. -/
theorem countNode_cut (quiet : s.noIoFault) : Cuts faults rewound countNode s :=
  .ite (fun _ => Res.cutBy_raised quiet rfl rfl) fun _ => Res.cutBy_ok quiet rfl rfl

/-- R36, one child of an open node. -/
theorem setZeroChild_cut (quiet : s.noIoFault) (j i : Nat) : Cuts faults rewound (setZeroChild j i) s :=
  (readNode_cut quiet j).bind fun e _ quiet => by
    cases e with
    | leaf _ => exact Res.cutBy_stuck _ _
    | internal z o => exact Res.cutBy_ok quiet rfl rfl

theorem setOneChild_cut (quiet : s.noIoFault) (j i : Nat) : Cuts faults rewound (setOneChild j i) s :=
  (readNode_cut quiet j).bind fun e _ quiet => by
    cases e with
    | leaf _ => exact Res.cutBy_stuck _ _
    | internal z o => exact Res.cutBy_ok quiet rfl rfl

/-- R170: a completed node. -/
theorem completeNode_cut (quiet : s.noIoFault) (d : List (Nat × Bool)) (i : Nat) :
    Cuts faults rewound (completeNode d i) s := by
  induction d, i, s using completeNode.induct with
  | case1 i s => exact Res.cutBy_ok quiet rfl rfl
  | case2 j rest i s => exact (setZeroChild_cut quiet j i).bind fun _ _ quiet => Res.cutBy_ok quiet rfl rfl
  | case3 j rest i s ih => exact (setOneChild_cut quiet j i).bind fun _ t quiet => (ih t quiet).after quiet rfl rfl

/-- R170, R179. -/
theorem takeLeaf_cut (quiet : s.noIoFault) (i : Nat) (field : BitVec 16) : Cuts faults rewound (takeLeaf i field) s :=
  .ite (fun _ => (completeNode_cut (s := s.writeNode i _) quiet _ i).after quiet rfl rfl) fun _ =>
    Res.cutBy_raised quiet rfl rfl

/-- R36, R170. -/
theorem takeInternal_cut (quiet : s.noIoFault) (i : Nat) : Cuts faults rewound (takeInternal i) s :=
  Res.cutBy_ok quiet rfl rfl

/-- R170, one node. -/
theorem deserNode_cut (quiet : s.noIoFault) : Cuts faults rewound deserNode s := by
  refine (getBit_cut quiet).bind fun m t quiet => ?_
  cases m with
  | none => exact Res.cutBy_raised quiet rfl rfl
  | some mark =>
    refine (countNode_cut quiet).bind fun i u quiet => ?_
    cases mark with
    | false => exact takeInternal_cut quiet i
    | true =>
      refine (getNBytes_cut quiet 2).bind fun bs v quiet => ?_
      split
      · exact takeLeaf_cut quiet i _
      · exact Res.cutBy_raised quiet rfl rfl

/-- R170's loop. -/
theorem deserLoop_cut (quiet : s.noIoFault) (n : Nat) : Cuts faults rewound (deserLoop n) s := by
  induction n generalizing s with
  | zero => exact Res.cutBy_raised quiet rfl rfl
  | succ n ih =>
    exact (deserNode_cut quiet).bind fun whole t quiet =>
      .ite (fun _ => Res.cutBy_ok quiet rfl rfl) fun _ => ih quiet

/-- R170. -/
theorem hdDeser_cut (quiet : s.noIoFault) : Cuts faults rewound hdDeser s :=
  (deserLoop_cut (s := s.setHuf { s.huf with dstk := [] }) quiet _).after quiet rfl rfl

/-- R173's loop. -/
theorem walkLoop_cut (quiet : s.noIoFault) (n : Nat) : Cuts faults rewound (walkLoop n) s := by
  induction n generalizing s with
  | zero => exact Res.cutBy_raised quiet rfl rfl
  | succ n ih =>
    refine (readNode_cut quiet _).bind fun e t quiet => ?_
    cases e with
    | leaf sym => exact Res.cutBy_ok quiet rfl rfl
    | internal z o =>
      refine (getBit_cut quiet).bind fun b u quiet => ?_
      cases b with
      | none => exact Res.cutBy_raised quiet rfl rfl
      | some b =>
        exact (childIndex_cut quiet _).bind fun i v quiet => (ih (s := v.setWalk i) quiet).after quiet rfl rfl

/-- R173. -/
theorem hdSymbol_cut (quiet : s.noIoFault) : Cuts faults rewound hdSymbol s :=
  (walkLoop_cut (s := s.setWalk s.huf.root) quiet _).after quiet rfl rfl

/-- R175's loop. -/
theorem symbolLoop_cut (quiet : s.noIoFault) (n : Nat) : Cuts faults rewound (symbolLoop n) s := by
  induction n generalizing s with
  | zero => exact Res.cutBy_raised quiet rfl rfl
  | succ n ih =>
    exact (hdSymbol_cut quiet).bind fun sym t quiet => .ite (fun _ => Res.cutBy_ok quiet rfl rfl) fun _ =>
      (outAppend_cut quiet _).bind fun _ _ => ih

/-- R174, R175. -/
theorem checkRoot_cut (quiet : s.noIoFault) : Cuts faults rewound checkRoot s := by
  refine (readNode_cut quiet _).bind fun e t quiet => ?_
  cases e with
  | leaf sym => exact .ite (fun _ => Res.cutBy_ok quiet rfl rfl) fun _ => Res.cutBy_raised quiet rfl rfl
  | internal z o => exact Res.cutBy_ok quiet rfl rfl

/-- R175. -/
theorem hdDecompress_cut (quiet : s.noIoFault) : Cuts faults rewound hdDecompress s := by
  let start := (s.setPhase .hDeser).setHuf { s.huf with nNodes := 0 }
  refine Res.CutBy.bind ((hdDeser_cut (s := start) quiet).after quiet rfl rfl) fun _ t quiet => ?_
  exact (checkRoot_cut quiet).bind fun _ u quiet => (symbolLoop_cut (s := u.setPhase .hWalk) quiet _).inPhase quiet

/-- R99, R173. -/
theorem walkCode_cut (quiet : s.noIoFault) (path : List Bool) : Cuts faults rewound (walkCode path) s := by
  induction path generalizing s with
  | nil =>
    refine (readNode_cut quiet _).bind fun e t quiet => ?_
    cases e with
    | leaf sym => exact Res.cutBy_ok quiet rfl rfl
    | internal z o => exact Res.cutBy_raised quiet rfl rfl
  | cons b bs ih =>
    refine (readNode_cut quiet _).bind fun e t quiet => ?_
    cases e with
    | leaf sym => exact Res.cutBy_ok quiet rfl rfl
    | internal z o =>
      exact (childIndex_cut quiet _).bind fun i v quiet => (ih (s := v.setWalk i) quiet).after quiet rfl rfl

/-- R175 on one symbol. -/
theorem takeSymbol_cut (quiet : s.noIoFault) (sym : Nat) : Cuts faults rewound (takeSymbol sym) s :=
  .ite (fun _ => Res.cutBy_ok quiet rfl rfl) fun _ => outAppend_cut quiet _

/-! ### The LZW encoder -/

/-- R186. -/
theorem leInit_cut (quiet : s.noIoFault) : Cuts faults rewound leInit s := by
  let start := s.setLzw s.lzw.encoderStart
  refine Res.CutBy.after (t := start) ?_ quiet rfl rfl
  exact .ite (fun _ => (inFetch_cut (s := start) quiet).bind fun _ _ quiet => Res.cutBy_ok quiet rfl rfl) fun _ =>
    Res.cutBy_ok quiet rfl rfl

/-- R188. -/
theorem leEmit_cut (quiet : s.noIoFault) (c : Nat) :
    Cuts faults rewound (leEmit c) s := putBits_cut quiet c _

/-- R189. -/
theorem leInsert_cut (quiet : s.noIoFault) (p : Nat) (b : Byte) : Cuts faults rewound (leInsert p b) s :=
  .ite (fun _ => Res.cutBy_raised quiet rfl rfl) fun _ => Res.cutBy_ok quiet rfl rfl

/-- R190. -/
theorem leGrow_cut (quiet : s.noIoFault) (n : Nat) : Cuts faults rewound (leGrow n) s :=
  .ite (fun _ => .ite (fun _ => Res.cutBy_raised quiet rfl rfl) fun _ => Res.cutBy_ok quiet rfl rfl) fun _ =>
    Res.cutBy_ok quiet rfl rfl

/-- R187. -/
theorem leStep_cut (quiet : s.noIoFault) (b : Byte) : Cuts faults rewound (leStep b) s := by
  unfold Cuts leStep
  rw [State.withOracle_lzw]
  split
  · exact Res.cutBy_ok quiet rfl rfl
  · exact (leEmit_cut quiet _).bind fun _ _ quiet => (leInsert_cut quiet _ b).bind fun n _ quiet =>
      (leGrow_cut quiet n).bind fun _ _ quiet => Res.cutBy_ok quiet rfl rfl

/-- R192. -/
theorem leFinish_cut (quiet : s.noIoFault) : Cuts faults rewound leFinish s :=
  .ite (fun _ => leEmit_cut quiet _) fun _ => Res.cutBy_ok quiet rfl rfl

/-- R194's loop. -/
theorem leSteps_cut (quiet : s.noIoFault) (n : Nat) : Cuts faults rewound (leSteps n) s := by
  induction n generalizing s with
  | zero => exact Res.cutBy_ok quiet rfl rfl
  | succ n ih => exact (inFetch_cut quiet).bind fun b _ quiet => (leStep_cut quiet b).bind fun _ _ => ih

/-- R194. -/
theorem leCompress_cut (quiet : s.noIoFault) : Cuts faults rewound leCompress s := by
  refine Res.CutBy.bind ((leInit_cut (s := s.setPhase .lEnc) quiet).inPhase quiet) fun _ t quiet => ?_
  exact (leSteps_cut quiet _).bind fun _ _ => leFinish_cut

/-! ### The LZW decoder -/

/-- R207. -/
theorem ldReadCode_cut (quiet : s.noIoFault) : Cuts faults rewound ldReadCode s :=
  .ite (fun _ => Res.cutBy_ok quiet rfl rfl) fun _ => .ite (fun _ => Res.cutBy_raised quiet rfl rfl) fun _ =>
    .ite (fun _ => Res.cutBy_raised quiet rfl rfl) fun _ => getBits_cut quiet _

/-- R39. -/
theorem readDict_cut (quiet : s.noIoFault) (c : Nat) : Cuts faults rewound (readDict c) s := by
  unfold Cuts readDict
  rw [State.withOracle_lzw]
  split
  · exact Res.cutBy_stuck _ _
  · exact Res.cutBy_ok quiet rfl rfl

/-- R209's loop. -/
theorem firstLoop_cut (quiet : s.noIoFault) (n c : Nat) : Cuts faults rewound (firstLoop n c) s := by
  induction n generalizing c s with
  | zero => exact Res.cutBy_stuck _ _
  | succ n ih =>
    exact .ite (fun _ => Res.cutBy_ok quiet rfl rfl) fun _ =>
      (readDict_cut quiet c).bind fun e _ quiet => ih quiet e.pred

/-- R210's walk. -/
theorem pushChain_cut (quiet : s.noIoFault) (n c : Nat) : Cuts faults rewound (pushChain n c) s := by
  induction n generalizing c s with
  | zero => exact Res.cutBy_stuck _ _
  | succ n ih =>
    exact .ite (fun _ => Res.cutBy_ok quiet rfl rfl) fun _ => (readDict_cut quiet c).bind fun e v quiet =>
      (ih (s := v.setXstk (e.byte :: v.lzw.xstk)) quiet e.pred).after quiet rfl rfl

/-- R210's pops. -/
theorem popStack_cut (quiet : s.noIoFault) (bytes : List Byte) : Cuts faults rewound (popStack bytes) s := by
  induction bytes generalizing s with
  | nil => exact Res.cutBy_ok quiet rfl rfl
  | cons b bytes ih =>
    exact (outAppend_cut quiet b).bind fun _ v quiet => (ih (s := v.setXstk bytes) quiet).after quiet rfl rfl

/-- R210. -/
theorem ldExpand_cut (quiet : s.noIoFault) (c : Nat) : Cuts faults rewound (ldExpand c) s :=
  Res.CutBy.bind ((pushChain_cut (s := s.setXstk []) quiet _ c).after quiet rfl rfl) fun _ _ quiet =>
    popStack_cut quiet _

/-- R211. -/
theorem ldGrow_cut (quiet : s.noIoFault) (n : Nat) : Cuts faults rewound (ldGrow n) s := by
  rw [Cuts, ldGrow_eq, ldGrow_eq, State.withOracle_lzw]
  split
  · exact Res.cutBy_ok quiet rfl rfl
  · exact Res.cutBy_ok quiet rfl rfl

/-- R213, R196. -/
theorem ldAppend_cut (quiet : s.noIoFault) (fb : Byte) : Cuts faults rewound (ldAppend fb) s :=
  .ite (fun _ => Res.cutBy_raised quiet rfl rfl) fun _ => Res.cutBy_ok quiet rfl rfl

/-- R213 but for its last line. -/
theorem ldStepBody_cut (quiet : s.noIoFault) : Cuts faults rewound ldStepBody s :=
  .ite (fun _ => Res.cutBy_raised quiet rfl rfl) fun _ =>
    (firstLoop_cut quiet _ _).bind fun fb _ quiet => (ldExpand_cut quiet _).bind fun _ _ quiet =>
      (ldAppend_cut quiet fb).bind fun _ v quiet =>
        (ldGrow_cut (s := v.setLzw { v.lzw with c1 := v.lzw.c2 }) quiet _).after quiet rfl rfl

/-- R213's last line. -/
theorem readC2_cut (quiet : s.noIoFault) : Cuts faults rewound readC2 s :=
  (ldReadCode_cut quiet).bind fun c _ quiet => by cases c <;> exact Res.cutBy_ok quiet rfl rfl

/-- R213. -/
theorem ldStep_cut (quiet : s.noIoFault) : Cuts faults rewound ldStep s :=
  (ldStepBody_cut quiet).bind fun _ _ => readC2_cut

/-- R217's loop. -/
theorem ldSteps_cut (quiet : s.noIoFault) (n : Nat) : Cuts faults rewound (ldSteps n) s := by
  induction n generalizing s with
  | zero => exact Res.cutBy_ok quiet rfl rfl
  | succ n ih => exact .ite (fun _ => (ldStep_cut quiet).bind fun _ _ => ih) fun _ => Res.cutBy_ok quiet rfl rfl

/-- R215, R217. -/
theorem takeFirstCode_cut (quiet : s.noIoFault) (c : Nat) : Cuts faults rewound (takeFirstCode c) s :=
  .ite (fun _ => Res.cutBy_raised quiet rfl rfl) fun _ => Res.cutBy_ok quiet rfl rfl

/-- R217. -/
theorem ldDecompress_cut (quiet : s.noIoFault) : Cuts faults rewound ldDecompress s := by
  refine Res.CutBy.bind (Res.cutBy_ok quiet rfl rfl) fun _ t quiet => ?_
  refine (ldReadCode_cut quiet).bind fun c u quiet => ?_
  cases c with
  | none => exact Res.cutBy_ok quiet rfl rfl
  | some c =>
    exact (takeFirstCode_cut quiet c).bind fun _ _ quiet => (readC2_cut quiet).bind fun _ _ quiet =>
      (ldSteps_cut quiet _).bind fun _ _ quiet => ldExpand_cut quiet _

/-- R207 on an item's own bits. -/
theorem itemCode_cut (quiet : s.noIoFault) (w c : Nat) : Cuts faults rewound (itemCode w c) s :=
  .ite (fun _ => Res.cutBy_ok quiet rfl rfl) fun _ => .ite (fun _ => Res.cutBy_raised quiet rfl rfl) fun _ =>
    .ite (fun _ => Res.cutBy_raised quiet rfl rfl) fun _ => Res.cutBy_ok quiet rfl rfl

/-- R217 on one code read. -/
theorem takeCode_cut (quiet : s.noIoFault) (c : Option Nat) : Cuts faults rewound (takeCode c) s := by
  cases c with
  | none =>
    unfold Cuts takeCode
    rw [State.withOracle_lzw]
    dsimp only
    split <;> exact Res.cutBy_ok quiet rfl rfl
  | some c =>
    exact .ite (fun _ => (ldStepBody_cut (s := s.setC2 (some c)) quiet).after quiet rfl rfl) fun _ =>
      takeFirstCode_cut quiet c

/-! ### The dispatcher (R226, R229) -/

/-- R226: the selected codec. -/
theorem encodeWith_cut (quiet : s.noIoFault) (m : Byte) : Cuts faults true (encodeWith m) s :=
  .ite (fun _ => heCompress_cut quiet) fun _ => leCompress_cut quiet

/-- R226. -/
theorem compressCall_cut (quiet : s.noIoFault) : Cuts faults true compressCall s := by
  refine .ite (fun _ => Res.cutBy_raised quiet rfl rfl) fun _ => ?_
  refine Res.CutBy.bind (Res.cutBy_ok quiet rfl rfl) fun _ _ quiet => ?_
  refine (putNBytes_cut quiet _).bind fun _ _ quiet => (encodeWith_cut quiet _).bind fun _ t quiet => ?_
  refine Res.CutBy.bind ((closeWriter_cut (s := t.setPhase .close) quiet).inPhase quiet) fun _ _ quiet => ?_
  exact Res.cutBy_ok quiet rfl rfl

/-- R229, R231. -/
theorem afterTag_cut (quiet : s.noIoFault) (tag : Byte) : Cuts faults rewound (afterTag tag) s := by
  refine Res.CutBy.bind (.ite (fun _ => hdDecompress_cut quiet) fun _ => ?_) fun _ _ quiet => Res.cutBy_ok quiet rfl rfl
  exact .ite (fun _ => ldDecompress_cut quiet) fun _ => Res.cutBy_raised quiet rfl rfl

/-- R229, R230: at call start IN_POS is 0 already (R44), so opening the reader leaves the streams. -/
theorem decompressCall_cut (quiet : s.noIoFault) (start : s.io.inPos = 0) : Cuts faults rewound decompressCall s := by
  have opened : { s.io with inPos := 0 } = s.io := by rw [← start]
  refine Res.CutBy.bind (Res.cutBy_ok quiet opened rfl) fun _ _ quiet => ?_
  refine (getNBytes_cut quiet 1).bind fun bytes _ quiet => ?_
  split
  · exact afterTag_cut quiet _
  · exact Res.cutBy_raised quiet rfl rfl

/-! ### Every instruction -/

/-- R244, R249, R250: what `CutBy` says of the outcomes. The run without faults goes from `s` to `u`; `cut` is the
outcome with the oracle that fails `faults`. -/
structure CutsOff (faults : List (Nat × Nat)) (rewound : Bool) (s u : State)
    (cut : Host.Outcome State Fault Refusal) : Prop where
  callNo : u.env.callNo = s.env.callNo
  unfailed : Unfailed faults s u.env.accNo → cut = .next (u.withOracle faults)
  first : ∀ a, s.env.accNo ≤ a → a < u.env.accNo → (s.env.callNo, a) ∈ faults → Unfailed faults s a →
    ∃ t, cut = .next t ∧ t.failedWith .ioFailure ∧ t.env.callNo = s.env.callNo ∧ t.env.accNo = a + 1 ∧
      t.io.out <+: u.io.out ∧ s.io.out <+: t.io.out ∧
      (rewound = false → t.io.inPos + t.outLen = s.io.inPos + s.outLen + (a - s.env.accNo))

section Outcomes

variable {u : State}

/-- R249, R250: an operation's outcome is its own end or the abort at its `raise`. -/
theorem Res.CutBy.finish {free r : Res Unit} (h : free.CutBy faults rewound s r) (hu : free.finish = .next u) :
    CutsOff faults rewound s u r.finish := by
  have ends : ∃ v, free.endsAt v ∧ u.env = v.env ∧ u.io = v.io ∧
      (r = free.withOracle faults → r.finish = .next (u.withOracle faults)) := by
    rcases Res.finish_eq_next.mp hu with e | ⟨k, v, e, rfl⟩
    · exact ⟨u, .inl ⟨(), e⟩, rfl, rfl, fun same => by rw [same, e]; rfl⟩
    · exact ⟨v, .inr ⟨k, e⟩, rfl, rfl, fun same => by rw [same, e]; rfl⟩
  obtain ⟨v, ends, env, io, same⟩ := ends
  refine ⟨by rw [env, (h.moves v ends).callNo], fun free => same (h.unfailed v ends (env ▸ free)),
    fun a from_s below hit free => ?_⟩
  obtain ⟨w, run, moves, at_a, out⟩ := h.cut v ends a from_s (env ▸ below) hit free
  have aborted : r.finish = .next ((w.withOracle faults).countAccess.abort .ioFailure) := Res.finish_of_raised run
  refine ⟨_, aborted, ⟨rfl, rfl, rfl⟩, moves.callNo, congrArg (· + 1) at_a, io ▸ out, moves.out,
    fun once => ?_⟩
  have bytes := moves.bytes once
  simp only [State.outLen, State.abort_io, State.countAccess_io, State.withOracle_io] at bytes ⊢
  omega

/-- The same for an operation that returns a value. -/
theorem Res.CutBy.finishWith {α : Type} {free r : Res α} {f : α → UopResult} (h : free.CutBy faults rewound s r)
    (hu : free.finishWith f = .next u) : CutsOff faults rewound s u (r.finishWith f) :=
  Res.CutBy.finish (h.bind fun a v quiet => Res.cutBy_ok (t := v.setResult (f a)) quiet rfl rfl) hu

/-- An operation with no access has none that fails. -/
theorem CutsOff.of_noAccess {cut : Host.Outcome State Fault Refusal} (env : u.env = s.env)
    (run : cut = .next (u.withOracle faults)) : CutsOff faults rewound s u cut :=
  ⟨by rw [env], fun _ => run, fun a from_s below => absurd (env ▸ below) (Nat.not_lt.mpr from_s)⟩

/-- R92, R225: nor has a reserved word, taken or not. -/
theorem execCmdReserved_cut {m op : Byte} (notCompress : op ≠ 1) (notDecompress : op ≠ 2)
    (h : execCmdReserved m op s = .next u) :
    CutsOff faults rewound s u (execCmdReserved m op (s.withOracle faults)) := by
  unfold execCmdReserved at h ⊢
  have h1 : opField (cmdWordOf m op) ≠ 1 := by rwa [opField_cmdWordOf]
  have h2 : opField (cmdWordOf m op) ≠ 2 := by rwa [opField_cmdWordOf]
  by_cases busy : s.regs.status = .busy
  · rw [hostWrite_busy busy] at h
    cases h
    exact .of_noAccess rfl (hostWrite_busy (s := s.withOracle faults) busy _)
  · rw [hostWrite_reserved busy h1 h2] at h
    cases h
    exact .of_noAccess rfl (hostWrite_reserved (s := s.withOracle faults) busy h1 h2)

/-- R158, R275: nor has the rewind. -/
theorem heRewind_env (h : (heRewind s).finish = .next u) : u.env = s.env := by
  rcases heRewind_cases s with ⟨-, e⟩ | ⟨-, e⟩ <;> rw [e] at h <;> cases h <;> rfl

/-- Every operation but the two commands, from where the machine is. -/
theorem exec_cut {i : Instr} (quiet : s.noIoFault) (single : isCallOp i = false) (wf : i.wellFormed = true)
    (h : exec i s = .next u) : CutsOff faults (rewinds i) s u (exec i (s.withOracle faults)) := by
  cases i with
  | compress m => cases single
  | decompress m => cases single
  | cmdReserved m op =>
    simp only [Instr.wellFormed, Bool.and_eq_true, bne_iff_ne] at wf
    exact execCmdReserved_cut wf.1 wf.2 h
  | tagHuffman => exact (afterTag_cut quiet _).finish h
  | tagLzw => exact (afterTag_cut quiet _).finish h
  | tagReserved tag => exact (afterTag_cut quiet tag).finish h
  | hnodeLeaf sym =>
    exact Res.CutBy.finish ((countNode_cut quiet).bind fun i _ quiet =>
      (takeLeaf_cut quiet i sym).bind fun _ _ quiet => Res.cutBy_ok quiet rfl rfl) h
  | hnodeInternal =>
    exact Res.CutBy.finish ((countNode_cut quiet).bind fun i _ quiet =>
      (takeInternal_cut quiet i).bind fun _ _ quiet => Res.cutBy_ok quiet rfl rfl) h
  | hcode path =>
    exact Res.CutBy.finish (Res.CutBy.bind
      ((walkCode_cut (s := s.setWalk s.huf.root) quiet path).after quiet rfl rfl) fun sym _ quiet =>
        takeSymbol_cut quiet sym) h
  | lcode w c => exact Res.CutBy.finish ((itemCode_cut quiet w c).bind fun c _ quiet => takeCode_cut quiet c) h
  | bcOpenW => cases h; exact .of_noAccess rfl rfl
  | bcOpenR => cases h; exact .of_noAccess rfl rfl
  | bcPutBit b => exact (putBit_cut quiet b).finish h
  | bcPutNBytes bytes => exact (putNBytes_cut quiet bytes).finish h
  | bcClose => exact (closeWriter_cut quiet).finish h
  | bcGetBit => exact (getBit_cut quiet).finishWith h
  | bcGetNBytes n => exact (getNBytes_cut quiet n).finishWith h
  | bcPutBits v n => exact (putBits_cut quiet v n).finish h
  | bcEof => cases h; exact .of_noAccess rfl rfl
  | bcGetBits n => exact (getBits_cut quiet n).finishWith h
  | heFreq => exact (heFreq_cut quiet).finish h
  | heInsert n w => exact (heInsert_cut quiet n w).finish h
  | heLeaves => exact (leavesFor_cut quiet _).finish h
  | heCombine => exact (heCombine_cut quiet).finish h
  | heBuild => exact (heBuild_cut quiet).finish h
  | heSer n => exact (heSer_cut quiet n).finish h
  | heTable => exact (heTable_cut quiet).finish h
  | heRewind =>
    have same := heRewind_env h
    exact .of_noAccess same (((heRewind_cut quiet).finish h).unfailed fun a from_s below =>
      absurd (same ▸ below) (Nat.not_lt.mpr from_s))
  | heEncode => exact (heEncode_cut quiet).finish h
  | heCompress => exact (heCompress_cut quiet).finish h
  | hdDeser => exact (hdDeser_cut quiet).finishWith h
  | hdSymbol => exact (hdSymbol_cut quiet).finishWith h
  | hdDecompress => exact (hdDecompress_cut quiet).finish h
  | leInit => exact (leInit_cut quiet).finish h
  | leStep b => exact (leStep_cut quiet b).finish h
  | leEmit c => exact (leEmit_cut quiet c).finish h
  | leInsert p b => exact (leInsert_cut quiet p b).finishWith h
  | leGrow n => exact (leGrow_cut quiet n).finish h
  | leFinish => exact (leFinish_cut quiet).finish h
  | leCompress => exact (leCompress_cut quiet).finish h
  | ldInit => cases h; exact .of_noAccess rfl rfl
  | ldReadCode => exact (ldReadCode_cut quiet).finishWith h
  | ldFirst c => exact (firstLoop_cut quiet _ c).finishWith h
  | ldExpand c => exact (ldExpand_cut quiet c).finish h
  | ldGrow n => exact (ldGrow_cut quiet n).finish h
  | ldStep => exact (ldStep_cut quiet).finish h
  | ldFlush => exact (ldExpand_cut quiet _).finish h
  | ldDecompress => exact (ldDecompress_cut quiet).finish h

/-- The two commands, from call start. -/
theorem exec_call_cut {i : Instr} (quiet : s.noIoFault) (call : isCallOp i = true) (idle : s.regs.status ≠ .busy)
    (h : exec i s = .next u) :
    ∃ w, CutsOff faults (rewinds i) (s.setCmd w).callStart u (exec i (s.withOracle faults)) := by
  cases i with
  | compress m =>
    rw [exec_compress idle] at h
    rw [exec_compress (s := s.withOracle faults) idle]
    exact ⟨_, (compressCall_cut (s := (s.setCmd (cmdWordOf m 1)).callStart) quiet).finish h⟩
  | decompress m =>
    rw [exec_decompress idle] at h
    rw [exec_decompress (s := s.withOracle faults) idle]
    exact ⟨_, (decompressCall_cut (s := (s.setCmd (cmdWordOf m 2)).callStart) quiet rfl).finish h⟩
  | _ => cases call

end Outcomes

/-- R244, R249, R250: what O60 claims, for every instruction a format can hold. -/
theorem exec_faultCuts (i : Instr) (s u : State) (wf : i.wellFormed = true)
    (idle : isCallOp i = true → s.regs.status ≠ .busy) (run : exec i (s.withOracle []) = .next u) :
    ((∀ a, firstAccess i s ≤ a → a < u.env.accNo → (u.env.callNo, a) ∉ s.env.ioFaults) →
      exec i s = .next (u.withOracle s.env.ioFaults)) ∧
    (∀ a, firstAccess i s ≤ a → a < u.env.accNo → (u.env.callNo, a) ∈ s.env.ioFaults →
      (∀ b, firstAccess i s ≤ b → b < a → (u.env.callNo, b) ∉ s.env.ioFaults) →
      ∃ t, exec i s = .next t ∧ t.failedWith .ioFailure ∧ t.env.callNo = u.env.callNo ∧ t.env.accNo = a + 1 ∧
        t.io.out <+: u.io.out ∧ (isCallOp i = false → s.io.out <+: t.io.out) ∧
        (rewinds i = false → t.io.inPos + t.outLen = bytesMoved i s + (a - firstAccess i s))) := by
  cases call : isCallOp i with
  | false =>
    have cuts := exec_cut (s := s.withOracle []) (faults := s.env.ioFaults) rfl call wf run
    simp only [firstAccess, bytesMoved, call, cuts.callNo]
    refine ⟨cuts.unfailed, fun a from_s below hit free => ?_⟩
    obtain ⟨t, ran, failed, callNo, accNo, out, grown, bytes⟩ := cuts.first a from_s below hit free
    exact ⟨t, ran, failed, callNo, accNo, out, fun _ => grown, bytes⟩
  | true =>
    obtain ⟨w, cuts⟩ := exec_call_cut (s := s.withOracle []) (faults := s.env.ioFaults) rfl call (idle call) run
    simp only [firstAccess, bytesMoved, call, cuts.callNo]
    refine ⟨cuts.unfailed, fun a from_s below hit free => ?_⟩
    obtain ⟨t, ran, failed, callNo, accNo, out, -, bytes⟩ := cuts.first a from_s below hit free
    exact ⟨t, ran, failed, callNo, accNo, out, nofun, bytes⟩

/-! ### The claim for every term -/

/-- A machine before its first call, one access already made, whose oracle fails that call's first access. -/
def State.failsAtCallStart : State := { State.reset with env := { Env.default with ioFaults := [(1, 0)], accNo := 1 } }

/-- Refutes O60, which does not ask for a well-formed instruction as `exec_faultCuts` does, on a term outside R92's
range: CMD.RESERVED with OP 0x01 is no command to `isCallOp`, but its word starts a COMPRESS call (R225), which
counts its accesses from 0. So the failing access 0 of that call lies below the access 1 the claim starts at, and
the claim has the call end DONE though it fails on the tag byte. -/
theorem not_faultCutsRun : ¬ Obligations.FaultCutsRun := by
  intro claim
  obtain ⟨unfailed, -⟩ := claim (.cmdReserved 1 1) State.failsAtCallStart _ (fun call => by cases call) rfl
  have cut : ∃ t, exec (.cmdReserved 1 1) State.failsAtCallStart = .next t ∧ t.failedWith .ioFailure :=
    ⟨_, rfl, rfl, rfl, rfl⟩
  obtain ⟨t, run, failed, -⟩ := cut
  rw [unfailed fun a from1 below => absurd below (Nat.not_lt.mpr from1)] at run
  cases run
  cases failed

end Sys2Proof.Machine
end

section
/-! PROOFS, HostMoves. The machine's step by the host's next move (log entries 1 to 3, 25). -/

namespace Sys2Proof.Machine

/-- R272: with an item next, the step puts it before the block with that move made. -/
theorem step_issue {s : State} {e : Encoded} {rest : List HostMove} (next : s.moves = .issue e :: rest) :
    step s = runItem e { s with moves := rest } := by
  rw [step, next]

/-- R272, R260: with no move the block waits. -/
theorem step_waits {s : State} (none : s.moves = []) : step s = .next s := by
  rw [step, none]

/-- R273: with a supply next, the step is that supply. -/
theorem step_supply {s : State} {bytes : List Byte} {rest : List HostMove} (next : s.moves = .supply bytes :: rest) :
    step s = .next ({ s with moves := rest }.supplied bytes) := by
  rw [step, next]

/-- An item the decoder reads runs as what it reads. -/
theorem runItem_of_decode {e : Encoded} {i : Instr} (read : decode e = .ok i) (s : State) : runItem e s = exec i s := by
  rw [runItem, read]

/-- A row's word is read as the decoder reads its item (log entry 4). -/
theorem decode_tableWord {nbits w : Nat} {i : Instr} (read : decodeTableWord nbits w = some i) :
    decode (tableWord nbits w) = .ok i := by
  unfold decodeTableWord at read
  split at read
  · next j ok => rw [ok, Option.some.inj read]
  · cases read

/-- R282: outside a call a supply replaces IN. -/
theorem supplied_of_idle {s : State} (idle : s.regs.status ≠ .busy) (bytes : List Byte) :
    s.supplied bytes = { s with io := { s.io with inp := bytes } } := if_neg idle

/-- Settles O2, by the host's next move. -/
theorem stepRunsDecoded : Obligations.StepRunsDecoded := by
  refine fun s => ⟨fun e rest i next read => ?_, fun nbits w i read => ?_, step_waits, fun bytes rest next idle => ?_⟩
  · rw [step_issue next, runItem_of_decode read]
  · rw [step_issue (s := s.withFetchWord nbits w) rfl, runItem_of_decode (decode_tableWord read)]
    rfl
  · rw [step_supply next, supplied_of_idle (s := { s with moves := rest }) idle]

end Sys2Proof.Machine
end

section
/-! PROOFS, CallsEnd. Every accepted command ends (R289): no call meets a fault of the model. Without failing accesses
each codec ends on any input: what it reads is inside IN, in the tree it has read, and in the dictionary it has filled.
With failing accesses the call is that run, or the part of it before the first of them (R249). -/

namespace Sys2Proof.Machine

/-! ### Operations that end -/

/-- The operation ends, at a `raise` or well, and then in a state that meets `P`. -/
def Res.EndsIn {α : Type} (P : State → Prop) : Res α → Prop
  | .ok _ t => P t
  | .raised _ _ => True
  | .stuck _ => False

/-- The operation ends, well or at a `raise`. -/
abbrev Res.Ends {α : Type} (r : Res α) : Prop := r.EndsIn fun _ => True

section Rules

variable {α β : Type} {P Q : State → Prop}

theorem Res.endsIn_ok {t : State} (a : α) (h : P t) : (Res.ok a t).EndsIn P := h

theorem Res.endsIn_raised (k : ErrKind) (t : State) : (Res.raised k t : Res α).EndsIn P := trivial

theorem Res.EndsIn.imp {r : Res α} (h : r.EndsIn P) (hPQ : ∀ t, P t → Q t) : r.EndsIn Q := by
  cases r with
  | ok a t => exact hPQ t h
  | raised k t => trivial
  | stuck f => exact h

/-- R10: a sequence ends where its first part does, and its second wherever the first ends well. -/
theorem Res.EndsIn.bind {r : Res α} {f : α → State → Res β} (h : r.EndsIn P)
    (hf : ∀ a t, P t → (f a t).EndsIn Q) : (r.bind f).EndsIn Q := by
  cases r with
  | ok a t => exact hf a t h
  | raised k t => trivial
  | stuck e => exact h

/-- R249, R250: an operation that ends leaves a next state. -/
theorem Res.EndsIn.finish {r : Res Unit} (h : r.EndsIn P) : ∃ t, r.finish = .next t := by
  cases r with
  | ok a t => exact ⟨t, rfl⟩
  | raised k t => exact ⟨t.abort k, rfl⟩
  | stuck f => exact h.elim

end Rules

/-! ### The accesses and the writer (R61, R62) -/

/-- The same streams but for OUT: as many bytes of IN are left. -/
def SameInput (s t : State) : Prop := t.io.inp = s.io.inp ∧ t.io.inPos = s.io.inPos

theorem SameInput.trans {s t u : State} (h : SameInput s t) (h' : SameInput t u) : SameInput s u :=
  ⟨h'.1.trans h.1, h'.2.trans h.2⟩

theorem outAppend_ends (b : Byte) (s : State) : (outAppend b s).EndsIn (SameInput s) := by
  rcases outAppend_cases b s with ⟨-, e⟩ | ⟨-, e⟩ <;> rw [e]
  · exact Res.endsIn_ok _ ⟨rfl, rfl⟩
  · exact Res.endsIn_raised ..

theorem putBit_ends (b : Bool) (s : State) : (putBit b s).EndsIn (SameInput s) := by
  rw [putBit_eq]
  split
  · exact (outAppend_ends _ _).bind fun _ t (same : SameInput s t) => Res.endsIn_ok _ same
  · exact Res.endsIn_ok _ ⟨rfl, rfl⟩

theorem putBits_ends (v n : Nat) (s : State) : (putBits v n s).EndsIn (SameInput s) := by
  induction n generalizing s with
  | zero => exact Res.endsIn_ok _ ⟨rfl, rfl⟩
  | succ n ih => exact (putBit_ends _ s).bind fun _ t same => (ih t).imp fun _ => same.trans

theorem closeWriter_ends (s : State) : (closeWriter s).Ends := by
  rw [closeWriter]
  split
  · exact Res.endsIn_ok _ trivial
  · exact (outAppend_ends _ _).bind fun _ _ _ => Res.endsIn_ok _ trivial

/-- R61: where a byte of IN is left the read ends, with one byte less left. -/
theorem inFetch_ends {s : State} {n : Nat} (left : n + 1 ≤ s.inLen - s.io.inPos) :
    (inFetch s).EndsIn fun t => n ≤ t.inLen - t.io.inPos := by
  rcases inFetch_cases s with ⟨none, -⟩ | ⟨b, -, ⟨-, e⟩ | ⟨-, e⟩⟩
  · have past : s.inLen ≤ s.io.inPos := List.getElem?_eq_none_iff.mp none
    omega
  · rw [e]
    refine Res.endsIn_ok _ ?_
    change n ≤ s.inLen - (s.io.inPos + 1)
    omega
  · rw [e]
    exact Res.endsIn_raised ..

/-! ### COMPRESS with METHOD 0 (R160, R275) -/

/-- R275: where IN cannot be repositioned, HE.COMPRESS raises at its rewind, after the first pass. -/
theorem heCompress_notSeekable {s : State} (quiet : s.noIoFault) (fixed : s.env.seekable = false)
    (clean : s.writerClean) (start : s.io.inPos = 0) (noFreq : s.huf.freq = []) (noList : s.huf.list = [])
    (noNodes : s.huf.nNodes = 0) (noCodes : s.huf.ctab = []) : ∃ t, heCompress s = .raised .ioFailure t := by
  have nonempty : presentIn (countOf s.io.inp) ≠ [] := List.ne_nil_of_mem (eos_mem_presentIn s.io.inp)
  have leaves := huffmanTree_leaves nonempty
  obtain ⟨t, first, denotes, codes, -, -, only⟩ := firstPass_ok quiet clean start noFreq noList noNodes
  have fixedT : t.env.seekable = false := by
    rw [only]
    exact fixed
  obtain ⟨c, table, -⟩ := heTable_ok (s := t.setPhase .hTable) denotes (huffmanTree_depth nonempty)
    (leaves.nodup_iff.mpr (nodup_presentIn _)) (codes.trans noCodes)
  let u := ((t.setPhase .hTable).setHuf { t.huf with ctab := c, hstk := [], hpath := [] }).setPhase .hEnc
  have rewind : heRewind u = .raised .ioFailure u := if_neg (Bool.eq_false_iff.mp fixedT)
  refine ⟨u, ?_⟩
  calc heCompress s
      = ((heFreq (s.setPhase .hFreq)).bind fun _ s1 =>
          (heBuild (s1.setPhase .hBuild)).bind fun _ s2 => heSer s2.huf.root (s2.setPhase .hSer)).bind fun _ s3 =>
            (heTable (s3.setPhase .hTable)).bind fun _ s4 =>
              (heRewind (s4.setPhase .hEnc)).bind fun _ s5 => heEncode s5 := by
        simp only [heCompress, Res.bind_assoc]
    _ = (heRewind u).bind fun _ v => heEncode v := by
        rw [first, Res.bind_ok, table]
        rfl
    _ = .raised .ioFailure u := by rw [rewind, Res.bind_raised]

/-- R160: from call start's Huffman data, whether IN can be repositioned or not. -/
theorem heCompress_ends {s : State} (quiet : s.noIoFault) (clean : s.writerClean) (start : s.io.inPos = 0)
    (noFreq : s.huf.freq = []) (noList : s.huf.list = []) (noNodes : s.huf.nNodes = 0) (noCodes : s.huf.ctab = []) :
    (heCompress s).Ends := by
  cases seekable : s.env.seekable with
  | true =>
    obtain ⟨t, run, -⟩ := heCompress_ok quiet seekable clean start noFreq noList noNodes noCodes
    rw [run]
    exact Res.endsIn_ok _ trivial
  | false =>
    obtain ⟨t, run⟩ := heCompress_notSeekable quiet seekable clean start noFreq noList noNodes noCodes
    rw [run]
    exact Res.endsIn_raised ..

/-! ### COMPRESS with METHOD 1 (R194) -/

theorem leInsert_ends (p : Nat) (b : Byte) (s : State) : (leInsert p b s).EndsIn (SameInput s) := by
  rcases leInsert_cases p b s with ⟨-, e⟩ | ⟨-, e⟩ <;> rw [e]
  · exact Res.endsIn_raised ..
  · exact Res.endsIn_ok _ ⟨rfl, rfl⟩

theorem leGrow_ends (n : Nat) (s : State) : (leGrow n s).EndsIn (SameInput s) := by
  rcases leGrow_cases n s with ⟨-, e⟩ | ⟨-, -, e⟩ | ⟨-, -, e⟩ <;> rw [e]
  · exact Res.endsIn_ok _ ⟨rfl, rfl⟩
  · exact Res.endsIn_raised ..
  · exact Res.endsIn_ok _ ⟨rfl, rfl⟩

/-- R187: a step of the encoder ends, and reads nothing of IN. -/
theorem leStep_ends (b : Byte) (s : State) : (leStep b s).EndsIn (SameInput s) := by
  cases pair : s.lzw.eDict.read (pairKey s.lzw.cur b) with
  | some c =>
    rw [leStep_hit pair]
    exact Res.endsIn_ok _ ⟨rfl, rfl⟩
  | none =>
    rw [leStep_miss pair]
    refine (putBits_ends ..).bind fun _ t emitted => ?_
    refine (leInsert_ends _ _ t).bind fun n u inserted => ?_
    refine (leGrow_ends n u).bind fun _ v grown => ?_
    exact Res.endsIn_ok _ ((emitted.trans inserted).trans grown)

/-- R194: the loop ends where IN has the bytes it is to read. -/
theorem leSteps_ends {n : Nat} {s : State} (bytes : n ≤ s.inLen - s.io.inPos) : (leSteps n s).Ends := by
  induction n generalizing s with
  | zero => exact Res.endsIn_ok _ trivial
  | succ n ih =>
    refine (inFetch_ends bytes).bind fun b t left => (leStep_ends b t).bind fun _ u ⟨inp, inPos⟩ => ih ?_
    rwa [State.inLen, inp, inPos]

/-- R194: LE.COMPRESS ends on every input, under every parameter. -/
theorem leCompress_ends (s : State) : (leCompress s).Ends := by
  have init : (leInit (s.setPhase .lEnc)).Ends := by
    rw [leInit_eq, leFirstByte]
    split
    · next left => exact (inFetch_ends (Nat.sub_pos_of_lt left)).bind fun _ _ _ => Res.endsIn_ok _ trivial
    · exact Res.endsIn_ok _ trivial
  refine init.bind fun _ t _ => (leSteps_ends (Nat.le_refl _)).bind fun _ u _ => ?_
  rw [leFinish]
  split
  · exact (putBits_ends ..).imp fun _ _ => trivial
  · exact Res.endsIn_ok _ trivial

/-! ### DECOMPRESS of a Huffman payload (R175) -/

/-- R174: the test of the root ends on every tree. -/
theorem checkRoot_ends {T : HuffTree} {s : State} (denotes : Denotes s.huf.node T s.huf.root) :
    (checkRoot s).EndsIn (· = s) := by
  by_cases rootOk : T.RootOk
  · rw [checkRoot_ok denotes rootOk]
    exact Res.endsIn_ok _ rfl
  · obtain ⟨sym, hsym⟩ := not_forall.mp rootOk
    obtain ⟨rfl, notEos⟩ := Classical.not_imp.mp hsym
    rw [checkRoot_leaf denotes notEos]
    exact Res.endsIn_raised ..

/-- R173: HD.SYMBOL ends on every tree and every bit string, and leaves the tree. -/
theorem hdSymbol_ends {T : HuffTree} {s : State} (quiet : s.noIoFault) (between : s.readerBetween)
    (denotes : Denotes s.huf.node T s.huf.root) :
    (hdSymbol s).EndsIn fun t => t.noIoFault ∧ t.readerBetween ∧ Denotes t.huf.node T t.huf.root := by
  have walk := hdSymbol_endsWalk quiet between denotes
  cases leaf : T.walk s.unreadBits with
  | none =>
    rw [leaf] at walk
    obtain ⟨t, _, run, -⟩ := walk
    rw [run]
    exact Res.endsIn_raised ..
  | some e =>
    rw [leaf] at walk
    obtain ⟨t, _, run, walks, -⟩ := walk
    rw [run]
    refine Res.endsIn_ok _ ⟨walks.consumes.noIoFault quiet, walks.consumes.between, ?_⟩
    rw [walks.huf]
    exact denotes

/-- R175: the loop over symbols ends on every tree and every bit string. -/
theorem symbolLoop_ends {T : HuffTree} {n : Nat} {s : State} (quiet : s.noIoFault) (between : s.readerBetween)
    (denotes : Denotes s.huf.node T s.huf.root) : (symbolLoop n s).Ends := by
  induction n generalizing s with
  | zero => exact Res.endsIn_raised ..
  | succ n ih =>
    refine (hdSymbol_ends quiet between denotes).bind fun sym t ⟨quietT, betweenT, denotesT⟩ => ?_
    split
    · exact Res.endsIn_ok _ trivial
    · rw [outAppend_ok quietT, Res.bind_ok]
      exact ih quietT betweenT denotesT

/-- R175: HD.DECOMPRESS ends, whether its bits start with a legal tree or not. -/
theorem hdDecompress_ends {s : State} (quiet : s.noIoFault) (between : s.readerBetween) : (hdDecompress s).Ends := by
  by_cases tree : ∃ (T : HuffTree) (bits : List Bool), s.unreadBits = T.ser ++ bits ∧ T.legalAfter 0
  · obtain ⟨T, bits, unread, legal⟩ := tree
    obtain ⟨t, run, consumes, denotes, -⟩ := hdDecompress_tree quiet between unread legal
    rw [run]
    refine (checkRoot_ends denotes).bind fun _ u same => ?_
    rw [same]
    exact symbolLoop_ends (consumes.noIoFault quiet) consumes.between denotes
  · obtain ⟨t, _, run, -⟩ := deserLoop_rejects (n := Config.nodeCap + 1)
      (s := (s.setPhase .hDeser).setHuf { s.huf with nNodes := 0, dstk := [] }) quiet between
      (Nat.lt_succ_self _) fun noTree => tree noTree
    have raised : hdDecompress s = .raised .corruptStream t :=
      congrArg (Res.bind · fun _ u => (checkRoot u).bind _) run
    rw [raised]
    exact Res.endsIn_raised ..

/-! ### DECOMPRESS of an LZW payload (R217) -/

/-- A decoder between two steps, without failing accesses: its table is in order, C1 is one of its codes (R39, R213). -/
structure HoldsC1 (s : State) : Prop where
  quiet : s.noIoFault
  between : s.readerBetween
  dict : DictOk s
  c1 : s.lzw.c1 < Config.nLiterals + s.lzw.dSize

/-- R39, R213: a new entry that names a code of the table leaves the table in order. -/
theorem DictOk.appended {s t : State} {b : Byte} (ok : DictOk s) (h1 : s.lzw.c1 < Config.nLiterals + s.lzw.dSize)
    (dict : t.lzw.dDict = s.lzw.dDict.write s.lzw.dSize ⟨s.lzw.c1, b⟩) (size : t.lzw.dSize = s.lzw.dSize + 1) :
    DictOk t := by
  intro i inTable
  rw [dict, Memory.read_write]
  by_cases last : i = s.lzw.dSize
  · rw [if_pos last, last]
    exact ⟨_, rfl, h1⟩
  · rw [if_neg last]
    exact ok i (by omega)

/-- R213: the step up to its last line ends, and where it ends well C1 is again a code of the table. -/
theorem HoldsC1.ldStepBody {s : State} (h : HoldsC1 s) : (ldStepBody s).EndsIn HoldsC1 := by
  rcases Nat.lt_or_ge (Config.nLiterals + s.lzw.dSize) s.lzw.c2 with above | legal
  · rw [ldStepBody_above above]
    exact Res.endsIn_raised ..
  · by_cases full : s.lzw.dSize = s.env.dictCap
    · obtain ⟨_, t, -, run, -⟩ := ldStepBody_full h.quiet h.dict h.c1 legal full
      rw [run]
      exact Res.endsIn_raised ..
    · obtain ⟨t, run, effect, frame⟩ := ldStepBody_ok h.quiet ⟨h.dict, h.c1, legal, full⟩
      obtain ⟨_, _, fb, -, -, -, -, dict, size, c1, -⟩ := effect
      rw [run]
      refine Res.endsIn_ok _ ⟨?_, ?_, h.dict.appended h.c1 dict size, by omega⟩ <;> rw [frame]
      · exact h.quiet
      · exact h.between

/-- R207: the read of a code ends, and where it ends well nothing but the reader has changed. -/
theorem ldReadCode_ends {s : State} (quiet : s.noIoFault) (between : s.readerBetween) :
    (ldReadCode s).EndsIn fun t => OnlyReader s t ∧ t.readerBetween := by
  rcases ldReadCode_cases s with ⟨-, run⟩ | ⟨-, -, run⟩ | ⟨-, -, -, run⟩ | ⟨-, -, enough, run⟩ <;> rw [run]
  · exact Res.endsIn_ok _ ⟨.refl s, between⟩
  · exact Res.endsIn_raised ..
  · exact Res.endsIn_raised ..
  · obtain ⟨bits, t, read, -, only, betweenT, -⟩ := getBits_takes quiet between enough
    rw [read]
    exact Res.endsIn_ok _ ⟨only, betweenT⟩

/-- R213: C2 and C2_VALID are no part of what a step needs. -/
theorem HoldsC1.setC2 {s : State} (h : HoldsC1 s) (c : Option Nat) : HoldsC1 (s.setC2 c) := by
  cases c <;> exact ⟨h.quiet, h.between, h.dict, h.c1⟩

/-- R213's last line. -/
theorem HoldsC1.readC2 {s : State} (h : HoldsC1 s) : (readC2 s).EndsIn HoldsC1 := by
  refine (ldReadCode_ends h.quiet h.between).bind fun c t ⟨only, between⟩ => Res.endsIn_ok _ (HoldsC1.setC2 ?_ c)
  refine ⟨?_, between, ?_, ?_⟩ <;> rw [only]
  · exact h.quiet
  · exact h.dict
  · exact h.c1

/-- R217: the loop ends, and C1 is a code of the table after it. -/
theorem HoldsC1.ldSteps {s : State} (h : HoldsC1 s) (n : Nat) : (ldSteps n s).EndsIn HoldsC1 := by
  induction n generalizing s with
  | zero => exact Res.endsIn_ok _ h
  | succ n ih =>
    rw [Machine.ldSteps]
    split
    · have step : (ldStep s).EndsIn HoldsC1 := h.ldStepBody.bind fun _ _ held => held.readC2
      exact step.bind fun _ _ held => ih held
    · exact Res.endsIn_ok _ h

/-- R216: C1's string goes out. -/
theorem HoldsC1.ldFlush {s : State} (h : HoldsC1 s) : (ldFlush s).Ends := by
  obtain ⟨str, spells, length⟩ := h.dict.spells h.c1
  obtain ⟨t, run, -⟩ := ldExpand_of_spells h.quiet spells length
  rw [Machine.ldFlush, run]
  exact Res.endsIn_ok _ trivial

/-- R217: LD.DECOMPRESS ends on every bit string, under every parameter. -/
theorem ldDecompress_ends {s : State} (quiet : s.noIoFault) (between : s.readerBetween) : (ldDecompress s).Ends := by
  rw [ldDecompress, ldInit_eq, Res.bind_ok]
  refine (ldReadCode_ends (s := s.decoderStart) quiet between).bind fun c t ⟨only, betweenT⟩ => ?_
  cases c with
  | none => exact Res.endsIn_ok _ trivial
  | some c =>
    dsimp only [takeFirstCode]
    split
    · exact Res.endsIn_raised ..
    · next literal =>
      have held : HoldsC1 (t.setLzw { t.lzw with c1 := c, c1Held := true }) := by
        refine ⟨?_, betweenT, fun i inTable => ?_, (Nat.not_le.mp literal).trans_le (Nat.le_add_right ..)⟩
        · rw [only]
          exact quiet
        · rw [only] at inTable
          exact absurd inTable (Nat.not_lt_zero i)
      rw [Res.bind_ok]
      exact held.readC2.bind fun _ u held => (held.ldSteps _).bind fun _ _ held => held.ldFlush

/-! ### The two commands (R226, R229) -/

/-- R226: without failing accesses COMPRESS ends, with any METHOD. -/
theorem compressCall_quietEnds {s : State} (quiet : s.noIoFault) (m : Byte) :
    (compressCall (s.setCmd (cmdWordOf m 1)).callStart).Ends := by
  by_cases known : m = Config.tagHuffman ∨ m = Config.tagLzw
  · rw [compressCall_known quiet known]
    refine Res.EndsIn.bind (P := fun _ => True) ?_ fun _ t _ =>
      (closeWriter_ends _).bind fun _ _ _ => Res.endsIn_ok _ trivial
    rw [encodeWith]
    split
    · exact heCompress_ends quiet (s.tagWritten_writerClean m) rfl rfl rfl rfl rfl
    · exact leCompress_ends _
  · obtain ⟨notHuffman, notLzw⟩ := not_or.mp known
    have method := method_callStart s m 1
    rw [compressCall_unknown (method.trans_ne notHuffman) (method.trans_ne notLzw)]
    exact Res.endsIn_raised ..

/-- R229, R231: without failing accesses the call goes on to its end, whatever the tag is. -/
theorem afterTag_quietEnds {s : State} (quiet : s.noIoFault) (between : s.readerBetween) (tag : Byte) :
    (afterTag tag s).Ends := by
  rw [afterTag, routeTag]
  refine Res.EndsIn.bind (P := fun _ => True) ?_ fun _ _ _ => Res.endsIn_ok _ trivial
  split
  · exact hdDecompress_ends quiet between
  · split
    · exact ldDecompress_ends quiet between
    · exact Res.endsIn_raised ..

/-- R229, R230: without failing accesses DECOMPRESS ends, whatever IN holds. -/
theorem decompressCall_quietEnds {s : State} (quiet : s.noIoFault) (m : Byte) :
    (decompressCall (s.setCmd (cmdWordOf m 2)).callStart).Ends := by
  cases input : s.io.inp with
  | nil =>
    rw [decompressCall_empty input]
    exact Res.endsIn_raised ..
  | cons tag payload =>
    rw [decompressCall_tag quiet input]
    exact afterTag_quietEnds (s := s.tagRead m) quiet (Nat.zero_le _) tag

/-- R289: an accepted command leaves a next state where no access fails. -/
theorem exec_call_quietNext {i : Instr} {s : State} (call : isCallOp i = true) (idle : s.regs.status ≠ .busy)
    (quiet : s.noIoFault) : ∃ t, exec i s = .next t := by
  cases i with
  | compress m =>
    rw [exec_compress idle]
    exact (compressCall_quietEnds quiet m).finish
  | decompress m =>
    rw [exec_decompress idle]
    exact (decompressCall_quietEnds quiet m).finish
  | _ => cases call

/-- R244, R289: nor does an access that fails keep it from ending: the first of them cuts off the run without. -/
theorem exec_call_next {i : Instr} {s : State} (call : isCallOp i = true) (idle : s.regs.status ≠ .busy) :
    ∃ t, exec i s = .next t := by
  have wf : i.wellFormed = true := by
    cases i with
    | compress m => rfl
    | decompress m => rfl
    | _ => cases call
  obtain ⟨u, run⟩ := exec_call_quietNext (s := s.withOracle []) call idle rfl
  obtain ⟨unfailed, first⟩ := exec_faultCuts i s u wf (fun _ => idle) run
  by_cases fails : ∃ a, firstAccess i s ≤ a ∧ a < u.env.accNo ∧ (u.env.callNo, a) ∈ s.env.ioFaults
  · obtain ⟨from_s, below, hit⟩ := Nat.find_spec fails
    obtain ⟨t, cut, -⟩ := first (Nat.find fails) from_s below hit fun b from_s' earlier hit' =>
      Nat.find_min fails earlier ⟨from_s', earlier.trans below, hit'⟩
    exact ⟨t, cut⟩
  · exact ⟨_, unfailed fun a from_s below hit => fails ⟨a, from_s, below, hit⟩⟩

/-- Settles O58: the call leaves a next state, and the error table (O8) says which ends there are. -/
theorem everyCallEnds : Obligations.EveryCallEnds := by
  intro i s call idle
  obtain ⟨t, run⟩ := exec_call_next call idle
  exact ⟨t, run, (exec_call_ends call idle run).imp id fun ⟨k, _, failed⟩ => ⟨k, failed⟩⟩

end Sys2Proof.Machine
end

section
/-! PROOFS, CallsAlike. A call's result is a function of CMD, IN, the parameters and the oracle (R284): two runs from
call start may differ in what R44 leaves unspecified there and in what no operation of a call reads. An operation that
reads a register of the first sort comes after one that wrote it, so both runs take the same way to the same end. -/

namespace Sys2Proof.Machine

/-! ### What two runs may differ in -/

/-- What a call's result does not depend on: how the oracle numbers the call (log entry 8), what no operation of a call
reads, and the registers R44 leaves unspecified at call start. -/
structure Unseen where
  callNo : Nat
  ioFaults : List (Nat × Nat)
  result : UopResult
  moves : List HostMove
  free : Nat
  root : Nat
  walk : Nat
  cur : Nat
  c1 : Nat
  c2 : Nat

/-- That part of a state. -/
def State.unseen (s : State) : Unseen where
  callNo := s.env.callNo
  ioFaults := s.env.ioFaults
  result := s.result
  moves := s.moves
  free := s.free
  root := s.huf.root
  walk := s.huf.walk
  cur := s.lzw.cur
  c1 := s.lzw.c1
  c2 := s.lzw.c2

/-- The state with that part replaced. -/
def State.withUnseen (s : State) (x : Unseen) : State :=
  { s with
    huf := { s.huf with root := x.root, walk := x.walk }
    lzw := { s.lzw with cur := x.cur, c1 := x.c1, c2 := x.c2 }
    env := { s.env with callNo := x.callNo, ioFaults := x.ioFaults }
    result := x.result
    moves := x.moves
    free := x.free }

@[simp] theorem State.withUnseen_io (s : State) (x : Unseen) : (s.withUnseen x).io = s.io := rfl
@[simp] theorem State.withUnseen_huf_node (s : State) (x : Unseen) : (s.withUnseen x).huf.node = s.huf.node := rfl
@[simp] theorem State.withUnseen_huf_list (s : State) (x : Unseen) : (s.withUnseen x).huf.list = s.huf.list := rfl
@[simp] theorem State.withUnseen_huf_ctab (s : State) (x : Unseen) : (s.withUnseen x).huf.ctab = s.huf.ctab := rfl
@[simp] theorem State.withUnseen_lzw_eDict (s : State) (x : Unseen) : (s.withUnseen x).lzw.eDict = s.lzw.eDict := rfl
@[simp] theorem State.withUnseen_lzw_dDict (s : State) (x : Unseen) : (s.withUnseen x).lzw.dDict = s.lzw.dDict := rfl

/-- Which of those registers hold the same in both runs: those the call has written. -/
structure Written where
  root : Prop
  walk : Prop
  cur : Prop
  c1 : Prop
  c2 : Prop

/-- At call start, none of them. -/
def Written.nothing : Written := ⟨False, False, False, False, False⟩

/-- The oracle answers alike for the running call, and the registers written so far are equal. -/
structure Agree (W : Written) (u x : Unseen) : Prop where
  oracle : ∀ a, (x.callNo, a) ∈ x.ioFaults ↔ (u.callNo, a) ∈ u.ioFaults
  root : W.root → x.root = u.root
  walk : W.walk → x.walk = u.walk
  cur : W.cur → x.cur = u.cur
  c1 : W.c1 → x.c1 = u.c1
  c2 : W.c2 → x.c2 = u.c2

/-- What is said of the registers may be forgotten. -/
theorem Agree.forget {W : Written} {u x : Unseen} (h : Agree W u x) : Agree .nothing u x :=
  ⟨h.oracle, False.elim, False.elim, False.elim, False.elim, False.elim⟩

/-- Two ends alike: the same value and, but for what is unseen, the same state; the same kind raised, in such a state;
or both at a fault. What is known to be written may depend on the value and the state. -/
inductive Res.Alike {α : Type} (W : α → State → Written) : Res α → Res α → Prop
  | ok {a : α} {t t' : State} {x : Unseen} (h : Agree (W a t) t.unseen x) (eq : t' = t.withUnseen x) :
      Alike W (.ok a t) (.ok a t')
  | raised {k : ErrKind} {t t' : State} (x : Unseen) (eq : t' = t.withUnseen x) :
      Alike W (.raised k t) (.raised k t')
  | stuck (f g : Fault) : Alike W (.stuck f) (.stuck g)

section Rules

variable {α β : Type} {W W' : α → State → Written} {V : β → State → Written} {r r' : Res α}

/-- A sequence of two operations, each alike. -/
theorem Res.Alike.bind {f g : α → State → Res β} (h : r.Alike W r')
    (hf : ∀ a t x, Agree (W a t) t.unseen x → (f a t).Alike V (g a (t.withUnseen x))) :
    (r.bind f).Alike V (r'.bind g) := by
  cases h with
  | ok agree eq =>
    subst eq
    exact hf _ _ _ agree
  | raised x eq => exact .raised x eq
  | stuck f g => exact .stuck f g

/-- What is written may be said in another way. -/
theorem Res.Alike.imp (h : r.Alike W r')
    (weaken : ∀ a t x, Agree (W a t) t.unseen x → Agree (W' a t) t.unseen x) : r.Alike W' r' := by
  cases h with
  | ok agree eq => exact .ok (weaken _ _ _ agree) eq
  | raised x eq => exact .raised x eq
  | stuck f g => exact .stuck f g

/-- A test of what is seen. -/
theorem Res.Alike.ite {p : Prop} [Decidable p] {y z y' z' : Res α} (pos : p → y.Alike W y')
    (neg : ¬ p → z.Alike W z') : (if p then y else z).Alike W (if p then y' else z') := by
  split
  · next h => exact pos h
  · next h => exact neg h

/-- R250: ends alike give the same host registers and streams. -/
theorem Res.Alike.finish {W : Unit → State → Written} {r r' : Res Unit} {t : State} (h : r.Alike W r')
    (run : r.finish = .next t) : ∃ t', r'.finish = .next t' ∧ t.regs = t'.regs ∧ t.io = t'.io := by
  cases h with
  | ok agree eq =>
    cases run
    exact ⟨_, rfl, by rw [eq]; rfl, by rw [eq]; rfl⟩
  | raised x eq =>
    cases run
    exact ⟨_, rfl, by rw [eq]; rfl, by rw [eq]; rfl⟩
  | stuck f g => cases run

end Rules

/-- An operation run twice, from states that agree, ends alike, and the registers written before stay equal. -/
abbrev RunsAlike {α : Type} (W : Written) (op : State → Res α) (s : State) (x : Unseen) : Prop :=
  (op s).Alike (fun _ _ => W) (op (s.withUnseen x))

variable {W : Written} {s : State} {x : Unseen}

/-! ### The accesses (R61, R62, R244) -/

theorem Agree.ioFails (h : Agree W s.unseen x) : (s.withUnseen x).ioFails = s.ioFails :=
  Bool.eq_iff_iff.mpr (List.contains_iff_mem.trans ((h.oracle s.env.accNo).trans List.contains_iff_mem.symm))

theorem outAppend_alike (h : Agree W s.unseen x) (b : Byte) : RunsAlike W (outAppend b) s x := by
  unfold RunsAlike outAppend
  rw [h.ioFails]
  exact .ite (fun _ => .raised x rfl) fun _ => .ok h rfl

theorem inFetch_alike (h : Agree W s.unseen x) : RunsAlike W inFetch s x := by
  unfold RunsAlike inFetch
  rw [h.ioFails, State.withUnseen_io]
  cases s.io.inp[s.io.inPos]? with
  | none => exact .stuck _ _
  | some b => exact .ite (fun _ => .raised x rfl) fun _ => .ok h rfl

/-! ### The Bit Channel -/

/-- R122. -/
theorem putBit_alike (h : Agree W s.unseen x) (b : Bool) : RunsAlike W (putBit b) s x := by
  rw [RunsAlike, putBit_eq, putBit_eq]
  refine .ite (fun _ => ?_) fun _ => .ok h rfl
  exact (outAppend_alike (s := s.setWriter (s.accWith b) s.bc.wCnt) h _).bind fun _ _ _ h => .ok h rfl

/-- R159's loop. -/
theorem putList_alike (h : Agree W s.unseen x) (bits : List Bool) : RunsAlike W (putList bits) s x := by
  induction bits generalizing s x with
  | nil => exact .ok h rfl
  | cons b bits ih => exact (putBit_alike h b).bind fun _ _ _ => ih

/-- R128. -/
theorem putBits_alike (h : Agree W s.unseen x) (v n : Nat) : RunsAlike W (putBits v n) s x := by
  rw [RunsAlike, putBits_eq_putList, putBits_eq_putList]
  exact putList_alike h _

/-- R123, one byte. -/
theorem putByte_alike (h : Agree W s.unseen x) (b : Byte) : RunsAlike W (putByte b) s x :=
  .ite (fun _ => outAppend_alike h b) fun _ => (outAppend_alike h _).bind fun _ _ _ h => .ok h rfl

/-- R123. -/
theorem putNBytes_alike (h : Agree W s.unseen x) (bytes : List Byte) : RunsAlike W (putNBytes bytes) s x := by
  induction bytes generalizing s x with
  | nil => exact .ok h rfl
  | cons b bytes ih => exact (putByte_alike h b).bind fun _ _ _ => ih

/-- R124. -/
theorem closeWriter_alike (h : Agree W s.unseen x) : RunsAlike W closeWriter s x :=
  .ite (fun _ => .ok h rfl) fun _ => (outAppend_alike h _).bind fun _ _ _ h => .ok h rfl

/-- R125. -/
theorem getBit_alike (h : Agree W s.unseen x) : RunsAlike W getBit s x :=
  .ite (fun _ => .ite (fun _ => .ok h rfl) fun _ => (inFetch_alike h).bind fun _ _ _ h => .ok h rfl)
    fun _ => .ok h rfl

/-- R127, one byte. -/
theorem getByte_alike (h : Agree W s.unseen x) : RunsAlike W getByte s x :=
  (inFetch_alike h).bind fun _ _ _ h => .ite (fun _ => .ok h rfl) fun _ => .ok h rfl

/-- R127's loop. -/
theorem getByteRun_alike (h : Agree W s.unseen x) (n : Nat) : RunsAlike W (getByteRun n) s x := by
  induction n generalizing s x with
  | zero => exact .ok h rfl
  | succ n ih => exact (getByte_alike h).bind fun _ _ _ h => (ih h).bind fun _ _ _ h => .ok h rfl

/-- R127. -/
theorem getNBytes_alike (h : Agree W s.unseen x) (n : Nat) : RunsAlike W (getNBytes n) s x :=
  .ite (fun _ => .ok h rfl) fun _ => (getByteRun_alike h n).bind fun _ _ _ h => .ok h rfl

/-- R130's loop. -/
theorem getBitRun_alike (h : Agree W s.unseen x) (n v : Nat) : RunsAlike W (getBitRun n v) s x := by
  induction n generalizing v s x with
  | zero => exact .ok h rfl
  | succ n ih =>
    refine (getBit_alike h).bind fun b _ _ h => ?_
    cases b with
    | none => exact .ok h rfl
    | some b => exact ih h _

/-- R130. -/
theorem getBits_alike (h : Agree W s.unseen x) (n : Nat) : RunsAlike W (getBits n) s x :=
  .ite (fun _ => .ok h rfl) fun _ => getBitRun_alike h n 0

/-! ### The arena (R31) -/

theorem readNode_alike (h : Agree W s.unseen x) (i : Nat) : RunsAlike W (readNode i) s x := by
  refine .ite (fun _ => .stuck _ _) fun _ => ?_
  rw [State.withUnseen_huf_node]
  cases s.huf.node.read i with
  | none => exact .stuck _ _
  | some e => exact .ok h rfl

theorem childIndex_alike (h : Agree W s.unseen x) (c : Option Nat) : RunsAlike W (childIndex c) s x := by
  cases c with
  | none => exact .stuck _ _
  | some i => exact .ok h rfl

/-! ### The Huffman encoder's tree (R140 to R151): ROOT is written -/

/-- R140's loop. -/
theorem countBytes_alike (h : Agree W s.unseen x) (n : Nat) : RunsAlike W (countBytes n) s x := by
  induction n generalizing s x with
  | zero => exact .ok h rfl
  | succ n ih => exact (inFetch_alike h).bind fun b t _ h => ih (s := t.bumpFreq b.toNat) h

/-- R140. -/
theorem heFreq_alike (h : Agree W s.unseen x) : RunsAlike W heFreq s x :=
  (countBytes_alike h _).bind fun _ _ _ h => .ok h rfl

/-- R142. -/
theorem heInsert_alike (h : Agree W s.unseen x) (i w : Nat) : RunsAlike W (heInsert i w) s x :=
  .ite (fun _ => .stuck _ _) fun _ => .ok h rfl

/-- R151. -/
theorem allocNode_alike (h : Agree W s.unseen x) (e : NodeEntry) : RunsAlike W (allocNode e) s x :=
  .ite (fun _ => .stuck _ _) fun _ => .ok h rfl

/-- R143, one symbol. -/
theorem leafFor_alike (h : Agree W s.unseen x) (sym : Nat) : RunsAlike W (leafFor sym) s x :=
  .ite (fun _ => (allocNode_alike h _).bind fun i _ _ h => heInsert_alike h i _) fun _ => .ok h rfl

/-- R143. -/
theorem leavesFor_alike (h : Agree W s.unseen x) (syms : List Nat) : RunsAlike W (leavesFor syms) s x := by
  induction syms generalizing s x with
  | nil => exact .ok h rfl
  | cons sym rest ih => exact (leafFor_alike h sym).bind fun _ _ _ => ih

/-- R144. -/
theorem heCombine_alike (h : Agree W s.unseen x) : RunsAlike W heCombine s x := by
  unfold RunsAlike heCombine
  rw [State.withUnseen_huf_list]
  split
  · next a b rest _ =>
    exact (allocNode_alike (s := s.setHuf { s.huf with list := rest.reverse }) h _).bind
      fun i _ _ h => heInsert_alike h i _
  · exact .stuck _ _

/-- R145's loop. -/
theorem combineAll_alike (h : Agree W s.unseen x) (n : Nat) : RunsAlike W (combineAll n) s x := by
  induction n generalizing s x with
  | zero => exact .ok h rfl
  | succ n ih => exact .ite (fun _ => (heCombine_alike h).bind fun _ _ _ => ih) fun _ => .ok h rfl

/-- R145's last line. -/
theorem takeRoot_alike (h : Agree W s.unseen x) :
    (takeRoot s).Alike (fun _ _ => { W with root := True }) (takeRoot (s.withUnseen x)) := by
  unfold takeRoot
  rw [State.withUnseen_huf_list]
  split
  · exact .stuck _ _
  · next e _ _ => exact .ok (x := { x with root := e.node }) { h with root := fun _ => rfl } rfl

/-- R145. -/
theorem heBuild_alike (h : Agree W s.unseen x) :
    (heBuild s).Alike (fun _ _ => { W with root := True }) (heBuild (s.withUnseen x)) :=
  (leavesFor_alike h _).bind fun _ _ _ h => (combineAll_alike h _).bind fun _ _ _ => takeRoot_alike

/-! ### The Huffman encoder's output (R152 to R160) -/

/-- R33: ROOT, once it is written. -/
theorem Agree.huf_root (h : Agree W s.unseen x) (written : W.root) : (s.withUnseen x).huf.root = s.huf.root :=
  h.root written

/-- R152. -/
theorem serNode_alike (h : Agree W s.unseen x) (d i : Nat) : RunsAlike W (serNode d i) s x := by
  induction d generalizing i s x with
  | zero => exact .stuck _ _
  | succ d ih =>
    refine Res.Alike.bind (readNode_alike (s := s.enterNode i) h i) fun e _ _ h => ?_
    refine Res.Alike.bind (W := fun _ _ => W) ?_ fun _ _ _ h => .ok h rfl
    cases e with
    | leaf sym => exact (putBit_alike h true).bind fun _ _ _ h => putNBytes_alike h _
    | internal z o =>
      exact (putBit_alike h false).bind fun _ _ _ h => (childIndex_alike h z).bind fun zi _ _ h =>
        (ih h zi).bind fun _ _ _ h => (childIndex_alike h o).bind fun oi _ _ h => ih h oi

/-- R152. -/
theorem heSer_alike (h : Agree W s.unseen x) (i : Nat) : RunsAlike W (heSer i) s x :=
  serNode_alike (s := s.setHuf { s.huf with hstk := [] }) h _ i

/-- R154, `WALKT`. -/
theorem tableNode_alike (h : Agree W s.unseen x) (d i : Nat) : RunsAlike W (tableNode d i) s x := by
  induction d generalizing i s x with
  | zero => exact .stuck _ _
  | succ d ih =>
    refine Res.Alike.bind (readNode_alike (s := s.enterNode i) h i) fun e t _ h => ?_
    refine Res.Alike.bind (W := fun _ _ => W) ?_ fun _ _ _ h => .ok h rfl
    cases e with
    | leaf sym => exact .ok h rfl
    | internal z o =>
      refine (childIndex_alike h z).bind fun zi u _ h => ?_
      refine (ih (s := u.setPath (s.huf.hpath ++ [false])) h zi).bind fun _ _ _ h => ?_
      exact (childIndex_alike h o).bind fun oi u _ h => ih (s := u.setPath (s.huf.hpath ++ [true])) h oi

/-- R154: the traversal starts at ROOT. -/
theorem heTable_alike (h : Agree W s.unseen x) (written : W.root) : RunsAlike W heTable s x := by
  unfold RunsAlike heTable
  rw [h.huf_root written]
  exact tableNode_alike (s := s.setHuf { s.huf with hstk := [], hpath := [] }) h _ _

/-- R158, R275. -/
theorem heRewind_alike (h : Agree W s.unseen x) : RunsAlike W heRewind s x :=
  .ite (fun _ => .ok h rfl) fun _ => .raised x rfl

/-- R159, one symbol. -/
theorem putCode_alike (h : Agree W s.unseen x) (sym : Nat) : RunsAlike W (putCode sym) s x := by
  unfold RunsAlike putCode
  rw [State.withUnseen_huf_ctab]
  split
  · exact .stuck _ _
  · exact putList_alike h _

/-- R159's loop. -/
theorem encodeBytes_alike (h : Agree W s.unseen x) (n : Nat) : RunsAlike W (encodeBytes n) s x := by
  induction n generalizing s x with
  | zero => exact .ok h rfl
  | succ n ih => exact (inFetch_alike h).bind fun b _ _ h => (putCode_alike h _).bind fun _ _ _ => ih

/-- R159. -/
theorem heEncode_alike (h : Agree W s.unseen x) : RunsAlike W heEncode s x :=
  (encodeBytes_alike h _).bind fun _ _ _ h => putCode_alike h _

/-- R160: HE.BUILD writes ROOT before it is read. -/
theorem heCompress_alike (h : Agree .nothing s.unseen x) : RunsAlike .nothing heCompress s x := by
  refine Res.Alike.bind (heFreq_alike (s := s.setPhase .hFreq) h) fun _ t _ h => ?_
  refine Res.Alike.bind (heBuild_alike (s := t.setPhase .hBuild) h) fun _ t y h => ?_
  rw [h.huf_root trivial]
  refine Res.Alike.bind (heSer_alike (s := t.setPhase .hSer) h _) fun _ t _ h => ?_
  refine Res.Alike.bind (heTable_alike (s := t.setPhase .hTable) h trivial) fun _ t _ h => ?_
  exact Res.Alike.bind (heRewind_alike (s := t.setPhase .hEnc) h) fun _ _ _ h => heEncode_alike h.forget

/-! ### The Huffman decoder (R170 to R175): ROOT is written with the tree, WALK at each symbol -/

/-- R171. -/
theorem countNode_alike (h : Agree W s.unseen x) : RunsAlike W countNode s x :=
  .ite (fun _ => .raised x rfl) fun _ => .ok h rfl

/-- R36, one child of an open node. -/
theorem setZeroChild_alike (h : Agree W s.unseen x) (j i : Nat) : RunsAlike W (setZeroChild j i) s x :=
  (readNode_alike h j).bind fun e _ _ h => by
    cases e with
    | leaf _ => exact .stuck _ _
    | internal z o => exact .ok h rfl

theorem setOneChild_alike (h : Agree W s.unseen x) (j i : Nat) : RunsAlike W (setOneChild j i) s x :=
  (readNode_alike h j).bind fun e _ _ h => by
    cases e with
    | leaf _ => exact .stuck _ _
    | internal z o => exact .ok h rfl

/-- What is written once a node is complete: ROOT, where the tree is. -/
def Written.atRoot (W : Written) (whole : Bool) (_ : State) : Written := { W with root := whole = true }

/-- R170: a completed node. -/
theorem completeNode_alike (h : Agree W s.unseen x) (d : List (Nat × Bool)) (i : Nat) :
    (completeNode d i s).Alike W.atRoot (completeNode d i (s.withUnseen x)) := by
  induction d, i, s using completeNode.induct generalizing x with
  | case1 i s => exact .ok (x := { x with root := i }) { h with root := fun _ => rfl } rfl
  | case2 j rest i s =>
    exact (setZeroChild_alike h j i).bind fun _ _ _ h => .ok { h with root := nofun } rfl
  | case3 j rest i s ih => exact (setOneChild_alike h j i).bind fun _ t _ h => ih t h

/-- R170, R179. -/
theorem takeLeaf_alike (h : Agree W s.unseen x) (i : Nat) (field : BitVec 16) :
    (takeLeaf i field s).Alike W.atRoot (takeLeaf i field (s.withUnseen x)) :=
  .ite (fun _ => completeNode_alike (s := s.writeNode i _) h _ i) fun _ => .raised x rfl

/-- R170, one node. -/
theorem deserNode_alike (h : Agree W s.unseen x) :
    (deserNode s).Alike W.atRoot (deserNode (s.withUnseen x)) := by
  refine (getBit_alike h).bind fun m _ x h => ?_
  cases m with
  | none => exact .raised x rfl
  | some mark =>
    refine (countNode_alike h).bind fun i _ x h => ?_
    cases mark with
    | false => exact .ok { h with root := nofun } rfl
    | true =>
      refine (getNBytes_alike h 2).bind fun bs _ x h => ?_
      split
      · exact takeLeaf_alike h i _
      · exact .raised x rfl

/-- R170's loop. -/
theorem deserLoop_alike (h : Agree .nothing s.unseen x) (n : Nat) :
    (deserLoop n s).Alike (fun _ _ => { Written.nothing with root := True }) (deserLoop n (s.withUnseen x)) := by
  induction n generalizing s x with
  | zero => exact .raised x rfl
  | succ n ih =>
    refine (deserNode_alike h).bind fun whole t x h => ?_
    cases whole with
    | false => exact ih h.forget
    | true =>
      have root : (t.withUnseen x).huf.root = t.huf.root := h.root rfl
      simp only [if_true]
      rw [root]
      exact .ok { h with root := fun _ => root } rfl

/-- R170. -/
theorem hdDeser_alike (h : Agree .nothing s.unseen x) :
    (hdDeser s).Alike (fun _ _ => { Written.nothing with root := True }) (hdDeser (s.withUnseen x)) :=
  deserLoop_alike (s := s.setHuf { s.huf with dstk := [] }) h _

/-- R173's loop. -/
theorem walkLoop_alike (h : Agree W s.unseen x) (written : W.walk) (n : Nat) : RunsAlike W (walkLoop n) s x := by
  induction n generalizing s x with
  | zero => exact .raised x rfl
  | succ n ih =>
    have walk : (s.withUnseen x).huf.walk = s.huf.walk := h.walk written
    unfold RunsAlike walkLoop
    rw [walk]
    refine (readNode_alike h _).bind fun e _ _ h => ?_
    cases e with
    | leaf sym => exact .ok h rfl
    | internal z o =>
      refine (getBit_alike h).bind fun b _ x h => ?_
      cases b with
      | none => exact .raised x rfl
      | some b =>
        refine (childIndex_alike h _).bind fun i v x h => ?_
        exact ih (s := v.setWalk i) (x := { x with walk := i }) { h with walk := fun _ => rfl }

/-- R173: the walk starts at ROOT. -/
theorem hdSymbol_alike (h : Agree W s.unseen x) (written : W.root) : RunsAlike W hdSymbol s x := by
  unfold RunsAlike hdSymbol
  rw [h.huf_root written]
  have start : Agree { W with walk := True } (s.setWalk s.huf.root).unseen { x with walk := s.huf.root } :=
    { h with walk := fun _ => rfl }
  exact (walkLoop_alike start trivial _).imp fun _ _ _ h => { h with walk := fun _ => h.walk trivial }

/-- R175's loop. -/
theorem symbolLoop_alike (h : Agree W s.unseen x) (written : W.root) (n : Nat) :
    RunsAlike W (symbolLoop n) s x := by
  induction n generalizing s x with
  | zero => exact .raised x rfl
  | succ n ih =>
    exact (hdSymbol_alike h written).bind fun sym _ _ h => .ite (fun _ => .ok h rfl) fun _ =>
      (outAppend_alike h _).bind fun _ _ _ => ih

/-- R174, R175. -/
theorem checkRoot_alike (h : Agree W s.unseen x) (written : W.root) : RunsAlike W checkRoot s x := by
  unfold RunsAlike checkRoot
  rw [h.huf_root written]
  refine (readNode_alike h _).bind fun e _ x h => ?_
  cases e with
  | leaf sym => exact .ite (fun _ => .ok h rfl) fun _ => .raised x rfl
  | internal z o => exact .ok h rfl

/-- R175: HD.DESER writes ROOT before it is read. -/
theorem hdDecompress_alike (h : Agree .nothing s.unseen x) : RunsAlike .nothing hdDecompress s x := by
  let start := (s.setPhase .hDeser).setHuf { s.huf with nNodes := 0 }
  refine Res.Alike.bind (hdDeser_alike (s := start) h) fun _ _ _ h => ?_
  refine (checkRoot_alike h trivial).bind fun _ u _ h => ?_
  exact (symbolLoop_alike (s := u.setPhase .hWalk) h trivial _).imp fun _ _ _ h => h.forget

/-! ### The LZW encoder (R186 to R194): CUR is written with the first byte -/

/-- R188. -/
theorem leEmit_alike (h : Agree W s.unseen x) (c : Nat) : RunsAlike W (leEmit c) s x := putBits_alike h c _

/-- R189. -/
theorem leInsert_alike (h : Agree W s.unseen x) (p : Nat) (b : Byte) : RunsAlike W (leInsert p b) s x :=
  .ite (fun _ => .raised x rfl) fun _ => .ok h rfl

/-- R190. -/
theorem leGrow_alike (h : Agree W s.unseen x) (n : Nat) : RunsAlike W (leGrow n) s x :=
  .ite (fun _ => .ite (fun _ => .raised x rfl) fun _ => .ok h rfl) fun _ => .ok h rfl

/-- R38: CUR, once it is written. -/
theorem Agree.lzw_cur (h : Agree W s.unseen x) (written : W.cur) : (s.withUnseen x).lzw.cur = s.lzw.cur :=
  h.cur written

/-- R187: a write of CUR. -/
theorem Agree.setCur (h : Agree W s.unseen x) (c : Nat) : Agree W (s.setCur c).unseen { x with cur := c } :=
  { h with cur := fun _ => rfl }

/-- R187. -/
theorem leStep_alike (h : Agree W s.unseen x) (written : W.cur) (b : Byte) : RunsAlike W (leStep b) s x := by
  unfold RunsAlike leStep
  rw [State.withUnseen_lzw_eDict, h.lzw_cur written]
  split
  · next c _ => exact .ok (h.setCur c) rfl
  · exact (leEmit_alike h _).bind fun _ _ _ h => (leInsert_alike h _ b).bind fun n _ _ h =>
      (leGrow_alike h n).bind fun _ _ _ h => .ok (h.setCur b.toNat) rfl

/-- R194's loop. -/
theorem leSteps_alike (h : Agree W s.unseen x) (written : W.cur) (n : Nat) : RunsAlike W (leSteps n) s x := by
  induction n generalizing s x with
  | zero => exact .ok h rfl
  | succ n ih => exact (inFetch_alike h).bind fun b _ _ h => (leStep_alike h written b).bind fun _ _ _ => ih

/-- R192. -/
theorem leFinish_alike (h : Agree W s.unseen x) (written : W.cur) : RunsAlike W leFinish s x := by
  unfold RunsAlike leFinish
  rw [h.lzw_cur written]
  exact .ite (fun _ => leEmit_alike h _) fun _ => .ok h rfl

theorem leFirstByte_reads {s : State} (left : s.io.inPos < s.inLen) :
    leFirstByte s = (inFetch s).bind fun b t => .ok () (t.setLzw { t.lzw with cur := b.toNat, haveCur := true }) :=
  if_pos left

/-- R186: with a byte of IN left, CUR is written. -/
theorem leInit_alike (h : Agree W s.unseen x) (left : s.io.inPos < s.inLen) :
    (leInit s).Alike (fun _ _ => { W with cur := True }) (leInit (s.withUnseen x)) := by
  let start (t : State) := t.setLzw t.lzw.encoderStart
  rw [leInit_eq, leInit_eq, leFirstByte_reads (s := start s) left, leFirstByte_reads (s := start (s.withUnseen x)) left]
  refine (inFetch_alike (s := start s) h).bind fun b _ x h => ?_
  exact .ok (x := { x with cur := b.toNat }) { h with cur := fun _ => rfl } rfl

/-- R186, R194: with none left, LE.COMPRESS is its first line. -/
theorem leCompress_atEnd (ended : s.inLen ≤ s.io.inPos) :
    leCompress s = .ok () ((s.setPhase .lEnc).setLzw s.lzw.encoderStart) := by
  have none : s.inLen - s.io.inPos = 0 := Nat.sub_eq_zero_of_le ended
  have init : leInit (s.setPhase .lEnc) = .ok () ((s.setPhase .lEnc).setLzw s.lzw.encoderStart) :=
    leFirstByte_atEnd (s := (s.setPhase .lEnc).setLzw s.lzw.encoderStart) ended
  have steps : leSteps (s.inLen - s.io.inPos) ((s.setPhase .lEnc).setLzw s.lzw.encoderStart) =
      .ok () ((s.setPhase .lEnc).setLzw s.lzw.encoderStart) := by
    rw [none, leSteps]
  rw [leCompress, init, Res.bind_ok]
  exact congrArg (Res.bind · fun _ t => leFinish t) steps

/-- R194: CUR is written before it is read. -/
theorem leCompress_alike (h : Agree .nothing s.unseen x) : RunsAlike .nothing leCompress s x := by
  rcases Nat.lt_or_ge s.io.inPos s.inLen with left | ended
  · refine Res.Alike.bind (leInit_alike (s := s.setPhase .lEnc) h left) fun _ _ _ h => ?_
    refine (leSteps_alike h trivial _).bind fun _ _ _ h => ?_
    exact (leFinish_alike h trivial).imp fun _ _ _ h => h.forget
  · rw [RunsAlike, leCompress_atEnd ended, leCompress_atEnd (s := s.withUnseen x) ended]
    exact .ok h rfl

/-! ### The LZW decoder (R206 to R217): C1 is written with the first code, C2 with each later one -/

/-- R207. -/
theorem ldReadCode_alike (h : Agree W s.unseen x) : RunsAlike W ldReadCode s x :=
  .ite (fun _ => .ok h rfl) fun _ => .ite (fun _ => .raised x rfl) fun _ =>
    .ite (fun _ => .raised x rfl) fun _ => getBits_alike h _

/-- R39. -/
theorem readDict_alike (h : Agree W s.unseen x) (c : Nat) : RunsAlike W (readDict c) s x := by
  unfold RunsAlike readDict
  rw [State.withUnseen_lzw_dDict]
  split
  · exact .stuck _ _
  · exact .ok h rfl

/-- R209's loop. -/
theorem firstLoop_alike (h : Agree W s.unseen x) (n c : Nat) : RunsAlike W (firstLoop n c) s x := by
  induction n generalizing c s x with
  | zero => exact .stuck _ _
  | succ n ih => exact .ite (fun _ => .ok h rfl) fun _ => (readDict_alike h c).bind fun e _ _ h => ih h e.pred

/-- R210's walk. -/
theorem pushChain_alike (h : Agree W s.unseen x) (n c : Nat) : RunsAlike W (pushChain n c) s x := by
  induction n generalizing c s x with
  | zero => exact .stuck _ _
  | succ n ih =>
    exact .ite (fun _ => .ok h rfl) fun _ => (readDict_alike h c).bind fun e t _ h =>
      ih (s := t.setXstk (e.byte :: t.lzw.xstk)) h e.pred

/-- R210's pops. -/
theorem popStack_alike (h : Agree W s.unseen x) (bytes : List Byte) : RunsAlike W (popStack bytes) s x := by
  induction bytes generalizing s x with
  | nil => exact .ok h rfl
  | cons b bytes ih => exact (outAppend_alike h b).bind fun _ t _ h => ih (s := t.setXstk bytes) h

/-- R210. -/
theorem ldExpand_alike (h : Agree W s.unseen x) (c : Nat) : RunsAlike W (ldExpand c) s x :=
  Res.Alike.bind (pushChain_alike (s := s.setXstk []) h _ c) fun _ _ _ h => popStack_alike h _

/-- R211. -/
theorem ldGrow_alike (h : Agree W s.unseen x) (n : Nat) : RunsAlike W (ldGrow n) s x := by
  have test (t : State) : ldGrow n t = if n = t.lzw.maxCode - 2 then .ok () t.widen else .ok () t := by
    rw [ldGrow_eq]
    split <;> rfl
  rw [RunsAlike, test, test]
  exact .ite (fun _ => .ok h rfl) fun _ => .ok h rfl

/-- R39: C1 and C2, once they are written. -/
theorem Agree.lzw_c1 (h : Agree W s.unseen x) (written : W.c1) : (s.withUnseen x).lzw.c1 = s.lzw.c1 := h.c1 written
theorem Agree.lzw_c2 (h : Agree W s.unseen x) (written : W.c2) : (s.withUnseen x).lzw.c2 = s.lzw.c2 := h.c2 written

/-- R213, R196. -/
theorem ldAppend_alike (h : Agree W s.unseen x) (written : W.c1) (fb : Byte) : RunsAlike W (ldAppend fb) s x := by
  unfold RunsAlike ldAppend
  rw [h.lzw_c1 written]
  exact .ite (fun _ => .raised x rfl) fun _ => .ok h rfl

/-- R213 but for its last line. -/
theorem ldStepBody_alike (h : Agree W s.unseen x) (written1 : W.c1) (written2 : W.c2) :
    RunsAlike W ldStepBody s x := by
  unfold RunsAlike ldStepBody
  rw [h.lzw_c1 written1, h.lzw_c2 written2]
  refine .ite (fun _ => .raised x rfl) fun _ => ?_
  refine Res.Alike.bind (firstLoop_alike h _ _) fun fb _ _ h => ?_
  rw [h.lzw_c1 written1]
  refine (ldExpand_alike h _).bind fun _ _ _ h => ?_
  refine (ldAppend_alike h written1 fb).bind fun _ t x h => ?_
  exact ldGrow_alike (s := t.setLzw { t.lzw with c1 := t.lzw.c2 }) (x := { x with c1 := x.c2 })
    { h with c1 := fun _ => h.c2 written2 } _

/-- What is written once a code was read: C2, where there was one. -/
def Written.withC2 (W : Written) (t : State) : Written := { W with c2 := t.lzw.c2Valid = true }

/-- R213's last line. -/
theorem readC2_alike (h : Agree W s.unseen x) :
    (readC2 s).Alike (fun _ => W.withC2) (readC2 (s.withUnseen x)) := by
  refine (ldReadCode_alike h).bind fun c t x h => ?_
  cases c with
  | none =>
    exact .ok (x := { x with c2 := (t.withUnseen x).unstatedCode, free := x.free + 1 }) { h with c2 := nofun } rfl
  | some c => exact .ok (x := { x with c2 := c }) { h with c2 := fun _ => rfl } rfl

/-- R217's loop: C2 is read only where it is valid. -/
theorem ldSteps_alike (h : Agree (W.withC2 s) s.unseen x) (written : W.c1) (n : Nat) :
    (ldSteps n s).Alike (fun _ => W.withC2) (ldSteps n (s.withUnseen x)) := by
  induction n generalizing s x with
  | zero => exact .ok h rfl
  | succ n ih =>
    refine .ite (fun valid => ?_) fun _ => .ok h rfl
    refine Res.Alike.bind (W := fun _ => W.withC2) ?_ fun _ _ _ => ih
    exact (ldStepBody_alike h written valid).bind fun _ _ _ => readC2_alike

/-- R215, R217: the first code is written to C1. -/
theorem takeFirstCode_alike (h : Agree W s.unseen x) (c : Nat) :
    (takeFirstCode c s).Alike (fun _ _ => { W with c1 := True }) (takeFirstCode c (s.withUnseen x)) :=
  .ite (fun _ => .raised { x with c1 := c } rfl) fun _ =>
    .ok (x := { x with c1 := c }) { h with c1 := fun _ => rfl } rfl

/-- R217: C1 and C2 are written before they are read. -/
theorem ldDecompress_alike (h : Agree .nothing s.unseen x) : RunsAlike .nothing ldDecompress s x := by
  rw [RunsAlike, ldDecompress, ldDecompress, ldInit_eq, ldInit_eq, Res.bind_ok, Res.bind_ok]
  refine Res.Alike.bind (ldReadCode_alike (s := s.decoderStart) h) fun c t x h => ?_
  cases c with
  | none =>
    exact .ok (x := { x with c1 := (t.withUnseen x).unstatedCode, free := x.free + 1 }) { h with c1 := nofun } rfl
  | some c =>
    refine (takeFirstCode_alike h c).bind fun _ _ _ h => ?_
    refine (readC2_alike h).bind fun _ _ _ h => (ldSteps_alike h trivial _).bind fun _ t x h => ?_
    have flush := ldExpand_alike h t.lzw.c1
    unfold ldFlush
    rw [h.lzw_c1 trivial]
    exact flush.imp fun _ _ _ h => h.forget

/-! ### The two commands (R226, R229) -/

/-- R226. -/
theorem compressCall_alike (h : Agree .nothing s.unseen x) : RunsAlike .nothing compressCall s x := by
  refine .ite (fun _ => .raised x rfl) fun _ => ?_
  refine Res.Alike.bind (W := fun _ _ => .nothing) (.ok h rfl) fun _ _ _ h => ?_
  refine (putNBytes_alike h _).bind fun _ _ _ h => ?_
  refine Res.Alike.bind (W := fun _ _ => .nothing) ?_ fun _ t _ h => ?_
  · exact .ite (fun _ => heCompress_alike h) fun _ => leCompress_alike h
  · exact (closeWriter_alike (s := t.setPhase .close) h).bind fun _ _ _ h => .ok h rfl

/-- R229, R231. -/
theorem afterTag_alike (h : Agree .nothing s.unseen x) (tag : Byte) : RunsAlike .nothing (afterTag tag) s x := by
  refine Res.Alike.bind (W := fun _ _ => .nothing) ?_ fun _ _ _ h => .ok h rfl
  exact .ite (fun _ => hdDecompress_alike h) fun _ => .ite (fun _ => ldDecompress_alike h) fun _ => .raised x rfl

/-- R229, R230. -/
theorem decompressCall_alike (h : Agree .nothing s.unseen x) : RunsAlike .nothing decompressCall s x := by
  refine Res.Alike.bind (W := fun _ _ => .nothing) (.ok h rfl) fun _ _ _ h => ?_
  refine (getNBytes_alike h 1).bind fun bytes _ x h => ?_
  split
  · exact afterTag_alike h _
  · exact .raised x rfl

/-! ### From call start (R44, R225) -/

/-- R44, R284: at call start two states with equal arguments differ only in what is unseen. -/
theorem callStart_withUnseen {s s' : State} (same : SameCallArguments s s') (w : BitVec 16) :
    (s'.setCmd w).callStart = (s.setCmd w).callStart.withUnseen (s'.setCmd w).callStart.unseen := by
  obtain ⟨inp, maxWidth, dictCap, seekable, -⟩ := same
  simp only [State.callStart, State.setCmd, State.withUnseen, inp, maxWidth, dictCap, seekable]
  rfl

/-- R244, R284: and the oracle answers alike for the call. -/
theorem agree_callStart {s s' : State} (same : SameCallArguments s s') (w : BitVec 16) :
    Agree .nothing (s.setCmd w).callStart.unseen (s'.setCmd w).callStart.unseen := by
  obtain ⟨-, -, -, -, oracle⟩ := same
  exact ⟨fun a => (oracle a).symm, False.elim, False.elim, False.elim, False.elim, False.elim⟩

/-- R284: a call from the one and from the other ends with the same host registers and streams. -/
theorem call_alike {call : State → Res Unit} {s s' : State} {w : BitVec 16} {t : State}
    (alike : ∀ {s x}, Agree .nothing s.unseen x → RunsAlike .nothing call s x) (same : SameCallArguments s s')
    (run : (call (s.setCmd w).callStart).finish = .next t) :
    ∃ t', (call (s'.setCmd w).callStart).finish = .next t' ∧ t.regs = t'.regs ∧ t.io = t'.io := by
  rw [callStart_withUnseen same]
  exact (alike (agree_callStart same w)).finish run

/-- Settles O59: a call ends from either state (O58), and it ends alike. -/
theorem callIsFunction : Obligations.CallIsFunction := by
  intro i s s' call idle idle' same
  obtain ⟨t, run⟩ := exec_call_next call idle
  refine ⟨t, ?_⟩
  cases i with
  | compress m =>
    have started := run
    rw [exec_compress idle] at started
    obtain ⟨t', run', ends⟩ := call_alike compressCall_alike same started
    exact ⟨t', run, by rw [exec_compress idle', run'], ends⟩
  | decompress m =>
    have started := run
    rw [exec_decompress idle] at started
    obtain ⟨t', run', ends⟩ := call_alike decompressCall_alike same started
    exact ⟨t', run, by rw [exec_decompress idle', run'], ends⟩
  | _ => cases call

end Sys2Proof.Machine
end
